-- ==== Sys2Proof/Word.lean ====
section
/-! DEFINITION. The word types of the part: words, bytes, offsets and the index types of its tables. -/

namespace Sys2Proof

/-- A word of the register window (00_scope.md 1.6: a word is 16 bits). -/
abbrev Word := BitVec 16

/-- A byte on the station line, and every 8-bit field of the part. -/
abbrev Byte := BitVec 8

/-- A word offset of the window, A0 to A10 (R166). -/
abbrev Offset := BitVec 11

/-- A roster index, 0 to 39 (R1). -/
abbrev EntryIdx := Fin 40

/-- A watch index, 0 to 31 (R135). -/
abbrev WatchIdx := Fin 32

/-- An errand slot number, 0 to 7 (R102). -/
abbrev SlotIdx := Fin 8

/-- The eight words of an image record, a payload or the freeze window. -/
abbrev Words8 := Vector Word 8

/-- Eight words of 0000H. -/
def zeroWords : Words8 := Vector.replicate 8 0#16

end Sys2Proof
end

