-- ==== Sys2Proof/Syntax.lean ====
section
/-! DEFINITION. The commands of the part: one constructor per row of spec/opcode_table.json, with the operands the row's rule reads. -/

namespace Sys2Proof

/-- What the receive path has to show for a sent call byte at the middle of its stop bit (R67): no byte taken by then,
or a byte, with or without a framing fault marked on it (R58). -/
inductive Echo where
  | missing
  | taken (value : Byte) (framingFault : Bool)
  deriving DecidableEq, Repr

/-- The level of a pin: of RXD at a sample (R58), of TXD (R56), of a strobe of the host bus (R166). -/
inductive Level where
  | low
  | high
  deriving DecidableEq, Repr

/-- The commands, row by row. -/
inductive Instr where
  /-- START (R33): a write of code 1 to the command word; its argument is the argument word's (R169), as for every command below. -/
  | start
  /-- STOP (R49). -/
  | stop
  /-- HALT (R50). -/
  | halt
  /-- RELEASE (R48). -/
  | release
  /-- ENABLE (R21). -/
  | enable
  /-- DISABLE (R23). -/
  | disable
  /-- COMMIT (R83). -/
  | commit
  /-- FREEZE (R96). -/
  | freeze
  /-- POP (R158). -/
  | pop
  /-- SUBMIT (R105). -/
  | submit
  /-- CANCEL (R107). -/
  | cancel
  /-- RELEASE_SLOT (R109). -/
  | releaseSlot
  /-- ARM_WATCH (R139). -/
  | armWatch
  /-- DISARM_WATCH (R140). -/
  | disarmWatch
  /-- CLEAR_COUNTERS (R25). -/
  | clearCounters
  /-- CLEAR_FAULT (R173). -/
  | clearFault
  /-- SOFT_RESET (R176). -/
  | softReset
  /-- A write to the command word whose code names no command (R170). -/
  | unknownCommandCode (written : Word)
  /-- A write to the SET port (R87). -/
  | setPort (mask : Word)
  /-- A write to the CLEAR port (R87). -/
  | clearPort (mask : Word)
  /-- A write to the FLIP port (R87). -/
  | flipPort (mask : Word)
  /-- A host write to any other location (R168). -/
  | hostWrite (offset : Offset) (value : Word)
  /-- The fall of the reset input (R177). -/
  | hardwareReset
  /-- The rise of the reset input (R177). -/
  | resetRelease
  /-- The period timer expires (R45). -/
  | periodTimerExpiry
  /-- 100 bit times have passed since the last cycle start of a FREE run (R42). -/
  | freeMinimumExpiry
  /-- One bit time has passed since CYC went high (R35). -/
  | cycPulseEnd
  /-- The middle of a sent byte's stop bit (R67). -/
  | callByteEcho (echo : Echo)
  /-- The end of the last stop bit of a call whose echo was good (R67). -/
  | callSent
  /-- The end of the stop bit of the last byte of a call cut short (R67, R78). -/
  | callRemainderEnd
  /-- The receive path takes a byte of an answer (R69). -/
  | answerByte (value : Byte) (framingFault : Bool)
  /-- The answer deadline passes (R68). -/
  | answerDeadlineExpiry
  /-- Twenty bit times have passed since the end of an answer byte's stop bit (R69). -/
  | interByteGapExpiry
  /-- The receive path takes a byte while no answer is awaited and no call is being sent (R72). -/
  | strayByte (value : Byte) (framingFault : Bool)
  /-- The quiet gap has run to its end (R71). -/
  | quietGapEnd
  /-- A falling edge on RXD (R58, R67, R68, R69). -/
  | rxdFallingEdge
  /-- The sample at the middle of a possible start bit (R58). -/
  | startBitSample (level : Level)
  /-- RXD returns to the high level (R58). -/
  | rxdReturnsHigh
  deriving DecidableEq, Repr

end Sys2Proof
end

