-- ==== Sys2Proof/WellFormed.lean ====
section
/-! DEFINITION. Which commands are well formed: a row's operands are those of that row and of no other. -/

namespace Sys2Proof

/-- The code field of a command word write, bits 4 to 0 (Table 10-3, R180). -/
def commandCode (written : Word) : Nat := (written.extractLsb' 0 5).toNat

/-- A code from 1 to 17 names a command; 0 and 18 to 31 name none (R180). -/
def codeNamesCommand (code : Nat) : Bool := decide (1 ≤ code) && decide (code ≤ 17)

/-- The offsets that HOST_WRITE leaves to other rows: the command word and the three bit ports (R168). -/
def isActionOffset (o : Offset) : Bool :=
  decide (o = 0x004#11) || decide (o = 0x029#11) || decide (o = 0x02A#11) || decide (o = 0x02B#11)

/-- A well-formed command: an unknown-code write carries a code that names no command (R170), and a plain host write
goes to a location that is no action word (R168). Every other row takes every operand. -/
def Instr.wellFormed : Instr → Bool
  | .unknownCommandCode written => !codeNamesCommand (commandCode written)
  | .hostWrite offset _ => !isActionOffset offset
  | .start => true
  | .stop => true
  | .halt => true
  | .release => true
  | .enable => true
  | .disable => true
  | .commit => true
  | .freeze => true
  | .pop => true
  | .submit => true
  | .cancel => true
  | .releaseSlot => true
  | .armWatch => true
  | .disarmWatch => true
  | .clearCounters => true
  | .clearFault => true
  | .softReset => true
  | .setPort _ => true
  | .clearPort _ => true
  | .flipPort _ => true
  | .hardwareReset => true
  | .resetRelease => true
  | .periodTimerExpiry => true
  | .freeMinimumExpiry => true
  | .cycPulseEnd => true
  | .callByteEcho _ => true
  | .callSent => true
  | .callRemainderEnd => true
  | .answerByte _ _ => true
  | .answerDeadlineExpiry => true
  | .interByteGapExpiry => true
  | .strayByte _ _ => true
  | .quietGapEnd => true
  | .rxdFallingEdge => true
  | .startBitSample _ => true
  | .rxdReturnsHigh => true

end Sys2Proof
end

