-- ==== Sys2Proof/Decode.lean ====
section
/-! DEFINITION. Reading a command from bits. spec/opcode_table.json gives its rows no bits, so a table word spells no
command; the one encoding the spec has is that of a host access on the bus (R166, R168, R170), read here by `busCommand`
and `ofBusWrite` and written by `busWrite`. -/

namespace Sys2Proof

/-- The command a table word spells: the table gives no row any bits, so none. -/
def decodeTableWord (_nbits _w : Nat) : Option Instr := none

/-- The command of a command code (Table 10-2, R170); none for a code that names no command. -/
def commandOfCode : Nat → Option Instr
  | 1 => some .start
  | 2 => some .stop
  | 3 => some .halt
  | 4 => some .release
  | 5 => some .enable
  | 6 => some .disable
  | 7 => some .commit
  | 8 => some .freeze
  | 9 => some .pop
  | 10 => some .submit
  | 11 => some .cancel
  | 12 => some .releaseSlot
  | 13 => some .armWatch
  | 14 => some .disarmWatch
  | 15 => some .clearCounters
  | 16 => some .clearFault
  | 17 => some .softReset
  | _ => none

/-- The row of the table that a host write on the bus is (R166, R168, R170). Total: every write is some row. -/
def ofBusWrite (offset : Offset) (value : Word) : Instr :=
  if offset = 0x004#11 then (commandOfCode (commandCode value)).getD (.unknownCommandCode value)
  else if offset = 0x029#11 then .setPort value
  else if offset = 0x02A#11 then .clearPort value
  else if offset = 0x02B#11 then .flipPort value
  else .hostWrite offset value

/-- What the levels of CS*, RD* and WR* make of an access on the host bus (R166). -/
inductive BusAccess where
  | read
  | write
  /-- Not addressed to the part (CS* high), or no one of RD* and WR* alone low. -/
  | neither
  deriving DecidableEq, Repr

/-- The access that the levels of CS*, RD* and WR* make (R166). -/
def busAccess (cs rd wr : Level) : BusAccess :=
  match cs, rd, wr with
  | .low, .low, .high => .read
  | .low, .high, .low => .write
  | .low, .low, .low => .neither
  | .low, .high, .high => .neither
  | .high, _, _ => .neither

/-- The command that an access brings: a write brings a row of the table, a read and an access that is neither bring none
(R166, R167). -/
def busCommand (cs rd wr : Level) (offset : Offset) (value : Word) : Option Instr :=
  match busAccess cs rd wr with
  | .write => some (ofBusWrite offset value)
  | .read => none
  | .neither => none

/-- The bus write that makes a command: the offset and the word to write (Tables 10-2, 10-3, 10-7); none for the rows
that are no host write. -/
def busWrite : Instr → Option (Offset × Word)
  | .start => some (0x004#11, 1#16)
  | .stop => some (0x004#11, 2#16)
  | .halt => some (0x004#11, 3#16)
  | .release => some (0x004#11, 4#16)
  | .enable => some (0x004#11, 5#16)
  | .disable => some (0x004#11, 6#16)
  | .commit => some (0x004#11, 7#16)
  | .freeze => some (0x004#11, 8#16)
  | .pop => some (0x004#11, 9#16)
  | .submit => some (0x004#11, 10#16)
  | .cancel => some (0x004#11, 11#16)
  | .releaseSlot => some (0x004#11, 12#16)
  | .armWatch => some (0x004#11, 13#16)
  | .disarmWatch => some (0x004#11, 14#16)
  | .clearCounters => some (0x004#11, 15#16)
  | .clearFault => some (0x004#11, 16#16)
  | .softReset => some (0x004#11, 17#16)
  | .unknownCommandCode written => some (0x004#11, written)
  | .setPort mask => some (0x029#11, mask)
  | .clearPort mask => some (0x02A#11, mask)
  | .flipPort mask => some (0x02B#11, mask)
  | .hostWrite offset value => some (offset, value)
  | .hardwareReset => none
  | .resetRelease => none
  | .periodTimerExpiry => none
  | .freeMinimumExpiry => none
  | .cycPulseEnd => none
  | .callByteEcho _ => none
  | .callSent => none
  | .callRemainderEnd => none
  | .answerByte _ _ => none
  | .answerDeadlineExpiry => none
  | .interByteGapExpiry => none
  | .strayByte _ _ => none
  | .quietGapEnd => none
  | .rxdFallingEdge => none
  | .startBitSample _ => none
  | .rxdReturnsHigh => none

end Sys2Proof
end

