-- ==== Sys2Proof/Config.lean ====
section
/-! DEFINITION. What the part fixes once and for all: capacities, marks, fixed durations and the identity word.
The spec leaves no result of a command open, so there is no free value here. -/

namespace Sys2Proof.Config

/-- Records the event queue holds at most (R152). -/
def queueCapacity : Nat := 32

/-- The identity word (R174): family code 40H, revision code 01H. -/
def identityWord : Word := 0x4001#16

/-- The mark byte of a call (R59). -/
def callMark : Byte := 0xC3#8

/-- The mark byte of an answer (R60). -/
def answerMark : Byte := 0x5A#8

/-- The broadcast address of a SYNC call (R36). -/
def broadcastAddress : Byte := 0#8

/-- Most payload words of any frame (R59, R60, R69). -/
def maxPayloadWords : Nat := 8

/-- The quiet gap after an answer, a failed try, an echo fault, an abandonment or a hardware reset, in bit times (R71). -/
def quietGapBits : Nat := 20

/-- The quiet gap after a SYNC call, in bit times (R71, R77). -/
def syncGapBits : Nat := 40

/-- The inter-byte gap limit of an answer, in bit times (R69). -/
def interByteGapBits : Nat := 20

/-- The least time between two cycle starts of one FREE run, in bit times (R42). -/
def freeMinimumBits : Nat := 100

/-- The consecutive echo fault count at which the run is given up (R52, R75). -/
def lineFaultLimit : Nat := 3

end Sys2Proof.Config
end

