-- ==== Sys2Proof/Machine/State.lean ====
section
/-! DEFINITION. The state of the part: every register, table, list, queue, flag and pin the spec gives it, as plain
data, its reset values, and the reasons a step can stop (there are none that the spec gives). -/

namespace Sys2Proof.Machine

/-! ### Enumerated values (Table 10-2) -/

/-- Supervision state of a link (Table 1-7). -/
inductive LinkState where
  | off
  | await
  | online
  | suspect
  | lost
  deriving DecidableEq, Repr

/-- Which output copy supplies the EXCHANGE payload (Table 1-6, R84). -/
inductive CommitMode where
  | auto
  | gated
  deriving DecidableEq, Repr

/-- The kinds of call (Table 3-2). -/
inductive CallKind where
  | exchange
  | read
  | write
  | attend
  | reset
  | sync
  deriving DecidableEq, Repr

/-- The kinds of errand (Table 5-1). -/
inductive ErrandKind where
  | read
  | write
  | reset
  deriving DecidableEq, Repr

/-- The five sequencer states (R29). -/
inductive SeqState where
  | stopped
  | running
  | waiting
  | held
  | faulted
  deriving DecidableEq, Repr

/-- The phase of a running cycle (R29). -/
inductive Phase where
  | none
  | sync
  | roster
  | window
  deriving DecidableEq, Repr

/-- The run mode as the sequencer takes it (R32). -/
inductive RunMode where
  | free
  | periodic
  | single
  deriving DecidableEq, Repr

/-- The state of an errand slot (R102). -/
inductive SlotState where
  | free
  | queued
  | active
  | done
  deriving DecidableEq, Repr

/-- How an errand ended (Table 5-1). -/
inductive SlotOutcome where
  | none
  | doneOk
  | refused
  | noAnswer
  | noLink
  | cancelled
  | aborted
  deriving DecidableEq, Repr

/-- Which list the arbiter serves when both hold an item (R112). -/
inductive Turn where
  | errand
  | attention
  deriving DecidableEq, Repr

/-- The settled answer of a watch (Table 7-2). -/
inductive WatchOutcome where
  | unknown
  | isFalse
  | isTrue
  deriving DecidableEq, Repr

/-- The kinds of event (Table 8-2). -/
inductive EventKind where
  | link
  | attention
  | errand
  | watch
  | cycle
  | overrun
  | hold
  | lineFault
  | stopped
  | overflow
  deriving DecidableEq, Repr

/-- The cause of a STOPPED event (Table 10-2). -/
inductive StopCause where
  | stop
  | single
  | halt
  | fault
  deriving DecidableEq, Repr

/-- The cause of an access fault (Table 9-2). -/
inductive AccessCause where
  | unmapped
  | readOnly
  | locked
  | badTarget
  deriving DecidableEq, Repr

/-- The outcome of a command (00_scope.md 1.6, Table 10-2). -/
inductive CmdOutcome where
  | ok
  | busy
  | refused
  | badArg
  | full
  | tooLate
  | conflict
  | notPending
  | empty
  deriving DecidableEq, Repr

/-! ### Roster and images -/

/-- One roster entry: configuration (Table 1-6), runtime fields (Table 1-7) and counters (Table 1-9). The
visit-in-flight field is a view of the visit held in `LineEngine.job` (R6, R29). -/
structure Entry where
  address : Byte
  divisor : BitVec 4
  phase : BitVec 4
  retryLimit : BitVec 3
  lossLimit : BitVec 4
  outLen : BitVec 4
  inLen : BitVec 4
  commitMode : CommitMode
  substitute : Bool
  link : LinkState
  miss : BitVec 4
  nextToggle : Bool
  resync : Bool
  probe : BitVec 4
  retries : Byte
  failedVisits : Byte
  losses : Byte
  deriving DecidableEq, Repr

/-- A roster entry at hardware reset (R27). -/
def Entry.reset : Entry where
  address := 0#8
  divisor := 1#4
  phase := 0#4
  retryLimit := 1#3
  lossLimit := 3#4
  outLen := 0#4
  inLen := 0#4
  commitMode := .auto
  substitute := false
  link := .off
  miss := 0#4
  nextToggle := true
  resync := false
  probe := 0#4
  retries := 0#8
  failedVisits := 0#8
  losses := 0#8

/-- The image records of one entry (Table 4-1, Table 4-2), with the commit mark of R80. -/
structure Image where
  working : Words8
  committed : Words8
  input : Words8
  generation : Byte
  age : Byte
  fresh : Bool
  commitMark : Bool
  deriving DecidableEq, Repr

/-- Image records at hardware reset (R100). -/
def Image.reset : Image where
  working := zeroWords
  committed := zeroWords
  input := zeroWords
  generation := 0#8
  age := 255#8
  fresh := false
  commitMark := false

/-- The bit-port target selector (R86). -/
structure Selector where
  entry : Byte
  word : BitVec 4
  deriving DecidableEq, Repr

/-- The freeze window (R96, R97). -/
structure FreezeWindow where
  entry : Byte
  link : LinkState
  fresh : Bool
  generation : Byte
  age : Byte
  inLen : BitVec 4
  words : Words8
  deriving DecidableEq, Repr

/-- The freeze window at hardware reset: every word 0 (R97, R100). -/
def FreezeWindow.reset : FreezeWindow where
  entry := 0#8
  link := .off
  fresh := false
  generation := 0#8
  age := 0#8
  inLen := 0#4
  words := zeroWords

/-! ### Sequencer -/

/-- The global configuration words as stored (Table 2-1, Table 10-4). -/
structure GlobalConfig where
  runMode : BitVec 2
  lineRate : BitVec 3
  period : Word
  deadline : Word
  probeSpacing : BitVec 4
  syncEnable : Bool
  budget : BitVec 3
  deriving DecidableEq, Repr

/-- The global configuration at hardware reset (R54). -/
def GlobalConfig.reset : GlobalConfig where
  runMode := 0#2
  lineRate := 1#3
  period := 1250#16
  deadline := 160#16
  probeSpacing := 4#4
  syncEnable := true
  budget := 2#3

/-- The cycle sequencer (section 2). `passPos` is the pass position of R37; `holder` the record of the first holding
watch (R47); `timer` the period timer, idle or running with its period in units of 8 µs (R44); `freeMinPassed` says
whether the FREE minimum has passed since the last cycle start (R42). -/
structure Sequencer where
  state : SeqState
  phase : Phase
  passPos : EntryIdx
  cycle : Word
  stopPending : Bool
  holdPending : Bool
  singleRun : Bool
  expiryInHold : Bool
  visits : Nat
  failedVisits : Nat
  transactions : Nat
  holder : Option WatchIdx
  missed : Nat
  timer : Option Nat
  freeMinPassed : Bool
  overruns : Byte
  cyc : Bool
  deriving DecidableEq, Repr

/-- The sequencer at hardware reset (R54). DESIGN CHOICE (log 12) for `passPos`, `holder` and `freeMinPassed`: the spec
gives no reset value, and each is set before it is read. Unsafe. -/
def Sequencer.reset : Sequencer where
  state := .stopped
  phase := .none
  passPos := 0
  cycle := 0#16
  stopPending := false
  holdPending := false
  singleRun := false
  expiryInHold := false
  visits := 0
  failedVisits := 0
  transactions := 0
  holder := none
  missed := 0
  timer := none
  freeMinPassed := false
  overruns := 0#8
  cyc := false

/-! ### Line engine -/

/-- The block and the part of its work that a visit is made for (R30, R114 to R116, R129 to R131). -/
inductive Role where
  /-- A visit of the roster pass: an EXCHANGE or a probe (R37). -/
  | pass
  /-- The resync RESET visit of the errand in a slot (R115). -/
  | errandResync (slot : SlotIdx)
  /-- The own visit of the errand in a slot (R116). -/
  | errandOwn (slot : SlotIdx)
  /-- The resync RESET visit of an attention transaction (R130). -/
  | attnResync
  /-- The ATTEND visit of an attention transaction (R131). -/
  | attnOwn
  deriving DecidableEq, Repr

/-- A visit in flight: what the engine took at its start (R6, R73), the call assembled then (R66), and the unaccepted
tries spent so far. -/
structure Visit where
  entry : EntryIdx
  role : Role
  kind : CallKind
  address : Byte
  toggle : Bool
  retryLimit : BitVec 3
  outLen : BitVec 4
  inLen : BitVec 4
  frame : List Byte
  unaccepted : Nat
  deriving DecidableEq, Repr

/-- The call the sequencer has in flight: the SYNC broadcast, or a visit (R30). -/
inductive Job where
  | sync (frame : List Byte)
  | visit (v : Visit)
  deriving DecidableEq, Repr

/-- A try that waits for the quiet gap to end (R66). -/
inductive Request where
  /-- The SYNC call of a cycle start. -/
  | sync
  /-- The first try of a visit, which begins with it (log 4). -/
  | visit (role : Role) (entry : EntryIdx) (kind : CallKind)
  /-- The visit that the pass was to begin fell away with a DISABLE of its entry; the pass goes on (log 5). -/
  | passOn
  /-- The next try after an unaccepted one (R73). -/
  | retry
  /-- The same try once more after an echo fault (R74). -/
  | repeatTry
  deriving DecidableEq, Repr

/-- The state of the line engine (Table 3-3) with what it carries. SENDING has two forms: a call being sent, and the
remainder of a call cut short (R78). -/
inductive Engine where
  | idle
  /-- SENDING a call, `good` of whose bytes have been echoed well (R67). -/
  | sending (good : Nat)
  /-- SENDING, completing the byte in progress of a call that has ended (R30, R67, R78); the byte TXD still carries, none
  only where no call was being sent. -/
  | remainder (byte : Option Byte)
  /-- AWAITING; `late` once the deadline has passed with an edge waiting for its sample (R68). -/
  | awaiting (late : Bool)
  /-- RECEIVING; the bytes taken, and whether the gap limit has passed with an edge waiting (R69, log 9). -/
  | receiving (bytes : List Byte) (late : Bool)
  /-- QUIET with a gap of so many bit times (R71). -/
  | quiet (gap : Nat)
  deriving DecidableEq, Repr

/-- The receive path (R58). -/
inductive RxPath where
  /-- Watching for a falling edge. -/
  | watching
  /-- A falling edge has been taken; the mid-bit sample is to come. -/
  | edge
  /-- A start bit has been found; the byte is being taken. -/
  | inByte
  /-- A byte with a framing fault has been taken; the line has to return high first. -/
  | waitHigh
  deriving DecidableEq, Repr

/-- The line engine (section 3). `rate` and `deadline` are the values held since the last START or hardware reset
(R57, R68). -/
structure LineEngine where
  engine : Engine
  rx : RxPath
  job : Option Job
  waiting : Option Request
  rate : BitVec 2
  deadline : Nat
  echoFaults : BitVec 2
  lineFaults : Byte
  strayBytes : Word
  deriving DecidableEq, Repr

/-- The line engine after hardware reset (R79). DESIGN CHOICE (log 12) for `rx`: the spec does not state the receive
path's reset value. Unsafe. -/
def LineEngine.reset : LineEngine where
  engine := .quiet Config.quietGapBits
  rx := .watching
  job := none
  waiting := none
  rate := 1#2
  deadline := 160
  echoFaults := 0#2
  lineFaults := 0#8
  strayBytes := 0#16

/-! ### Errands and attention -/

/-- An errand slot (Table 5-1). `kind` is none only in a slot that no SUBMIT has taken since hardware reset: its code
reads 0 there, which names no kind (R122). -/
structure Slot where
  state : SlotState
  tag : Byte
  entry : EntryIdx
  kind : Option ErrandKind
  object : Byte
  reqLen : BitVec 4
  payload : Words8
  outcome : SlotOutcome
  ansLen : BitVec 4
  deriving DecidableEq, Repr

/-- A slot at hardware reset (R122). -/
def Slot.reset : Slot where
  state := .free
  tag := 0#8
  entry := 0
  kind := none
  object := 0#8
  reqLen := 0#4
  payload := zeroWords
  outcome := .none
  ansLen := 0#4

/-- The staging record, each field as wide as its word layout (R104, Table 10-7). -/
structure Staging where
  tag : Byte
  entry : Byte
  kind : BitVec 4
  len : BitVec 4
  object : Byte
  payload : Words8
  deriving DecidableEq, Repr

/-- The errand unit (section 5). `budget` is the budget loaded at START, `budgetLeft` what remains of it in the present
window (R110). -/
structure ErrandUnit where
  slots : Vector Slot 8
  queue : List SlotIdx
  staging : Staging
  turn : Turn
  budget : Nat
  budgetLeft : Nat
  deriving DecidableEq, Repr

/-- The errand unit at hardware reset (R122). DESIGN CHOICE (log 12) for the loaded and the remaining budget. Unsafe. -/
def ErrandUnit.reset : ErrandUnit where
  slots := Vector.replicate 8 Slot.reset
  queue := []
  staging := ⟨0#8, 0#8, 0#4, 0#4, 0#8, zeroWords⟩
  turn := .attention
  budget := 2
  budgetLeft := 0

/-- The attention list and its service mark (R125). -/
structure AttentionList where
  items : List EntryIdx
  mark : Option EntryIdx
  deriving DecidableEq, Repr

/-! ### Watches -/

/-- A watch: configuration as stored (Table 7-1, Table 10-10) and state (Table 7-2). -/
structure Watch where
  entry : Byte
  word : BitVec 4
  condition : BitVec 4
  mask : Word
  reference : Word
  trigger : BitVec 2
  persistence : BitVec 3
  actPost : Bool
  actHold : Bool
  actDrive : Bool
  driveEntry : Byte
  driveWord : BitVec 4
  driveMask : Word
  driveValue : Word
  armed : Bool
  outcome : WatchOutcome
  candidate : Bool
  run : BitVec 2
  fires : Byte
  deriving DecidableEq, Repr

/-- A watch at hardware reset (R150). -/
def Watch.reset : Watch where
  entry := 0#8
  word := 0#4
  condition := 0#4
  mask := 0#16
  reference := 0#16
  trigger := 0#2
  persistence := 0#3
  actPost := false
  actHold := false
  actDrive := false
  driveEntry := 0#8
  driveWord := 0#4
  driveMask := 0#16
  driveValue := 0#16
  armed := false
  outcome := .unknown
  candidate := false
  run := 0#2
  fires := 0#8

/-! ### Events and host port -/

/-- An event record (Table 8-1). -/
structure EventRecord where
  seq : Word
  kind : EventKind
  subject : Byte
  cycle : Word
  p1 : Byte
  p2 : Byte
  d0 : Word
  d1 : Word
  d2 : Word
  deriving DecidableEq, Repr

/-- The kind filter: one enable per kind but OVERFLOW (R155). -/
structure KindFilter where
  link : Bool
  attention : Bool
  errand : Bool
  watch : Bool
  cycle : Bool
  overrun : Bool
  hold : Bool
  lineFault : Bool
  stopped : Bool
  deriving DecidableEq, Repr

/-- The event queue and interrupt unit (section 8). -/
structure EventUnit where
  queue : List EventRecord
  nextSeq : Word
  dropped : Byte
  headWait : Byte
  filter : KindFilter
  threshold : BitVec 6
  coalescing : Byte
  globalIrq : Bool
  faultIrq : Bool
  deriving DecidableEq, Repr

/-- The event unit at hardware reset (R164). -/
def EventUnit.reset : EventUnit where
  queue := []
  nextSeq := 0#16
  dropped := 0#8
  headWait := 0#8
  filter := ⟨true, true, true, true, false, true, true, true, true⟩
  threshold := 1#6
  coalescing := 0#8
  globalIrq := false
  faultIrq := false

/-- A recorded access fault (R172). -/
structure AccessFault where
  offset : Offset
  cause : AccessCause
  deriving DecidableEq, Repr

/-- The host port's own state (R169, R171, R172): argument word, command result, fault record (none when it is empty)
and fault count. -/
structure HostPort where
  argument : Word
  outcome : CmdOutcome
  value : Byte
  count : Byte
  fault : Option AccessFault
  faultCount : BitVec 4
  deriving DecidableEq, Repr

/-- The host port at hardware reset (R177). -/
def HostPort.reset : HostPort where
  argument := 0#16
  outcome := .ok
  value := 0#8
  count := 0#8
  fault := none
  faultCount := 0#4

/-! ### The whole part -/

/-- Why a step stops the machine: nothing does. Every behaviour the spec describes leaves the part running; its access
faults and its FAULTED state are states (R172, R52). Safe. -/
inductive Fault where
  deriving DecidableEq, Repr

/-- Why a command has no meaning. -/
inductive Refusal where
  /-- Raised by an arm of exec for a row not modelled yet; no arm raises it. Safe: the machine stops. -/
  | notModelled (mnemonic : String)
  deriving DecidableEq, Repr

/-- A host write on the bus that arrives amid the watch evaluations of a commit (R142): taken once `passed` of the 32 watch
indices have been dealt with, and behind those that stand before it in its list (log 6). -/
structure Arrival where
  passed : Nat
  offset : Offset
  value : Word
  deriving DecidableEq, Repr

/-- The state of the part. `resetHeld` says that the reset input is low (R177). `pending` is the model's own queue of
commands that wait (log 1), and `amid` its own list of the host writes that arrive amid the evaluations of the next commit
(R142; log 6). -/
structure State where
  roster : Vector Entry 40
  images : Vector Image 40
  selector : Selector
  freeze : FreezeWindow
  cfg : GlobalConfig
  seq : Sequencer
  line : LineEngine
  errand : ErrandUnit
  attn : AttentionList
  watches : Vector Watch 32
  events : EventUnit
  port : HostPort
  resetHeld : Bool
  pending : List Instr
  amid : List Arrival
  deriving DecidableEq, Repr

/-- The part just after a hardware reset, with the reset input high again (R177; log 13). -/
def State.reset : State where
  roster := Vector.replicate 40 Entry.reset
  images := Vector.replicate 40 Image.reset
  selector := ⟨0#8, 0#4⟩
  freeze := FreezeWindow.reset
  cfg := GlobalConfig.reset
  seq := Sequencer.reset
  line := LineEngine.reset
  errand := ErrandUnit.reset
  attn := ⟨[], none⟩
  watches := Vector.replicate 32 Watch.reset
  events := EventUnit.reset
  port := HostPort.reset
  resetHeld := false
  pending := []
  amid := []

end Sys2Proof.Machine
end

