-- ==== Sys2Proof/Machine/Operands.lean ====
section
/-! DEFINITION. Operand forms: the numeric codes of Table 10-2, indices read from stored fields, the words of an
eight-word record, and the location an offset of the register window names (section 10). -/

namespace Sys2Proof.Machine

/-! ### Indices from stored fields -/

/-- The roster index a number names; none above 39. -/
def entryOf (n : Nat) : Option EntryIdx := if h : n < 40 then some ⟨n, h⟩ else none

/-- The watch index a number names; none above 31. -/
def watchOf (n : Nat) : Option WatchIdx := if h : n < 32 then some ⟨n, h⟩ else none

/-- The errand slot a number names; none above 7. -/
def slotOf (n : Nat) : Option SlotIdx := if h : n < 8 then some ⟨n, h⟩ else none

/-- Word n of an eight-word record; 0000H where the record has no such word. -/
def wordAt (ws : Words8) (n : Nat) : Word := if h : n < 8 then ws[n] else 0#16

/-- An eight-word record with word n replaced; unchanged where it has no such word. -/
def setWord (ws : Words8) (n : Nat) (v : Word) : Words8 := if h : n < 8 then ws.set n v else ws

/-- Eight words: the given ones in order, then 0000H (R90, R117). -/
def padWords (l : List Word) : Words8 := Vector.ofFn fun i => l.getD i 0#16

/-- The first n words of a record, in ascending order (R84, R116). -/
def firstWords (ws : Words8) (n : Nat) : List Word := ws.toList.take n

/-! ### Codes (Table 10-2) -/

def LinkState.code : LinkState → Nat
  | .off => 0
  | .await => 1
  | .online => 2
  | .suspect => 3
  | .lost => 4

def SeqState.code : SeqState → Nat
  | .stopped => 0
  | .running => 1
  | .waiting => 2
  | .held => 3
  | .faulted => 4

def Phase.code : Phase → Nat
  | .none => 0
  | .sync => 1
  | .roster => 2
  | .window => 3

def CommitMode.code : CommitMode → Nat
  | .auto => 0
  | .gated => 1

def CallKind.code : CallKind → Nat
  | .exchange => 1
  | .read => 2
  | .write => 3
  | .attend => 4
  | .reset => 5
  | .sync => 6

/-- The call that carries an errand of a kind (R116). -/
def ErrandKind.call : ErrandKind → CallKind
  | .read => .read
  | .write => .write
  | .reset => .reset

/-- The code of a slot's kind field; 0 where it has never held an errand (R122). -/
def errandKindCode : Option ErrandKind → Nat
  | none => 0
  | some k => k.call.code

/-- The errand kind a stored code names (R105). -/
def errandKindOf (code : Nat) : Option ErrandKind :=
  if code = 2 then some .read
  else if code = 3 then some .write
  else if code = 5 then some .reset
  else none

def SlotState.code : SlotState → Nat
  | .free => 0
  | .queued => 1
  | .active => 2
  | .done => 3

def SlotOutcome.code : SlotOutcome → Nat
  | .none => 0
  | .doneOk => 1
  | .refused => 2
  | .noAnswer => 3
  | .noLink => 4
  | .cancelled => 5
  | .aborted => 6

def WatchOutcome.code : WatchOutcome → Nat
  | .unknown => 0
  | .isFalse => 1
  | .isTrue => 2

def EventKind.code : EventKind → Nat
  | .link => 1
  | .attention => 2
  | .errand => 3
  | .watch => 4
  | .cycle => 5
  | .overrun => 6
  | .hold => 7
  | .lineFault => 8
  | .stopped => 9
  | .overflow => 10

def StopCause.code : StopCause → Nat
  | .stop => 1
  | .single => 2
  | .halt => 3
  | .fault => 4

def AccessCause.code : AccessCause → Nat
  | .unmapped => 1
  | .readOnly => 2
  | .locked => 3
  | .badTarget => 4

def CmdOutcome.code : CmdOutcome → Nat
  | .ok => 0
  | .busy => 1
  | .refused => 2
  | .badArg => 3
  | .full => 4
  | .tooLate => 5
  | .conflict => 6
  | .notPending => 7
  | .empty => 8

/-- The run mode a stored code is taken as: a code that names none is FREE (R32). -/
def runModeOf (code : BitVec 2) : RunMode :=
  if code = 1#2 then .periodic else if code = 2#2 then .single else .free

/-- The line rate a stored code is taken as: a code above 3 is code 0 (R57). -/
def lineRateOf (code : BitVec 3) : BitVec 2 :=
  if code.toNat ≤ 3 then code.setWidth 2 else 0#2

/-- The length of one bit at a line rate, in quarters of a microsecond (Table 3-1). -/
def bitTimeQuarterMicros (rate : BitVec 2) : Nat :=
  if rate = 0#2 then 16 else if rate = 1#2 then 4 else if rate = 2#2 then 2 else 1

/-- The answer deadline a stored word is taken as: 16 to 1023 bit times (R68). -/
def deadlineOf (stored : Word) : Nat := min 1023 (max 16 stored.toNat)

/-- The period a stored word is taken as: 0 is one unit (R32). -/
def periodOf (stored : Word) : Nat := max 1 stored.toNat

/-- The probe spacing a stored value is taken as: 0 is 1 (R8). -/
def probeSpacingOf (stored : BitVec 4) : Nat := max 1 stored.toNat

/-- The errand window budget a stored value is taken as: above 4 is 4 (R110). -/
def budgetOf (stored : BitVec 3) : Nat := min 4 stored.toNat

/-- The threshold a stored value is taken as: 1 to 32 (R161). -/
def thresholdOf (stored : BitVec 6) : Nat := min 32 (max 1 stored.toNat)

/-! ### The register window (Tables 10-1 to 10-11) -/

/-- A location of the window. The comment on each group names its table. -/
inductive Loc where
  /- Table 10-3 -/
  | identity
  | statusA
  | statusB
  | argument
  | command
  | resultA
  | resultB
  | faultRecord
  | faultCount
  | overrunCount
  | echoFaultCount
  | lineFaultTotal
  | strayByteCount
  /- Table 10-4 -/
  | runMode
  | lineRate
  | period
  | answerDeadline
  | probeSpacing
  | syncEnable
  | windowBudget
  /- Tables 10-5 and 10-6 -/
  | kindFilter
  | threshold
  | coalescing
  | irqEnables
  | queueCount
  | nextSeq
  | droppedCount
  | headWaitCount
  | headWindow (word : Fin 7)
  /- Table 10-7 -/
  | selector
  | setPort
  | clearPort
  | flipPort
  | staging0
  | staging1
  | stagingWord (i : Fin 8)
  | queueViewCount
  | queueView (i : Fin 8)
  | attnViewHead
  | attnView (i : Fin 40)
  | freeze0
  | freeze1
  | freeze2
  | freezeWord (i : Fin 8)
  /- Table 10-8 -/
  | configA (e : EntryIdx)
  | configB (e : EntryIdx)
  | configC (e : EntryIdx)
  | runtime (e : EntryIdx)
  | countersA (e : EntryIdx)
  | countersB (e : EntryIdx)
  /- Table 10-1, image areas, and Table 10-9 -/
  | working (e : EntryIdx) (w : Fin 8)
  | committed (e : EntryIdx) (w : Fin 8)
  | input (e : EntryIdx) (w : Fin 8)
  | inputStatus0 (e : EntryIdx)
  | inputStatus1 (e : EntryIdx)
  /- Table 10-10 -/
  | watchConfig (n : WatchIdx) (w : Fin 7)
  | watchState (n : WatchIdx)
  /- Table 10-11 -/
  | slot0 (s : SlotIdx)
  | slot1 (s : SlotIdx)
  | slot2 (s : SlotIdx)
  | slotWord (s : SlotIdx) (i : Fin 8)
  /-- Every offset that no table gives a word (R178). -/
  | unmapped
  deriving DecidableEq, Repr

/-- The word of a roster entry's record (Table 10-8); words 6 and 7 are unmapped (R178). -/
def rosterLoc (e : EntryIdx) (w : Nat) : Loc :=
  match w with
  | 0 => .configA e
  | 1 => .configB e
  | 2 => .configC e
  | 3 => .runtime e
  | 4 => .countersA e
  | 5 => .countersB e
  | _ => .unmapped

/-- The word of a slot's record (Table 10-11); words 11 to 15 are unmapped (R178). -/
def slotLoc (s : SlotIdx) (w : Nat) : Loc :=
  if w = 0 then .slot0 s
  else if w = 1 then .slot1 s
  else if w = 2 then .slot2 s
  else if h : 3 ≤ w ∧ w < 11 then .slotWord s ⟨w - 3, by omega⟩
  else .unmapped

/-- The words of the control area that stand alone (Tables 10-3 to 10-7). -/
def controlLoc (n : Nat) : Loc :=
  match n with
  | 0x00 => .identity
  | 0x01 => .statusA
  | 0x02 => .statusB
  | 0x03 => .argument
  | 0x04 => .command
  | 0x05 => .resultA
  | 0x06 => .resultB
  | 0x07 => .faultRecord
  | 0x08 => .faultCount
  | 0x09 => .overrunCount
  | 0x0A => .echoFaultCount
  | 0x0B => .lineFaultTotal
  | 0x0C => .strayByteCount
  | 0x10 => .runMode
  | 0x11 => .lineRate
  | 0x12 => .period
  | 0x13 => .answerDeadline
  | 0x14 => .probeSpacing
  | 0x15 => .syncEnable
  | 0x16 => .windowBudget
  | 0x18 => .kindFilter
  | 0x19 => .threshold
  | 0x1A => .coalescing
  | 0x1B => .irqEnables
  | 0x1C => .queueCount
  | 0x1D => .nextSeq
  | 0x1E => .droppedCount
  | 0x1F => .headWaitCount
  | 0x28 => .selector
  | 0x29 => .setPort
  | 0x2A => .clearPort
  | 0x2B => .flipPort
  | 0x30 => .staging0
  | 0x31 => .staging1
  | 0x40 => .queueViewCount
  | 0x50 => .attnViewHead
  | 0x80 => .freeze0
  | 0x81 => .freeze1
  | 0x82 => .freeze2
  | _ => .unmapped

/-- The location at a word offset, given as a number below 2048 (Table 10-1). -/
def locateNat (n : Nat) : Loc :=
  if h : 0x020 ≤ n ∧ n < 0x027 then .headWindow ⟨n - 0x020, by omega⟩
  else if h : 0x032 ≤ n ∧ n < 0x03A then .stagingWord ⟨n - 0x032, by omega⟩
  else if h : 0x041 ≤ n ∧ n < 0x049 then .queueView ⟨n - 0x041, by omega⟩
  else if h : 0x051 ≤ n ∧ n < 0x079 then .attnView ⟨n - 0x051, by omega⟩
  else if h : 0x083 ≤ n ∧ n < 0x08B then .freezeWord ⟨n - 0x083, by omega⟩
  else if n < 0x100 then controlLoc n
  else if h : n < 0x240 then rosterLoc ⟨(n - 0x100) / 8, by omega⟩ ((n - 0x100) % 8)
  else if h : n < 0x380 then .working ⟨(n - 0x240) / 8, by omega⟩ ⟨(n - 0x240) % 8, by omega⟩
  else if h : n < 0x4C0 then .committed ⟨(n - 0x380) / 8, by omega⟩ ⟨(n - 0x380) % 8, by omega⟩
  else if h : n < 0x600 then .input ⟨(n - 0x4C0) / 8, by omega⟩ ⟨(n - 0x4C0) % 8, by omega⟩
  else if h : n < 0x650 then
    if n % 2 = 0 then .inputStatus0 ⟨(n - 0x600) / 2, by omega⟩ else .inputStatus1 ⟨(n - 0x600) / 2, by omega⟩
  else if h : n < 0x750 then
    if h7 : (n - 0x650) % 8 < 7 then .watchConfig ⟨(n - 0x650) / 8, by omega⟩ ⟨(n - 0x650) % 8, h7⟩
    else .watchState ⟨(n - 0x650) / 8, by omega⟩
  else if h : n < 0x7D0 then slotLoc ⟨(n - 0x750) / 16, by omega⟩ ((n - 0x750) % 16)
  else .unmapped

/-- The location an offset names (R178). -/
def locate (o : Offset) : Loc := locateNat o.toNat

/-- The offset of a mapped location (Tables 10-1 to 10-11); none for the unmapped ones. -/
def Loc.offset : Loc → Option Nat
  | .identity => some 0x00
  | .statusA => some 0x01
  | .statusB => some 0x02
  | .argument => some 0x03
  | .command => some 0x04
  | .resultA => some 0x05
  | .resultB => some 0x06
  | .faultRecord => some 0x07
  | .faultCount => some 0x08
  | .overrunCount => some 0x09
  | .echoFaultCount => some 0x0A
  | .lineFaultTotal => some 0x0B
  | .strayByteCount => some 0x0C
  | .runMode => some 0x10
  | .lineRate => some 0x11
  | .period => some 0x12
  | .answerDeadline => some 0x13
  | .probeSpacing => some 0x14
  | .syncEnable => some 0x15
  | .windowBudget => some 0x16
  | .kindFilter => some 0x18
  | .threshold => some 0x19
  | .coalescing => some 0x1A
  | .irqEnables => some 0x1B
  | .queueCount => some 0x1C
  | .nextSeq => some 0x1D
  | .droppedCount => some 0x1E
  | .headWaitCount => some 0x1F
  | .headWindow w => some (0x20 + w)
  | .selector => some 0x28
  | .setPort => some 0x29
  | .clearPort => some 0x2A
  | .flipPort => some 0x2B
  | .staging0 => some 0x30
  | .staging1 => some 0x31
  | .stagingWord i => some (0x32 + i)
  | .queueViewCount => some 0x40
  | .queueView i => some (0x41 + i)
  | .attnViewHead => some 0x50
  | .attnView i => some (0x51 + i)
  | .freeze0 => some 0x80
  | .freeze1 => some 0x81
  | .freeze2 => some 0x82
  | .freezeWord i => some (0x83 + i)
  | .configA e => some (0x100 + 8 * e)
  | .configB e => some (0x100 + 8 * e + 1)
  | .configC e => some (0x100 + 8 * e + 2)
  | .runtime e => some (0x100 + 8 * e + 3)
  | .countersA e => some (0x100 + 8 * e + 4)
  | .countersB e => some (0x100 + 8 * e + 5)
  | .working e w => some (0x240 + 8 * e + w)
  | .committed e w => some (0x380 + 8 * e + w)
  | .input e w => some (0x4C0 + 8 * e + w)
  | .inputStatus0 e => some (0x600 + 2 * e)
  | .inputStatus1 e => some (0x600 + 2 * e + 1)
  | .watchConfig n w => some (0x650 + 8 * n + w)
  | .watchState n => some (0x650 + 8 * n + 7)
  | .slot0 s => some (0x750 + 16 * s)
  | .slot1 s => some (0x750 + 16 * s + 1)
  | .slot2 s => some (0x750 + 16 * s + 2)
  | .slotWord s i => some (0x750 + 16 * s + 3 + i)
  | .unmapped => none

/-- The access type of a location (R168, R178); a lockable word carries its owner. -/
inductive Access where
  | rw
  | lockedByEntry (e : EntryIdx)
  | lockedBySequencer
  | lockedByWatch (n : WatchIdx)
  | ro
  | action
  | none
  deriving DecidableEq, Repr

/-- The access type each table gives its words. -/
def Loc.access : Loc → Access
  | .identity => .ro
  | .statusA => .ro
  | .statusB => .ro
  | .argument => .rw
  | .command => .action
  | .resultA => .ro
  | .resultB => .ro
  | .faultRecord => .ro
  | .faultCount => .ro
  | .overrunCount => .ro
  | .echoFaultCount => .ro
  | .lineFaultTotal => .ro
  | .strayByteCount => .ro
  | .runMode => .lockedBySequencer
  | .lineRate => .lockedBySequencer
  | .period => .lockedBySequencer
  | .answerDeadline => .lockedBySequencer
  | .probeSpacing => .lockedBySequencer
  | .syncEnable => .lockedBySequencer
  | .windowBudget => .lockedBySequencer
  | .kindFilter => .rw
  | .threshold => .rw
  | .coalescing => .rw
  | .irqEnables => .rw
  | .queueCount => .ro
  | .nextSeq => .ro
  | .droppedCount => .ro
  | .headWaitCount => .ro
  | .headWindow _ => .ro
  | .selector => .rw
  | .setPort => .action
  | .clearPort => .action
  | .flipPort => .action
  | .staging0 => .rw
  | .staging1 => .rw
  | .stagingWord _ => .rw
  | .queueViewCount => .ro
  | .queueView _ => .ro
  | .attnViewHead => .ro
  | .attnView _ => .ro
  | .freeze0 => .ro
  | .freeze1 => .ro
  | .freeze2 => .ro
  | .freezeWord _ => .ro
  | .configA e => .lockedByEntry e
  | .configB e => .lockedByEntry e
  | .configC e => .lockedByEntry e
  | .runtime _ => .ro
  | .countersA _ => .ro
  | .countersB _ => .ro
  | .working _ _ => .rw
  | .committed _ _ => .ro
  | .input _ _ => .ro
  | .inputStatus0 _ => .ro
  | .inputStatus1 _ => .ro
  | .watchConfig n _ => .lockedByWatch n
  | .watchState _ => .ro
  | .slot0 _ => .ro
  | .slot1 _ => .ro
  | .slot2 _ => .ro
  | .slotWord _ _ => .ro
  | .unmapped => .none

end Sys2Proof.Machine
end

