-- ==== Sys2Proof/Machine/Ops.lean ====
section
/-! DEFINITION. The shared operations: saturating counts, the tables' reads and writes, the posting of an event
(section 8), the recording of an access fault (R172) and of a command's result (R171), and the hold of the reset
input (R177). -/

namespace Sys2Proof.Machine

/-- A count saturating at its field's greatest value, raised by 1 (00_scope.md 1.6, Counts). -/
def satInc {w : Nat} (c : BitVec w) : BitVec w := if c = BitVec.allOnes w then c else c + 1#w

/-- An 8-bit count saturating at 255, raised by n (R46). -/
def satAdd (c : Byte) (n : Nat) : Byte := BitVec.ofNat 8 (min 255 (c.toNat + n))

/-! ### Tables -/

/-- Roster entry e. -/
def State.entry (s : State) (e : EntryIdx) : Entry := s.roster[e]

/-- Roster entry e replaced. -/
def State.setEntry (s : State) (e : EntryIdx) (x : Entry) : State :=
  { s with roster := s.roster.set e.val x e.isLt }

/-- The image records of entry e. -/
def State.image (s : State) (e : EntryIdx) : Image := s.images[e]

/-- The image records of entry e replaced. -/
def State.setImage (s : State) (e : EntryIdx) (x : Image) : State :=
  { s with images := s.images.set e.val x e.isLt }

/-- Errand slot k. -/
def State.slot (s : State) (k : SlotIdx) : Slot := s.errand.slots[k]

/-- Errand slot k replaced. -/
def State.setSlot (s : State) (k : SlotIdx) (x : Slot) : State :=
  { s with errand := { s.errand with slots := s.errand.slots.set k.val x k.isLt } }

/-- Watch n. -/
def State.watch (s : State) (n : WatchIdx) : Watch := s.watches[n]

/-- Watch n replaced. -/
def State.setWatch (s : State) (n : WatchIdx) (x : Watch) : State :=
  { s with watches := s.watches.set n.val x n.isLt }

/-- The sequencer's record replaced. -/
def State.setSeq (s : State) (x : Sequencer) : State := { s with seq := x }

/-- The line engine's record replaced. -/
def State.setLine (s : State) (x : LineEngine) : State := { s with line := x }

/-- The errand unit's record replaced. -/
def State.setErrand (s : State) (x : ErrandUnit) : State := { s with errand := x }

/-- The attention list's record replaced. -/
def State.setAttn (s : State) (x : AttentionList) : State := { s with attn := x }

/-- The event unit's record replaced. -/
def State.setEvents (s : State) (x : EventUnit) : State := { s with events := x }

/-- The host port's record replaced. -/
def State.setPort (s : State) (x : HostPort) : State := { s with port := x }

/-- The list of arrivals replaced (log 6). -/
def State.setAmid (s : State) (x : List Arrival) : State := { s with amid := x }

/-! ### Events -/

/-- The subject byte of an event that names no entry, watch or slot (R153). -/
def noSubject : Byte := 0xFF#8

/-- The offer of one event by a block (R153). -/
structure Post where
  kind : EventKind
  subject : Byte
  p1 : Byte := 0#8
  p2 : Byte := 0#8
  d0 : Word := 0#16
  d1 : Word := 0#16
  d2 : Word := 0#16
  deriving DecidableEq, Repr

/-- Whether the filter lets a kind through; OVERFLOW has no enable and always passes (R155). -/
def KindFilter.passes (f : KindFilter) : EventKind → Bool
  | .link => f.link
  | .attention => f.attention
  | .errand => f.errand
  | .watch => f.watch
  | .cycle => f.cycle
  | .overrun => f.overrun
  | .hold => f.hold
  | .lineFault => f.lineFault
  | .stopped => f.stopped
  | .overflow => true

/-- The record a post becomes, with the seq and cycle fields added (R153, R154). -/
def Post.record (p : Post) (seq cycle : Word) : EventRecord :=
  { seq := seq, kind := p.kind, subject := p.subject, cycle := cycle, p1 := p.p1, p2 := p.p2,
    d0 := p.d0, d1 := p.d1, d2 := p.d2 }

/-- The event unit with a post's record appended at the tail (R154, R156, R162). -/
def EventUnit.enqueue (u : EventUnit) (cycle : Word) (p : Post) : EventUnit :=
  { u with
    queue := u.queue ++ [p.record u.nextSeq cycle]
    nextSeq := u.nextSeq + 1#16
    headWait := if u.queue = [] then 0#8 else u.headWait }

/-- The event unit after it has taken a post: discarded by the filter, entered, or dropped (R155, R156, R157). -/
def EventUnit.take (u : EventUnit) (cycle : Word) (p : Post) : EventUnit :=
  if u.filter.passes p.kind = false then u
  else if u.queue.length < Config.queueCapacity then u.enqueue cycle p
  else { u with dropped := satInc u.dropped }

/-- A post offered to the event unit, which adds the sequencer's cycle number (R153, R156). -/
def post (p : Post) (s : State) : State := s.setEvents (s.events.take s.seq.cycle p)

/-- A LINK event (R26). -/
def linkPost (e : EntryIdx) (old new : LinkState) : Post :=
  { kind := .link, subject := BitVec.ofNat 8 e, p1 := BitVec.ofNat 8 old.code, p2 := BitVec.ofNat 8 new.code }

/-- A STOPPED event (R41, R49, R50, R52). -/
def stoppedPost (c : StopCause) : Post :=
  { kind := .stopped, subject := noSubject, p1 := BitVec.ofNat 8 c.code }

/-! ### Host port -/

/-- A refused write recorded: an empty fault record takes it, an occupied one keeps its fault and the fault count is
raised, saturating at 15 (R172). -/
def HostPort.refuse (p : HostPort) (o : Offset) (c : AccessCause) : HostPort :=
  match p.fault with
  | none => { p with fault := some ⟨o, c⟩ }
  | some _ => { p with faultCount := satInc p.faultCount }

/-- An access fault (R172): nothing but the fault record and the fault count changes. -/
def accessFault (o : Offset) (c : AccessCause) (s : State) : State := s.setPort (s.port.refuse o c)

/-- What a command leaves: the state, its outcome and its value (R170). -/
structure Reply where
  state : State
  outcome : CmdOutcome
  value : Byte := 0#8
  deriving DecidableEq, Repr

/-- A command that changes nothing and gives an outcome. -/
def Reply.only (s : State) (o : CmdOutcome) : Reply := { state := s, outcome := o }

/-- The command result word replaced: outcome, value and the raised command count (R170, R171). -/
def HostPort.result (p : HostPort) (o : CmdOutcome) (v : Byte) : HostPort :=
  { p with outcome := o, value := v, count := p.count + 1#8 }

/-- A write to the command word that has executed a command: its outcome and value stand in the command result word
with the command count raised by 1 (R170, R171). -/
def issue (run : State → Reply) (s : State) : State :=
  let r := run s
  r.state.setPort (r.state.port.result r.outcome r.value)

/-- While the reset input is low nothing is taken (R177). -/
def whenLive (f : State → State) (s : State) : State := if s.resetHeld then s else f s

end Sys2Proof.Machine
end

