-- ==== Sys2Proof/Machine/Errands.lean ====
section
/-! DEFINITION. The errand unit's slots and queue (section 5): SUBMIT, CANCEL, RELEASE_SLOT and the completion of a
slot. The arbiter stands in Cycle.lean. -/

namespace Sys2Proof.Machine

/-- The ERRAND event of a slot's completion (R121). -/
def errandPost (k : SlotIdx) (x : Slot) : Post :=
  { kind := .errand, subject := BitVec.ofNat 8 k, p1 := BitVec.ofNat 8 x.outcome.code
    p2 := x.ansLen.setWidth 8, d0 := x.tag.setWidth 16, d1 := BitVec.ofNat 16 x.entry }

/-- A slot completed with an outcome other than DONE_OK of a READ: answer length 0, payload unchanged (R107, R111, R117,
R118, R120). -/
def Slot.complete (x : Slot) (o : SlotOutcome) : Slot := { x with state := .done, outcome := o, ansLen := 0#4 }

/-- A READ completed DONE_OK: the answer's words, 0000H beyond them, and the answer's length (R117). -/
def Slot.completeRead (x : Slot) (payload : List Word) : Slot :=
  { x with state := .done, outcome := .doneOk, ansLen := BitVec.ofNat 4 payload.length, payload := padWords payload }

/-- A slot's completion and its ERRAND event, as one action (R121). -/
def finishSlot (k : SlotIdx) (x : Slot) (s : State) : State := post (errandPost k x) (s.setSlot k x)

/-- The completion of slot k with an outcome and answer length 0. -/
def completeSlot (k : SlotIdx) (o : SlotOutcome) (s : State) : State := finishSlot k ((s.slot k).complete o) s

/-- The slot after an own visit that ended in success with a last try GOOD (R117). -/
def Slot.completeGood (x : Slot) (payload : List Word) : Slot :=
  if x.kind = some .read then x.completeRead payload else x.complete .doneOk

/-- A slot's number taken out of the errand queue; those behind it close up (R106). -/
def leaveQueue (k : SlotIdx) (s : State) : State :=
  s.setErrand { s.errand with queue := s.errand.queue.filter fun j => decide (j ≠ k) }

/-- The check of the staging record (R105 step 1): the errand it stands for, if it is valid. -/
def Staging.check (g : Staging) : Option (EntryIdx × ErrandKind) :=
  match entryOf g.entry.toNat, errandKindOf g.kind.toNat with
  | some e, some k =>
    if g.object.toNat ≤ 63 ∧ (if k = .write then 1 ≤ g.len.toNat ∧ g.len.toNat ≤ 8 else g.len = 0#4) then some (e, k)
    else none
  | _, _ => none

/-- The lowest-numbered FREE slot (R105). -/
def freeSlot (s : State) : Option SlotIdx := (List.finRange 8).find? fun k => decide ((s.slot k).state = .free)

/-- The slot that takes the errand of the staging record (R105). -/
def Staging.slot (g : Staging) (e : EntryIdx) (k : ErrandKind) : Slot where
  state := .queued
  tag := g.tag
  entry := e
  kind := some k
  object := g.object
  reqLen := g.len
  payload := g.payload
  outcome := .none
  ansLen := 0#4

/-- A slot's number appended at the tail of the errand queue (R105, R106). -/
def joinQueue (k : SlotIdx) (s : State) : State := s.setErrand { s.errand with queue := s.errand.queue ++ [k] }

/-- SUBMIT (R105). -/
def runSubmit (s : State) : Reply :=
  match s.errand.staging.check with
  | none => { state := s, outcome := .badArg, value := 0xFF#8 }
  | some (e, kind) =>
    match freeSlot s with
    | none => { state := s, outcome := .full, value := 0xFF#8 }
    | some k =>
      { state := joinQueue k (s.setSlot k (s.errand.staging.slot e kind)), outcome := .ok, value := BitVec.ofNat 8 k }

/-- CANCEL (R107). -/
def runCancel (s : State) : Reply :=
  match slotOf s.port.argument.toNat with
  | none => .only s .badArg
  | some k =>
    match (s.slot k).state with
    | .queued => .only (completeSlot k .cancelled (leaveQueue k s)) .ok
    | .active => .only s .tooLate
    | .free => .only s .notPending
    | .done => .only s .notPending

/-- RELEASE_SLOT (R109). -/
def runReleaseSlot (s : State) : Reply :=
  match slotOf s.port.argument.toNat with
  | none => .only s .badArg
  | some k =>
    match (s.slot k).state with
    | .done => .only (s.setSlot k { s.slot k with state := .free }) .ok
    | .free => .only s .notPending
    | .queued => .only s .notPending
    | .active => .only s .notPending

/-- An ACTIVE slot's errand cut off by HALT or FAULTED completes with ABORTED (R51, R120). At most one is ACTIVE. -/
def abortSlot (s : State) (k : SlotIdx) : State :=
  if (s.slot k).state = .active then completeSlot k .aborted s else s

/-- Any ACTIVE slot completed with ABORTED (R120). -/
def abortActive (s : State) : State := (List.finRange 8).foldl abortSlot s

/-- The errand unit's part of a soft reset (R123). -/
def ErrandUnit.softReset (u : ErrandUnit) : ErrandUnit :=
  { u with slots := u.slots.map fun x => { x with state := .free }, queue := [], turn := .attention }

end Sys2Proof.Machine
end

