-- ==== Sys2Proof/Machine/Attention.lean ====
section
/-! DEFINITION. The attention list (section 6): appends, removals, and the ATTENTION event. -/

namespace Sys2Proof.Machine

/-- An append at the tail, made only for an entry without an item (R127). -/
def AttentionList.append (a : AttentionList) (e : EntryIdx) : AttentionList :=
  if e ∈ a.items then a else { a with items := a.items ++ [e] }

/-- An entry's item removed from any position, and the service mark with it if it names the item (R128). -/
def AttentionList.remove (a : AttentionList) (e : EntryIdx) : AttentionList :=
  { items := a.items.filter fun x => decide (x ≠ e), mark := if a.mark = some e then none else a.mark }

/-- The append step of an accepted answer (R127). -/
def appendAttention (e : EntryIdx) (attn : Bool) (s : State) : State :=
  if attn then s.setAttn (s.attn.append e) else s

/-- The removal at a loss or a DISABLE, and at the end of a transaction (R128, R130, R131). -/
def removeAttention (e : EntryIdx) (s : State) : State := s.setAttn (s.attn.remove e)

/-- The ATTENTION event of a GOOD ATTEND answer: the detail count, the cause word and the detail words (R132). -/
def attentionPost (e : EntryIdx) (payload : List Word) : Post :=
  { kind := .attention, subject := BitVec.ofNat 8 e, p1 := BitVec.ofNat 8 (payload.length - 1)
    d0 := payload.getD 0 0#16, d1 := payload.getD 1 0#16, d2 := payload.getD 2 0#16 }

end Sys2Proof.Machine
end

