-- ==== Sys2Proof/Machine/Flags.lean ====
section
/-! DEFINITION. The views and outputs that follow the state: the cursor and the visit-in-flight field, IRQ, TXEN, TXD and
its bytes, and the durations in force. -/

namespace Sys2Proof.Machine

/-- The visit in flight, if the call in flight is one (R30). -/
def State.visit (s : State) : Option Visit :=
  match s.line.job with
  | some (.visit v) => some v
  | some (.sync _) => none
  | none => none

/-- The roster index the visit in flight addresses (R29). -/
def State.calledEntry (s : State) : Option EntryIdx := s.visit.map (·.entry)

/-- The visit-in-flight field of an entry (R6). -/
def State.visitInFlight (s : State) (e : EntryIdx) : Bool := decide (s.calledEntry = some e)

/-- A roster index as a byte, FFH for none (00_scope.md 1.6). -/
def entryByte : Option EntryIdx → Byte
  | some e => BitVec.ofNat 8 e
  | none => 0xFF#8

/-- The cursor (R29): the index of the entry addressed by the visit in flight, FFH when there is none. -/
def State.cursor (s : State) : Byte := entryByte s.calledEntry

/-- The run mode in force (R32). -/
def State.runMode (s : State) : RunMode := runModeOf s.cfg.runMode

/-- IRQ is low (R163): the global interrupt enable is set and one of the four conditions holds. -/
def State.irqLow (s : State) : Bool :=
  let u := s.events
  let n := u.queue.length
  u.globalIrq &&
    (decide (thresholdOf u.threshold ≤ n)
      || (decide (0 < u.coalescing.toNat) && decide (1 ≤ n) && decide (u.coalescing.toNat ≤ u.headWait.toNat))
      || ((decide (s.seq.state = .stopped) || decide (s.seq.state = .held) || decide (s.seq.state = .faulted))
          && decide (1 ≤ n))
      || (u.faultIrq && s.port.fault.isSome))

/-- TXEN is high in SENDING and low in every other engine state (R56, Table 3-3), and low while the reset input is
(R177). -/
def State.txen (s : State) : Bool :=
  match s.line.engine with
  | .sending _ => !s.resetHeld
  | .remainder _ => !s.resetHeld
  | .idle => false
  | .awaiting _ => false
  | .receiving _ _ => false
  | .quiet _ => false

/-- The bytes of the call in flight (R66). -/
def Job.frame : Job → List Byte
  | .sync f => f
  | .visit v => v.frame

/-- Byte n of a call as it is sent: its last byte once all have been echoed and the last stop bit runs (R67). -/
def Job.sentByte (j : Job) (n : Nat) : Option Byte := j.frame[min n (j.frame.length - 1)]?

/-- The byte in progress on TXD (R56, R67, R78); none when no byte is being sent. DEDUCED (log 22): once a byte has been
echoed well, the byte in progress is the next one. -/
def State.txByte (s : State) : Option Byte :=
  match s.line.engine with
  | .sending good => s.line.job.bind (·.sentByte good)
  | .remainder byte => byte
  | .idle => none
  | .awaiting _ => none
  | .receiving _ _ => none
  | .quiet _ => none

/-- The bytes whose stop bit has not been sampled yet, in the order TXD carries them (R56, R67); of a call cut short, the
byte that is completed (R78). -/
def State.txBytes (s : State) : List Byte :=
  match s.line.engine with
  | .sending good => (s.line.job.map (·.frame.drop good)).getD []
  | .remainder byte => byte.toList
  | .idle => []
  | .awaiting _ => []
  | .receiving _ _ => []
  | .quiet _ => []

/-- The ten bits of a byte on the line, in order (R56): start bit low, eight data bits with the least significant
first, stop bit high. -/
def byteBits (b : Byte) : List Bool :=
  [false] ++ (List.range 8).map (fun i => b.getLsbD i) ++ [true]

/-- The level of TXD in a bit time, counted from the start bit of the byte in progress (R56): that byte's bits, and high
whenever no byte is being sent and while the reset input is low (R79, R177). -/
def State.txd (s : State) (bitTime : Nat) : Level :=
  if s.resetHeld then .high
  else
    match s.txByte with
    | none => .high
    | some b => if (byteBits b).getD bitTime true then .high else .low

/-- The engine has a quiet gap of so many bit times running (R71). -/
def State.quietGapBits (s : State) : Option Nat :=
  match s.line.engine with
  | .quiet g => some g
  | _ => none

/-- The answer deadline held, in bit times (R68). -/
def State.deadlineBits (s : State) : Nat := s.line.deadline

/-- The period the timer runs with, in units of 8 µs; none while it is idle (R44). -/
def State.periodUnits (s : State) : Option Nat := s.seq.timer

end Sys2Proof.Machine
end

