-- ==== Sys2Proof/Machine/Images.lean ====
section
/-! DEFINITION. The image store (section 4): what changes an entry's output copies and input record. -/

namespace Sys2Proof.Machine

/-- COMMIT's copy of all eight working words into the committed copy (R83). -/
def Image.commitOutputs (im : Image) : Image := { im with committed := im.working }

/-- The masked bits of a word replaced by those of a value; the others kept (R98). -/
def replaceBits (old mask value : Word) : Word := (old &&& ~~~mask) ||| (value &&& mask)

/-- A watch drive on word n: the masked bits replaced in both copies, each keeping its other bits (R98). -/
def Image.drive (im : Image) (n : Nat) (mask value : Word) : Image :=
  { im with
    working := setWord im.working n (replaceBits (wordAt im.working n) mask value)
    committed := setWord im.committed n (replaceBits (wordAt im.committed n) mask value) }

/-- The commit of a GOOD EXCHANGE answer to the input record, as one action (R90): the payload's first in_len words,
0000H beyond them, generation raised, age 0, fresh and commit mark set. -/
def Image.commitInput (im : Image) (inLen : Nat) (payload : List Word) : Image :=
  { im with
    input := padWords (payload.take inLen)
    generation := im.generation + 1#8
    age := 0#8
    fresh := true
    commitMark := true }

/-- A REFUSED answer or a failure clears the fresh flag (R91). -/
def Image.clearFresh (im : Image) : Image := { im with fresh := false }

/-- The image store's part of a loss (R94). -/
def Image.loseLink (im : Image) (substitute : Bool) : Image :=
  if substitute then { im with fresh := false, input := zeroWords, generation := im.generation + 1#8 }
  else { im with fresh := false }

/-- The image store's part of a soft reset (R101). -/
def Image.softReset (im : Image) : Image := { im with fresh := false, age := 255#8, commitMark := false }

/-- The age of an entry at a cycle end: raised, saturating at 255, if the entry is not OFF and was not committed in the
cycle (R93). -/
def Image.advanceAge (im : Image) (link : LinkState) : Image :=
  if link = .off ∨ im.commitMark then im else { im with age := satInc im.age }

/-- Step 1 of a cycle end over all entries (R40, R93). -/
def advanceAges (s : State) : State :=
  { s with images := Vector.ofFn fun e => (s.image e).advanceAge (s.entry e).link }

/-- The commit marks of all entries cleared, at each cycle start (R80, R93). -/
def clearCommitMarks (s : State) : State :=
  { s with images := s.images.map fun im => { im with commitMark := false } }

/-- The payload of an EXCHANGE call: the first out_len words of the working copy (AUTO) or of the committed copy
(GATED), as one snapshot (R84). -/
def Image.payload (im : Image) (mode : CommitMode) (outLen : Nat) : List Word :=
  match mode with
  | .auto => firstWords im.working outLen
  | .gated => firstWords im.committed outLen

/-- What FREEZE copies of an entry, as one action (R96). -/
def frozen (e : EntryIdx) (x : Entry) (im : Image) : FreezeWindow where
  entry := BitVec.ofNat 8 e
  link := x.link
  fresh := im.fresh
  generation := im.generation
  age := im.age
  inLen := x.inLen
  words := im.input

end Sys2Proof.Machine
end

