-- ==== Sys2Proof/Machine/Watches.lean ====
section
/-! DEFINITION. The watch unit (section 7): arming, evaluation at a commit, persistence, triggers and actions. -/

namespace Sys2Proof.Machine

/-- The eight conditions (Table 7-3). -/
inductive Condition where
  | eq
  | ne
  | hi
  | ls
  | pl
  | mi
  | any
  | none
  deriving DecidableEq, Repr

/-- The condition a stored code names; codes 8 to 15 name none (Table 10-2). -/
def conditionOf (code : BitVec 4) : Option Condition :=
  match code.toNat with
  | 0 => some .eq
  | 1 => some .ne
  | 2 => some .hi
  | 3 => some .ls
  | 4 => some .pl
  | 5 => some .mi
  | 6 => some .any
  | 7 => some .none
  | _ => Option.none

/-- Whether a condition holds of the masked word m against the reference v, with D the difference m - v modulo 65536
(R143, R144, Table 7-3). -/
def Condition.holds (c : Condition) (m v : Word) : Bool :=
  match c with
  | .eq => decide (m - v = 0#16)
  | .ne => decide (m - v ≠ 0#16)
  | .hi => decide (v.toNat < m.toNat)
  | .ls => decide (m.toNat ≤ v.toNat)
  | .pl => !(m - v).msb
  | .mi => (m - v).msb
  | .any => decide (m ≠ 0#16)
  | .none => decide (m = 0#16)

/-- The masked word M of an observed word W (R143). -/
def Watch.masked (w : Watch) (observed : Word) : Word := observed &&& w.mask

/-- The candidate of an evaluation (R144). An armed watch has a valid condition (R136); a code that names none gives no
candidate (log 18). -/
def Watch.candidateFor (w : Watch) (observed : Word) : Option Bool :=
  (conditionOf w.condition).map fun c => c.holds (w.masked observed) w.reference

/-- The settled outcome a candidate stands for. -/
def WatchOutcome.ofBool (b : Bool) : WatchOutcome := if b then .isTrue else .isFalse

/-- Whether a change of outcome to the candidate c matches the watch's trigger (R146; codes of Table 10-2). -/
def Watch.triggers (w : Watch) (c : Bool) : Bool :=
  if w.trigger = 1#2 then c
  else if w.trigger = 2#2 then !c
  else decide (w.trigger = 3#2)

/-- The run count that a candidate differing from the outcome reaches (R145, second and third rows). -/
def Watch.runReached (w : Watch) (c : Bool) : Nat := if w.candidate = c then w.run.toNat + 1 else 1

/-- Whether a candidate changes the watch's outcome (R145): it differs from it and the run reached is the persistence. -/
def Watch.changes (w : Watch) (c : Bool) : Bool :=
  decide (w.outcome ≠ WatchOutcome.ofBool c) && decide (w.persistence.toNat ≤ w.runReached c)

/-- The watch after a candidate has been counted (R145). -/
def Watch.count (w : Watch) (c : Bool) : Watch :=
  if w.outcome = WatchOutcome.ofBool c then { w with run := 0#2 }
  else if w.persistence.toNat ≤ w.runReached c then
    { w with candidate := c, run := 0#2, outcome := WatchOutcome.ofBool c }
  else { w with candidate := c, run := BitVec.ofNat 2 (w.runReached c) }

/-- Whether a candidate fires the watch: it changes the outcome and the change matches the trigger (R146). -/
def Watch.firesOn (w : Watch) (c : Bool) : Bool := w.changes c && w.triggers c

/-- The fire count raised, saturating at 255 (R146). -/
def Watch.raiseFires (w : Watch) : Watch := { w with fires := satInc w.fires }

/-- A watch set UNKNOWN with run count 0, its pending candidate and fire count kept (R140, R141, R151). -/
def Watch.forget (w : Watch) : Watch := { w with outcome := .unknown, run := 0#2 }

/-- The WATCH event of a firing (R147). -/
def watchPost (n : WatchIdx) (c : Bool) (observed : Word) (e : EntryIdx) : Post :=
  { kind := .watch, subject := BitVec.ofNat 8 n, p1 := BitVec.ofNat 8 (WatchOutcome.ofBool c).code
    d0 := observed, d1 := BitVec.ofNat 16 e }

/-- The HOLD action (R47, R148): hold pending set; the watch recorded if the flag was clear. -/
def Sequencer.hold (q : Sequencer) (n : WatchIdx) : Sequencer :=
  if q.holdPending then q else { q with holdPending := true, holder := some n }

/-- The DRIVE action on the drive entry's output copies (R98, R149). An armed watch with DRIVE has a valid drive entry
(R139). -/
def drive (w : Watch) (s : State) : State :=
  match entryOf w.driveEntry.toNat with
  | some t => s.setImage t ((s.image t).drive w.driveWord.toNat w.driveMask w.driveValue)
  | none => s

/-- The actions of a firing: POST, HOLD and DRIVE, each if it is selected (R146). -/
def fire (n : WatchIdx) (w : Watch) (c : Bool) (observed : Word) (e : EntryIdx) (s : State) : State :=
  let s := if w.actPost then post (watchPost n c observed e) s else s
  let s := if w.actHold then s.setSeq (s.seq.hold n) else s
  if w.actDrive then drive w s else s

/-- Whether watch n is evaluated at a commit of entry e: armed, observing e, and e not OFF (R142). -/
def isEvaluated (s : State) (e : EntryIdx) (w : Watch) : Bool :=
  w.armed && decide (w.entry = BitVec.ofNat 8 e) && decide ((s.entry e).link ≠ .off)

/-- The evaluation of watch n at a commit of entry e, as one action (R142 to R146): skipped where its word index is not
below in_len; otherwise counted, and fired where the change matches its trigger. -/
def evalWatch (e : EntryIdx) (n : WatchIdx) (s : State) : State :=
  let w := s.watch n
  if isEvaluated s e w && decide (w.word.toNat < (s.entry e).inLen.toNat) then
    let observed := wordAt (s.image e).input w.word.toNat
    match w.candidateFor observed with
    | none => s
    | some c =>
      if w.firesOn c then fire n w c observed e (s.setWatch n (w.count c).raiseFires)
      else s.setWatch n (w.count c)
  else s

/-- The watch unit's part of a loss or a DISABLE: every armed watch on the entry set UNKNOWN with run count 0 (R141). -/
def forgetWatches (e : EntryIdx) (s : State) : State :=
  { s with watches := s.watches.map fun w => if w.armed && decide (w.entry = BitVec.ofNat 8 e) then w.forget else w }

/-- The examination of ARM_WATCH (R139 step 3). -/
def Watch.valid (w : Watch) : Bool :=
  decide (w.entry.toNat ≤ 39) && decide (w.word.toNat ≤ 7) && (conditionOf w.condition).isSome
    && decide (w.trigger ≠ 0#2) && decide (1 ≤ w.persistence.toNat) && decide (w.persistence.toNat ≤ 4)
    && (w.actPost || w.actHold || w.actDrive)
    && (!w.actDrive || (decide (w.driveEntry.toNat ≤ 39) && decide (w.driveWord.toNat ≤ 7)))

/-- A watch as an accepted ARM_WATCH leaves it (R139 step 4). -/
def Watch.arm (w : Watch) : Watch :=
  { w with armed := true, outcome := .unknown, candidate := false, run := 0#2, fires := 0#8 }

/-- ARM_WATCH (R139). -/
def runArmWatch (s : State) : Reply :=
  match watchOf s.port.argument.toNat with
  | none => .only s .badArg
  | some n =>
    if (s.watch n).armed then .only s .ok
    else if (s.watch n).valid = false then .only s .badArg
    else .only (s.setWatch n (s.watch n).arm) .ok

/-- DISARM_WATCH (R140). -/
def runDisarmWatch (s : State) : Reply :=
  match watchOf s.port.argument.toNat with
  | none => .only s .badArg
  | some n =>
    if (s.watch n).armed then .only (s.setWatch n { (s.watch n).forget with armed := false }) .ok
    else .only s .ok

/-- The watch unit's part of a soft reset (R151). -/
def Watch.softReset (w : Watch) : Watch := w.forget

end Sys2Proof.Machine
end

