-- ==== Sys2Proof/Machine/Roster.lean ====
section
/-! DEFINITION. The roster and link supervisor (section 1): the validity check, ENABLE and DISABLE, the link state
machine, toggle and resync, the counters. -/

namespace Sys2Proof.Machine

/-- The validity check of an entry's stored configuration (R4). -/
def Entry.valid (x : Entry) : Bool :=
  decide (1 ≤ x.address.toNat) && decide (x.address.toNat ≤ 239)
    && (decide (x.divisor = 1#4) || decide (x.divisor = 2#4) || decide (x.divisor = 4#4) || decide (x.divisor = 8#4))
    && decide (x.phase.toNat < x.divisor.toNat)
    && decide (x.retryLimit.toNat ≤ 3)
    && decide (1 ≤ x.lossLimit.toNat)
    && decide (x.outLen.toNat ≤ 8)
    && decide (x.inLen.toNat ≤ 8)

/-- An entry as an accepted ENABLE leaves it, and as soft reset leaves every entry that is not OFF (R22, R28). -/
def Entry.toAwait (x : Entry) : Entry :=
  { x with link := .await, miss := 0#4, resync := true, nextToggle := true, probe := 0#4 }

/-- Whether another entry that is not OFF holds the same station address (R21 step 5), which keeps two enabled entries from
holding one address (R65). -/
def addressTaken (s : State) (e : EntryIdx) : Bool :=
  (List.finRange 40).any fun j =>
    decide (j ≠ e) && decide ((s.entry j).link ≠ .off) && decide ((s.entry j).address = (s.entry e).address)

/-- ENABLE (R21, R22). -/
def runEnable (s : State) : Reply :=
  match entryOf s.port.argument.toNat with
  | none => .only s .badArg
  | some e =>
    let x := s.entry e
    if x.link ≠ .off then .only s .ok
    else if x.valid = false then .only s .badArg
    else if s.visitInFlight e then .only s .busy
    else if addressTaken s e then .only s .conflict
    else .only (post (linkPost e .off .await) (s.setEntry e x.toAwait)) .ok

/-- An entry as DISABLE leaves it: OFF, miss count 0, and the probe count 0 if it was LOST (R23). -/
def Entry.disable (x : Entry) : Entry :=
  { x with link := .off, miss := 0#4, probe := if x.link = .lost then 0#4 else x.probe }

/-- The try that waits, after a DISABLE of entry e: a visit that the roster pass was to begin falls away (R22, R23;
log 5). -/
def Request.withdraw (e : EntryIdx) : Request → Request
  | .visit .pass e' k => if e' = e then .passOn else .visit .pass e' k
  | r => r

/-- The waiting try withdrawn if it is the pass's visit to entry e. -/
def withdrawVisit (e : EntryIdx) (s : State) : State :=
  s.setLine { s.line with waiting := s.line.waiting.map (Request.withdraw e) }

/-- DISABLE (R23): the entry OFF at once, its attention item removed (R128), its watches UNKNOWN (R141), LINK posted. -/
def runDisable (s : State) : Reply :=
  match entryOf s.port.argument.toNat with
  | none => .only s .badArg
  | some e =>
    let x := s.entry e
    if x.link = .off then .only s .ok
    else
      .only
        (post (linkPost e x.link .off)
          (forgetWatches e (removeAttention e (withdrawVisit e (s.setEntry e x.disable))))) .ok

/-- The three counters of an entry cleared (R25). -/
def Entry.clearCounters (x : Entry) : Entry := { x with retries := 0#8, failedVisits := 0#8, losses := 0#8 }

/-- CLEAR_COUNTERS (R25). -/
def runClearCounters (s : State) : Reply :=
  if s.port.argument = 0xFF#16 then
    .only { s with
      roster := s.roster.map Entry.clearCounters
      seq := { s.seq with overruns := 0#8 }
      line := { s.line with strayBytes := 0#16, lineFaults := 0#8 } } .ok
  else
    match entryOf s.port.argument.toNat with
    | none => .only s .badArg
    | some e => .only (s.setEntry e (s.entry e).clearCounters) .ok

/-! ### Visit outcomes (R9 to R19) -/

/-- A toggled call is a READ, a WRITE or an ATTEND (Table 3-2). -/
def CallKind.toggled : CallKind → Bool
  | .read => true
  | .write => true
  | .attend => true
  | .exchange => false
  | .reset => false
  | .sync => false

/-- The toggle memory after a successful visit: inverted by a toggled call, 1 after a RESET, which also clears the
resync flag; an EXCHANGE leaves both (R18, R19). -/
def Entry.toggleSuccess (x : Entry) (k : CallKind) : Entry :=
  if k.toggled then { x with nextToggle := !x.nextToggle }
  else if k = .reset then { x with nextToggle := true, resync := false }
  else x

/-- The resync flag after a failed visit: set by a toggled call, and by a RESET to an entry that is not LOST (R15, R19). -/
def Entry.resyncFailure (x : Entry) (k : CallKind) : Entry :=
  if k.toggled || (decide (k = .reset) && decide (x.link ≠ .lost)) then { x with resync := true } else x

/-- The link state and counts after a successful visit (R11, R12, R13, R15). An entry leaves LOST on a RESET only. -/
def Entry.linkSuccess (x : Entry) (k : CallKind) : Entry :=
  match x.link with
  | .off => x
  | .lost => if k = .reset then { x with link := .await, miss := 0#4, probe := 0#4 } else x
  | .await => { x with link := .online, miss := 0#4 }
  | .online => { x with link := .online, miss := 0#4 }
  | .suspect => { x with link := .online, miss := 0#4 }

/-- Whether one more failure takes the entry to LOST (R11, R12, R13). -/
def Entry.losesNow (x : Entry) : Bool :=
  match x.link with
  | .off => false
  | .lost => false
  | .await => decide (x.miss.toNat + 1 = x.lossLimit.toNat)
  | .online => decide (x.lossLimit = 1#4)
  | .suspect => decide (x.miss.toNat + 1 = x.lossLimit.toNat)

/-- An entry on entry into LOST (R14). -/
def Entry.lose (x : Entry) : Entry :=
  { x with link := .lost, miss := x.lossLimit, probe := 0#4, losses := satInc x.losses }

/-- The link state and miss count after a failure that does not lose the link (R11, R12, R13, R15). -/
def Entry.linkFailure (x : Entry) : Entry :=
  match x.link with
  | .off => x
  | .lost => x
  | .await => { x with miss := x.miss + 1#4 }
  | .online => { x with link := .suspect, miss := 1#4 }
  | .suspect => { x with miss := x.miss + 1#4 }

/-- A LINK event if the link state has changed (R26). -/
def postLinkChange (e : EntryIdx) (old new : LinkState) (s : State) : State :=
  if old = new then s else post (linkPost e old new) s

/-- The roster's application of a success (R9, R11 to R15, R18, R19). -/
def applySuccess (e : EntryIdx) (k : CallKind) (s : State) : State :=
  let x := s.entry e
  let y := (x.toggleSuccess k).linkSuccess k
  postLinkChange e x.link y.link (s.setEntry e y)

/-- The failed-visits counter raised (R24). -/
def Entry.raiseFailed (x : Entry) : Entry := { x with failedVisits := satInc x.failedVisits }

/-- The roster's application of a failure (R9, R11 to R15, R19, R24). On entry into LOST each neighbouring block applies
its part before the LINK event (R14, R94, R128, R141). -/
def applyFailure (e : EntryIdx) (k : CallKind) (s : State) : State :=
  let x := s.entry e
  let y := (x.resyncFailure k).raiseFailed
  if x.losesNow then
    let s := s.setEntry e y.lose
    let s := forgetWatches e (removeAttention e s)
    let s := s.setImage e ((s.image e).loseLink x.substitute)
    post (linkPost e x.link .lost) s
  else
    postLinkChange e x.link y.linkFailure.link (s.setEntry e y.linkFailure)

/-- The roster's application of an abandonment (R16): the resync flag set for a toggled call or a RESET. An entry that is
OFF has the visit's outcome discarded instead (R10; log 8). -/
def applyAbandon (e : EntryIdx) (k : CallKind) (s : State) : State :=
  let x := s.entry e
  if (k.toggled || decide (k = .reset)) && decide (x.link ≠ .off) then s.setEntry e { x with resync := true } else s

/-- The roster's part of a soft reset (R28). -/
def Entry.softReset (x : Entry) : Entry := if x.link = .off then x else x.toAwait

/-- The retry counter raised as a retry is begun (R24, R73). -/
def Entry.raiseRetries (x : Entry) : Entry := { x with retries := satInc x.retries }

end Sys2Proof.Machine
end

