-- ==== Sys2Proof/Machine/Frames.lean ====
section
/-! DEFINITION. Call and answer frames (section 3.2, section 10.8): the CRC, the assembly of a call, the check and the
classification of an answer. -/

namespace Sys2Proof.Machine

/-- One bit of the CRC register's shift with the generator x^16 + x^12 + x^5 + 1 (R61). -/
def crcShift (r : Word) : Word := if r.msb then (r <<< 1) ^^^ 0x1021#16 else r <<< 1

/-- One byte taken into the CRC register, most significant bit first (R61). -/
def crcByte (r : Word) (b : Byte) : Word :=
  crcShift (crcShift (crcShift (crcShift (crcShift (crcShift (crcShift (crcShift
    (r ^^^ (b.setWidth 16 <<< 8)))))))))

/-- The check over the covered bytes: the register starts at FFFFH and is sent without inversion (R61). -/
def crc (covered : List Byte) : Word := covered.foldl crcByte 0xFFFF#16

/-- The high byte of a word, which is sent first (00_scope.md 1.6). -/
def highByte (w : Word) : Byte := w.extractLsb' 8 8

/-- The low byte of a word. -/
def lowByte (w : Word) : Byte := w.extractLsb' 0 8

/-- A word on the line: high byte first (R59). -/
def wordBytes (w : Word) : List Byte := [highByte w, lowByte w]

/-- The words a run of bytes carries, high byte first (R60). -/
def bytesWords : List Byte → List Word
  | hi :: lo :: rest => (hi ++ lo) :: bytesWords rest
  | [_] => []
  | [] => []

/-- The control byte of a call: kind code in bits 2 to 0, toggle in bit 7, bits 6 to 3 sent as 0 (Table 10-12, R183). -/
def controlByte (k : CallKind) (toggle : Bool) : Byte :=
  BitVec.ofNat 8 k.code ||| (if toggle then 0x80#8 else 0#8)

/-- What a call carries beside its address (Table 3-2): object and payload. -/
structure CallContent where
  object : Option Byte := none
  payload : List Word := []
  deriving DecidableEq, Repr

/-- The bytes of a call that its check covers: address, control, length, object where present, payload (R61, R183). -/
def callCovered (address : Byte) (k : CallKind) (toggle : Bool) (c : CallContent) : List Byte :=
  [address, controlByte k toggle, BitVec.ofNat 8 c.payload.length] ++ c.object.toList
    ++ c.payload.flatMap wordBytes

/-- The bytes of a call frame, in the order they are sent (R59). -/
def callFrame (address : Byte) (k : CallKind) (toggle : Bool) (c : CallContent) : List Byte :=
  let body := callCovered address k toggle c
  Config.callMark :: body ++ wordBytes (crc body)

/-- The SYNC call of a cycle (R36, R62). -/
def syncFrame (cycle : Word) : List Byte :=
  callFrame Config.broadcastAddress .sync false { payload := [cycle] }

/-- The content of an errand's own call, taken from its slot (R62, R116). -/
def Slot.content (x : Slot) : CallContent :=
  match x.kind with
  | some .read => { object := some x.object }
  | some .write => { object := some x.object, payload := firstWords x.payload x.reqLen.toNat }
  | some .reset => {}
  | none => {}

/-- The content of the call of a visit, supplied by the block it is made for (R62, R84, R116). -/
def visitContent (s : State) (role : Role) (e : EntryIdx) (k : CallKind) : CallContent :=
  match role with
  | .pass =>
    if k = .exchange then { payload := (s.image e).payload (s.entry e).commitMode (s.entry e).outLen.toNat } else {}
  | .errandOwn slot => (s.slot slot).content
  | .errandResync _ => {}
  | .attnResync => {}
  | .attnOwn => {}

/-- The toggle of a visit's calls: the entry's next-toggle in a toggled call, 0 in every other (R63). -/
def visitToggle (x : Entry) (k : CallKind) : Bool := k.toggled && x.nextToggle

/-- A visit as it begins: what the engine takes from the entry (R6, R63, R73) and the call assembled (R66). -/
def startVisit (s : State) (role : Role) (e : EntryIdx) (k : CallKind) : Visit where
  entry := e
  role := role
  kind := k
  address := (s.entry e).address
  toggle := visitToggle (s.entry e) k
  retryLimit := (s.entry e).retryLimit
  outLen := (s.entry e).outLen
  inLen := (s.entry e).inLen
  frame := callFrame (s.entry e).address k (visitToggle (s.entry e) k) (visitContent s role e k)
  unaccepted := 0

/-! ### Answers -/

/-- The outcome of a try (Table 3-4). An accepted try keeps its ATTN flag and its payload (R70, R76). -/
inductive TryOutcome where
  | good (attn : Bool) (payload : List Word)
  | refused (attn : Bool)
  | silent
  | garbled
  | stray
  | mismatch
  deriving DecidableEq, Repr

/-- The bytes an answer has in all, once its length byte is known (R60, R69). -/
def answerSize (length : Byte) : Nat := 6 + 2 * length.toNat

/-- Whether an answer's length is valid for the call's kind and the REFUSE flag (Table 3-2). -/
def lengthValid (k : CallKind) (inLen : Nat) (refuse : Bool) (n : Nat) : Bool :=
  if refuse then decide (n = 0)
  else
    match k with
    | .exchange => decide (n = inLen)
    | .read => decide (n ≤ 8)
    | .write => decide (n = 0)
    | .attend => decide (1 ≤ n) && decide (n ≤ 3)
    | .reset => decide (n = 0)
    | .sync => false

/-- The status byte's fields (Table 10-13, R183). -/
def kindEcho (status : Byte) : Nat := (status.extractLsb' 0 3).toNat

def toggleEcho (status : Byte) : Bool := status.getLsbD 7

def attnFlag (status : Byte) : Bool := status.getLsbD 5

def refuseFlag (status : Byte) : Bool := status.getLsbD 6

/-- The check of a complete answer: the CRC over bytes 1 to 3 and the payload equals the last two bytes, high byte first
(R61, R69, R183). -/
def answerCheckGood (bytes : List Byte) : Bool :=
  decide (bytes.drop (bytes.length - 2) = wordBytes (crc ((bytes.take (bytes.length - 2)).drop 1)))

/-- The payload words of a complete answer (R60). -/
def answerPayload (bytes : List Byte) : List Word := bytesWords ((bytes.take (bytes.length - 2)).drop 4)

/-- Steps 4 to 7 of the classification of a complete answer with a correct check (R70, Table 3-4, R183). A kept answer that a
station gives again to a call of another kind is a MISMATCH by its kind echo (R64). -/
def classify (v : Visit) (bytes : List Byte) : TryOutcome :=
  let echo := bytes.getD 1 0#8
  let status := bytes.getD 2 0#8
  let length := (bytes.getD 3 0#8).toNat
  if echo ≠ v.address then .stray
  else if kindEcho status ≠ v.kind.code ∨ toggleEcho status ≠ v.toggle
      ∨ lengthValid v.kind v.inLen.toNat (refuseFlag status) length = false then .mismatch
  else if refuseFlag status then .refused (attnFlag status)
  else .good (attnFlag status) (answerPayload bytes)

/-- What the answer receiver does with the bytes taken so far, the last of them just taken (R69). -/
inductive Reception where
  /-- The frame is not complete yet. -/
  | more
  /-- Reception ends with an outcome. -/
  | ends (o : TryOutcome)
  deriving DecidableEq, Repr

/-- The answer receiver after one more byte (R69): a bad mark, a low stop bit or a length above 8 ends reception at that
byte as GARBLED; the last check byte ends it with the check and the classification. Answers that collide on the line are
judged by the bytes that come of it, like any other (R65). -/
def receive (v : Visit) (bytes : List Byte) (framingFault : Bool) : Reception :=
  if framingFault then .ends .garbled
  else if bytes.length = 1 ∧ bytes.getD 0 0#8 ≠ Config.answerMark then .ends .garbled
  else if bytes.length = 4 ∧ Config.maxPayloadWords < (bytes.getD 3 0#8).toNat then .ends .garbled
  else if 4 ≤ bytes.length ∧ bytes.length = answerSize (bytes.getD 3 0#8) then
    if answerCheckGood bytes then .ends (classify v bytes) else .ends .garbled
  else .more

end Sys2Proof.Machine
end

