-- ==== Sys2Proof/Machine/Cycle.lean ====
section
/-! DEFINITION. The cycle sequencer and the errand window arbiter (sections 2 and 5.5): tries and visits begun, the
roster pass, the window, the cycle start and the cycle end, abandonment and the line fault; the ends of visits stand in
Visits.lean. A step runs on until the
line has to answer, so a cycle start, a pass over entries that are not due, an empty window and a cycle end may all fall
within one step (95_what_each_step_holds.md). -/

namespace Sys2Proof.Machine

/-! ### Tries -/

/-- The engine's state replaced. -/
def setEngine (g : Engine) (s : State) : State := s.setLine { s.line with engine := g }

/-- The retry counter of the entry of the visit in flight raised, as a retry is begun (R24, R73). -/
def countRetry (s : State) : State :=
  match s.calledEntry with
  | some e => s.setEntry e (s.entry e).raiseRetries
  | none => s

/-- The call that a try sends: the SYNC call (R36), the call assembled at a visit's first try (R66), or the call of the
visit in flight once more (R73, R74). -/
def Request.job (s : State) : Request → Option Job
  | .sync => some (.sync (syncFrame s.seq.cycle))
  | .visit role e k => some (.visit (startVisit s role e k))
  | .passOn => s.line.job
  | .retry => s.line.job
  | .repeatTry => s.line.job

/-- A try begun: its call goes out from the first byte (R66). -/
def beginTry (r : Request) (s : State) : State :=
  let s := if r = .retry then countRetry s else s
  s.setLine { s.line with engine := .sending 0, job := r.job s, waiting := none }

/-- A try requested by the sequencer: taken at once in IDLE, and otherwise waiting for the quiet gap to end (R66). -/
def requestTry (r : Request) (s : State) : State :=
  match s.line.engine with
  | .idle => beginTry r s
  | _ => s.setLine { s.line with waiting := some r }

/-! ### Cycle start, roster pass, window, cycle end -/

/-- Whether cycle c considers an entry: c modulo its divisor equals its phase (R7, R8). -/
def Entry.considered (x : Entry) (c : Word) : Bool := decide (c.toNat % x.divisor.toNat = x.phase.toNat)

/-- The pass over the indices still to come, up to the first visit it begins (R7, R8, R37): the state with the probe
counts raised on the way, and the visit, none when index 39 has been dealt with. -/
def passOver : List EntryIdx → State → State × Option (EntryIdx × CallKind)
  | [], s => (s, none)
  | e :: rest, s =>
    let x := s.entry e
    if x.considered s.seq.cycle = false then passOver rest s
    else
      match x.link with
      | .off => passOver rest s
      | .await => (s, some (e, .exchange))
      | .online => (s, some (e, .exchange))
      | .suspect => (s, some (e, .exchange))
      | .lost =>
        if probeSpacingOf s.cfg.probeSpacing ≤ x.probe.toNat + 1 then
          (s.setEntry e { x with probe := 0#4 }, some (e, .reset))
        else passOver rest (s.setEntry e { x with probe := x.probe + 1#4 })

/-- The indices from n on, in ascending order. -/
def indicesFrom (n : Nat) : List EntryIdx := (List.finRange 40).drop n

/-- Whether the head errand can be called (R111). -/
def callable (s : State) (x : Slot) : Bool :=
  match x.kind with
  | none => false
  | some .reset => decide ((s.entry x.entry).link ≠ .off)
  | some .read => decide ((s.entry x.entry).link ≠ .off) && decide ((s.entry x.entry).link ≠ .lost)
  | some .write => decide ((s.entry x.entry).link ≠ .off) && decide ((s.entry x.entry).link ≠ .lost)

/-- The errands at the head of the queue that cannot be called, completed with NO_LINK one after the other (R111). The
list is the queue as it stands. -/
def completeUncallable : List SlotIdx → State → State
  | [], s => s
  | k :: rest, s =>
    if callable s (s.slot k) then s
    else completeUncallable rest (completeSlot k .noLink (s.setErrand { s.errand with queue := rest }))

/-- What every pick changes: the remaining budget, the window-transaction tally and the turn (R112). -/
def countPick (next : Turn) (s : State) : State :=
  let s := s.setErrand { s.errand with budgetLeft := s.errand.budgetLeft - 1, turn := next }
  s.setSeq { s.seq with transactions := s.seq.transactions + 1 }

/-- The own visit of the errand in slot k asked for (R116). -/
def requestOwn (k : SlotIdx) (s : State) : State :=
  match (s.slot k).kind with
  | some kind => requestTry (.visit (.errandOwn k) (s.slot k).entry kind.call) s
  | none => s

/-- Whether the errand's call needs a resync RESET first (R20, R114), which also keeps a toggled call from meeting a kept
answer of another kind (R64). -/
def needsResync (s : State) (x : Slot) : Bool :=
  (decide (x.kind = some .read) || decide (x.kind = some .write)) && (s.entry x.entry).resync

/-- An errand picked and activated: its number leaves the queue, the slot becomes ACTIVE and the transaction begins, with the
resync RESET in front of a toggled call to an entry in doubt (R20, R112, R114). -/
def pickErrand (k : SlotIdx) (s : State) : State :=
  let s := leaveQueue k (countPick .attention s)
  let s := s.setSlot k { s.slot k with state := .active }
  if needsResync s (s.slot k) then requestTry (.visit (.errandResync k) (s.slot k).entry .reset) s
  else requestOwn k s

/-- An attention item picked: the service mark set on it and the transaction begun, with the resync RESET in front of the
ATTEND call to an entry in doubt (R20, R112, R129). -/
def pickAttention (e : EntryIdx) (s : State) : State :=
  let s := countPick .errand s
  let s := s.setAttn { s.attn with mark := some e }
  if (s.entry e).resync then requestTry (.visit .attnResync e .reset) s
  else requestTry (.visit .attnOwn e .attend) s

/-- One look of the arbiter at the lists (R111, R112, R113); `finish` is what follows the end of the window. -/
def arbiterLook (finish : State → State) (s : State) : State :=
  let s := completeUncallable s.errand.queue s
  if s.errand.budgetLeft = 0 then finish s
  else
    match s.errand.queue, s.attn.items with
    | [], [] => finish s
    | k :: _, [] => pickErrand k s
    | [], e :: _ => pickAttention e s
    | k :: _, e :: _ =>
      match s.errand.turn with
      | .errand => pickErrand k s
      | .attention => pickAttention e s

/-- The window opened: phase WINDOW, the remaining budget set, and the arbiter's first look (R39, R110). -/
def openWindow (finish : State → State) (s : State) : State :=
  let s := s.setSeq { s.seq with phase := .window }
  arbiterLook finish (s.setErrand { s.errand with budgetLeft := s.errand.budget })

/-- The roster pass taken up at the given indices, to its next visit or to the window (R37). -/
def passFrom (finish : State → State) (l : List EntryIdx) (s : State) : State :=
  match passOver l s with
  | (s, some (e, k)) => requestTry (.visit .pass e k) (s.setSeq { s.seq with passPos := e })
  | (s, none) => openWindow finish s

/-- The ROSTER phase begun at index 0 (R35, R36, R37). -/
def beginRoster (finish : State → State) (s : State) : State :=
  passFrom finish (indicesFrom 0) (s.setSeq { s.seq with phase := .roster, passPos := 0 })

/-- The sequencer at a cycle start (R35): steps 1 to 5, and the FREE minimum measured anew (R42). -/
def Sequencer.startCycle (q : Sequencer) : Sequencer :=
  { q with
    state := .running
    cycle := q.cycle + 1#16
    visits := 0
    failedVisits := 0
    transactions := 0
    missed := 0
    holder := none
    cyc := true
    freeMinPassed := false
    passPos := 0 }

/-- A cycle start (R35), with the commit marks cleared (R80, R93); then the SYNC call if sync is enabled (R36), and the
roster pass if it is not. -/
def startCycle (finish : State → State) (s : State) : State :=
  let s := clearCommitMarks (s.setSeq s.seq.startCycle)
  if s.cfg.syncEnable then requestTry .sync (s.setSeq { s.seq with phase := .sync })
  else beginRoster finish s

/-- Step 2 of a cycle end: the head wait count raised, saturating at 255, if the queue holds a record (R40, R162). -/
def advanceHeadWait (s : State) : State :=
  if s.events.queue = [] then s else s.setEvents { s.events with headWait := satInc s.events.headWait }

/-- The CYCLE event of a cycle end (R43). -/
def cyclePost (q : Sequencer) : Post :=
  { kind := .cycle, subject := noSubject, d0 := BitVec.ofNat 16 q.visits, d1 := BitVec.ofNat 16 q.failedVisits
    d2 := BitVec.ofNat 16 q.transactions }

/-- Overrun accounting (R46). -/
def accountOverrun (s : State) : State :=
  if s.seq.missed = 0 then s
  else
    post { kind := .overrun, subject := noSubject, p1 := BitVec.ofNat 8 (min 255 s.seq.missed) }
      (s.setSeq { s.seq with overruns := satAdd s.seq.overruns s.seq.missed })

/-- The HOLD event of the first holding watch (R41). -/
def holdPost (holder : Option WatchIdx) : Post :=
  { kind := .hold, subject := match holder with | some n => BitVec.ofNat 8 n | none => noSubject }

/-- The sequencer become STOPPED from a run: the flags cleared, the timer idle, the phase NONE (R41, R44, R50). -/
def Sequencer.stopRun (q : Sequencer) : Sequencer :=
  { q with state := .stopped, phase := .none, stopPending := false, singleRun := false, holdPending := false, timer := none }

/-- The sequencer become WAITING (R41, R42). -/
def becomeWaiting (s : State) : State := s.setSeq { s.seq with state := .waiting, phase := .none }

/-- Whether the next cycle follows at once (R41 cases 3 and 4, R42): in PERIODIC mode after a missed expiry, in FREE
mode once the FREE minimum has passed. A single run does not come here (R34; log 18). -/
def nextAtOnce (s : State) : Bool :=
  match s.runMode with
  | .periodic => decide (0 < s.seq.missed)
  | .free => s.seq.freeMinPassed
  | .single => s.seq.freeMinPassed

/-- Step 5 of a cycle end (R41); `again` starts the next cycle. -/
def takeFlags (again : State → State) (s : State) : State :=
  if s.seq.stopPending || s.seq.singleRun then
    post (stoppedPost (if s.seq.stopPending then .stop else .single)) (s.setSeq s.seq.stopRun)
  else if s.seq.holdPending then
    post (holdPost s.seq.holder)
      (s.setSeq { s.seq with state := .held, phase := .none, holdPending := false, expiryInHold := false })
  else if nextAtOnce s then again s
  else becomeWaiting s

/-- A cycle end (R40), its five steps in order. -/
def finishCycle (again : State → State) (s : State) : State :=
  takeFlags again (accountOverrun (post (cyclePost s.seq) (advanceHeadWait (advanceAges s))))

/-- The end of a cycle that began earlier in the same step. It finds no missed expiry and the FREE minimum not passed,
so it never starts a further cycle (`nextAtOnce_after_start`). -/
def endSameStepCycle (s : State) : State := finishCycle becomeWaiting s

/-- The next cycle started (R35). -/
def startNextCycle (s : State) : State := startCycle endSameStepCycle s

/-- The end of the cycle in progress (R40). -/
def endCycle (s : State) : State := finishCycle startNextCycle s

/-- The arbiter's look after a transaction (R112). -/
def lookAgain (s : State) : State := arbiterLook endCycle s

/-- The pass taken on from the index after the pass position (R37, R38). -/
def continuePass (s : State) : State := passFrom endCycle (indicesFrom (s.seq.passPos.val + 1)) s

/-! ### Abandonment, line fault -/

/-- The engine at an abandonment (R51, R78): a call being sent is completed to the stop bit of its byte, an answer is no
longer awaited or received and a gap of 20 begins, a running gap continues. `byte` is the byte in progress. -/
def Engine.abandon (byte : Option Byte) : Engine → Engine
  | .idle => .idle
  | .sending _ => .remainder byte
  | .remainder rest => .remainder rest
  | .awaiting _ => .quiet Config.quietGapBits
  | .receiving _ _ => .quiet Config.quietGapBits
  | .quiet g => .quiet g

/-- The line engine and the roster at an abandonment (R16, R51, R78): the call ends, a waiting try is not begun, the
visit in flight is abandoned. -/
def abandonLine (s : State) : State :=
  let s' := s.setLine { s.line with engine := s.line.engine.abandon s.txByte, job := none, waiting := none }
  match s.visit with
  | some v => applyAbandon v.entry v.kind s'
  | none => s'

/-- Abandonment under HALT and entry into FAULTED (R51): the ACTIVE errand completes with ABORTED (R120), and the
attention item keeps its place with the service mark cleared (R133). DEDUCED (log 19), for a HALT between the pick of an
errand or of an attention item and the first try of its first visit, of which R120 and R133 do not speak: the transaction
ends in the same way, and the resync flag of its entry is left as it was. Unsafe. -/
def abandon (s : State) : State :=
  let s := abortActive (abandonLine s)
  s.setAttn { s.attn with mark := none }

/-- The index of the entry being called, FFH for the SYNC broadcast (R52). -/
def faultSubject (s : State) : Byte := entryByte s.calledEntry

/-- The sequencer become FAULTED (R52). -/
def Sequencer.fault (q : Sequencer) : Sequencer := { q.stopRun with state := .faulted, expiryInHold := false }

/-- The line fault limit reached (R52, R75), in the order R52 gives. -/
def lineFault (s : State) : State :=
  let subject := faultSubject s
  let s := abandon s
  let s := post { kind := .lineFault, subject := subject, p1 := BitVec.ofNat 8 Config.lineFaultLimit } s
  let s := post (stoppedPost .fault) s
  s.setSeq s.seq.fault

/-- A try ended as ECHO_FAULT (R67, R74, R75): no further byte goes out, the counts are raised, and the same call waits to
be sent again, unless the consecutive count has reached 3. `byte` is the byte at which the try ends, which is sent to its
stop bit. -/
def echoFault (byte : Option Byte) (s : State) : State :=
  let n := satInc s.line.echoFaults
  let s := s.setLine { s.line with engine := .remainder byte, echoFaults := n, lineFaults := satInc s.line.lineFaults }
  if n.toNat = Config.lineFaultLimit then lineFault s
  else s.setLine { s.line with waiting := some .repeatTry }

end Sys2Proof.Machine
end

