-- ==== Sys2Proof/Machine/Commands.lean ====
section
/-! DEFINITION. The commands of the sequencer, the image store, the event unit and the host port, and the command word
(section 9.2). -/

namespace Sys2Proof.Machine

/-! ### Sequencer commands (Table 2-2) -/

/-- Whether an accepted START makes a single run (R34). -/
def singleRunOf (argument : Word) (mode : RunMode) : Bool := decide (argument = 1#16) || decide (mode = .single)

/-- The period timer as an accepted START leaves it: running only in a continuous PERIODIC run (R34, R44). -/
def timerOf (argument : Word) (cfg : GlobalConfig) : Option Nat :=
  if singleRunOf argument (runModeOf cfg.runMode) then none
  else if runModeOf cfg.runMode = .periodic then some (periodOf cfg.period)
  else none

/-- The sequencer as an accepted START leaves it before its first cycle start (R33, R34). -/
def Sequencer.beginRun (q : Sequencer) (argument : Word) (cfg : GlobalConfig) : Sequencer :=
  { q with
    stopPending := false
    holdPending := false
    expiryInHold := false
    missed := 0
    singleRun := singleRunOf argument (runModeOf cfg.runMode)
    timer := timerOf argument cfg }

/-- What an accepted START loads (R33, R57, R68, R110): the line rate, the deadline and the budget; the consecutive echo
fault count becomes 0. -/
def loadRun (s : State) : State :=
  { s with
    seq := s.seq.beginRun s.port.argument s.cfg
    line := { s.line with rate := lineRateOf s.cfg.lineRate, deadline := deadlineOf s.cfg.deadline, echoFaults := 0#2 }
    errand := { s.errand with budget := budgetOf s.cfg.budget } }

/-- START (R33). -/
def runStart (s : State) : Reply :=
  match s.seq.state with
  | .faulted => .only s .refused
  | .running => .only s .busy
  | .waiting => .only s .busy
  | .held => .only s .busy
  | .stopped =>
    if s.port.argument ≠ 0#16 ∧ s.port.argument ≠ 1#16 then .only s .badArg
    else .only (startNextCycle (loadRun s)) .ok

/-- STOP in WAITING or HELD (R49): STOPPED at once with a STOPPED event of cause STOP. -/
def stopBetweenCycles (s : State) : State :=
  post (stoppedPost .stop)
    (s.setSeq { s.seq with state := .stopped, holdPending := false, expiryInHold := false, timer := none })

/-- STOP (R49). -/
def runStop (s : State) : Reply :=
  match s.seq.state with
  | .running => .only (s.setSeq { s.seq with stopPending := true }) .ok
  | .waiting => .only (stopBetweenCycles s) .ok
  | .held => .only (stopBetweenCycles s) .ok
  | .faulted => .only (s.setSeq { s.seq with state := .stopped }) .ok
  | .stopped => .only s .ok

/-- The sequencer as HALT leaves it (R50). -/
def Sequencer.halt (q : Sequencer) : Sequencer := { q.stopRun with expiryInHold := false }

/-- HALT (R50): no effect in STOPPED; otherwise the visit in flight abandoned as R51 states, then STOPPED with cause HALT. -/
def runHalt (s : State) : Reply :=
  if s.seq.state = .stopped then .only s .ok
  else
    let s' := abandon s
    .only (post (stoppedPost .halt) (s'.setSeq s'.seq.halt)) .ok

/-- RELEASE (R48), with the mark that the FREE minimum has passed (log 20). DESIGN CHOICE (log 18): with a stored run mode
SINGLE, in which no run is ever HELD and of which R48's table does not speak, RELEASE acts as in FREE. -/
def runRelease (s : State) : Reply :=
  if s.seq.state ≠ .held then .only s .notPending
  else
    match s.runMode with
    | .periodic =>
      if s.seq.expiryInHold then .only (startNextCycle (s.setSeq { s.seq with expiryInHold := false })) .ok
      else .only (becomeWaiting s) .ok
    | .free => .only (if s.seq.freeMinPassed then startNextCycle s else becomeWaiting s) .ok
    | .single => .only (if s.seq.freeMinPassed then startNextCycle s else becomeWaiting s) .ok

/-! ### Image store commands and bit ports -/

/-- COMMIT (R83). -/
def runCommit (s : State) : Reply :=
  match entryOf s.port.argument.toNat with
  | none => .only s .badArg
  | some e => .only (s.setImage e (s.image e).commitOutputs) .ok

/-- FREEZE (R96). -/
def runFreeze (s : State) : Reply :=
  match entryOf s.port.argument.toNat with
  | none => .only s .badArg
  | some e => .only { s with freeze := frozen e (s.entry e) (s.image e) } .ok

/-- The three bit ports (R87). -/
inductive BitPort where
  | set
  | clear
  | flip
  deriving DecidableEq, Repr

/-- The effect of a port on the target word (R87). -/
def BitPort.apply (p : BitPort) (old mask : Word) : Word :=
  match p with
  | .set => old ||| mask
  | .clear => old &&& ~~~mask
  | .flip => old ^^^ mask

/-- The offset of a port (Table 10-7). -/
def BitPort.offset : BitPort → Offset
  | .set => 0x029#11
  | .clear => 0x02A#11
  | .flip => 0x02B#11

/-- The target of the bit ports: entry and word, if the selector is valid (R88). -/
def Selector.target (t : Selector) : Option (EntryIdx × Nat) :=
  match entryOf t.entry.toNat with
  | some e => if t.word.toNat ≤ 7 then some (e, t.word.toNat) else none
  | none => none

/-- A write of a mask to a bit port (R87), or its refusal with BAD_TARGET (R88). -/
def portWrite (p : BitPort) (mask : Word) (s : State) : State :=
  match s.selector.target with
  | none => accessFault p.offset .badTarget s
  | some (e, n) =>
    let im := s.image e
    s.setImage e { im with working := setWord im.working n (p.apply (wordAt im.working n) mask) }

/-! ### Event unit and host port commands -/

/-- The OVERFLOW record's post (R159). -/
def overflowPost (dropped : Byte) : Post := { kind := .overflow, subject := noSubject, p1 := dropped }

/-- The event unit after POP has removed the head: the next record, if any, is the new head with head wait count 0, and
an OVERFLOW record is appended if posts were dropped (R158, R159). DEDUCED (log 7): the head wait count of a queue left
empty is 0 (R162). Unsafe. -/
def EventUnit.popHead (u : EventUnit) (cycle : Word) : EventUnit :=
  let u' := { u with queue := u.queue.tail, headWait := 0#8 }
  if u.dropped = 0#8 then u' else { u'.enqueue cycle (overflowPost u.dropped) with dropped := 0#8 }

/-- POP (R158). -/
def runPop (s : State) : Reply :=
  if s.events.queue = [] then .only s .empty
  else
    let u := s.events.popHead s.seq.cycle
    { state := s.setEvents u, outcome := .ok, value := BitVec.ofNat 8 u.queue.length }

/-- The fault record emptied and the fault count 0 (R173). -/
def HostPort.clearFault (p : HostPort) : HostPort := { p with fault := none, faultCount := 0#4 }

/-- CLEAR_FAULT (R173). -/
def runClearFault (s : State) : Reply := .only (s.setPort s.port.clearFault) .ok

/-- The sequencer's part of a soft reset (R55). -/
def Sequencer.softReset (q : Sequencer) : Sequencer :=
  { q.halt with cycle := 0#16, missed := 0, visits := 0, failedVisits := 0, transactions := 0, cyc := false }

/-- The event unit's part of a soft reset (R165). -/
def EventUnit.softReset (u : EventUnit) : EventUnit :=
  { u with queue := [], nextSeq := 0#16, dropped := 0#8, headWait := 0#8 }

/-- SOFT_RESET's action of the whole part (R176): the visit in flight abandoned, then every block's soft reset values. -/
def softResetAll (s : State) : State :=
  let s := abandonLine s
  { s with
    roster := s.roster.map Entry.softReset
    images := s.images.map Image.softReset
    seq := s.seq.softReset
    errand := s.errand.softReset
    attn := ⟨[], none⟩
    watches := s.watches.map Watch.softReset
    events := s.events.softReset
    port := s.port.clearFault }

/-- SOFT_RESET (R176). -/
def runSoftReset (s : State) : Reply := .only (softResetAll s) .ok

/-- A command word write whose code names no command: BAD_ARG with value 0 (R170). -/
def runUnknown (s : State) : Reply := .only s .badArg

/-- The command that a code of Table 10-2 names, executed (R170). -/
def runCode (code : Nat) : State → Reply :=
  match code with
  | 1 => runStart
  | 2 => runStop
  | 3 => runHalt
  | 4 => runRelease
  | 5 => runEnable
  | 6 => runDisable
  | 7 => runCommit
  | 8 => runFreeze
  | 9 => runPop
  | 10 => runSubmit
  | 11 => runCancel
  | 12 => runReleaseSlot
  | 13 => runArmWatch
  | 14 => runDisarmWatch
  | 15 => runClearCounters
  | 16 => runClearFault
  | 17 => runSoftReset
  | _ => runUnknown

/-- A host write to the command word (R170). -/
def commandWrite (written : Word) (s : State) : State := issue (runCode (commandCode written)) s

/-! ### The rows of the command word (R170) -/

/-- START (R33). -/
def execStart (s : State) : Host.Outcome State Fault Refusal := .next (whenLive (issue runStart) s)

/-- STOP (R49). -/
def execStop (s : State) : Host.Outcome State Fault Refusal := .next (whenLive (issue runStop) s)

/-- HALT (R50). -/
def execHalt (s : State) : Host.Outcome State Fault Refusal := .next (whenLive (issue runHalt) s)

/-- RELEASE (R48). -/
def execRelease (s : State) : Host.Outcome State Fault Refusal := .next (whenLive (issue runRelease) s)

/-- ENABLE (R21). -/
def execEnable (s : State) : Host.Outcome State Fault Refusal := .next (whenLive (issue runEnable) s)

/-- DISABLE (R23). -/
def execDisable (s : State) : Host.Outcome State Fault Refusal := .next (whenLive (issue runDisable) s)

/-- COMMIT (R83). -/
def execCommit (s : State) : Host.Outcome State Fault Refusal := .next (whenLive (issue runCommit) s)

/-- FREEZE (R96). -/
def execFreeze (s : State) : Host.Outcome State Fault Refusal := .next (whenLive (issue runFreeze) s)

/-- POP (R158). -/
def execPop (s : State) : Host.Outcome State Fault Refusal := .next (whenLive (issue runPop) s)

/-- SUBMIT (R105). -/
def execSubmit (s : State) : Host.Outcome State Fault Refusal := .next (whenLive (issue runSubmit) s)

/-- CANCEL (R107). -/
def execCancel (s : State) : Host.Outcome State Fault Refusal := .next (whenLive (issue runCancel) s)

/-- RELEASE_SLOT (R109). -/
def execReleaseSlot (s : State) : Host.Outcome State Fault Refusal := .next (whenLive (issue runReleaseSlot) s)

/-- ARM_WATCH (R139). -/
def execArmWatch (s : State) : Host.Outcome State Fault Refusal := .next (whenLive (issue runArmWatch) s)

/-- DISARM_WATCH (R140). -/
def execDisarmWatch (s : State) : Host.Outcome State Fault Refusal := .next (whenLive (issue runDisarmWatch) s)

/-- CLEAR_COUNTERS (R25). -/
def execClearCounters (s : State) : Host.Outcome State Fault Refusal := .next (whenLive (issue runClearCounters) s)

/-- CLEAR_FAULT (R173). -/
def execClearFault (s : State) : Host.Outcome State Fault Refusal := .next (whenLive (issue runClearFault) s)

/-- SOFT_RESET (R176). -/
def execSoftReset (s : State) : Host.Outcome State Fault Refusal := .next (whenLive (issue runSoftReset) s)

/-- UNKNOWN_COMMAND_CODE (R170): the write of a word to the command word; its code decides. -/
def execUnknownCommandCode (written : Word) (s : State) : Host.Outcome State Fault Refusal :=
  .next (whenLive (commandWrite written) s)

end Sys2Proof.Machine
end

