-- ==== Sys2Proof/Machine/Window.lean ====
section
/-! DEFINITION. The register window (section 10): what a read of each location returns and what a taken write stores, and
a host write at any offset (R168). -/

namespace Sys2Proof.Machine

/-! ### Reads -/

/-- A field placed in a word: its value at bit position pos and above. -/
def field (v pos : Nat) : Word := BitVec.ofNat 16 (v * 2 ^ pos)

/-- A flag placed at a bit position. -/
def flag (b : Bool) (pos : Nat) : Word := field b.toNat pos

/-- The head window's words (Table 10-6, R181). -/
def EventRecord.word (r : EventRecord) (i : Fin 7) : Word :=
  match i with
  | 0 => r.seq
  | 1 => field r.kind.code 0 ||| field r.subject.toNat 8
  | 2 => r.cycle
  | 3 => field r.p1.toNat 0 ||| field r.p2.toNat 8
  | 4 => r.d0
  | 5 => r.d1
  | 6 => r.d2

/-- The kind filter's word: bit n enables event kind n (Table 10-5). -/
def KindFilter.word (f : KindFilter) : Word :=
  flag f.link 1 ||| flag f.attention 2 ||| flag f.errand 3 ||| flag f.watch 4 ||| flag f.cycle 5
    ||| flag f.overrun 6 ||| flag f.hold 7 ||| flag f.lineFault 8 ||| flag f.stopped 9

/-- The configuration words of a roster entry (Table 10-8). -/
def Entry.wordA (x : Entry) : Word := field x.address.toNat 0 ||| field x.divisor.toNat 8 ||| field x.phase.toNat 12

def Entry.wordB (x : Entry) : Word :=
  field x.retryLimit.toNat 0 ||| field x.lossLimit.toNat 4 ||| field x.outLen.toNat 8 ||| field x.inLen.toNat 12

def Entry.wordC (x : Entry) : Word := field x.commitMode.code 0 ||| flag x.substitute 1

/-- The runtime word of a roster entry (Table 10-8). -/
def runtimeWord (x : Entry) (inFlight : Bool) : Word :=
  field x.link.code 0 ||| field x.miss.toNat 4 ||| flag x.nextToggle 8 ||| flag x.resync 9 ||| flag inFlight 10
    ||| field x.probe.toNat 12

/-- The configuration words of a watch (Table 10-10). -/
def Watch.configWord (w : Watch) (i : Fin 7) : Word :=
  match i with
  | 0 => field w.entry.toNat 0 ||| field w.word.toNat 8 ||| field w.condition.toNat 12
  | 1 => w.mask
  | 2 => w.reference
  | 3 => field w.trigger.toNat 0 ||| field w.persistence.toNat 4 ||| flag w.actPost 8 ||| flag w.actHold 9
      ||| flag w.actDrive 10
  | 4 => field w.driveEntry.toNat 0 ||| field w.driveWord.toNat 8
  | 5 => w.driveMask
  | 6 => w.driveValue

/-- The state word of a watch (Table 10-10). -/
def Watch.stateWord (w : Watch) : Word :=
  flag w.armed 0 ||| field w.outcome.code 1 ||| flag w.candidate 3 ||| field w.run.toNat 4 ||| field w.fires.toNat 8

/-- The fault record's word (Table 10-3); 0 when the record is empty. -/
def faultWord : Option AccessFault → Word
  | none => 0#16
  | some f => field f.offset.toNat 0 ||| field f.cause.code 12 ||| flag true 15

/-- The word a location holds (R167, R179; Tables 10-3 to 10-11). Action words and unmapped offsets read 0000H. -/
def readLoc (l : Loc) (s : State) : Word :=
  match l with
  | .identity => Config.identityWord
  | .statusA =>
    field s.seq.state.code 0 ||| field s.seq.phase.code 4 ||| flag s.port.fault.isSome 8 ||| flag s.irqLow 9
  | .statusB => field s.cursor.toNat 0 ||| field s.events.queue.length 8
  | .argument => s.port.argument
  | .command => 0#16
  | .resultA => field s.port.value.toNat 0 ||| field s.port.count.toNat 8
  | .resultB => field s.port.outcome.code 0
  | .faultRecord => faultWord s.port.fault
  | .faultCount => field s.port.faultCount.toNat 0
  | .overrunCount => field s.seq.overruns.toNat 0
  | .echoFaultCount => field s.line.echoFaults.toNat 0
  | .lineFaultTotal => field s.line.lineFaults.toNat 0
  | .strayByteCount => s.line.strayBytes
  | .runMode => field s.cfg.runMode.toNat 0
  | .lineRate => field s.cfg.lineRate.toNat 0
  | .period => s.cfg.period
  | .answerDeadline => s.cfg.deadline
  | .probeSpacing => field s.cfg.probeSpacing.toNat 0
  | .syncEnable => flag s.cfg.syncEnable 0
  | .windowBudget => field s.cfg.budget.toNat 0
  | .kindFilter => s.events.filter.word
  | .threshold => field s.events.threshold.toNat 0
  | .coalescing => field s.events.coalescing.toNat 0
  | .irqEnables => flag s.events.globalIrq 0 ||| flag s.events.faultIrq 1
  | .queueCount => field s.events.queue.length 0
  | .nextSeq => s.events.nextSeq
  | .droppedCount => field s.events.dropped.toNat 0
  | .headWaitCount => field s.events.headWait.toNat 0
  | .headWindow i =>
    match s.events.queue with
    | [] => 0#16
    | r :: _ => r.word i
  | .selector => field s.selector.entry.toNat 0 ||| field s.selector.word.toNat 8
  | .setPort => 0#16
  | .clearPort => 0#16
  | .flipPort => 0#16
  | .staging0 => field s.errand.staging.tag.toNat 0 ||| field s.errand.staging.entry.toNat 8
  | .staging1 =>
    field s.errand.staging.kind.toNat 0 ||| field s.errand.staging.len.toNat 4 ||| field s.errand.staging.object.toNat 8
  | .stagingWord i => s.errand.staging.payload[i]
  | .queueViewCount => field s.errand.queue.length 0
  | .queueView i => field (((s.errand.queue[i.val]?).map Fin.val).getD 0xFF) 0
  | .attnViewHead => field s.attn.items.length 0 ||| field (entryByte s.attn.mark).toNat 8
  | .attnView i => field (((s.attn.items[i.val]?).map Fin.val).getD 0xFF) 0
  | .freeze0 => field s.freeze.entry.toNat 0 ||| field s.freeze.link.code 8 ||| flag s.freeze.fresh 15
  | .freeze1 => field s.freeze.generation.toNat 0 ||| field s.freeze.age.toNat 8
  | .freeze2 => field s.freeze.inLen.toNat 0
  | .freezeWord i => s.freeze.words[i]
  | .configA e => (s.entry e).wordA
  | .configB e => (s.entry e).wordB
  | .configC e => (s.entry e).wordC
  | .runtime e => runtimeWord (s.entry e) (s.visitInFlight e)
  | .countersA e => field (s.entry e).retries.toNat 0 ||| field (s.entry e).failedVisits.toNat 8
  | .countersB e => field (s.entry e).losses.toNat 0
  | .working e w => (s.image e).working[w]
  | .committed e w => (s.image e).committed[w]
  | .input e w => (s.image e).input[w]
  | .inputStatus0 e => field (s.image e).generation.toNat 0 ||| flag (s.image e).fresh 15
  | .inputStatus1 e => field (s.image e).age.toNat 0
  | .watchConfig n i => (s.watch n).configWord i
  | .watchState n => (s.watch n).stateWord
  | .slot0 k => field (s.slot k).state.code 0 ||| field (s.slot k).outcome.code 4 ||| field (s.slot k).ansLen.toNat 8
  | .slot1 k => field (s.slot k).tag.toNat 0 ||| field (s.slot k).entry.val 8
  | .slot2 k =>
    field (errandKindCode (s.slot k).kind) 0 ||| field (s.slot k).reqLen.toNat 4 ||| field (s.slot k).object.toNat 8
  | .slotWord k i => (s.slot k).payload[i]
  | .unmapped => 0#16

/-- A host read (R167): the word held at the offset. While the reset input is low it returns 0000H (R177). Reads change
no state. -/
def State.readWord (s : State) (o : Offset) : Word := if s.resetHeld then 0#16 else readLoc (locate o) s

/-- The data that an access with these levels of CS*, RD* and WR* has the part drive (R166): the word read in a read, and
none otherwise. -/
def State.busData (s : State) (cs rd wr : Level) (o : Offset) : Option Word :=
  match busAccess cs rd wr with
  | .read => some (s.readWord o)
  | .write => none
  | .neither => none

/-- The part once an access has arrived (R166): a write's command waits behind those that came before it (log 1); a read
and an access that is neither change no state and record no fault. -/
def State.withAccess (s : State) (cs rd wr : Level) (o : Offset) (v : Word) : State :=
  { s with pending := s.pending ++ (busCommand cs rd wr o v).toList }

/-- The part once an access has arrived amid the evaluations of the next commit, behind `passed` of them (R142): a write
waits in the list of arrivals (log 6). -/
def State.withAccessAmid (s : State) (passed : Nat) (cs rd wr : Level) (o : Offset) (v : Word) : State :=
  match busAccess cs rd wr with
  | .write => { s with amid := s.amid ++ [{ passed := passed, offset := o, value := v }] }
  | .read => s
  | .neither => s

/-! ### Writes -/

/-- Whether a location is locked by its owner's state at this moment (R3, R31, R137, R168). -/
def isLocked (a : Access) (s : State) : Bool :=
  match a with
  | .lockedByEntry e => decide ((s.entry e).link ≠ .off)
  | .lockedBySequencer => decide (s.seq.state ≠ .stopped)
  | .lockedByWatch n => (s.watch n).armed
  | .rw => false
  | .ro => false
  | .action => false
  | .none => false

/-- The configuration words of a roster entry stored, field by field (Table 10-8, R179). -/
def Entry.storeA (x : Entry) (v : Word) : Entry :=
  { x with address := v.extractLsb' 0 8, divisor := v.extractLsb' 8 4, phase := v.extractLsb' 12 4 }

def Entry.storeB (x : Entry) (v : Word) : Entry :=
  { x with
    retryLimit := v.extractLsb' 0 3, lossLimit := v.extractLsb' 4 4, outLen := v.extractLsb' 8 4
    inLen := v.extractLsb' 12 4 }

def Entry.storeC (x : Entry) (v : Word) : Entry :=
  { x with commitMode := if v.getLsbD 0 then .gated else .auto, substitute := v.getLsbD 1 }

/-- The configuration words of a watch stored, field by field (Table 10-10, R179). -/
def Watch.store (w : Watch) (i : Fin 7) (v : Word) : Watch :=
  match i with
  | 0 => { w with entry := v.extractLsb' 0 8, word := v.extractLsb' 8 4, condition := v.extractLsb' 12 4 }
  | 1 => { w with mask := v }
  | 2 => { w with reference := v }
  | 3 => { w with
      trigger := v.extractLsb' 0 2, persistence := v.extractLsb' 4 3, actPost := v.getLsbD 8, actHold := v.getLsbD 9
      actDrive := v.getLsbD 10 }
  | 4 => { w with driveEntry := v.extractLsb' 0 8, driveWord := v.extractLsb' 8 4 }
  | 5 => { w with driveMask := v }
  | 6 => { w with driveValue := v }

/-- The kind filter a written word stores (Table 10-5). -/
def filterOf (v : Word) : KindFilter where
  link := v.getLsbD 1
  attention := v.getLsbD 2
  errand := v.getLsbD 3
  watch := v.getLsbD 4
  cycle := v.getLsbD 5
  overrun := v.getLsbD 6
  hold := v.getLsbD 7
  lineFault := v.getLsbD 8
  stopped := v.getLsbD 9

/-- The staging record replaced. -/
def setStaging (g : Staging) (s : State) : State := s.setErrand { s.errand with staging := g }

/-- The global configuration replaced. -/
def setConfig (c : GlobalConfig) (s : State) : State := { s with cfg := c }

/-- A word stored at a read/write location, within its fields' widths (R168, R179). At any other location a write stores
nothing. -/
def storeLoc (l : Loc) (v : Word) (s : State) : State :=
  match l with
  | .argument => s.setPort { s.port with argument := v }
  | .runMode => setConfig { s.cfg with runMode := v.extractLsb' 0 2 } s
  | .lineRate => setConfig { s.cfg with lineRate := v.extractLsb' 0 3 } s
  | .period => setConfig { s.cfg with period := v } s
  | .answerDeadline => setConfig { s.cfg with deadline := v } s
  | .probeSpacing => setConfig { s.cfg with probeSpacing := v.extractLsb' 0 4 } s
  | .syncEnable => setConfig { s.cfg with syncEnable := v.getLsbD 0 } s
  | .windowBudget => setConfig { s.cfg with budget := v.extractLsb' 0 3 } s
  | .kindFilter => s.setEvents { s.events with filter := filterOf v }
  | .threshold => s.setEvents { s.events with threshold := v.extractLsb' 0 6 }
  | .coalescing => s.setEvents { s.events with coalescing := v.extractLsb' 0 8 }
  | .irqEnables => s.setEvents { s.events with globalIrq := v.getLsbD 0, faultIrq := v.getLsbD 1 }
  | .selector => { s with selector := ⟨v.extractLsb' 0 8, v.extractLsb' 8 4⟩ }
  | .staging0 => setStaging { s.errand.staging with tag := v.extractLsb' 0 8, entry := v.extractLsb' 8 8 } s
  | .staging1 =>
    setStaging
      { s.errand.staging with kind := v.extractLsb' 0 4, len := v.extractLsb' 4 4, object := v.extractLsb' 8 8 } s
  | .stagingWord i =>
    setStaging { s.errand.staging with payload := s.errand.staging.payload.set i.val v i.isLt } s
  | .configA e => s.setEntry e ((s.entry e).storeA v)
  | .configB e => s.setEntry e ((s.entry e).storeB v)
  | .configC e => s.setEntry e ((s.entry e).storeC v)
  | .working e w => s.setImage e { s.image e with working := (s.image e).working.set w.val v w.isLt }
  | .watchConfig n i => s.setWatch n ((s.watch n).store i v)
  | _ => s

/-- A host write at any offset, taken according to the location's access type (R168). -/
def hostWrite (o : Offset) (v : Word) (s : State) : State :=
  match (locate o).access with
  | .none => accessFault o .unmapped s
  | .ro => accessFault o .readOnly s
  | .action =>
    if o = 0x004#11 then commandWrite v s
    else if o = 0x029#11 then portWrite .set v s
    else if o = 0x02A#11 then portWrite .clear v s
    else portWrite .flip v s
  | .rw => storeLoc (locate o) v s
  | .lockedByEntry e =>
    if isLocked (.lockedByEntry e) s then accessFault o .locked s else storeLoc (locate o) v s
  | .lockedBySequencer =>
    if isLocked .lockedBySequencer s then accessFault o .locked s else storeLoc (locate o) v s
  | .lockedByWatch n =>
    if isLocked (.lockedByWatch n) s then accessFault o .locked s else storeLoc (locate o) v s

/-! ### The rows of the bit ports and of the other locations -/

/-- SET_PORT (R87, R88). -/
def execSetPort (mask : Word) (s : State) : Host.Outcome State Fault Refusal :=
  .next (whenLive (portWrite .set mask) s)

/-- CLEAR_PORT (R87, R88). -/
def execClearPort (mask : Word) (s : State) : Host.Outcome State Fault Refusal :=
  .next (whenLive (portWrite .clear mask) s)

/-- FLIP_PORT (R87, R88). -/
def execFlipPort (mask : Word) (s : State) : Host.Outcome State Fault Refusal :=
  .next (whenLive (portWrite .flip mask) s)

/-- HOST_WRITE (R168). -/
def execHostWrite (offset : Offset) (value : Word) (s : State) : Host.Outcome State Fault Refusal :=
  .next (whenLive (hostWrite offset value) s)

end Sys2Proof.Machine
end

