-- ==== Sys2Proof/Machine/Visits.lean ====
section
/-! DEFINITION. The ends of tries and visits and what the part does at them (sections 1.4, 2.4, 3.5, 4.5, 5.6, 6 and 7.5):
the roster's, the image store's, the errand unit's and the attention list's part, the evaluations of a commit with the host
accesses that arrive amid them, and the waiting try that the end of the quiet gap begins. -/

namespace Sys2Proof.Machine

/-! ### Ends of visits -/

/-- How a visit ended, as the roster reports it to the block that made it (R9, R10, R76). -/
inductive VisitEnd where
  | good (attn : Bool) (payload : List Word)
  | refused (attn : Bool)
  | failure
  | discarded
  deriving DecidableEq, Repr

/-- The ATTN flag a visit's end hands to the attention list (R127): that of an accepted, not discarded answer. -/
def VisitEnd.attn : VisitEnd → Bool
  | .good a _ => a
  | .refused a => a
  | .failure => false
  | .discarded => false

/-- The roster's part of a visit's end, and the cycle's tallies (R9, R10, R38): the visit counts in the visit tally, and
in the failed-visit tally if a failure was applied. -/
def applyEnd (v : Visit) (r : VisitEnd) (s : State) : State :=
  let s := s.setSeq { s.seq with visits := s.seq.visits + 1 }
  match r with
  | .good _ _ => applySuccess v.entry v.kind s
  | .refused _ => applySuccess v.entry v.kind s
  | .failure => applyFailure v.entry v.kind (s.setSeq { s.seq with failedVisits := s.seq.failedVisits + 1 })
  | .discarded => s

/-! ### The evaluations of one commit -/

/-- How the hand-over of an EXCHANGE answer goes on once accesses have been taken amid its evaluations (R142). -/
inductive Course where
  /-- With every step that is left. -/
  | full
  /-- Without further evaluations: a DISABLE of the committed entry has been taken. -/
  | entryOff
  /-- Not at all: HALT or a soft reset has ended the run (R51). -/
  | runEnded
  deriving DecidableEq, Repr

/-- The course behind one access, s being the part that the access leaves. A run that has ended does not come back for this
commit, and neither does, DEDUCED (log 6), an entry that an ENABLE has brought back after its DISABLE. Unsafe. -/
def Course.after (e : EntryIdx) (s : State) (c : Course) : Course :=
  match c with
  | .full =>
    if s.seq.state ≠ .running then .runEnded else if (s.entry e).link = .off then .entryOff else .full
  | .entryOff => if s.seq.state ≠ .running then .runEnded else .entryOff
  | .runEnded => .runEnded

/-- Accesses that arrive amid the evaluations taken one after the other, each as one action (R142, R168). -/
def takeArrivals (e : EntryIdx) : List Arrival → Course → State → Course × State
  | [], c, s => (c, s)
  | a :: rest, c, s =>
    let s := hostWrite a.offset a.value s
    takeArrivals e rest (c.after e s) s

/-- One place in the sequence: the accesses that arrive by then, and the evaluation of watch n if the course is still full
(R142). -/
def evaluateNext (e : EntryIdx) (x : Course × State) (n : WatchIdx) : Course × State :=
  let arrived := x.2.amid.takeWhile fun a => decide (a.passed ≤ n.val)
  let y := takeArrivals e arrived x.1 (x.2.setAmid (x.2.amid.drop arrived.length))
  if y.1 = .full then (.full, evalWatch e n y.2) else y

/-- The evaluations of one commit, in ascending watch index order, with the accesses that arrive before, between and behind
them (R142). -/
def evaluate (e : EntryIdx) (s : State) : Course × State :=
  let x := (List.finRange 32).foldl (evaluateNext e) (.full, s)
  takeArrivals e x.2.amid x.1 (x.2.setAmid [])

/-- The image store's part of the end of an EXCHANGE visit, with the watch evaluations of a commit (R38, R90, R91,
R142), and the course of what is left. -/
def imageEnd (v : Visit) (r : VisitEnd) (s : State) : Course × State :=
  match r with
  | .good _ payload => evaluate v.entry (s.setImage v.entry ((s.image v.entry).commitInput v.inLen.toNat payload))
  | .refused _ => (.full, s.setImage v.entry (s.image v.entry).clearFresh)
  | .failure => (.full, s.setImage v.entry (s.image v.entry).clearFresh)
  | .discarded => (.full, s)

/-- What is left of the end of a visit of the pass (R38): the attention append, which is not made for an entry that a
DISABLE has taken to OFF (R125; log 6), and the next index. Nothing, if the run has ended (R51). -/
def endPassVisit (v : Visit) (r : VisitEnd) (x : Course × State) : State :=
  match x.1 with
  | .full => continuePass (appendAttention v.entry r.attn x.2)
  | .entryOff => continuePass x.2
  | .runEnded => x.2

/-! ### Ends of errand and attention visits, and of every visit -/

/-- The errand unit's part of the end of an own visit (R117, R118). -/
def errandEnd (k : SlotIdx) (r : VisitEnd) (s : State) : State :=
  match r with
  | .good _ payload => finishSlot k ((s.slot k).completeGood payload) s
  | .refused _ => completeSlot k .refused s
  | .failure => completeSlot k .noAnswer s
  | .discarded => completeSlot k .noLink s

/-- The attention list's part of the end of an ATTEND visit (R131, R132). -/
def attentionEnd (e : EntryIdx) (r : VisitEnd) (s : State) : State :=
  match r with
  | .good _ payload => removeAttention e (post (attentionPost e payload) s)
  | .refused _ => removeAttention e s
  | .failure => removeAttention e s
  | .discarded => s

/-- The block that made the visit acts on its end, the attention append follows, and the sequencer goes on (R38, R76,
R112, R115, R117, R118, R127, R130, R131). -/
def afterVisit (v : Visit) (r : VisitEnd) (s : State) : State :=
  match v.role with
  | .pass => endPassVisit v r (if v.kind = .exchange then imageEnd v r s else (.full, s))
  | .errandOwn k => lookAgain (appendAttention v.entry r.attn (errandEnd k r s))
  | .errandResync k =>
    match r with
    | .good _ _ => requestOwn k (appendAttention v.entry r.attn s)
    | .refused _ => requestOwn k (appendAttention v.entry r.attn s)
    | .failure => lookAgain (completeSlot k .noAnswer s)
    | .discarded => lookAgain (completeSlot k .noLink s)
  | .attnOwn => lookAgain (appendAttention v.entry r.attn (attentionEnd v.entry r s))
  | .attnResync =>
    match r with
    | .good _ _ => requestTry (.visit .attnOwn v.entry .attend) (appendAttention v.entry r.attn s)
    | .refused _ => requestTry (.visit .attnOwn v.entry .attend) (appendAttention v.entry r.attn s)
    | .failure => lookAgain (removeAttention v.entry s)
    | .discarded => lookAgain s

/-- A visit ended in success or failure: it is no longer in flight, its outcome is discarded if its entry is OFF, and it
is handed on (R6, R9, R10, R76). -/
def endVisit (v : Visit) (r : VisitEnd) (s : State) : State :=
  let s := s.setLine { s.line with job := none }
  let r := if (s.entry v.entry).link = .off then .discarded else r
  afterVisit v r (applyEnd v r s)

/-- An unaccepted try: the next try waits while the budget of 1 + retry limit unaccepted tries is not spent, and the
visit fails when it is (R73). -/
def unacceptedTry (v : Visit) (s : State) : State :=
  if v.unaccepted + 1 < 1 + v.retryLimit.toNat then
    s.setLine { s.line with job := some (.visit { v with unaccepted := v.unaccepted + 1 }), waiting := some .retry }
  else endVisit v .failure s

/-- A try ended with an outcome (R70, R73): the quiet gap begins (R71), and an accepted try ends its visit. -/
def endTry (v : Visit) (o : TryOutcome) (s : State) : State :=
  let s := setEngine (.quiet Config.quietGapBits) s
  match o with
  | .good attn payload => endVisit v (.good attn payload) s
  | .refused attn => endVisit v (.refused attn) s
  | .silent => unacceptedTry v s
  | .garbled => unacceptedTry v s
  | .stray => unacceptedTry v s
  | .mismatch => unacceptedTry v s

/-- The try in progress ended with an outcome. A SYNC call has no answer to classify (R77). -/
def endAnswer (o : TryOutcome) (s : State) : State :=
  match s.visit with
  | some v => endTry v o s
  | none => setEngine (.quiet Config.quietGapBits) s

/-! ### The waiting try begun -/

/-- Whether the visit that waits may still begin: an errand's own visit not if its entry is OFF or its call is toggled and
the resync flag is set (R116); an ATTEND visit only while the item is under the service mark (R131). DEDUCED (log 5), for
the gap between the pick and the first visit of a transaction, of which R114 to R118 and R130 do not speak: an errand's
resync visit not if its entry is OFF at this moment, and still if a DISABLE and an ENABLE have left it out of OFF; an
attention transaction's resync visit only while the item is under the service mark. Unsafe. -/
def mayBegin (s : State) (role : Role) (e : EntryIdx) (k : CallKind) : Bool :=
  match role with
  | .pass => true
  | .errandOwn _ => decide ((s.entry e).link ≠ .off) && !(k.toggled && (s.entry e).resync)
  | .errandResync _ => decide ((s.entry e).link ≠ .off)
  | .attnResync => decide (s.attn.mark = some e)
  | .attnOwn => decide (s.attn.mark = some e)

/-- A transaction whose waiting visit may not begin ends without a call (R116, R118, R131): an errand with NO_LINK, an
attention transaction without an event. -/
def dropTransaction (role : Role) (s : State) : State :=
  match role with
  | .pass => continuePass s
  | .errandOwn k => lookAgain (completeSlot k .noLink s)
  | .errandResync k => lookAgain (completeSlot k .noLink s)
  | .attnResync => lookAgain s
  | .attnOwn => lookAgain s

/-- The waiting try taken as the quiet gap ends (R66, R71); the engine is IDLE at that moment. -/
def takeWaiting (r : Request) (s : State) : State :=
  match r with
  | .sync => beginTry .sync s
  | .retry => beginTry .retry s
  | .repeatTry => beginTry .repeatTry s
  | .passOn => continuePass s
  | .visit role e k => if mayBegin s role e k then beginTry (.visit role e k) s else dropTransaction role s

/-- The end of the quiet gap (R71). -/
def endQuietGap (s : State) : State :=
  let idle := s.setLine { s.line with engine := .idle, waiting := none }
  match s.line.waiting with
  | none => idle
  | some r => takeWaiting r idle

end Sys2Proof.Machine
end

