-- ==== Sys2Proof/Machine/Line.lean ====
section
/-! DEFINITION. The events on the station line and of the durations (sections 2.5, 3.1, 3.5): what each of the rows that
are no host access does to a part whose reset input is high. An event that cannot occur in the state at hand leaves it as
it is (log 3). -/

namespace Sys2Proof.Machine

/-- The receive path's state replaced. -/
def setRx (r : RxPath) (s : State) : State := s.setLine { s.line with rx := r }

/-- The receive path after a byte has been taken: after a framing fault it waits for the high level (R58). -/
def rxAfter (framingFault : Bool) : RxPath := if framingFault then .waitHigh else .watching

/-! ### Durations of the sequencer -/

/-- A period timer expiry (R45). An idle timer does not expire (R44). -/
def periodExpiry (s : State) : State :=
  match s.seq.timer with
  | none => s
  | some _ =>
    match s.seq.state with
    | .waiting => startNextCycle s
    | .running => s.setSeq { s.seq with missed := s.seq.missed + 1 }
    | .held => s.setSeq { s.seq with expiryInHold := true }
    | .stopped => s
    | .faulted => s

/-- 100 bit times since the last cycle start of a FREE run (R42): a sequencer in WAITING starts the next cycle; in
RUNNING and HELD the cycle end and RELEASE find the minimum passed. -/
def freeMinimum (s : State) : State :=
  if s.runMode = .free then
    match s.seq.state with
    | .waiting => startNextCycle s
    | .running => s.setSeq { s.seq with freeMinPassed := true }
    | .held => s.setSeq { s.seq with freeMinPassed := true }
    | .stopped => s
    | .faulted => s
  else s

/-- The end of the CYC pulse (R35). -/
def endCycPulse (s : State) : State := s.setSeq { s.seq with cyc := false }

/-! ### Sending -/

/-- Whether an echo is good: the byte sent, with no framing fault (R67). -/
def echoGood (x : Echo) (sent : Byte) : Bool :=
  match x with
  | .missing => false
  | .taken b framingFault => decide (b = sent) && !framingFault

/-- The receive path at the middle of a sent byte's stop bit: a byte taken leaves it as R58 states; while it waits for
the high level it takes none. -/
def rxEcho (r : RxPath) (x : Echo) : RxPath :=
  match r, x with
  | .waitHigh, _ => .waitHigh
  | _, .missing => r
  | _, .taken _ framingFault => rxAfter framingFault

/-- What the receive path can show of an echo: none while it waits for the high level (R58). -/
def echoSeen (r : RxPath) (x : Echo) : Echo :=
  match r with
  | .waitHigh => .missing
  | _ => x

/-- The echo of a sent byte (R67): a good one lets the next byte begin, any other ends the try as ECHO_FAULT, that of a byte
which an answer begun too early has spoiled among them (R65). The read-back of a call's remainder is discarded (R58, R78). -/
def callEcho (x : Echo) (s : State) : State :=
  match s.line.engine, s.line.job with
  | .sending good, some j =>
    match j.frame[good]? with
    | none => s
    | some sent =>
      let s' := setRx (rxEcho s.line.rx x) s
      if echoGood (echoSeen s.line.rx x) sent then setEngine (.sending (good + 1)) s' else echoFault (some sent) s'
  | .remainder _, _ => setRx (rxEcho s.line.rx x) s
  | _, _ => s

/-- The end of the last stop bit of a call whose every echo was good (R67, R74, R77): an answer is awaited, or, after a
SYNC call, the quiet gap of 40 bit times begins and the ROSTER phase with it. -/
def callEnd (s : State) : State :=
  match s.line.engine, s.line.job with
  | .sending good, some j =>
    if good = j.frame.length then
      match j with
      | .visit _ => s.setLine { s.line with engine := .awaiting false, echoFaults := 0#2 }
      | .sync _ =>
        beginRoster endCycle
          (s.setLine { s.line with engine := .quiet Config.syncGapBits, job := none, echoFaults := 0#2 })
    else s
  | _, _ => s

/-- The end of the remainder of a call cut short: TXEN falls and the quiet gap begins (R67, R71, R78). -/
def remainderEnd (s : State) : State :=
  match s.line.engine with
  | .remainder _ => setEngine (.quiet Config.quietGapBits) s
  | _ => s

/-! ### Receiving -/

/-- A byte given to the answer receiver (R69). -/
def answer (b : Byte) (framingFault : Bool) (s : State) : State :=
  match s.line.engine with
  | .receiving bytes _ =>
    let s' := setRx (rxAfter framingFault) s
    match s.visit with
    | none => s'
    | some v =>
      match receive v (bytes ++ [b]) framingFault with
      | .more => setEngine (.receiving (bytes ++ [b]) false) s'
      | .ends o => endTry v o s'
  | _ => s

/-- The answer deadline passes (R68): with no edge the try ends as SILENT; with an edge waiting for its sample the engine
stays in AWAITING until then. -/
def deadlinePasses (s : State) : State :=
  match s.line.engine with
  | .awaiting _ => if s.line.rx = .edge then setEngine (.awaiting true) s else endAnswer .silent s
  | _ => s

/-- The inter-byte gap limit passes (R69): with no edge since the last byte reception ends as GARBLED; an edge meets the
limit. DEDUCED (log 9): an edge that its sample then finds to be none has not met it. Unsafe. -/
def gapPasses (s : State) : State :=
  match s.line.engine with
  | .receiving [] _ => s
  | .receiving (b :: rest) _ =>
    match s.line.rx with
    | .watching => endAnswer .garbled s
    | .edge => setEngine (.receiving (b :: rest) true) s
    | .inByte => s
    | .waitHigh => s
  | _ => s

/-- A byte taken in IDLE or QUIET (R72): the stray byte count is raised, saturating, and in QUIET the gap starts again in
full (R71). While the receive path waits for the high level it takes no byte (R58). -/
def strayTaken (framingFault : Bool) (s : State) : State :=
  if s.line.rx = .waitHigh then s
  else
    match s.line.engine with
    | .idle => s.setLine { s.line with rx := rxAfter framingFault, strayBytes := satInc s.line.strayBytes }
    | .quiet g =>
      s.setLine { s.line with
        engine := .quiet g, rx := rxAfter framingFault, strayBytes := satInc s.line.strayBytes }
    | _ => s

/-- The end of the quiet gap, in QUIET only (R71). -/
def gapEnd (s : State) : State :=
  match s.line.engine with
  | .quiet _ => endQuietGap s
  | _ => s

/-- A falling edge on RXD, taken while the receive path watches (R58): it begins a possible start bit. In SENDING after a
byte's echo it ends the try as ECHO_FAULT: an answer begun before the call's end is charged to the line (R65, R67; log
10). -/
def fallingEdge (s : State) : State :=
  if s.line.rx = .watching then
    match s.line.engine with
    | .sending (n + 1) => echoFault (s.line.job.bind (·.sentByte n)) (setRx .edge s)
    | _ => setRx .edge s
  else s

/-- The mid-bit sample of a possible start bit (R58). Low: a start bit, which moves an awaited answer to RECEIVING (R68).
High: the edge is ignored, which ends the try as SILENT after the deadline (R68), or as GARBLED after the gap limit
(log 9). -/
def sampleStart (l : Level) (s : State) : State :=
  if s.line.rx = .edge then
    match l with
    | .low =>
      match s.line.engine with
      | .awaiting _ => setEngine (.receiving [] false) (setRx .inByte s)
      | .receiving bytes _ => setEngine (.receiving bytes false) (setRx .inByte s)
      | _ => setRx .inByte s
    | .high =>
      match s.line.engine with
      | .awaiting true => endAnswer .silent (setRx .watching s)
      | .receiving _ true => endAnswer .garbled (setRx .watching s)
      | _ => setRx .watching s
  else s

/-- RXD returns to the high level (R58): a receive path that waits for it looks for start bits again. -/
def returnHigh (s : State) : State := if s.line.rx = .waitHigh then setRx .watching s else s

/-! ### The rows of the durations and of the station line -/

/-- PERIOD_TIMER_EXPIRY (R45). -/
def execPeriodTimerExpiry (s : State) : Host.Outcome State Fault Refusal :=
  .next (whenLive periodExpiry s)

/-- FREE_MINIMUM_EXPIRY (R42). -/
def execFreeMinimumExpiry (s : State) : Host.Outcome State Fault Refusal :=
  .next (whenLive freeMinimum s)

/-- CYC_PULSE_END (R35). -/
def execCycPulseEnd (s : State) : Host.Outcome State Fault Refusal :=
  .next (whenLive endCycPulse s)

/-- CALL_BYTE_ECHO (R67). -/
def execCallByteEcho (echo : Echo) (s : State) : Host.Outcome State Fault Refusal :=
  .next (whenLive (callEcho echo) s)

/-- CALL_SENT (R67). -/
def execCallSent (s : State) : Host.Outcome State Fault Refusal :=
  .next (whenLive callEnd s)

/-- CALL_REMAINDER_END (R78). -/
def execCallRemainderEnd (s : State) : Host.Outcome State Fault Refusal :=
  .next (whenLive remainderEnd s)

/-- ANSWER_BYTE (R69). -/
def execAnswerByte (value : Byte) (framingFault : Bool) (s : State) : Host.Outcome State Fault Refusal :=
  .next (whenLive (answer value framingFault) s)

/-- ANSWER_DEADLINE_EXPIRY (R68). -/
def execAnswerDeadlineExpiry (s : State) : Host.Outcome State Fault Refusal :=
  .next (whenLive deadlinePasses s)

/-- INTER_BYTE_GAP_EXPIRY (R69). -/
def execInterByteGapExpiry (s : State) : Host.Outcome State Fault Refusal :=
  .next (whenLive gapPasses s)

/-- STRAY_BYTE (R72); the byte's value is not looked at. -/
def execStrayByte (_value : Byte) (framingFault : Bool) (s : State) : Host.Outcome State Fault Refusal :=
  .next (whenLive (strayTaken framingFault) s)

/-- QUIET_GAP_END (R71). -/
def execQuietGapEnd (s : State) : Host.Outcome State Fault Refusal :=
  .next (whenLive gapEnd s)

/-- RXD_FALLING_EDGE (R58, R67, R68, R69). -/
def execRxdFallingEdge (s : State) : Host.Outcome State Fault Refusal :=
  .next (whenLive fallingEdge s)

/-- START_BIT_SAMPLE (R58, R68). -/
def execStartBitSample (level : Level) (s : State) : Host.Outcome State Fault Refusal :=
  .next (whenLive (sampleStart level) s)

/-- RXD_RETURNS_HIGH (R58). -/
def execRxdReturnsHigh (s : State) : Host.Outcome State Fault Refusal :=
  .next (whenLive returnHigh s)

end Sys2Proof.Machine
end

