-- ==== Sys2Proof/Machine/Reset.lean ====
section
/-! DEFINITION. The reset input (R177). -/

namespace Sys2Proof.Machine

/-- Every block at its hardware reset values, the reset input held low or released (R177; R27, R54, R79, R100, R122,
R134, R150, R164). The queue of commands and the list of arrivals are the model's own and are kept (log 13). -/
def resetAll (held : Bool) (s : State) : State :=
  { State.reset with resetHeld := held, pending := s.pending, amid := s.amid }

/-- HARDWARE_RESET (R177): the fall of the reset input. -/
def execHardwareReset (s : State) : Host.Outcome State Fault Refusal := .next (resetAll true s)

/-- RESET_RELEASE (R177): the rise of the reset input; with the input already high there is none. -/
def execResetRelease (s : State) : Host.Outcome State Fault Refusal :=
  .next (if s.resetHeld then resetAll false s else s)

end Sys2Proof.Machine
end

