-- ==== Sys2Proof/Machine/Dispatch.lean ====
section
/-! DEFINITION. The dispatch: one arm per row of spec/opcode_table.json, each one direct call of the row's meaning. -/

namespace Sys2Proof.Machine

def exec (i : Instr) (s : State) : Host.Outcome State Fault Refusal :=
  match i with
  | .start => Sys2Proof.Machine.execStart s
  | .stop => Sys2Proof.Machine.execStop s
  | .halt => Sys2Proof.Machine.execHalt s
  | .release => Sys2Proof.Machine.execRelease s
  | .enable => Sys2Proof.Machine.execEnable s
  | .disable => Sys2Proof.Machine.execDisable s
  | .commit => Sys2Proof.Machine.execCommit s
  | .freeze => Sys2Proof.Machine.execFreeze s
  | .pop => Sys2Proof.Machine.execPop s
  | .submit => Sys2Proof.Machine.execSubmit s
  | .cancel => Sys2Proof.Machine.execCancel s
  | .releaseSlot => Sys2Proof.Machine.execReleaseSlot s
  | .armWatch => Sys2Proof.Machine.execArmWatch s
  | .disarmWatch => Sys2Proof.Machine.execDisarmWatch s
  | .clearCounters => Sys2Proof.Machine.execClearCounters s
  | .clearFault => Sys2Proof.Machine.execClearFault s
  | .softReset => Sys2Proof.Machine.execSoftReset s
  | .unknownCommandCode written => Sys2Proof.Machine.execUnknownCommandCode written s
  | .setPort mask => Sys2Proof.Machine.execSetPort mask s
  | .clearPort mask => Sys2Proof.Machine.execClearPort mask s
  | .flipPort mask => Sys2Proof.Machine.execFlipPort mask s
  | .hostWrite offset value => Sys2Proof.Machine.execHostWrite offset value s
  | .hardwareReset => Sys2Proof.Machine.execHardwareReset s
  | .resetRelease => Sys2Proof.Machine.execResetRelease s
  | .periodTimerExpiry => Sys2Proof.Machine.execPeriodTimerExpiry s
  | .freeMinimumExpiry => Sys2Proof.Machine.execFreeMinimumExpiry s
  | .cycPulseEnd => Sys2Proof.Machine.execCycPulseEnd s
  | .callByteEcho echo => Sys2Proof.Machine.execCallByteEcho echo s
  | .callSent => Sys2Proof.Machine.execCallSent s
  | .callRemainderEnd => Sys2Proof.Machine.execCallRemainderEnd s
  | .answerByte value framingFault => Sys2Proof.Machine.execAnswerByte value framingFault s
  | .answerDeadlineExpiry => Sys2Proof.Machine.execAnswerDeadlineExpiry s
  | .interByteGapExpiry => Sys2Proof.Machine.execInterByteGapExpiry s
  | .strayByte value framingFault => Sys2Proof.Machine.execStrayByte value framingFault s
  | .quietGapEnd => Sys2Proof.Machine.execQuietGapEnd s
  | .rxdFallingEdge => Sys2Proof.Machine.execRxdFallingEdge s
  | .startBitSample level => Sys2Proof.Machine.execStartBitSample level s
  | .rxdReturnsHigh => Sys2Proof.Machine.execRxdReturnsHigh s

end Sys2Proof.Machine
end

