-- ==== Sys2Proof/Safety.lean ====
section
/-! DEFINITION. What holds of the part at every moment: the laws that the spec's rules say the blocks keep, as decidable
predicates of the state. -/

namespace Sys2Proof.Machine

/-- R17, R2 and R8 of one entry: the miss count by link state, a valid configuration outside OFF, and a probe count of 0
outside LOST. -/
abbrev Entry.Lawful (x : Entry) : Prop :=
  (x.link = .off → x.miss = 0#4) ∧ (x.link = .online → x.miss = 0#4)
  ∧ (x.link = .await → x.miss.toNat < x.lossLimit.toNat)
  ∧ (x.link = .suspect → 1 ≤ x.miss.toNat ∧ x.miss.toNat < x.lossLimit.toNat)
  ∧ (x.link = .lost → x.miss = x.lossLimit)
  ∧ (x.link ≠ .off → x.valid = true)
  ∧ (x.link ≠ .lost → x.probe = 0#4)

/-- R21: no two entries that are not OFF hold the same station address. -/
abbrev AddressesDistinct (s : State) : Prop :=
  ∀ e f : EntryIdx, e ≠ f → (s.entry e).link ≠ .off → (s.entry f).link ≠ .off → (s.entry e).address ≠ (s.entry f).address

/-- The laws of the roster (R2, R17, R21). -/
abbrev RosterLaw (s : State) : Prop := (∀ e, (s.entry e).Lawful) ∧ AddressesDistinct s

/-- The laws of the event queue: at most 32 records (R152), dropped posts only behind a full queue (R159), consecutive
sequence numbers up to the next one (R154), and no head wait without a head (R162). -/
abbrev EventLaw (s : State) : Prop :=
  s.events.queue.length ≤ Config.queueCapacity
  ∧ (s.events.dropped ≠ 0#8 → s.events.queue.length = Config.queueCapacity)
  ∧ (s.events.queue = [] → s.events.headWait = 0#8)
  ∧ ∀ i : Fin s.events.queue.length,
      s.events.queue[i].seq = s.events.nextSeq - BitVec.ofNat 16 (s.events.queue.length - i.val)

/-- A link state in which an entry is in service on the line (R125). -/
abbrev LinkState.InService (l : LinkState) : Prop := l = .await ∨ l = .online ∨ l = .suspect

/-- R136: an armed watch holds a configuration that passed the examination of ARM_WATCH. -/
abbrev ArmedValid (s : State) : Prop := ∀ n, (s.watch n).armed = true → (s.watch n).valid = true

/-- R141: a watch's outcome is UNKNOWN whenever it is disarmed or its entry is OFF or LOST. -/
abbrev UnknownWhenIdle (s : State) : Prop :=
  ∀ n, ((s.watch n).armed = false → (s.watch n).outcome = .unknown)
    ∧ ∀ e : EntryIdx, (s.watch n).entry = BitVec.ofNat 8 e → ¬ (s.entry e).link.InService →
        (s.watch n).outcome = .unknown

/-- R125 but for the link states: one item per entry, and the service mark on the head. -/
abbrev AttentionOrder (s : State) : Prop :=
  s.attn.items.Nodup ∧ ∀ e, s.attn.mark = some e → s.attn.items.head? = some e

/-- R125: every item names an entry in AWAIT, ONLINE or SUSPECT. -/
abbrev AttentionInService (s : State) : Prop := ∀ e, e ∈ s.attn.items → (s.entry e).link.InService

/-- R93: an entry committed in the cycle has age 0. -/
abbrev CommittedIsNew (s : State) : Prop := ∀ e, (s.image e).commitMark = true → (s.image e).age = 0#8

/-- R102 and R106: at most one slot ACTIVE; the queue holds each QUEUED slot exactly once and no other; an outcome only
in DONE, or kept in FREE. -/
abbrev ErrandLaw (s : State) : Prop :=
  s.errand.queue.Nodup
  ∧ (∀ k, k ∈ s.errand.queue ↔ (s.slot k).state = .queued)
  ∧ (∀ j k, (s.slot j).state = .active → (s.slot k).state = .active → j = k)
  ∧ (∀ k, (s.slot k).state = .queued ∨ (s.slot k).state = .active →
      (s.slot k).outcome = .none ∧ (s.slot k).kind ≠ none)
  ∧ (∀ k, (s.slot k).state = .done → (s.slot k).outcome ≠ .none)

/-- The role, entry and call kind of the visit in flight or waiting to begin. -/
def State.work (s : State) : Option (Role × EntryIdx × CallKind) :=
  match s.line.job, s.line.waiting with
  | some (.visit v), _ => some (v.role, v.entry, v.kind)
  | none, some (.visit role e k) => some (role, e, k)
  | _, _ => none

/-- What a visit made for a role is (R37, R115, R116, R130, R131). -/
def RoleFits (s : State) (role : Role) (e : EntryIdx) (k : CallKind) : Prop :=
  match role with
  | .pass => s.seq.phase = .roster ∧ e = s.seq.passPos ∧ (k = .exchange ∨ k = .reset)
  | .errandOwn j =>
    s.seq.phase = .window ∧ (s.slot j).state = .active ∧ (s.slot j).entry = e
      ∧ (s.slot j).kind.map ErrandKind.call = some k
  | .errandResync j =>
    s.seq.phase = .window ∧ (s.slot j).state = .active ∧ (s.slot j).entry = e ∧ k = .reset
      ∧ (s.slot j).kind ≠ some .reset
  | .attnResync => s.seq.phase = .window ∧ k = .reset ∧ (s.attn.mark = some e ∨ s.attn.mark = none)
  | .attnOwn => s.seq.phase = .window ∧ k = .attend ∧ (s.attn.mark = some e ∨ s.attn.mark = none)

/-- The slot an errand visit is made for. -/
def Role.slot : Role → Option SlotIdx
  | .pass => none
  | .errandResync k => some k
  | .errandOwn k => some k
  | .attnResync => none
  | .attnOwn => none

/-- R30: the call in flight, the waiting try and the engine fit one another. -/
def LineLaw (s : State) : Prop :=
  (match s.line.waiting with
    | none => True
    | some .sync => s.line.job = none ∧ s.seq.phase = .sync
    | some .passOn => s.line.job = none ∧ s.seq.phase = .roster
    | some (.visit _ _ _) => s.line.job = none
    | some .retry => ∃ v, s.line.job = some (.visit v)
    | some .repeatTry => s.line.job ≠ none)
  ∧ (match s.line.engine with
    | .idle => s.line.job = none ∧ s.line.waiting = none
    | .sending good => s.line.waiting = none ∧ ∃ j, s.line.job = some j ∧ good ≤ j.frame.length
    | .remainder _ => s.line.job ≠ none → s.line.waiting ≠ none
    | .awaiting _ => s.line.waiting = none ∧ ∃ v, s.line.job = some (.visit v)
    | .receiving _ _ => s.line.waiting = none ∧ ∃ v, s.line.job = some (.visit v)
    | .quiet _ => s.line.job ≠ none → s.line.waiting ≠ none)
  ∧ (∀ f, s.line.job = some (.sync f) → s.seq.phase = .sync)

/-- R29, R30, R44, R47, R75 and R102: the sequencer, its phase and the work it has in hand. -/
def SequencerLaw (s : State) : Prop :=
  (s.seq.phase = .none ↔ s.seq.state ≠ .running)
  ∧ (s.seq.state ≠ .running → s.line.job = none ∧ s.line.waiting = none ∧ ∀ k, (s.slot k).state ≠ .active)
  ∧ (s.seq.state = .running → s.line.job ≠ none ∨ s.line.waiting ≠ none)
  ∧ (s.seq.state = .running → s.line.echoFaults ≠ 3#2)
  ∧ (s.seq.timer ≠ none → s.seq.state = .running ∨ s.seq.state = .waiting ∨ s.seq.state = .held)
  ∧ (s.seq.holdPending = true → s.seq.state = .running)
  ∧ (s.seq.singleRun = true → s.seq.state = .running)
  ∧ (∀ role e k, s.work = some (role, e, k) → RoleFits s role e k ∧ (k ≠ .reset → (s.entry e).link ≠ .lost))
  ∧ (∀ k, (s.slot k).state = .active → ∃ role e c, s.work = some (role, e, c) ∧ role.slot = some k)

/-- All the laws together. -/
def Lawful (s : State) : Prop :=
  RosterLaw s ∧ EventLaw s ∧ ArmedValid s ∧ UnknownWhenIdle s ∧ AttentionOrder s ∧ AttentionInService s
    ∧ CommittedIsNew s ∧ ErrandLaw s ∧ LineLaw s ∧ SequencerLaw s

/-! ### What a statement says of two states: before and after a command -/

/-- The host port after a command word write that answered with an outcome and a value: the command count is raised by 1
(R170, R171). -/
abbrev answered (s : State) (o : CmdOutcome) (v : Byte) : HostPort :=
  { s.port with outcome := o, value := v, count := s.port.count + 1#8 }

/-- The events after one post, the cycle number added (R153, R156). -/
abbrev posted (s : State) (p : Post) : EventUnit := s.events.take s.seq.cycle p

/-- The ERRAND event of slot k, which has completed with answer length 0 and an outcome of the given code (R121). -/
def errandEvent (k : SlotIdx) (x : Slot) (outcome : Byte) : Post :=
  { kind := .errand, subject := BitVec.ofNat 8 k, p1 := outcome, d0 := x.tag.setWidth 16, d1 := BitVec.ofNat 16 x.entry }

/-- The valid answer lengths (the last two columns of Table 3-2). -/
def answerLengths (k : CallKind) (inLen : Nat) (refuse : Bool) : List Nat :=
  if refuse then [0]
  else
    match k with
    | .exchange => [inLen]
    | .read => List.range 9
    | .write => [0]
    | .attend => [1, 2, 3]
    | .reset => [0]
    | .sync => []

/-- An echo that is not good for the byte sent: missing, with a framing fault, different, or not taken because the
receive path still waits for the high level (R58, R67). -/
def BadEcho (rx : RxPath) (x : Echo) (sent : Byte) : Prop :=
  rx = .waitHigh ∨ x = .missing ∨ (∃ b, x = .taken b true) ∨ ∃ b f, x = .taken b f ∧ b ≠ sent

/-- The receive path after an echo (R58). -/
def rxAfterEcho (rx : RxPath) (x : Echo) : RxPath :=
  if rx = .waitHigh then .waitHigh
  else
    match x with
    | .missing => rx
    | .taken _ true => .waitHigh
    | .taken _ false => .watching

/-- The engine after an abandonment (R78): a call being sent is finished to the stop bit of its byte in progress (log 22
for which byte that is). -/
def engineAfterAbandonment (s : State) : Engine :=
  match s.line.engine with
  | .idle => .idle
  | .sending _ => .remainder s.txByte
  | .remainder byte => .remainder byte
  | .awaiting _ => .quiet 20
  | .receiving _ _ => .quiet 20
  | .quiet n => .quiet n

/-- A visit whose abandonment sets the resync flag of its entry (R16): a toggled call or a RESET. -/
def Visit.inDoubt (v : Visit) : Prop := v.kind = .read ∨ v.kind = .write ∨ v.kind = .attend ∨ v.kind = .reset

/-- R51 under HALT and FAULTED: the call and the waiting try are gone, an ACTIVE slot is DONE with ABORTED, the attention
items stay with the mark cleared, the abandoned visit leaves its entry in doubt, and no image or watch changes. An entry
that is OFF has its visit discarded instead (R10; log 8). -/
def Abandoned (s t : State) : Prop :=
  t.line.job = none ∧ t.line.waiting = none
  ∧ (∀ k, t.slot k = if (s.slot k).state = .active
      then { s.slot k with state := .done, outcome := .aborted, ansLen := 0#4 } else s.slot k)
  ∧ t.errand.queue = s.errand.queue ∧ t.errand.staging = s.errand.staging ∧ t.errand.turn = s.errand.turn
  ∧ t.attn = { s.attn with mark := none }
  ∧ (∀ e v, s.visit = some v → v.entry = e → v.inDoubt → (s.entry e).link ≠ .off →
      t.entry e = { s.entry e with resync := true })
  ∧ (∀ e, (∀ v, s.visit = some v → v.entry = e → ¬ v.inDoubt ∨ (s.entry e).link = .off) → t.entry e = s.entry e)
  ∧ t.images = s.images ∧ t.watches = s.watches

/-- The configuration fields of an entry (Table 1-6). -/
abbrev SameConfig (x y : Entry) : Prop :=
  x.address = y.address ∧ x.divisor = y.divisor ∧ x.phase = y.phase ∧ x.retryLimit = y.retryLimit
  ∧ x.lossLimit = y.lossLimit ∧ x.outLen = y.outLen ∧ x.inLen = y.inLen ∧ x.commitMode = y.commitMode
  ∧ x.substitute = y.substitute

/-- A watch but for the state that evaluations and losses change (Table 7-1 and the armed field of Table 7-2). -/
def SameWatchConfig (x y : Watch) : Prop :=
  y = { x with outcome := y.outcome, candidate := y.candidate, run := y.run, fires := y.fires }

/-- What the host program has written and commanded, kept: every configuration word, the selector, the freeze window, the
staging record, the event unit's control words, the argument and the fault record. -/
def HostDataKept (s t : State) : Prop :=
  t.cfg = s.cfg ∧ t.selector = s.selector ∧ t.freeze = s.freeze ∧ t.errand.staging = s.errand.staging
  ∧ t.port = s.port ∧ t.resetHeld = s.resetHeld ∧ t.pending = s.pending
  ∧ t.events.filter = s.events.filter ∧ t.events.threshold = s.events.threshold
  ∧ t.events.coalescing = s.events.coalescing ∧ t.events.globalIrq = s.events.globalIrq
  ∧ t.events.faultIrq = s.events.faultIrq
  ∧ (∀ e, SameConfig (s.entry e) (t.entry e)) ∧ (∀ n, SameWatchConfig (s.watch n) (t.watch n))

/-- The bits of a read/write word that belong to a field (Tables 10-3 to 10-10); none of any other word. -/
def Loc.mask : Loc → Word
  | .argument => 0xFFFF#16
  | .runMode => 0x0003#16
  | .lineRate => 0x0007#16
  | .period => 0xFFFF#16
  | .answerDeadline => 0xFFFF#16
  | .probeSpacing => 0x000F#16
  | .syncEnable => 0x0001#16
  | .windowBudget => 0x0007#16
  | .kindFilter => 0x03FE#16
  | .threshold => 0x003F#16
  | .coalescing => 0x00FF#16
  | .irqEnables => 0x0003#16
  | .selector => 0x0FFF#16
  | .staging0 => 0xFFFF#16
  | .staging1 => 0xFFFF#16
  | .stagingWord _ => 0xFFFF#16
  | .configA _ => 0xFFFF#16
  | .configB _ => 0xFFF7#16
  | .configC _ => 0x0003#16
  | .working _ _ => 0xFFFF#16
  | .watchConfig _ i => if i = 3 then 0x0773#16 else if i = 4 then 0x0FFF#16 else 0xFFFF#16
  | _ => 0#16

/-- The access type of the word at an offset (Tables 10-1 to 10-11, R178), by ranges of offsets. -/
def accessAt (n : Nat) : Access :=
  if n ≤ 0x002 then .ro
  else if n = 0x003 then .rw
  else if n = 0x004 then .action
  else if n ≤ 0x00C then .ro
  else if 0x010 ≤ n ∧ n ≤ 0x016 then .lockedBySequencer
  else if 0x018 ≤ n ∧ n ≤ 0x01B then .rw
  else if 0x01C ≤ n ∧ n ≤ 0x026 then .ro
  else if n = 0x028 then .rw
  else if 0x029 ≤ n ∧ n ≤ 0x02B then .action
  else if 0x030 ≤ n ∧ n ≤ 0x039 then .rw
  else if 0x040 ≤ n ∧ n ≤ 0x048 then .ro
  else if 0x050 ≤ n ∧ n ≤ 0x078 then .ro
  else if 0x080 ≤ n ∧ n ≤ 0x08A then .ro
  else if h : 0x100 ≤ n ∧ n ≤ 0x23F then
    if (n - 0x100) % 8 ≤ 2 then .lockedByEntry ⟨(n - 0x100) / 8, by omega⟩
    else if (n - 0x100) % 8 ≤ 5 then .ro
    else .none
  else if 0x240 ≤ n ∧ n ≤ 0x37F then .rw
  else if 0x380 ≤ n ∧ n ≤ 0x64F then .ro
  else if h : 0x650 ≤ n ∧ n ≤ 0x74F then
    if (n - 0x650) % 8 ≤ 6 then .lockedByWatch ⟨(n - 0x650) / 8, by omega⟩ else .ro
  else if 0x750 ≤ n ∧ n ≤ 0x7CF then
    if (n - 0x750) % 16 ≤ 10 then .ro else .none
  else .none

/-- One bit taken into the CRC register (R61): the register moves up by one place, and the bit that leaves it, added to the
bit taken, is added at the places 12, 5 and 0 of the generator x^16 + x^12 + x^5 + 1. -/
def crcBit (r : Word) (b : Bool) : Word := if r.getLsbD 15 = b then r <<< 1 else (r <<< 1) ^^^ 0x1021#16

/-- The bits of the bytes a check covers, in the order the register takes them: each byte from its most significant bit
(R61). -/
def checkBits (covered : List Byte) : List Bool := covered.flatMap fun b => (List.range 8).map fun i => b.getLsbD (7 - i)

/-- The check over the covered bytes, bit by bit from a register of FFFFH (R61). -/
def checkOf (covered : List Byte) : Word := (checkBits covered).foldl crcBit 0xFFFF#16

/-- The two bytes of a word on the line, the high byte first (R59, R60). -/
def highFirst (w : Word) : List Byte := [w.extractLsb' 8 8, w.extractLsb' 0 8]

/-- An entry after a failed visit of a call kind (Table 1-10, R15, R19, R24), but for its probe count. -/
def Entry.failed (x : Entry) (k : CallKind) : Entry :=
  let resync := x.resync || decide (k = .read) || decide (k = .write) || decide (k = .attend)
    || (decide (k = .reset) && decide (x.link ≠ .lost))
  let y := { x with resync := resync, failedVisits := satInc x.failedVisits }
  let lost := { y with link := .lost, miss := x.lossLimit, probe := 0#4, losses := satInc x.losses }
  match x.link with
  | .off => x
  | .lost => y
  | .await => if x.miss.toNat + 1 = x.lossLimit.toNat then lost else { y with miss := x.miss + 1#4 }
  | .online => if x.lossLimit = 1#4 then lost else { y with link := .suspect, miss := 1#4 }
  | .suspect => if x.miss.toNat + 1 = x.lossLimit.toNat then lost else { y with miss := x.miss + 1#4 }

/-- An entry after a successful visit of a call kind (Table 1-10, R11 to R13, R15, R18, R19). -/
def Entry.succeeded (x : Entry) (k : CallKind) : Entry :=
  let toggled := k = .read ∨ k = .write ∨ k = .attend
  let y := { x with
    nextToggle := if k = .reset then true else if toggled then !x.nextToggle else x.nextToggle
    resync := if k = .reset then false else x.resync }
  match x.link with
  | .off => x
  | .lost => if k = .reset then { y with link := .await, miss := 0#4, probe := 0#4 } else y
  | .await => { y with link := .online, miss := 0#4 }
  | .online => { y with miss := 0#4 }
  | .suspect => { y with link := .online, miss := 0#4 }

/-- The events after the link state of entry e has become a new one: one LINK event if that is a change (R26). -/
abbrev linkPosted (s : State) (e : EntryIdx) (new : LinkState) : EventUnit :=
  if (s.entry e).link = new then s.events
  else
    posted s
      { kind := .link, subject := BitVec.ofNat 8 e, p1 := BitVec.ofNat 8 (s.entry e).link.code
        p2 := BitVec.ofNat 8 new.code }

/-- The event queue t is u's with more records behind, none of them of kind k. -/
def FollowedWithout (k : EventKind) (u t : EventUnit) : Prop :=
  u.queue <+: t.queue ∧ ∀ r ∈ t.queue.drop u.queue.length, r.kind ≠ k

/-- A command that ends the try of visit v, and the outcome it gives (R68, R69, R70; log 9 for a gap limit that passed
before the sample). -/
def TryEnds (s : State) (v : Visit) (c : Instr) (o : TryOutcome) : Prop :=
  s.resetHeld = false ∧ s.line.job = some (.visit v)
  ∧ match c with
    | .answerByte b f => ∃ bytes late, s.line.engine = .receiving bytes late ∧ receive v (bytes ++ [b]) f = .ends o
    | .answerDeadlineExpiry => o = .silent ∧ s.line.rx ≠ .edge ∧ ∃ late, s.line.engine = .awaiting late
    | .interByteGapExpiry =>
      o = .garbled ∧ s.line.rx = .watching ∧ ∃ b rest late, s.line.engine = .receiving (b :: rest) late
    | .startBitSample .high =>
      s.line.rx = .edge ∧ ((o = .silent ∧ s.line.engine = .awaiting true)
        ∨ (o = .garbled ∧ ∃ bytes, s.line.engine = .receiving bytes true))
    | _ => False

/-- An outcome that counts against a visit's budget of tries (R73). -/
def TryOutcome.Unaccepted (o : TryOutcome) : Prop := o = .silent ∨ o = .garbled ∨ o = .stray ∨ o = .mismatch

/-- An outcome that ends a visit in success, with the ATTN flag of its answer (R73, R76). -/
def TryOutcome.Accepted (o : TryOutcome) (attn : Bool) : Prop := (∃ payload, o = .good attn payload) ∨ o = .refused attn

/-- What the block that asks for a visit puts into its call (R62, R84, R116). -/
def askedContent (s : State) (role : Role) (e : EntryIdx) (k : CallKind) : CallContent :=
  match k, role with
  | .exchange, _ =>
    { payload := (if (s.entry e).commitMode = .auto then (s.image e).working
        else (s.image e).committed).toList.take (s.entry e).outLen.toNat }
  | .read, .errandOwn j => { object := some (s.slot j).object }
  | .write, .errandOwn j =>
    { object := some (s.slot j).object, payload := (s.slot j).payload.toList.take (s.slot j).reqLen.toNat }
  | _, _ => {}

/-- A visit at the beginning of its first try: what it takes from its entry, and the call assembled (R6, R63, R66). -/
def begunVisit (s : State) (role : Role) (e : EntryIdx) (k : CallKind) : Visit :=
  let x := s.entry e
  let toggle := (decide (k = .read) || decide (k = .write) || decide (k = .attend)) && x.nextToggle
  { entry := e, role := role, kind := k, address := x.address, toggle := toggle, retryLimit := x.retryLimit
    outLen := x.outLen, inLen := x.inLen, frame := callFrame x.address k toggle (askedContent s role e k)
    unaccepted := 0 }

/-- The waiting visit may begin: an errand's own visit as R116 states, an attention visit while its item is under the
service mark (R131), and, the model's reading (log 5), the other visits of a transaction by the same tests. -/
def MayAsk (s : State) (role : Role) (e : EntryIdx) (k : CallKind) : Prop :=
  match role with
  | .pass => k = .exchange ∨ k = .reset
  | .errandResync _ => k = .reset ∧ (s.entry e).link ≠ .off
  | .errandOwn j =>
    ∃ kind, (s.slot j).kind = some kind ∧ k = kind.call ∧ (s.entry e).link ≠ .off
      ∧ (kind = .reset ∨ (s.entry e).resync = false)
  | .attnResync => k = .reset ∧ s.attn.mark = some e
  | .attnOwn => k = .attend ∧ s.attn.mark = some e

/-- Cycle c considers an entry (R7, R8). -/
abbrev Entry.ConsideredIn (x : Entry) (c : Word) : Prop := c.toNat % x.divisor.toNat = x.phase.toNat

/-- The roster pass makes no visit at an entry (R7, R8): it is OFF, not considered, or LOST with a probe count that stays
below the probe spacing, of which 0 is taken as 1. -/
abbrev Entry.PassedOver (x : Entry) (c : Word) (spacing : BitVec 4) : Prop :=
  x.link = .off ∨ ¬ x.ConsideredIn c ∨ (x.link = .lost ∧ x.probe.toNat + 1 < max 1 spacing.toNat)

/-- An entry once the pass has gone over it without a visit (R8). -/
def Entry.passedOver (x : Entry) (c : Word) : Entry :=
  if x.link = .lost ∧ x.ConsideredIn c then { x with probe := x.probe + 1#4 } else x

/-- The roster pass makes a visit at an entry with a call of kind k (R7, R8): an EXCHANGE at an entry in service that the
cycle considers, a RESET probe at a considered LOST one whose probe count reaches the spacing. -/
def Entry.VisitedIn (x : Entry) (c : Word) (spacing : BitVec 4) (k : CallKind) : Prop :=
  x.ConsideredIn c
  ∧ ((x.link.InService ∧ k = .exchange)
    ∨ (x.link = .lost ∧ k = .reset ∧ max 1 spacing.toNat ≤ x.probe.toNat + 1))

/-- The roster pass taken on from u at index `first` (R7, R8, R37). Either it comes to the first entry from there on at which
it makes a visit, whose try begins at once in IDLE and waits for the end of the gap otherwise (R66), the visit itself not yet in
flight then (log 4), or there is none and the window opens with the arbiter's look (R39, R110). The probe counts of the entries gone over are raised on the way. -/
def PassGoesOn (first : Nat) (u t : State) : Prop :=
  (∃ (e : EntryIdx) (k : CallKind) (w : State), first ≤ e.val
    ∧ (u.entry e).VisitedIn u.seq.cycle u.cfg.probeSpacing k
    ∧ (∀ i : EntryIdx, first ≤ i.val → i < e → (u.entry i).PassedOver u.seq.cycle u.cfg.probeSpacing)
    ∧ w = { u with roster := w.roster, seq := { u.seq with passPos := e } }
    ∧ (∀ i : EntryIdx, w.entry i =
        if first ≤ i.val ∧ i < e then (u.entry i).passedOver u.seq.cycle
        else if i = e ∧ k = .reset then { u.entry e with probe := 0#4 } else u.entry i)
    ∧ t = { w with line :=
        if u.line.engine = .idle then
          { u.line with engine := .sending 0, job := some (.visit (begunVisit w .pass e k)), waiting := none }
        else { u.line with waiting := some (.visit .pass e k) } })
  ∨ ((∀ i : EntryIdx, first ≤ i.val → (u.entry i).PassedOver u.seq.cycle u.cfg.probeSpacing)
    ∧ ∃ w, t = arbiterLook endCycle w
      ∧ w = { u with
          roster := w.roster
          seq := { u.seq with phase := .window }
          errand := { u.errand with budgetLeft := u.errand.budget } }
      ∧ ∀ i : EntryIdx, w.entry i = if first ≤ i.val then (u.entry i).passedOver u.seq.cycle else u.entry i)

/-- A cycle has started in the step from s to t (R35, R36; R80 for the commit marks), and what a step that starts one
leaves as it was. With sync disabled the pass begins at index 0, and the window and the cycle end may follow in the same step
(95_what_each_step_holds.md; log 4 for a first visit that waits); a START or RELEASE writes its result into the port besides. -/
def CycleBegun (s t : State) : Prop :=
  t.seq.cycle = s.seq.cycle + 1#16 ∧ t.seq.cyc = true ∧ t.seq.visits = 0 ∧ t.seq.failedVisits = 0
  ∧ t.seq.missed = 0 ∧ t.seq.holder = none
  ∧ (s.cfg.syncEnable = true →
      t.seq.state = .running ∧ t.seq.phase = .sync ∧ t.seq.transactions = 0
      ∧ (s.line.engine = .idle →
          t.line.engine = .sending 0 ∧ t.line.job = some (.sync (syncFrame (s.seq.cycle + 1#16))))
      ∧ (s.line.engine ≠ .idle → t.line.engine = s.line.engine ∧ t.line.waiting = some .sync))
  ∧ (s.cfg.syncEnable = false → t.seq.phase ≠ .sync
      ∧ ∃ u v : State, PassGoesOn 0 u v ∧ t = { v with port := t.port }
        ∧ u = { s with
            seq := { s.seq with
              state := .running, phase := .roster, passPos := 0, cycle := s.seq.cycle + 1#16, visits := 0
              failedVisits := 0, transactions := 0, missed := 0, holder := none, cyc := true, freeMinPassed := false }
            images := u.images }
        ∧ ∀ e, u.image e = { s.image e with commitMark := false })
  ∧ (∀ e, t.entry e = { s.entry e with probe := (t.entry e).probe })
  ∧ (∀ e, t.image e = { s.image e with age := (t.image e).age, commitMark := false })
  ∧ t.watches = s.watches ∧ t.attn.items = s.attn.items ∧ s.events.queue <+: t.events.queue
  ∧ t.cfg = s.cfg ∧ t.selector = s.selector ∧ t.freeze = s.freeze ∧ t.errand.staging = s.errand.staging

/-- The receive path once the command that ends a try has been taken (R58). -/
def rxAtEnd (s : State) (c : Instr) : RxPath :=
  match c with
  | .answerByte _ f => if f then .waitHigh else .watching
  | .startBitSample _ => .watching
  | _ => s.line.rx

/-- The part behind a visit that command c has ended in success, before the block that made it acts (R6, R9, R38, R71): the
quiet gap begins, the visit is no longer in flight and counts in the tally, and the roster has applied its outcome, which
leaves an entry in OFF as it is (R10). -/
def behindSuccess (s : State) (v : Visit) (c : Instr) : State :=
  { s with
    roster := s.roster.set v.entry.val ((s.entry v.entry).succeeded v.kind) v.entry.isLt
    seq := { s.seq with visits := s.seq.visits + 1 }
    line := { s.line with engine := .quiet 20, rx := rxAtEnd s c, job := none }
    events := linkPosted s v.entry ((s.entry v.entry).succeeded v.kind).link }

/-- The part behind a visit that command c has ended in failure, before the block that made it acts (R6, R9, R10, R38, R71).
An entry into LOST has its attention item removed, its armed watches UNKNOWN, its fresh flag cleared and its input words
substituted where that is configured (R14, R94, R128, R141). -/
def behindFailure (s : State) (v : Visit) (c : Instr) : State :=
  let x := s.entry v.entry
  let im := s.image v.entry
  let lost := x.link ≠ .lost ∧ (x.failed v.kind).link = .lost
  { s with
    roster := s.roster.set v.entry.val (x.failed v.kind) v.entry.isLt
    seq := { s.seq with
      visits := s.seq.visits + 1, failedVisits := s.seq.failedVisits + if x.link = .off then 0 else 1 }
    line := { s.line with engine := .quiet 20, rx := rxAtEnd s c, job := none }
    attn := if lost then
        { items := s.attn.items.filter fun i => decide (i ≠ v.entry)
          mark := if s.attn.mark = some v.entry then none else s.attn.mark }
      else s.attn
    watches := s.watches.map fun w =>
      if lost ∧ w.armed = true ∧ w.entry.toNat = v.entry.val then { w with outcome := .unknown, run := 0#2 } else w
    images := s.images.set v.entry.val
      (if lost ∧ x.substitute = true then { im with fresh := false, input := zeroWords, generation := im.generation + 1#8 }
        else if lost then { im with fresh := false } else im) v.entry.isLt
    events := linkPosted s v.entry (x.failed v.kind).link }

/-- The attention list behind the append step of an answer (R127). -/
def AttentionList.listed (a : AttentionList) (e : EntryIdx) (attn : Bool) : AttentionList :=
  if attn = true ∧ e ∉ a.items then { a with items := a.items ++ [e] } else a

/-- The image record of an entry that a visit of the pass has left without a commit: the fresh flag cleared behind an
EXCHANGE that was not discarded (R91, R10). -/
def leftUncommitted (s : State) (v : Visit) (im : Image) : Image :=
  { im with fresh := if v.kind = .exchange ∧ (s.entry v.entry).link ≠ .off then false else im.fresh }

/-- The end of the try makes a commit: a GOOD EXCHANGE of the pass to an entry that is not OFF (R38, R90). -/
def Commits (s : State) (v : Visit) (o : TryOutcome) : Prop :=
  v.role = .pass ∧ v.kind = .exchange ∧ (∃ attn payload, o = .good attn payload) ∧ (s.entry v.entry).link ≠ .off

/-- The line fault limit reached (R52, R75): the call given up as R51 states, the ERRAND event of an ACTIVE slot, LINE_FAULT
and STOPPED with cause FAULT in this order, and the sequencer FAULTED. -/
def FaultedBy (s t : State) : Prop :=
  Abandoned s t
  ∧ t.seq = { s.seq with
      state := .faulted, phase := .none, stopPending := false, holdPending := false, singleRun := false
      expiryInHold := false, timer := none }
  ∧ t.cursor = 0xFF#8
  ∧ (∀ base : EventUnit,
      (((∀ k, (s.slot k).state ≠ .active) ∧ base = s.events)
        ∨ ∃ k, (∀ i, (s.slot i).state = .active ↔ i = k) ∧ base = posted s (errandEvent k (s.slot k) 6#8)) →
      t.events = (base.take s.seq.cycle { kind := .lineFault, subject := s.cursor, p1 := 3#8 }).take s.seq.cycle
        { kind := .stopped, subject := 0xFF#8, p1 := 4#8 })
  ∧ t.cfg = s.cfg ∧ t.selector = s.selector ∧ t.freeze = s.freeze ∧ t.port = s.port

end Sys2Proof.Machine
end

