-- ==== Sys2Proof/Certificates/Slice0/Obligations.lean ====
section
/-! DEFINITION. The statements for the provers. OBLIGATIONS.json gives each its rule and its tier; "log n" is
notes/assumptions/n.md. -/

section

open Sys2Proof Sys2Proof.Machine

/-! ### The machine as a whole -/

/-- A step executes the command at the front of the queue on the part with the queue's rest, and an empty queue idles:
the model's own choice (log 1). -/
def Obligations.StepRunsTheFrontCommand : Prop :=
  (∀ (c : Instr) (rest : List Instr) (s : State),
    step { s with pending := c :: rest } = exec c { s with pending := rest })
  ∧ ∀ s : State, s.pending = [] → step s = .next s

/-- No command stops the machine, and only the two rows of the reset input change it. The queue of commands and the list of
accesses that arrive amid a commit are the model's own (log 1, log 6): no row, HARDWARE_RESET included, touches the queue, and
only the commit that ANSWER_BYTE can make takes the list, all of it (log 1, log 6, log 13). -/
def Obligations.EveryCommandAnswersANextState : Prop :=
  ∀ (c : Instr) (s : State), ∃ t, exec c s = .next t ∧ t.pending = s.pending
    ∧ ((∀ b f, c ≠ .answerByte b f) → t.amid = s.amid)
    ∧ (t.amid = s.amid ∨ t.amid = [])
    ∧ (c ≠ .hardwareReset → c ≠ .resetRelease → t.resetHeld = s.resetHeld)

/-- While RESET is low no host access, no byte and no timer is taken, reads return 0000H and TXEN is low (R177). -/
def Obligations.LowResetInputTakesNothing : Prop :=
  ∀ (c : Instr) (s : State), s.resetHeld = true →
    (c ≠ .hardwareReset → c ≠ .resetRelease → exec c s = .next s)
    ∧ (∀ o, s.readWord o = 0#16) ∧ s.txen = false

/-- A line or time event keeps the words that `HostDataKept` lists, which belong to the host program: the roster's, the
sequencer's and the watches' configuration (R3, R31, R137), the selector (R86), the freeze window (R96), the staging record
(R104), the event control words (R161), the argument and result words (R169, R171) and the fault words (R172). It keeps the
output copies too (R80), but for the bytes of an answer, whose commit may have a watch drive an output word (R98). The bytes of
an answer are spoken of with no host access amid their commit (R142; log 6). That the queue is kept is the model's choice
(log 1). -/
def Obligations.LineAndTimeKeepHostData : Prop :=
  ∀ (c : Instr) (s t : State), busWrite c = none → c ≠ .hardwareReset → c ≠ .resetRelease → exec c s = .next t →
    ((∃ b f, c = .answerByte b f) → s.amid = []) →
    HostDataKept s t
    ∧ ((∀ b f, c ≠ .answerByte b f) →
        ∀ e, (t.image e).working = (s.image e).working ∧ (t.image e).committed = (s.image e).committed)

/-! ### Resets -/

/-- HARDWARE_RESET and RESET_RELEASE: the roster (R27) and the image store (R100) at their hardware reset values. The clause
`t.pending = s.pending ∧ t.amid = s.amid` is no rule of the spec but the model's choice: the queue of commands and the list of
arrivals are its own (log 13). -/
def Obligations.HardwareResetOfRosterAndImages : Prop :=
  ∀ (c : Instr) (s : State), c = .hardwareReset ∨ (c = .resetRelease ∧ s.resetHeld = true) →
    ∃ t, exec c s = .next t ∧ t.resetHeld = decide (c = .hardwareReset) ∧ t.pending = s.pending
      ∧ t.amid = s.amid
      ∧ (∀ e, t.entry e =
            { address := 0#8, divisor := 1#4, phase := 0#4, retryLimit := 1#3, lossLimit := 3#4, outLen := 0#4,
              inLen := 0#4, commitMode := .auto, substitute := false, link := .off, miss := 0#4, nextToggle := true,
              resync := false, probe := 0#4, retries := 0#8, failedVisits := 0#8, losses := 0#8 }
          ∧ t.visitInFlight e = false ∧ (t.entry e).valid = false)
      ∧ t.cfg.probeSpacing = 4#4 ∧ t.events.queue = []
      ∧ (∀ e, t.image e =
            { working := zeroWords, committed := zeroWords, input := zeroWords, generation := 0#8, age := 255#8,
              fresh := false, commitMark := false })
      ∧ t.selector = ⟨0#8, 0#4⟩
      ∧ readLoc .freeze0 t = 0#16 ∧ readLoc .freeze1 t = 0#16 ∧ readLoc .freeze2 t = 0#16
      ∧ ∀ i, readLoc (.freezeWord i) t = 0#16

/-- HARDWARE_RESET and RESET_RELEASE: the sequencer (R54), the event unit (R164), the errand unit, the attention list, the
watches (R150), the line engine and the host port at their hardware reset values. -/
def Obligations.HardwareResetOfTheOtherBlocks : Prop :=
  ∀ (c : Instr) (s : State), c = .hardwareReset ∨ (c = .resetRelease ∧ s.resetHeld = true) →
    ∃ t, exec c s = .next t
      ∧ (t.seq.state = .stopped ∧ t.seq.phase = .none ∧ t.cursor = 0xFF#8 ∧ t.seq.cycle = 0#16
          ∧ t.seq.stopPending = false ∧ t.seq.holdPending = false ∧ t.seq.singleRun = false
          ∧ t.seq.expiryInHold = false ∧ t.seq.missed = 0 ∧ t.seq.visits = 0 ∧ t.seq.failedVisits = 0
          ∧ t.seq.transactions = 0 ∧ t.seq.timer = none ∧ t.seq.overruns = 0#8 ∧ t.seq.cyc = false)
      ∧ t.cfg = { runMode := 0#2, lineRate := 1#3, period := 1250#16, deadline := 160#16, probeSpacing := 4#4,
                  syncEnable := true, budget := 2#3 }
      ∧ (t.events.queue = [] ∧ (∀ i, readLoc (.headWindow i) t = 0#16) ∧ t.events.nextSeq = 0#16
          ∧ t.events.dropped = 0#8 ∧ t.events.headWait = 0#8 ∧ t.events.filter.word = 0x03DE#16
          ∧ t.events.threshold = 1#6 ∧ t.events.coalescing = 0#8 ∧ t.events.globalIrq = false
          ∧ t.events.faultIrq = false ∧ t.irqLow = false)
      ∧ ((∀ k, t.slot k =
            { state := .free, tag := 0#8, entry := 0, kind := none, object := 0#8, reqLen := 0#4,
              payload := zeroWords, outcome := .none, ansLen := 0#4 })
          ∧ t.errand.queue = [] ∧ t.errand.staging = ⟨0#8, 0#8, 0#4, 0#4, 0#8, zeroWords⟩
          ∧ t.errand.turn = .attention ∧ t.attn = ⟨[], none⟩)
      ∧ (∀ n, (t.watch n).armed = false ∧ (∀ i, (t.watch n).configWord i = 0#16) ∧ (t.watch n).outcome = .unknown
          ∧ (t.watch n).candidate = false ∧ (t.watch n).run = 0#2 ∧ (t.watch n).fires = 0#8
          ∧ (t.watch n).valid = false)
      ∧ (t.line.job = none ∧ t.line.waiting = none ∧ t.line.engine = .quiet 20 ∧ t.txen = false
          ∧ (∀ i, t.txd i = .high) ∧ t.line.echoFaults = 0#2
          ∧ t.line.lineFaults = 0#8 ∧ t.line.strayBytes = 0#16 ∧ t.line.rate = 1#2 ∧ t.line.deadline = 160)
      ∧ t.port = { argument := 0#16, outcome := .ok, value := 0#8, count := 0#8, fault := none, faultCount := 0#4 }

/-- SOFT_RESET: the roster (R28), the image store (R101) and the watches (R151). -/
def Obligations.SoftResetOfRosterImagesWatches : Prop :=
  ∀ s : State, s.resetHeld = false →
    ∃ t, exec .softReset s = .next t
      ∧ (∀ e, t.entry e =
          if (s.entry e).link = .off then s.entry e
          else { s.entry e with link := .await, miss := 0#4, resync := true, nextToggle := true, probe := 0#4 })
      ∧ (∀ e, t.visitInFlight e = false) ∧ t.cfg.probeSpacing = s.cfg.probeSpacing
      ∧ (∀ e, t.image e = { s.image e with fresh := false, age := 255#8, commitMark := false })
      ∧ t.selector = s.selector ∧ t.freeze = s.freeze
      ∧ (∀ n, t.watch n = { s.watch n with outcome := .unknown, run := 0#2 })
      ∧ t.events.queue = []

/-- SOFT_RESET: the sequencer (R55), the errand unit (R123), the event unit (R165), the attention list (R134), the line
engine (R78, R79) and the host port (R176). Not rules of the spec but the model's readings: the receive path goes on as it was
(log 21), the remainder's byte is the one log 22 names, and the queue of commands and the list of arrivals are kept (log 1,
log 6). -/
def Obligations.SoftResetOfTheOtherBlocks : Prop :=
  ∀ s : State, s.resetHeld = false →
    ∃ t, exec .softReset s = .next t
      ∧ t.seq = { s.seq with
          state := .stopped, phase := .none, cycle := 0#16, stopPending := false, holdPending := false
          singleRun := false, expiryInHold := false, missed := 0, visits := 0, failedVisits := 0, transactions := 0
          timer := none, cyc := false }
      ∧ t.cursor = 0xFF#8 ∧ t.cfg = s.cfg
      ∧ (∀ k, t.slot k = { s.slot k with state := .free })
      ∧ t.errand = { s.errand with slots := t.errand.slots, queue := [], turn := .attention }
      ∧ t.attn = ⟨[], none⟩
      ∧ t.events = { s.events with queue := [], nextSeq := 0#16, dropped := 0#8, headWait := 0#8 }
      ∧ (∀ i, readLoc (.headWindow i) t = 0#16) ∧ t.irqLow = false
      ∧ t.line = { s.line with engine := engineAfterAbandonment s, job := none, waiting := none }
      ∧ t.port = { answered s .ok 0#8 with fault := none, faultCount := 0#4 }
      ∧ t.resetHeld = false ∧ t.pending = s.pending ∧ t.amid = s.amid

/-! ### Sequencer commands and timers -/

/-- START in every state and with every argument (R33), and what the run that it begins loads (R34, R57, R68, R110). The
cycle starts from `loaded`, with the SYNC call or with the roster pass (R7, R8, R35 to R37, R66). That the pass's first visit
only waits, not in flight, while the engine is not IDLE is the model's reading (log 4). -/
def Obligations.StartBeginsARunFromStopped : Prop :=
  ∀ s : State, s.resetHeld = false →
    (s.seq.state = .faulted → exec .start s = .next { s with port := answered s .refused 0#8 })
    ∧ (s.seq.state = .running ∨ s.seq.state = .waiting ∨ s.seq.state = .held →
        exec .start s = .next { s with port := answered s .busy 0#8 })
    ∧ (s.seq.state = .stopped → s.port.argument ≠ 0#16 → s.port.argument ≠ 1#16 →
        exec .start s = .next { s with port := answered s .badArg 0#8 })
    ∧ (s.seq.state = .stopped → s.port.argument = 0#16 ∨ s.port.argument = 1#16 →
        ∃ t loaded, exec .start s = .next t ∧ t.port = answered s .ok 0#8 ∧ CycleBegun loaded t
          ∧ loaded = { s with
              seq := { s.seq with
                stopPending := false, holdPending := false, expiryInHold := false, missed := 0
                singleRun := decide (s.port.argument = 1#16) || decide (s.cfg.runMode = 2#2)
                timer := if s.port.argument = 0#16 ∧ s.cfg.runMode = 1#2 then some (max 1 s.cfg.period.toNat) else none }
              line := { s.line with
                rate := if 3 < s.cfg.lineRate.toNat then 0#2 else s.cfg.lineRate.setWidth 2
                deadline := min 1023 (max 16 s.cfg.deadline.toNat), echoFaults := 0#2 }
              errand := { s.errand with budget := min 4 s.cfg.budget.toNat } }
          ∧ t.line.rate = (if 3 < s.cfg.lineRate.toNat then 0#2 else s.cfg.lineRate.setWidth 2)
          ∧ t.line.deadline = min 1023 (max 16 s.cfg.deadline.toNat)
          ∧ t.line.echoFaults = 0#2 ∧ t.errand.budget = min 4 s.cfg.budget.toNat
          ∧ (s.cfg.syncEnable = true →
              t.seq.stopPending = false ∧ t.seq.holdPending = false ∧ t.seq.expiryInHold = false
              ∧ t.seq.singleRun = (decide (s.port.argument = 1#16) || decide (s.cfg.runMode = 2#2))
              ∧ t.seq.timer = (if s.port.argument = 0#16 ∧ s.cfg.runMode = 1#2 then some (max 1 s.cfg.period.toNat)
                  else none)))

/-- STOP in every sequencer state (R49). -/
def Obligations.StopActsByState : Prop :=
  ∀ s : State, s.resetHeld = false →
    (s.seq.state = .running →
      exec .stop s = .next { s with seq := { s.seq with stopPending := true }, port := answered s .ok 0#8 })
    ∧ (s.seq.state = .waiting ∨ s.seq.state = .held →
      exec .stop s = .next { s with
        seq := { s.seq with state := .stopped, holdPending := false, expiryInHold := false, timer := none }
        events := posted s { kind := .stopped, subject := 0xFF#8, p1 := 1#8 }
        port := answered s .ok 0#8 })
    ∧ (s.seq.state = .faulted →
      exec .stop s = .next { s with seq := { s.seq with state := .stopped }, port := answered s .ok 0#8 })
    ∧ (s.seq.state = .stopped → exec .stop s = .next { s with port := answered s .ok 0#8 })

/-- HALT (R50): no effect in STOPPED; in every other state the run ends at once, the visit in flight abandoned (R51, R78),
with the ERRAND event of a slot that was ACTIVE before the STOPPED event (R120). The model's readings in it: an abandoned
visit to an entry in OFF changes nothing of it (log 8), a transaction whose first visit has not begun, an errand or an
attention item, ends with its entry as it was (log 19), the receive path goes on as it was (log 21), the remainder's byte
(log 22), and the queue of commands and the list of arrivals are kept (log 1, log 6). -/
def Obligations.HaltAbandonsAndStops : Prop :=
  ∀ s : State, s.resetHeld = false →
    (s.seq.state = .stopped → exec .halt s = .next { s with port := answered s .ok 0#8 })
    ∧ (s.seq.state ≠ .stopped →
        ∃ t, exec .halt s = .next t ∧ t.port = answered s .ok 0#8 ∧ Abandoned s t
          ∧ t.seq = { s.seq with
              state := .stopped, phase := .none, stopPending := false, holdPending := false, singleRun := false
              expiryInHold := false, timer := none }
          ∧ t.cursor = 0xFF#8
          ∧ t.line = { s.line with engine := engineAfterAbandonment s, job := none, waiting := none }
          ∧ ((∀ k, (s.slot k).state ≠ .active) →
              t.events = posted s { kind := .stopped, subject := 0xFF#8, p1 := 3#8 })
          ∧ (∀ k, (∀ j, (s.slot j).state = .active ↔ j = k) →
              t.events = (posted s (errandEvent k (s.slot k) 6#8)).take s.seq.cycle
                { kind := .stopped, subject := 0xFF#8, p1 := 3#8 })
          ∧ t.cfg = s.cfg ∧ t.selector = s.selector ∧ t.freeze = s.freeze ∧ t.pending = s.pending
          ∧ t.amid = s.amid)

/-- RELEASE in every sequencer state, run mode and state of the expiry-in-hold flag (R48), with the FREE minimum (R42). A
cycle that it starts begins with the SYNC call or with the roster pass (R7, R8, R35 to R37, R66, R110). The clauses for a FREE
run take a run mode code that names no mode as FREE (R32). Not rules of the spec but the model's: the mark `freeMinPassed`,
which says that the FREE minimum has passed (log 20), that a stored run mode SINGLE, in which no run is ever HELD, acts as FREE
(log 18), and that the pass's first visit only waits, not in flight, while the engine is not IDLE (log 4). -/
def Obligations.ReleaseFollowsTheHold : Prop :=
  ∀ s : State, s.resetHeld = false →
    (s.seq.state ≠ .held → exec .release s = .next { s with port := answered s .notPending 0#8 })
    ∧ (s.seq.state = .held → s.cfg.runMode = 1#2 → s.seq.expiryInHold = false →
        exec .release s = .next { s with
          seq := { s.seq with state := .waiting, phase := .none }, port := answered s .ok 0#8 })
    ∧ (s.seq.state = .held → s.cfg.runMode = 1#2 → s.seq.expiryInHold = true →
        ∃ t, exec .release s = .next t ∧ t.port = answered s .ok 0#8 ∧ t.seq.expiryInHold = false
          ∧ CycleBegun { s with seq := { s.seq with expiryInHold := false } } t)
    ∧ (s.seq.state = .held → s.cfg.runMode ≠ 1#2 → s.seq.freeMinPassed = false →
        exec .release s = .next { s with
          seq := { s.seq with state := .waiting, phase := .none }, port := answered s .ok 0#8 })
    ∧ (s.seq.state = .held → s.cfg.runMode ≠ 1#2 → s.seq.freeMinPassed = true →
        ∃ t, exec .release s = .next t ∧ t.port = answered s .ok 0#8 ∧ CycleBegun s t)

/-- PERIOD_TIMER_EXPIRY by state (R45), with an idle timer not expiring (R44), FREE_MINIMUM_EXPIRY by run mode and state
(R42), and CYC_PULSE_END, at which CYC goes low and nothing else changes (R35). A cycle that one of them starts begins with the
SYNC call or with the roster pass (R7, R8, R35 to R37, R66, R110). Not rules of the spec but the model's: the mark kept in
RUNNING and HELD (log 20), that the pass's first visit only waits, not in flight, while the engine is not IDLE (log 4), and
that a FREE_MINIMUM_EXPIRY outside a FREE run and an expiry in STOPPED or FAULTED, which cannot occur, change nothing
(log 3). -/
def Obligations.TimersActByState : Prop :=
  ∀ s : State, s.resetHeld = false →
    (s.seq.timer = none → exec .periodTimerExpiry s = .next s)
    ∧ (s.seq.timer ≠ none → s.seq.state = .waiting → ∃ t, exec .periodTimerExpiry s = .next t ∧ CycleBegun s t)
    ∧ (s.seq.timer ≠ none → s.seq.state = .running →
        exec .periodTimerExpiry s = .next { s with seq := { s.seq with missed := s.seq.missed + 1 } })
    ∧ (s.seq.timer ≠ none → s.seq.state = .held →
        exec .periodTimerExpiry s = .next { s with seq := { s.seq with expiryInHold := true } })
    ∧ (s.cfg.runMode = 0#2 ∨ s.cfg.runMode = 3#2 → s.seq.state = .waiting →
        ∃ t, exec .freeMinimumExpiry s = .next t ∧ CycleBegun s t)
    ∧ (s.cfg.runMode = 0#2 ∨ s.cfg.runMode = 3#2 → s.seq.state = .running ∨ s.seq.state = .held →
        exec .freeMinimumExpiry s = .next { s with seq := { s.seq with freeMinPassed := true } })
    ∧ (s.cfg.runMode = 1#2 ∨ s.cfg.runMode = 2#2 → exec .freeMinimumExpiry s = .next s)
    ∧ (s.seq.state = .stopped ∨ s.seq.state = .faulted →
        exec .freeMinimumExpiry s = .next s ∧ exec .periodTimerExpiry s = .next s)
    ∧ exec .cycPulseEnd s = .next { s with seq := { s.seq with cyc := false } }

/-- The cycle end (R40, R41, R43, R46): the CYCLE and OVERRUN events, and the flags in their order; where no cycle follows
at once, the whole of what the end leaves, with the age of an entry not in OFF and not committed in the cycle raised by 1, up
to 255, and every other age as it was (R93); where a cycle follows at once, it starts from what the end leaves, with the SYNC
call or with the roster pass (R7, R8, R35 to R37, R66, R110). The model's choices in it: a stored run mode other than PERIODIC
goes on as FREE, SINGLE without the single run flag included (log 18), the mark that the FREE minimum has passed (log 20), and
that the pass's first visit only waits, not in flight, while the engine is not IDLE (log 4). -/
def Obligations.CycleEndTakesItsFlags : Prop :=
  ∀ (s : State) (waited u : EventUnit) (q : Sequencer) (age : EntryIdx → Byte),
    (∀ e, age e =
      if (s.entry e).link ≠ .off ∧ (s.image e).commitMark = false ∧ (s.image e).age ≠ 255#8 then (s.image e).age + 1#8
      else (s.image e).age) →
    waited = (if s.events.queue = [] then s.events else { s.events with headWait := satInc s.events.headWait }) →
    u = (let c := waited.take s.seq.cycle
          { kind := .cycle, subject := 0xFF#8, d0 := BitVec.ofNat 16 s.seq.visits,
            d1 := BitVec.ofNat 16 s.seq.failedVisits, d2 := BitVec.ofNat 16 s.seq.transactions }
        if s.seq.missed = 0 then c
        else c.take s.seq.cycle
          { kind := .overrun, subject := 0xFF#8, p1 := BitVec.ofNat 8 (min 255 s.seq.missed) }) →
    q = { s.seq with overruns := BitVec.ofNat 8 (min 255 (s.seq.overruns.toNat + s.seq.missed)) } →
    (s.seq.stopPending = true ∨ s.seq.singleRun = true →
      (endCycle s).seq = { q with
        state := .stopped, phase := .none, stopPending := false, singleRun := false, holdPending := false, timer := none }
      ∧ (endCycle s).events = u.take s.seq.cycle
          { kind := .stopped, subject := 0xFF#8, p1 := if s.seq.stopPending then 1#8 else 2#8 }
      ∧ (∀ e, (endCycle s).image e = { s.image e with age := age e }) ∧ (endCycle s).roster = s.roster)
    ∧ (s.seq.stopPending = false → s.seq.singleRun = false → s.seq.holdPending = true →
      (endCycle s).seq = { q with state := .held, phase := .none, holdPending := false, expiryInHold := false }
      ∧ (endCycle s).events = u.take s.seq.cycle
          { kind := .hold, subject := match s.seq.holder with | some n => BitVec.ofNat 8 n | none => 0xFF#8 }
      ∧ (∀ e, (endCycle s).image e = { s.image e with age := age e }) ∧ (endCycle s).roster = s.roster)
    ∧ (s.seq.stopPending = false → s.seq.singleRun = false → s.seq.holdPending = false →
      (s.cfg.runMode = 1#2 ∧ s.seq.missed = 0) ∨ (s.cfg.runMode ≠ 1#2 ∧ s.seq.freeMinPassed = false) →
      (endCycle s).seq = { q with state := .waiting, phase := .none } ∧ (endCycle s).events = u
      ∧ (∀ e, (endCycle s).image e = { s.image e with age := age e }) ∧ (endCycle s).roster = s.roster)
    ∧ (s.seq.stopPending = false → s.seq.singleRun = false → s.seq.holdPending = false →
      (s.cfg.runMode = 1#2 ∧ 0 < s.seq.missed) ∨ (s.cfg.runMode ≠ 1#2 ∧ s.seq.freeMinPassed = true) →
      (endCycle s).seq.cycle = s.seq.cycle + 1#16 ∧ (endCycle s).seq.cyc = true
      ∧ (endCycle s).seq.overruns = q.overruns ∧ u.queue <+: (endCycle s).events.queue
      ∧ ∃ ended, CycleBegun ended (endCycle s) ∧ ended = { s with seq := q, events := u, images := ended.images }
        ∧ ∀ e, ended.image e = { s.image e with age := age e })

/-! ### The station line -/

/-- CALL_BYTE_ECHO: a good echo lets the next byte begin; any other ends the try as ECHO_FAULT, raises the two counts and
has the same call wait to be repeated while the consecutive count stays below 3 (R67, R74). That an echo counts as missing
while the receive path waits for the high level is the model's choice (log 11), and the remainder's byte its reading
(log 22). -/
def Obligations.EchoDecidesTheNextByte : Prop :=
  ∀ (s : State) (n : Nat) (j : Job) (sent : Byte), s.resetHeld = false → s.line.engine = .sending n →
    s.line.job = some j → j.frame[n]? = some sent →
    (s.line.rx ≠ .waitHigh →
      exec (.callByteEcho (.taken sent false)) s =
        .next { s with line := { s.line with engine := .sending (n + 1), rx := .watching } })
    ∧ (∀ x, BadEcho s.line.rx x sent → s.line.echoFaults.toNat < 2 →
      exec (.callByteEcho x) s =
        .next { s with line := { s.line with
          engine := .remainder (some sent), rx := rxAfterEcho s.line.rx x, waiting := some .repeatTry
          echoFaults := s.line.echoFaults + 1#2, lineFaults := satInc s.line.lineFaults } })

/-- The third consecutive echo fault gives up the run (R52, R75): the call is abandoned, an ERRAND event of an ACTIVE slot,
LINE_FAULT and STOPPED with cause FAULT are posted in this order, and the sequencer is FAULTED. The model's readings in it:
a visit to an entry in OFF leaves it as it was (log 8), an echo counts as missing while the receive path waits for the high
level (log 11), FAULTED leaves the receive path to go on (log 21), and the remainder's byte (log 22). -/
def Obligations.ThirdEchoFaultEndsInFaulted : Prop :=
  ∀ (s : State) (n : Nat) (j : Job) (sent : Byte) (x : Echo), s.resetHeld = false → s.line.engine = .sending n →
    s.line.job = some j → j.frame[n]? = some sent → BadEcho s.line.rx x sent → s.line.echoFaults = 2#2 →
    ∃ t, exec (.callByteEcho x) s = .next t ∧ FaultedBy s t
      ∧ t.line = { s.line with
          engine := .remainder (some sent), rx := rxAfterEcho s.line.rx x, job := none, waiting := none
          echoFaults := 3#2, lineFaults := satInc s.line.lineFaults }

/-- CALL_SENT: after a visit's call the answer is awaited (R67); after the SYNC call the quiet gap of 40 begins and the
roster pass with it, at index 0 (R36, R37, R77). The pass comes to the first entry it visits, with an EXCHANGE at an entry in
service that the cycle considers and a RESET probe at a LOST one whose probe count reaches the spacing, or, where there is
none, to the window; it raises the probe count of every considered LOST entry it goes over (R7, R8). That the visit only waits
in the gap, not in flight, is the model's reading (log 4). -/
def Obligations.CallSentAwaitsOrEntersThePass : Prop :=
  ∀ (s : State) (j : Job), s.resetHeld = false → s.line.engine = .sending j.frame.length → s.line.job = some j →
    (∀ v, j = .visit v →
      exec .callSent s = .next { s with line := { s.line with engine := .awaiting false, echoFaults := 0#2 } })
    ∧ (∀ f, j = .sync f →
      ∃ t, exec .callSent s = .next t ∧ PassGoesOn 0 { s with
        seq := { s.seq with phase := .roster, passPos := 0 }
        line := { s.line with engine := .quiet 40, job := none, echoFaults := 0#2 } } t)
    ∧ (∀ f (e : EntryIdx), j = .sync f → s.seq.cycle.toNat % (s.entry e).divisor.toNat = (s.entry e).phase.toNat →
      (s.entry e).link.InService →
      (∀ i < e, (s.entry i).link = .off ∨ s.seq.cycle.toNat % (s.entry i).divisor.toNat ≠ (s.entry i).phase.toNat) →
      exec .callSent s = .next { s with
        seq := { s.seq with phase := .roster, passPos := e }
        line := { s.line with
          engine := .quiet 40, job := none, echoFaults := 0#2, waiting := some (.visit .pass e .exchange) } })

/-- CALL_REMAINDER_END: TXEN falls and the quiet gap of 20 begins (R67, R71, R78). TXD carries the ten bits of the byte in
progress, low start bit, data bits with the least significant first, high stop bit, and is high whenever no byte is being
sent and while the reset input is low (R56, R79, R177; log 22 for which byte is in progress). -/
def Obligations.RemainderEndBeginsTheGap : Prop :=
  (∀ (s : State) (byte : Option Byte), s.resetHeld = false → s.line.engine = .remainder byte →
    exec .callRemainderEnd s = .next { s with line := { s.line with engine := .quiet 20 } }
    ∧ s.txen = true ∧ s.txByte = byte ∧ ∀ t, exec .callRemainderEnd s = .next t → t.txen = false ∧ t.txByte = none)
  ∧ (∀ (s : State) (n : Nat) (j : Job), s.line.engine = .sending n → s.line.job = some j → n < j.frame.length →
      s.txByte = j.frame[n]?)
  ∧ (∀ (s : State) (b : Byte), s.resetHeld = false → s.txByte = some b →
      s.txd 0 = .low ∧ (∀ i < 8, s.txd (i + 1) = if b.getLsbD i then .high else .low) ∧ s.txd 9 = .high)
  ∧ (∀ s : State, s.resetHeld = false → s.txen = false → s.txByte = none)
  ∧ ∀ s : State, s.txByte = none ∨ s.resetHeld = true → ∀ i, s.txd i = .high

/-- ANSWER_BYTE inside an answer: a byte that neither ends nor spoils the frame is kept; a bad mark, a low stop bit or a
length above 8 ends the try as GARBLED, after which a retry waits for the gap while the budget is not spent (R69, R73). -/
def Obligations.AnswerBytesAreTakenOneByOne : Prop :=
  ∀ (s : State) (bytes : List Byte) (late : Bool) (v : Visit) (b : Byte) (f : Bool), s.resetHeld = false →
    s.line.engine = .receiving bytes late → s.line.job = some (.visit v) →
    ((bytes = [] → b = 0x5A#8) → (bytes.length = 3 → b.toNat ≤ 8) →
      (3 ≤ bytes.length → bytes.length + 1 ≠ 6 + 2 * ((bytes ++ [b]).getD 3 0#8).toNat) →
      exec (.answerByte b false) s =
        .next { s with line := { s.line with engine := .receiving (bytes ++ [b]) false, rx := .watching } })
    ∧ (f = true ∨ (bytes = [] ∧ b ≠ 0x5A#8) ∨ (bytes.length = 3 ∧ 8 < b.toNat) →
      v.unaccepted < v.retryLimit.toNat →
      exec (.answerByte b f) s =
        .next { s with line := { s.line with
          engine := .quiet 20, rx := if f then .waitHigh else .watching
          job := some (.visit { v with unaccepted := v.unaccepted + 1 }), waiting := some .retry } })

/-- ANSWER_DEADLINE_EXPIRY and INTER_BYTE_GAP_EXPIRY: with no edge the try ends, as SILENT or as GARBLED, and a retry waits
while the budget is not spent; with an edge taken by then the engine stays in AWAITING, and the reception goes on (R68,
R69, R73; log 9 for what the sample of such an edge decides inside an answer). -/
def Obligations.ExpiriesEndTheTry : Prop :=
  (∀ (s : State) (late : Bool) (v : Visit), s.resetHeld = false → s.line.engine = .awaiting late →
    s.line.job = some (.visit v) →
    (s.line.rx = .edge →
      exec .answerDeadlineExpiry s = .next { s with line := { s.line with engine := .awaiting true } })
    ∧ (s.line.rx ≠ .edge → v.unaccepted < v.retryLimit.toNat →
      exec .answerDeadlineExpiry s =
        .next { s with line := { s.line with
          engine := .quiet 20, job := some (.visit { v with unaccepted := v.unaccepted + 1 })
          waiting := some .retry } }))
  ∧ ∀ (s : State) (b : Byte) (rest : List Byte) (late : Bool) (v : Visit), s.resetHeld = false →
    s.line.engine = .receiving (b :: rest) late → s.line.job = some (.visit v) →
    (s.line.rx = .edge →
      exec .interByteGapExpiry s = .next { s with line := { s.line with engine := .receiving (b :: rest) true } })
    ∧ (s.line.rx = .watching → v.unaccepted < v.retryLimit.toNat →
      exec .interByteGapExpiry s =
        .next { s with line := { s.line with
          engine := .quiet 20, job := some (.visit { v with unaccepted := v.unaccepted + 1 })
          waiting := some .retry } })

/-- STRAY_BYTE in IDLE and QUIET raises the stray byte count, saturating, and changes no other state than the receive
path's; in QUIET the gap starts again in full (R71, R72). -/
def Obligations.StrayBytesAreCounted : Prop :=
  ∀ (s : State) (b : Byte) (f : Bool), s.resetHeld = false → s.line.rx ≠ .waitHigh →
    s.line.engine = .idle ∨ (∃ g, s.line.engine = .quiet g) →
    exec (.strayByte b f) s =
      .next { s with line := { s.line with
        rx := if f then .waitHigh else .watching
        strayBytes := if s.line.strayBytes = 0xFFFF#16 then 0xFFFF#16 else s.line.strayBytes + 1#16 } }

/-- The cursor names the entry of the visit in flight and that entry's field alone is yes, whatever the visit's kind; with no
visit in flight the cursor is FFH and every entry's field is no (R6, R29). QUIET_GAP_END: IDLE with no try waiting; a retry
raises the entry's retry counter and sends the same call; an echo-fault repeat sends it without raising; a SYNC call and the
first try of every kind of visit go out from their first byte (R24, R36, R66, R71, R73, R74). A visit takes the values its
entry holds at this moment, its next-toggle in a READ, a WRITE or an ATTEND call and 0 in the others, and the content of its
kind: an output copy's words, the errand slot's object and words, or nothing (R6, R62, R63, R84, R116, R131). That it begins
only here is the model's reading (log 4), and so is the test of a transaction's first visit (log 5). -/
def Obligations.QuietGapEndBeginsTheWaitingTry : Prop :=
  (∀ s : State,
    (∀ v, s.line.job = some (.visit v) →
      s.cursor = BitVec.ofNat 8 v.entry ∧ ∀ e, s.visitInFlight e = decide (e = v.entry))
    ∧ ((∀ v, s.line.job ≠ some (.visit v)) → s.cursor = 0xFF#8 ∧ ∀ e, s.visitInFlight e = false))
  ∧ ∀ (s : State) (g : Nat), s.resetHeld = false → s.line.engine = .quiet g →
    (s.line.waiting = none → exec .quietGapEnd s = .next { s with line := { s.line with engine := .idle } })
    ∧ (∀ v, s.line.waiting = some .retry → s.line.job = some (.visit v) →
      exec .quietGapEnd s = .next
        { s.setEntry v.entry { s.entry v.entry with retries := satInc (s.entry v.entry).retries } with
          line := { s.line with engine := .sending 0, waiting := none } })
    ∧ (s.line.waiting = some .repeatTry → s.line.job ≠ none →
      exec .quietGapEnd s = .next { s with line := { s.line with engine := .sending 0, waiting := none } })
    ∧ (s.line.waiting = some .sync → s.line.job = none →
      exec .quietGapEnd s = .next { s with
        line := { s.line with engine := .sending 0, waiting := none, job := some (.sync (syncFrame s.seq.cycle)) } })
    ∧ (∀ role e k, s.line.waiting = some (.visit role e k) → s.line.job = none → MayAsk s role e k →
      exec .quietGapEnd s = .next { s with
        line := { s.line with
          engine := .sending 0, waiting := none, job := some (.visit (begunVisit s role e k)) } })

/-- QUIET_GAP_END with a visit waiting that is not begun. An errand ends with NO_LINK and its ERRAND event if its entry is
OFF, or is in doubt again before a READ or WRITE (R116, R118, R121); an attention transaction whose item is no longer under
the service mark ends without an event (R131). No such call goes out, and the arbiter looks at the lists again (R112): exec
leaves its look at the part behind the end of the transaction. After a DISABLE of the entry that a pass was to call, the pass
goes on from the next index to its next visit, whose call goes out at once, or to the window (R7, R8, R37, R66). The withdrawn
visit of the pass, and the same tests for the first visit of a transaction, are the model's reading (log 5). -/
def Obligations.QuietGapEndDropsWithdrawnVisits : Prop :=
  ∀ (s : State) (g : Nat), s.resetHeld = false → s.line.engine = .quiet g → s.line.job = none →
    (∀ role j e k, s.line.waiting = some (.visit role e k) → role.slot = some j → j ∉ s.errand.queue →
      (s.entry e).link = .off
        ∨ (role = .errandOwn j ∧ (k = .read ∨ k = .write) ∧ (s.entry e).resync = true) →
      ∃ t, exec .quietGapEnd s = .next t ∧ t.line.waiting = none
        ∧ t = arbiterLook endCycle { s with
            line := { s.line with engine := .idle, waiting := none }
            errand := { s.errand with
              slots := s.errand.slots.set j.val
                { s.slot j with state := .done, outcome := .noLink, ansLen := 0#4 } j.isLt }
            events := posted s (errandEvent j (s.slot j) 4#8) }
        ∧ t.slot j = { s.slot j with state := .done, outcome := .noLink, ansLen := 0#4 }
        ∧ (posted s (errandEvent j (s.slot j) 4#8)).queue <+: t.events.queue
        ∧ ∀ v, t.line.job = some (.visit v) → v.role.slot ≠ some j)
    ∧ (∀ role e k, s.line.waiting = some (.visit role e k) → role = .attnResync ∨ role = .attnOwn →
      s.attn.mark ≠ some e →
      ∃ t, exec .quietGapEnd s = .next t ∧ t.line.waiting = none ∧ t.attn.items = s.attn.items
        ∧ t = arbiterLook endCycle { s with line := { s.line with engine := .idle, waiting := none } }
        ∧ FollowedWithout .attention s.events t.events
        ∧ ∀ v, t.line.job = some (.visit v) → v.role = .attnResync ∨ v.role = .attnOwn →
            s.attn.items.head? = some v.entry)
    ∧ (s.line.waiting = some .passOn →
      ∃ t, exec .quietGapEnd s = .next t
        ∧ PassGoesOn (s.seq.passPos.val + 1) { s with line := { s.line with engine := .idle, waiting := none } } t)
    ∧ (∀ e : EntryIdx, s.line.waiting = some .passOn → s.seq.passPos < e →
      (s.entry e).ConsideredIn s.seq.cycle → (s.entry e).link.InService →
      (∀ i, s.seq.passPos < i → i < e → (s.entry i).link = .off ∨ ¬ (s.entry i).ConsideredIn s.seq.cycle) →
      exec .quietGapEnd s = .next { s with
        seq := { s.seq with passPos := e }
        line := { s.line with
          engine := .sending 0, waiting := none, job := some (.visit (begunVisit s .pass e .exchange)) } })

/-- RXD_FALLING_EDGE: an edge begins a possible start bit (R58); in SENDING after a byte's good echo it ends the try as
ECHO_FAULT at that byte (R67; log 10, log 22), and the third in a row gives up the run as R52 and R75 state (log 8,
log 21); an edge that comes while a byte is being taken or the line is low changes nothing. -/
def Obligations.FallingEdgeBeginsAStartBit : Prop :=
  ∀ s : State, s.resetHeld = false →
    (s.line.rx = .watching → (∀ n, s.line.engine ≠ .sending (n + 1)) →
      exec .rxdFallingEdge s = .next { s with line := { s.line with rx := .edge } })
    ∧ (∀ n j, s.line.rx = .watching → s.line.engine = .sending (n + 1) → s.line.job = some j →
      n < j.frame.length → s.line.echoFaults.toNat < 2 →
      exec .rxdFallingEdge s = .next { s with line := { s.line with
        engine := .remainder j.frame[n]?, rx := .edge, waiting := some .repeatTry
        echoFaults := s.line.echoFaults + 1#2, lineFaults := satInc s.line.lineFaults } })
    ∧ (∀ n j, s.line.rx = .watching → s.line.engine = .sending (n + 1) → s.line.job = some j →
      n < j.frame.length → s.line.echoFaults = 2#2 →
      ∃ t, exec .rxdFallingEdge s = .next t ∧ FaultedBy s t
        ∧ t.line = { s.line with
            engine := .remainder j.frame[n]?, rx := .edge, job := none, waiting := none, echoFaults := 3#2
            lineFaults := satInc s.line.lineFaults })
    ∧ (s.line.rx ≠ .watching → exec .rxdFallingEdge s = .next s)

/-- START_BIT_SAMPLE, in every state of the engine: low finds a start bit, which moves AWAITING to RECEIVING; high has the
edge ignored, which after the deadline ends the try as SILENT (R58, R68) and after the gap limit as GARBLED (log 9).
RXD_RETURNS_HIGH ends the wait that follows a framing fault (R58). A sample without an edge, and the high level without such
a wait, change nothing: the model's choice for rows that cannot occur (log 3). -/
def Obligations.StartBitIsSampled : Prop :=
  ∀ s : State, s.resetHeld = false →
    (s.line.rx = .edge → (∃ late, s.line.engine = .awaiting late) →
      exec (.startBitSample .low) s =
        .next { s with line := { s.line with engine := .receiving [] false, rx := .inByte } })
    ∧ (∀ bytes late, s.line.rx = .edge → s.line.engine = .receiving bytes late →
      exec (.startBitSample .low) s =
        .next { s with line := { s.line with engine := .receiving bytes false, rx := .inByte } })
    ∧ (s.line.rx = .edge → s.line.engine = .idle ∨ (∃ g, s.line.engine = .quiet g) ∨ (∃ n, s.line.engine = .sending n)
        ∨ (∃ b, s.line.engine = .remainder b) →
      exec (.startBitSample .low) s = .next { s with line := { s.line with rx := .inByte } })
    ∧ (s.line.rx = .edge → s.line.engine ≠ .awaiting true → (∀ bytes, s.line.engine ≠ .receiving bytes true) →
      exec (.startBitSample .high) s = .next { s with line := { s.line with rx := .watching } })
    ∧ (∀ v, s.line.rx = .edge → s.line.engine = .awaiting true ∨ (∃ bytes, s.line.engine = .receiving bytes true) →
      s.line.job = some (.visit v) → v.unaccepted < v.retryLimit.toNat →
      exec (.startBitSample .high) s =
        .next { s with line := { s.line with
          engine := .quiet 20, rx := .watching, job := some (.visit { v with unaccepted := v.unaccepted + 1 })
          waiting := some .retry } })
    ∧ (∀ l, s.line.rx ≠ .edge → exec (.startBitSample l) s = .next s)
    ∧ (s.line.rx = .waitHigh → exec .rxdReturnsHigh s = .next { s with line := { s.line with rx := .watching } })
    ∧ (s.line.rx ≠ .waitHigh → exec .rxdReturnsHigh s = .next s)

/-- A try that ends as SILENT, GARBLED, STRAY or MISMATCH, by whichever command (R68, R69, R70; log 9 for the sample after
the gap limit). While the budget is not spent the retry waits and nothing else changes (R58, R73). With the budget spent the
visit fails: the entry's link state, miss count, resync flag and counters move as Table 1-10, R15, R19 and R24 state, with
the LINK event of a change (R26), a visit to an OFF entry changes nothing of it (R10), an EXCHANGE loses its fresh flag
(R91), an entry into LOST removes the attention item, has its watches UNKNOWN and its input words substituted where that is
configured (R14, R94, R128, R141), and no other entry changes but for probe counts, which the pass that goes on may raise.
Behind a visit of the pass the pass goes on from the next index to its next visit or to the window (R7, R8, R37, R38, R66,
R110); that this visit only waits in the gap, not in flight, is the model's reading (log 4). -/
def Obligations.UnacceptedTriesSpendTheBudget : Prop :=
  ∀ (s : State) (v : Visit) (c : Instr) (o : TryOutcome), TryEnds s v c o → o.Unaccepted →
    (v.unaccepted < v.retryLimit.toNat →
      exec c s = .next { s with line := { s.line with
        engine := .quiet 20, rx := rxAtEnd s c, job := some (.visit { v with unaccepted := v.unaccepted + 1 })
        waiting := some .retry } })
    ∧ (v.retryLimit.toNat ≤ v.unaccepted →
      ∃ t x, exec c s = .next t ∧ t.line.engine = .quiet 20 ∧ x = s.entry v.entry
        ∧ t.entry v.entry = { x.failed v.kind with probe := (t.entry v.entry).probe }
        ∧ (∀ e, e ≠ v.entry → t.entry e = { s.entry e with probe := (t.entry e).probe })
        ∧ (linkPosted s v.entry (x.failed v.kind).link).queue <+: t.events.queue
        ∧ (t.seq.cycle = s.seq.cycle →
            t.seq.visits = s.seq.visits + 1
            ∧ t.seq.failedVisits = s.seq.failedVisits + if x.link = .off then 0 else 1)
        ∧ (∀ e, (t.image e).working = (s.image e).working ∧ (t.image e).committed = (s.image e).committed)
        ∧ (∀ e, e ≠ v.entry → (t.image e).input = (s.image e).input ∧ (t.image e).generation = (s.image e).generation
            ∧ (t.image e).fresh = (s.image e).fresh)
        ∧ (∀ lost : Bool, lost = (decide (x.link ≠ .lost) && decide ((x.failed v.kind).link = .lost)) →
            (t.image v.entry).fresh =
              (if lost = true ∨ (v.role = .pass ∧ v.kind = .exchange ∧ x.link ≠ .off) then false
                else (s.image v.entry).fresh)
            ∧ (t.image v.entry).input =
              (if lost = true ∧ x.substitute = true then zeroWords else (s.image v.entry).input)
            ∧ (t.image v.entry).generation =
              (if lost = true ∧ x.substitute = true then (s.image v.entry).generation + 1#8
                else (s.image v.entry).generation)
            ∧ (lost = true → v.entry ∉ t.attn.items)
            ∧ ∀ n, t.watch n =
                if lost = true ∧ (s.watch n).armed = true ∧ (s.watch n).entry.toNat = v.entry.val
                then { s.watch n with outcome := .unknown, run := 0#2 } else s.watch n)
        ∧ (v.role = .pass → ∃ u b, b = behindFailure s v c
            ∧ u = { b with images := b.images.set v.entry.val (leftUncommitted s v (b.image v.entry)) v.entry.isLt }
            ∧ PassGoesOn (s.seq.passPos.val + 1) u t)
        ∧ HostDataKept s t)

/-- A GOOD or REFUSED answer, whatever the call's kind and whichever block asked for the visit: the roster's part comes
first, with the link state, the miss count, the toggle memory and the resync flag as Table 1-10, R11 to R13, R15, R18 and
R19 state and the LINK event of a change (R26); an answer with ATTN has its entry on the attention list (R127); the visit
counts as one and as no failure (R38); no image record changes but by the commit of a GOOD EXCHANGE, a REFUSED EXCHANGE
clears the fresh flag and keeps words, generation and age (R91). With the entry OFF the result is discarded: no part of the
entry, the list, a record or a watch changes (R10). Behind a visit of the pass that makes no commit the pass goes on from the
next index to its next visit or to the window (R7, R8, R37, R38, R66, R110; GoodExchangeCommitsItsWords for a commit, which is
spoken of here with no host access amid its evaluations); that this visit only waits in the gap, not in flight, is the model's
reading (log 4). Left out: what a success of a call other than RESET leaves of an entry in LOST, which no run reaches
(log 18). -/
def Obligations.AcceptedAnswersReachTheRoster : Prop :=
  ∀ (s : State) (v : Visit) (c : Instr) (o : TryOutcome) (attn : Bool), TryEnds s v c o → o.Accepted attn →
    (Commits s v o → s.amid = []) →
    ∃ t x, exec c s = .next t ∧ t.line.engine = .quiet 20 ∧ x = s.entry v.entry
      ∧ (x.link ≠ .off → v.kind = .reset ∨ x.link ≠ .lost →
          t.entry v.entry = x.succeeded v.kind
          ∧ (linkPosted s v.entry (x.succeeded v.kind).link).queue <+: t.events.queue
          ∧ (attn = true → v.entry ∈ t.attn.items)
          ∧ (v.role ≠ .attnOwn → t.attn.items =
              if attn = true ∧ v.entry ∉ s.attn.items then s.attn.items ++ [v.entry] else s.attn.items))
      ∧ (x.link = .off → t.entry v.entry = x ∧ t.attn.items = s.attn.items)
      ∧ (∀ e, e ≠ v.entry → t.entry e = { s.entry e with probe := (t.entry e).probe })
      ∧ (t.seq.cycle = s.seq.cycle →
          t.seq.visits = s.seq.visits + 1 ∧ t.seq.failedVisits = s.seq.failedVisits)
      ∧ (v.role ≠ .pass ∨ v.kind ≠ .exchange ∨ o = .refused attn ∨ x.link = .off →
          t.watches = s.watches
          ∧ ∀ e, t.image e = { s.image e with
                fresh := if e = v.entry ∧ v.role = .pass ∧ v.kind = .exchange ∧ x.link ≠ .off then false
                  else (s.image e).fresh
                age := (t.image e).age, commitMark := (t.image e).commitMark }
              ∧ (t.seq.cycle = s.seq.cycle → t.seq.phase ≠ .none → (t.image e).age = (s.image e).age))
      ∧ (v.role = .pass → ¬ Commits s v o → x.link = .off ∨ v.kind = .reset ∨ x.link ≠ .lost →
          ∃ u b, b = behindSuccess s v c
            ∧ u = { b with
                images := s.images.set v.entry.val (leftUncommitted s v (s.image v.entry)) v.entry.isLt
                attn := if x.link = .off then s.attn else s.attn.listed v.entry attn }
            ∧ PassGoesOn (s.seq.passPos.val + 1) u t)
      ∧ HostDataKept s t

/-- A GOOD answer of an EXCHANGE visit to an entry in service (R11 to R13, R26, R90, R127): the link is ONLINE with miss
count 0, the answer's words are the input words with 0000H beyond them, the generation is raised, the age is 0, fresh and the
commit mark are set, an answer with ATTN has its entry on the attention list, and no other entry's input record or link
changes. `u` is the part at the commit. The watches are evaluated there, all 32 in ascending index order, each on what the one
before left (R142; EvaluationFollowsThePersistenceTable says what one evaluation does), and `after` is the part behind the
last of them: its watches, its output copies, its events and its hold are what the rest of the pass goes on with, from the
next index to its next visit or to the window (R7, R8, R37, R38, R66, R110). A host write that arrives behind n of the 32
watches is taken there as one action, `before` being the part that it finds and `met` the part that it leaves (R142). After a
DISABLE of the entry no further watch is evaluated and the pass goes on; after HALT or SOFT_RESET no further watch is evaluated
and the run stays ended; after any other the evaluations go on, on what it left, with the watches that it armed or disarmed.
How an access comes to arrive there, and that no append follows the DISABLE, are the model's readings (log 6), and so is that
the pass's next visit only waits in the gap, not in flight (log 4). -/
def Obligations.GoodExchangeCommitsItsWords : Prop :=
  ∀ (s : State) (bytes : List Byte) (late : Bool) (v : Visit) (b : Byte) (attn : Bool) (payload : List Word)
    (u after : State), s.resetHeld = false → s.line.engine = .receiving bytes late → s.line.job = some (.visit v) →
    v.role = .pass → v.kind = .exchange → (s.entry v.entry).link.InService →
    receive v (bytes ++ [b]) false = .ends (.good attn payload) →
    u = { s with
      roster := s.roster.set v.entry.val { s.entry v.entry with link := .online, miss := 0#4 } v.entry.isLt
      images := s.images.set v.entry.val { s.image v.entry with
        input := Vector.ofFn fun i => if i.val < v.inLen.toNat then payload.getD i.val 0#16 else 0#16
        generation := (s.image v.entry).generation + 1#8, age := 0#8, fresh := true, commitMark := true } v.entry.isLt
      seq := { s.seq with visits := s.seq.visits + 1 }
      line := { s.line with engine := .quiet 20, rx := .watching, job := none }
      events := linkPosted s v.entry .online } →
    after = (List.finRange 32).foldl (fun x n => evalWatch v.entry n x) u →
    (s.amid = [] → ∃ t, exec (.answerByte b false) s = .next t
      ∧ (t.entry v.entry) = { s.entry v.entry with
          link := .online, miss := 0#4, probe := (t.entry v.entry).probe }
      ∧ (∀ i : Fin 8, (t.image v.entry).input[i] =
          if i.val < v.inLen.toNat then payload.getD i.val 0#16 else 0#16)
      ∧ (t.image v.entry).generation = (s.image v.entry).generation + 1#8
      ∧ (t.image v.entry).fresh = true
      ∧ t.watches = after.watches ∧ after.events.queue <+: t.events.queue
      ∧ (∀ e, t.image e = { after.image e with age := (t.image e).age, commitMark := (t.image e).commitMark })
      ∧ (t.seq.cycle = s.seq.cycle → t.seq.phase ≠ .none →
          t.images = after.images ∧ (t.image v.entry).age = 0#8 ∧ (t.image v.entry).commitMark = true
          ∧ t.seq.holdPending = after.seq.holdPending ∧ t.seq.holder = after.seq.holder)
      ∧ (attn = true → v.entry ∈ t.attn.items)
      ∧ (∀ e, e ≠ v.entry → (t.image e).input = (s.image e).input ∧ (t.image e).generation = (s.image e).generation
          ∧ (t.image e).fresh = (s.image e).fresh ∧ t.entry e = { s.entry e with probe := (t.entry e).probe })
      ∧ PassGoesOn (s.seq.passPos.val + 1) { after with attn := s.attn.listed v.entry attn } t
      ∧ HostDataKept s t)
    ∧ ∀ (n : Nat) (o : Offset) (w : Word) (before met : State), s.seq.state = .running →
      s.amid = [{ passed := n, offset := o, value := w }] →
      before = ((List.finRange 32).take n).foldl (fun x i => evalWatch v.entry i x) { u with amid := [] } →
      exec (.hostWrite o w) before = .next met →
      ∃ t, exec (.answerByte b false) s = .next t
        ∧ (met.seq.state = .running → (met.entry v.entry).link ≠ .off →
            ∃ rest, rest = ((List.finRange 32).drop n).foldl (fun x i => evalWatch v.entry i x) met
              ∧ PassGoesOn (s.seq.passPos.val + 1) { rest with attn := rest.attn.listed v.entry attn } t)
        ∧ (met.seq.state = .running → (met.entry v.entry).link = .off → PassGoesOn (s.seq.passPos.val + 1) met t)
        ∧ (met.seq.state ≠ .running → t = met)

/-- A complete answer, its check computed as R61 states, is read back with its status fields and payload, and takes the
first outcome of Table 3-4 that applies (R60, R70, R183); with any other check it is GARBLED (R69). -/
def Obligations.CompleteAnswersAreClassifiedInOrder : Prop :=
  ∀ (v : Visit) (addr status : Byte) (payload : List Word) (body : List Byte), payload.length ≤ 8 →
    body = [addr, status, BitVec.ofNat 8 payload.length] ++ payload.flatMap highFirst →
    receive v (0x5A#8 :: body ++ highFirst (checkOf body)) false = .ends
      (if addr ≠ v.address then .stray
        else if status.toNat % 8 ≠ v.kind.code ∨ status.getLsbD 7 ≠ v.toggle
            ∨ payload.length ∉ answerLengths v.kind v.inLen.toNat (status.getLsbD 6) then .mismatch
        else if status.getLsbD 6 then .refused (status.getLsbD 5)
        else .good (status.getLsbD 5) payload)
    ∧ ∀ check : Word, check ≠ checkOf body →
      receive v (0x5A#8 :: body ++ highFirst check) false = .ends .garbled

/-- A call frame, byte by byte (R59, R183, Table 10-12): mark C3H, address, control with the kind code in bits 2 to 0 and the
toggle in bit 7, length, object where present, payload words and check each high byte first. The check is computed bit by bit
from a register of FFFFH with the generator of R61 (`checkOf`), and closes to 0 over all that follows the mark. The SYNC call
is the frame to address 0 with the cycle number as its one word (R36, R62). -/
def Obligations.CallFramesHaveTheirSizeAndCheck : Prop :=
  (∀ (address : Byte) (k : CallKind) (toggle : Bool) (c : CallContent) (code : Nat) (body : List Byte),
    code = (match k with | .exchange => 1 | .read => 2 | .write => 3 | .attend => 4 | .reset => 5 | .sync => 6) →
    body = [address, BitVec.ofNat 8 (code + 128 * toggle.toNat), BitVec.ofNat 8 c.payload.length] ++ c.object.toList
        ++ c.payload.flatMap highFirst →
    callFrame address k toggle c = 0xC3#8 :: body ++ highFirst (checkOf body)
    ∧ (callFrame address k toggle c).length = 6 + 2 * c.payload.length + c.object.toList.length
    ∧ checkOf ((callFrame address k toggle c).drop 1) = 0#16)
  ∧ ∀ cycle : Word, syncFrame cycle = 0xC3#8 :: [0#8, 6#8, 1#8] ++ highFirst cycle
      ++ highFirst (checkOf ([0#8, 6#8, 1#8] ++ highFirst cycle))

/-! ### Roster commands -/

/-- ENABLE, each outcome in its order (R21), the entry it makes (R22), and the law it keeps: no two entries that are not OFF
hold one address. -/
def Obligations.EnableChecksThenAwaits : Prop :=
  ∀ s : State, s.resetHeld = false →
    (39 < s.port.argument.toNat → exec .enable s = .next { s with port := answered s .badArg 0#8 })
    ∧ ∀ e : EntryIdx, s.port.argument.toNat = e.val →
      ((s.entry e).link ≠ .off → exec .enable s = .next { s with port := answered s .ok 0#8 })
      ∧ ((s.entry e).link = .off → (s.entry e).valid = false →
          exec .enable s = .next { s with port := answered s .badArg 0#8 })
      ∧ ((s.entry e).link = .off → (s.entry e).valid = true → s.visitInFlight e = true →
          exec .enable s = .next { s with port := answered s .busy 0#8 })
      ∧ ((s.entry e).link = .off → (s.entry e).valid = true → s.visitInFlight e = false →
          (∃ i, i ≠ e ∧ (s.entry i).link ≠ .off ∧ (s.entry i).address = (s.entry e).address) →
          exec .enable s = .next { s with port := answered s .conflict 0#8 })
      ∧ ((s.entry e).link = .off → (s.entry e).valid = true → s.visitInFlight e = false →
          (∀ i, i ≠ e → (s.entry i).link ≠ .off → (s.entry i).address ≠ (s.entry e).address) →
          ∃ t, exec .enable s = .next t
            ∧ t = { s.setEntry e { s.entry e with
                link := .await, miss := 0#4, resync := true, nextToggle := true, probe := 0#4 } with
                events := posted s { kind := .link, subject := BitVec.ofNat 8 e, p1 := 0#8, p2 := 1#8 }
                port := answered s .ok 0#8 }
            ∧ (AddressesDistinct s → AddressesDistinct t))

/-- The validity check of R4. -/
def Obligations.ValidityCheckOfAnEntry : Prop :=
  ∀ x : Entry, x.valid = true ↔
    (1 ≤ x.address.toNat ∧ x.address.toNat ≤ 239)
    ∧ (x.divisor.toNat = 1 ∨ x.divisor.toNat = 2 ∨ x.divisor.toNat = 4 ∨ x.divisor.toNat = 8)
    ∧ x.phase.toNat < x.divisor.toNat ∧ x.retryLimit.toNat ≤ 3
    ∧ (1 ≤ x.lossLimit.toNat ∧ x.lossLimit.toNat ≤ 15) ∧ x.outLen.toNat ≤ 8 ∧ x.inLen.toNat ≤ 8

/-- DISABLE (R23, R128, R141): an entry is OFF at once, its attention item gone, its armed watches UNKNOWN, and a visit in
flight goes on; a visit the pass was to begin is withdrawn (log 5). -/
def Obligations.DisableTakesTheEntryOff : Prop :=
  ∀ s : State, s.resetHeld = false →
    (39 < s.port.argument.toNat → exec .disable s = .next { s with port := answered s .badArg 0#8 })
    ∧ ∀ e : EntryIdx, s.port.argument.toNat = e.val →
      ((s.entry e).link = .off → exec .disable s = .next { s with port := answered s .ok 0#8 })
      ∧ ((s.entry e).link ≠ .off →
          ∃ t, exec .disable s = .next t
            ∧ t.entry e = { s.entry e with
                link := .off, miss := 0#4, probe := if (s.entry e).link = .lost then 0#4 else (s.entry e).probe }
            ∧ (∀ i, i ≠ e → t.entry i = s.entry i)
            ∧ t.attn = { items := s.attn.items.filter (fun i => decide (i ≠ e))
                         mark := if s.attn.mark = some e then none else s.attn.mark }
            ∧ (∀ n, t.watch n =
                if (s.watch n).armed = true ∧ (s.watch n).entry.toNat = e.val
                then { s.watch n with outcome := .unknown, run := 0#2 } else s.watch n)
            ∧ t.events = posted s
                { kind := .link, subject := BitVec.ofNat 8 e, p1 := BitVec.ofNat 8 (s.entry e).link.code, p2 := 0#8 }
            ∧ t.port = answered s .ok 0#8
            ∧ t.line.job = s.line.job ∧ t.line.engine = s.line.engine
            ∧ (∀ k, s.line.waiting = some (.visit .pass e k) → t.line.waiting = some .passOn)
            ∧ ((∀ k, s.line.waiting ≠ some (.visit .pass e k)) → t.line.waiting = s.line.waiting)
            ∧ t = { s with roster := t.roster, attn := t.attn, watches := t.watches, events := t.events,
                           port := t.port, line := { s.line with waiting := t.line.waiting } })

/-- CLEAR_COUNTERS with each kind of argument (R25). -/
def Obligations.ClearCountersByArgument : Prop :=
  ∀ s : State, s.resetHeld = false →
    (∀ e : EntryIdx, s.port.argument.toNat = e.val →
      exec .clearCounters s = .next { s.setEntry e
        { s.entry e with retries := 0#8, failedVisits := 0#8, losses := 0#8 } with port := answered s .ok 0#8 })
    ∧ (s.port.argument = 0x00FF#16 →
      ∃ t, exec .clearCounters s = .next t
        ∧ (∀ e, t.entry e = { s.entry e with retries := 0#8, failedVisits := 0#8, losses := 0#8 })
        ∧ t = { s with
            roster := t.roster
            seq := { s.seq with overruns := 0#8 }
            line := { s.line with strayBytes := 0#16, lineFaults := 0#8 }
            port := answered s .ok 0#8 })
    ∧ (39 < s.port.argument.toNat → s.port.argument ≠ 0x00FF#16 →
      exec .clearCounters s = .next { s with port := answered s .badArg 0#8 })

/-! ### Image store -/

/-- COMMIT (R83), then FREEZE (R96). -/
def Obligations.CommitAndFreezeCopyTheirWords : Prop :=
  ∀ s : State, s.resetHeld = false →
    ((39 < s.port.argument.toNat → exec .commit s = .next { s with port := answered s .badArg 0#8 })
      ∧ ∀ e : EntryIdx, s.port.argument.toNat = e.val →
        exec .commit s = .next { s.setImage e { s.image e with committed := (s.image e).working } with
          port := answered s .ok 0#8 })
    ∧ (39 < s.port.argument.toNat → exec .freeze s = .next { s with port := answered s .badArg 0#8 })
      ∧ ∀ e : EntryIdx, s.port.argument.toNat = e.val →
        exec .freeze s = .next { s with
          freeze :=
            { entry := BitVec.ofNat 8 e, link := (s.entry e).link, fresh := (s.image e).fresh
              generation := (s.image e).generation, age := (s.image e).age, inLen := (s.entry e).inLen
              words := (s.image e).input }
          port := answered s .ok 0#8 }

/-- SET_PORT, CLEAR_PORT and FLIP_PORT: the masked bits of the target working word change and no other (R87), or, with the
selector out of range, an access fault with cause BAD_TARGET at the port's offset, which an empty fault record takes and
otherwise raises the fault count, up to 15, and nothing else (R88). -/
def Obligations.BitPortsChangeTheMaskedBits : Prop :=
  ∀ (s : State) (mask : Word), s.resetHeld = false →
    (∀ (e : EntryIdx) (n : Fin 8), s.selector.entry.toNat = e.val → s.selector.word.toNat = n.val →
      let old := (s.image e).working[n]
      exec (.setPort mask) s = .next (s.setImage e
        { s.image e with working := (s.image e).working.set n.val (old ||| mask) n.isLt })
      ∧ exec (.clearPort mask) s = .next (s.setImage e
        { s.image e with working := (s.image e).working.set n.val (old &&& ~~~mask) n.isLt })
      ∧ exec (.flipPort mask) s = .next (s.setImage e
        { s.image e with working := (s.image e).working.set n.val (old ^^^ mask) n.isLt }))
    ∧ (39 < s.selector.entry.toNat ∨ 7 < s.selector.word.toNat →
      ∀ (c : Instr) (o : Offset),
        (c = .setPort mask ∧ o = 0x029#11) ∨ (c = .clearPort mask ∧ o = 0x02A#11)
          ∨ (c = .flipPort mask ∧ o = 0x02B#11) →
        (s.port.fault = none →
          exec c s = .next { s with port := { s.port with fault := some ⟨o, .badTarget⟩ } })
        ∧ (s.port.fault ≠ none →
          exec c s = .next { s with port := { s.port with
            faultCount := if s.port.faultCount = 15#4 then 15#4 else s.port.faultCount + 1#4 } }))

/-! ### Errands -/

/-- SUBMIT, each outcome in its order, and the slot and queue it makes (R105). -/
def Obligations.SubmitTakesTheLowestFreeSlot : Prop :=
  ∀ s : State, s.resetHeld = false →
    let g := s.errand.staging
    let suits := g.entry.toNat ≤ 39 ∧ g.object.toNat ≤ 63
      ∧ ((g.kind = 3#4 ∧ 1 ≤ g.len.toNat ∧ g.len.toNat ≤ 8) ∨ ((g.kind = 2#4 ∨ g.kind = 5#4) ∧ g.len = 0#4))
    (¬ suits → exec .submit s = .next { s with port := answered s .badArg 0xFF#8 })
    ∧ (suits → (∀ k, (s.slot k).state ≠ .free) → exec .submit s = .next { s with port := answered s .full 0xFF#8 })
    ∧ (∀ (e : EntryIdx) (k : SlotIdx), suits → e.val = g.entry.toNat → (s.slot k).state = .free →
        (∀ i < k, (s.slot i).state ≠ .free) →
        exec .submit s = .next { s with
          errand := { s.errand with
            slots := s.errand.slots.set k.val
              { state := .queued, tag := g.tag, entry := e
                kind := some (if g.kind = 3#4 then .write else if g.kind = 2#4 then .read else .reset)
                object := g.object, reqLen := g.len, payload := g.payload, outcome := .none, ansLen := 0#4 } k.isLt
            queue := s.errand.queue ++ [k] }
          port := answered s .ok (BitVec.ofNat 8 k) })

/-- CANCEL in every slot state (R107), with the ERRAND event of R121, then RELEASE_SLOT in every slot state (R109). -/
def Obligations.CancelAndReleaseSlotActByState : Prop :=
  ∀ s : State, s.resetHeld = false →
    ((7 < s.port.argument.toNat → exec .cancel s = .next { s with port := answered s .badArg 0#8 })
      ∧ ∀ k : SlotIdx, s.port.argument.toNat = k.val →
        ((s.slot k).state = .queued →
          exec .cancel s = .next { s with
            errand := { s.errand with
              slots := s.errand.slots.set k.val
                { s.slot k with state := .done, outcome := .cancelled, ansLen := 0#4 } k.isLt
              queue := s.errand.queue.filter (fun i => decide (i ≠ k)) }
            events := posted s (errandEvent k (s.slot k) 5#8)
            port := answered s .ok 0#8 })
        ∧ ((s.slot k).state = .active → exec .cancel s = .next { s with port := answered s .tooLate 0#8 })
        ∧ ((s.slot k).state = .free ∨ (s.slot k).state = .done →
          exec .cancel s = .next { s with port := answered s .notPending 0#8 }))
    ∧ (7 < s.port.argument.toNat → exec .releaseSlot s = .next { s with port := answered s .badArg 0#8 })
      ∧ ∀ k : SlotIdx, s.port.argument.toNat = k.val →
        ((s.slot k).state = .done →
          exec .releaseSlot s = .next { s.setSlot k { s.slot k with state := .free } with port := answered s .ok 0#8 })
        ∧ ((s.slot k).state ≠ .done → exec .releaseSlot s = .next { s with port := answered s .notPending 0#8 })

/-- One look of the arbiter (R111 to R114, R129). A head errand that cannot be called, its entry OFF, or LOST for a READ or
WRITE, is completed with NO_LINK and its ERRAND event, whatever the budget, and the look goes on with the rest. Then the
look ends the window when the budget is spent or both lists are empty, and otherwise picks by the table of R112, spends one
unit, counts one transaction and turns to the kind not served. The pick asks for a resync RESET in front of a toggled call
to an entry in doubt, and for the errand's own visit or the ATTEND visit otherwise; that the visit waits for the gap or
begins at once is the model's reading (log 4). -/
def Obligations.ArbiterPicksByTurn : Prop :=
  (∀ (s : State) (finish : State → State) (k : SlotIdx) (rest : List SlotIdx) (kind : ErrandKind),
    s.errand.queue = k :: rest → (s.slot k).kind = some kind →
    (s.entry (s.slot k).entry).link = .off ∨ (kind ≠ .reset ∧ (s.entry (s.slot k).entry).link = .lost) →
    arbiterLook finish s = arbiterLook finish { s with
      errand := { s.errand with
        slots := s.errand.slots.set k.val { s.slot k with state := .done, outcome := .noLink, ansLen := 0#4 } k.isLt
        queue := rest }
      events := posted s (errandEvent k (s.slot k) 4#8) })
  ∧ ∀ (s : State) (finish : State → State),
    (∀ k, s.errand.queue.head? = some k → ∃ kind, (s.slot k).kind = some kind
      ∧ (s.entry (s.slot k).entry).link ≠ .off ∧ (kind = .reset ∨ (s.entry (s.slot k).entry).link ≠ .lost)) →
    (s.errand.budgetLeft = 0 ∨ (s.errand.queue = [] ∧ s.attn.items = []) → arbiterLook finish s = finish s)
    ∧ (∀ k rest kind, s.errand.queue = k :: rest → s.errand.budgetLeft ≠ 0 → k ∉ rest →
        (s.slot k).kind = some kind → s.attn.items = [] ∨ s.errand.turn = .errand →
        let t := arbiterLook finish s
        t.errand.queue = rest ∧ t.slot k = { s.slot k with state := .active }
        ∧ t.errand.budgetLeft = s.errand.budgetLeft - 1 ∧ t.seq.transactions = s.seq.transactions + 1
        ∧ t.errand.turn = .attention ∧ t.attn = s.attn
        ∧ (s.line.job = none → t.work = some
            (if kind ≠ .reset ∧ (s.entry (s.slot k).entry).resync = true
              then (.errandResync k, (s.slot k).entry, .reset)
              else (.errandOwn k, (s.slot k).entry, kind.call))))
    ∧ (∀ e rest, s.attn.items = e :: rest → s.errand.budgetLeft ≠ 0 →
        s.errand.queue = [] ∨ s.errand.turn = .attention →
        let t := arbiterLook finish s
        t.attn = ⟨e :: rest, some e⟩ ∧ t.errand.queue = s.errand.queue
        ∧ t.errand.budgetLeft = s.errand.budgetLeft - 1 ∧ t.seq.transactions = s.seq.transactions + 1
        ∧ t.errand.turn = .errand ∧ t.errand.slots = s.errand.slots
        ∧ (s.line.job = none → t.work = some
            (if (s.entry e).resync = true then (.attnResync, e, .reset) else (.attnOwn, e, .attend))))

/-- The end of a visit of an errand (R115, R117, R118), with the ERRAND event of a completion behind the LINK event of the
visit (R9, R121). Own visit: a GOOD READ stores the answer's words and length, any other GOOD errand completes with answer
length 0, a REFUSED one with REFUSED, a failed one with NO_ANSWER. Resync RESET: accepted, the own visit is asked for and
the slot stays as it is; failed, the errand ends with NO_ANSWER. With the entry OFF either visit ends it with NO_LINK. Behind
each completion the arbiter looks at the lists again, once the append of an answer with ATTN has been made (R112, R127): exec
leaves its look at the part behind the completion. That the own visit asked for waits for the gap before it begins is the
model's reading (log 4). -/
def Obligations.ErrandVisitEndsCompleteTheSlot : Prop :=
  ∀ (s : State) (v : Visit) (c : Instr) (o : TryOutcome) (k : SlotIdx) (x : Entry), TryEnds s v c o →
    v.role.slot = some k → (s.slot k).state = .active → k ∉ s.errand.queue → x = s.entry v.entry →
    (x.link ≠ .off → v.kind = .reset ∨ x.link ≠ .lost →
      (∀ attn payload, o = .good attn payload → v.role = .errandOwn k →
        ∃ t y, exec c s = .next t ∧ t.slot k = y
          ∧ ((s.slot k).kind = some .read →
              y = { s.slot k with
                state := .done, outcome := .doneOk, ansLen := BitVec.ofNat 4 payload.length
                payload := Vector.ofFn fun i => payload.getD i.val 0#16 })
          ∧ ((s.slot k).kind ≠ some .read →
              y = { s.slot k with state := .done, outcome := .doneOk, ansLen := 0#4 })
          ∧ (let b := behindSuccess s v c
            t = arbiterLook endCycle { b with
              errand := { s.errand with slots := s.errand.slots.set k.val y k.isLt }
              events := b.events.take s.seq.cycle { errandEvent k (s.slot k) 1#8 with p2 := y.ansLen.setWidth 8 }
              attn := s.attn.listed v.entry attn })
          ∧ ((linkPosted s v.entry (x.succeeded v.kind).link).take s.seq.cycle
              { errandEvent k (s.slot k) 1#8 with p2 := y.ansLen.setWidth 8 }).queue <+: t.events.queue)
      ∧ (∀ attn, o = .refused attn → v.role = .errandOwn k →
        ∃ t, exec c s = .next t
          ∧ t.slot k = { s.slot k with state := .done, outcome := .refused, ansLen := 0#4 }
          ∧ (let b := behindSuccess s v c
            t = arbiterLook endCycle { b with
              errand := { s.errand with
                slots := s.errand.slots.set k.val
                  { s.slot k with state := .done, outcome := .refused, ansLen := 0#4 } k.isLt }
              events := b.events.take s.seq.cycle (errandEvent k (s.slot k) 2#8)
              attn := s.attn.listed v.entry attn })
          ∧ ((linkPosted s v.entry (x.succeeded v.kind).link).take s.seq.cycle
              (errandEvent k (s.slot k) 2#8)).queue <+: t.events.queue)
      ∧ (∀ attn kind, o.Accepted attn → v.role = .errandResync k → (s.slot k).kind = some kind →
        ∃ t, exec c s = .next t ∧ t.slot k = s.slot k ∧ t.line.job = none
          ∧ t.line.waiting = some (.visit (.errandOwn k) (s.slot k).entry kind.call)
          ∧ t.events = linkPosted s v.entry (x.succeeded v.kind).link ∧ t.errand = s.errand))
    ∧ (x.link ≠ .off → o.Unaccepted → v.retryLimit.toNat ≤ v.unaccepted →
      ∃ t, exec c s = .next t
        ∧ t.slot k = { s.slot k with state := .done, outcome := .noAnswer, ansLen := 0#4 }
        ∧ (let b := behindFailure s v c
          t = arbiterLook endCycle { b with
            errand := { s.errand with
              slots := s.errand.slots.set k.val
                { s.slot k with state := .done, outcome := .noAnswer, ansLen := 0#4 } k.isLt }
            events := b.events.take s.seq.cycle (errandEvent k (s.slot k) 3#8) })
        ∧ ((linkPosted s v.entry (x.failed v.kind).link).take s.seq.cycle
            (errandEvent k (s.slot k) 3#8)).queue <+: t.events.queue)
    ∧ (x.link = .off → (∃ attn, o.Accepted attn) ∨ (o.Unaccepted ∧ v.retryLimit.toNat ≤ v.unaccepted) →
      ∃ t, exec c s = .next t
        ∧ t.slot k = { s.slot k with state := .done, outcome := .noLink, ansLen := 0#4 }
        ∧ t = arbiterLook endCycle { behindSuccess s v c with
            errand := { s.errand with
              slots := s.errand.slots.set k.val
                { s.slot k with state := .done, outcome := .noLink, ansLen := 0#4 } k.isLt }
            events := posted s (errandEvent k (s.slot k) 4#8) }
        ∧ (posted s (errandEvent k (s.slot k) 4#8)).queue <+: t.events.queue)

/-! ### Attention -/

/-- The ends of an attention transaction (R130, R131, Table 6-1), its item under the service mark. A GOOD ATTEND answer
posts the ATTENTION event, with the detail count and the answer's words (R132), behind the LINK event of the visit (R9), and
no other end posts one. A GOOD or REFUSED one removes the item, which an answer with ATTN has appended again at the tail
(R127); a failure of either visit removes it; a success of the resync RESET leaves it in place and asks for the ATTEND
visit. With the entry OFF the DISABLE has removed the item, and the end changes nothing of the list's items. Behind
each end of the transaction the arbiter looks at the lists again (R112): exec leaves its look at the part behind it. That the
ATTEND visit asked for waits for the gap before it begins is the model's reading (log 4). -/
def Obligations.AttentionTransactionsEnd : Prop :=
  ∀ (s : State) (v : Visit) (c : Instr) (o : TryOutcome) (e : EntryIdx), TryEnds s v c o →
    v.role = .attnOwn ∨ v.role = .attnResync → e = v.entry →
    ((s.entry e).link.InService → s.attn.mark = some e → e ∈ s.attn.items →
      (∀ attn payload, o = .good attn payload → v.role = .attnOwn →
        ∃ t, exec c s = .next t
          ∧ t.attn.items = s.attn.items.filter (fun i => decide (i ≠ e)) ++ (if attn = true then [e] else [])
          ∧ (t.attn.mark = none ∨ t.attn.mark = t.attn.items.head?)
          ∧ (let b := behindSuccess s v c
            t = arbiterLook endCycle { b with
              attn := ⟨s.attn.items.filter (fun i => decide (i ≠ e)) ++ (if attn = true then [e] else []), none⟩
              events := b.events.take s.seq.cycle
                { kind := .attention, subject := BitVec.ofNat 8 e, p1 := BitVec.ofNat 8 (payload.length - 1)
                  d0 := payload.getD 0 0#16, d1 := payload.getD 1 0#16, d2 := payload.getD 2 0#16 } })
          ∧ FollowedWithout .attention
              ((linkPosted s e ((s.entry e).succeeded v.kind).link).take s.seq.cycle
                { kind := .attention, subject := BitVec.ofNat 8 e, p1 := BitVec.ofNat 8 (payload.length - 1)
                  d0 := payload.getD 0 0#16, d1 := payload.getD 1 0#16, d2 := payload.getD 2 0#16 }) t.events)
      ∧ (∀ attn, o = .refused attn → v.role = .attnOwn →
        ∃ t, exec c s = .next t
          ∧ t.attn.items = s.attn.items.filter (fun i => decide (i ≠ e)) ++ (if attn = true then [e] else [])
          ∧ (t.attn.mark = none ∨ t.attn.mark = t.attn.items.head?)
          ∧ t = arbiterLook endCycle { behindSuccess s v c with
              attn := ⟨s.attn.items.filter (fun i => decide (i ≠ e)) ++ (if attn = true then [e] else []), none⟩ }
          ∧ FollowedWithout .attention (linkPosted s e ((s.entry e).succeeded v.kind).link) t.events)
      ∧ (∀ attn, o.Accepted attn → v.role = .attnResync →
        ∃ t, exec c s = .next t ∧ t.attn = s.attn ∧ t.line.job = none
          ∧ t.line.waiting = some (.visit .attnOwn e .attend)
          ∧ t.events = linkPosted s e ((s.entry e).succeeded v.kind).link)
      ∧ (o.Unaccepted → v.retryLimit.toNat ≤ v.unaccepted →
        ∃ t, exec c s = .next t ∧ t.attn.items = s.attn.items.filter (fun i => decide (i ≠ e))
          ∧ (t.attn.mark = none ∨ t.attn.mark = t.attn.items.head?)
          ∧ t = arbiterLook endCycle { behindFailure s v c with
              attn := ⟨s.attn.items.filter (fun i => decide (i ≠ e)), none⟩ }
          ∧ FollowedWithout .attention (linkPosted s e ((s.entry e).failed v.kind).link) t.events))
    ∧ ((s.entry e).link = .off → (∃ attn, o.Accepted attn) ∨ (o.Unaccepted ∧ v.retryLimit.toNat ≤ v.unaccepted) →
      ∃ t, exec c s = .next t ∧ t.attn.items = s.attn.items ∧ FollowedWithout .attention s.events t.events
        ∧ t = arbiterLook endCycle (behindSuccess s v c))

/-! ### Watches -/

/-- ARM_WATCH, each outcome in its order, and the watch it makes (R139), then DISARM_WATCH (R140). -/
def Obligations.WatchesAreArmedAndDisarmed : Prop :=
  ∀ s : State, s.resetHeld = false →
    ((31 < s.port.argument.toNat → exec .armWatch s = .next { s with port := answered s .badArg 0#8 })
      ∧ ∀ n : WatchIdx, s.port.argument.toNat = n.val →
        let w := s.watch n
        let bad := 39 < w.entry.toNat ∨ 7 < w.word.toNat ∨ 7 < w.condition.toNat ∨ w.trigger = 0#2
          ∨ w.persistence.toNat = 0 ∨ 4 < w.persistence.toNat
          ∨ (w.actPost = false ∧ w.actHold = false ∧ w.actDrive = false)
          ∨ (w.actDrive = true ∧ (39 < w.driveEntry.toNat ∨ 7 < w.driveWord.toNat))
        (w.armed = true → exec .armWatch s = .next { s with port := answered s .ok 0#8 })
        ∧ (w.armed = false → bad → exec .armWatch s = .next { s with port := answered s .badArg 0#8 })
        ∧ (w.armed = false → ¬ bad →
            exec .armWatch s = .next { s.setWatch n { w with
              armed := true, outcome := .unknown, candidate := false, run := 0#2, fires := 0#8 } with
              port := answered s .ok 0#8 }))
    ∧ (31 < s.port.argument.toNat → exec .disarmWatch s = .next { s with port := answered s .badArg 0#8 })
      ∧ ∀ n : WatchIdx, s.port.argument.toNat = n.val →
        ((s.watch n).armed = true →
          exec .disarmWatch s = .next { s.setWatch n
            { s.watch n with armed := false, outcome := .unknown, run := 0#2 } with port := answered s .ok 0#8 })
        ∧ ((s.watch n).armed = false → exec .disarmWatch s = .next { s with port := answered s .ok 0#8 })

/-- The eight conditions on M and V with D the difference modulo 65536 (R144, Table 7-3), and their pairs. -/
def Obligations.ConditionsCompareMaskedWords : Prop :=
  ∀ m v : Word, ∀ d : Int, d = ((m.toNat : Int) - v.toNat) % 65536 →
    (Condition.eq.holds m v = true ↔ d = 0) ∧ (Condition.ne.holds m v = true ↔ d ≠ 0)
    ∧ (Condition.hi.holds m v = true ↔ v.toNat < m.toNat) ∧ (Condition.ls.holds m v = true ↔ m.toNat ≤ v.toNat)
    ∧ (Condition.pl.holds m v = true ↔ d < 32768) ∧ (Condition.mi.holds m v = true ↔ 32768 ≤ d)
    ∧ (Condition.any.holds m v = true ↔ m.toNat ≠ 0) ∧ (Condition.none.holds m v = true ↔ m.toNat = 0)
    ∧ Condition.ne.holds m v = !Condition.eq.holds m v ∧ Condition.ls.holds m v = !Condition.hi.holds m v
    ∧ Condition.mi.holds m v = !Condition.pl.holds m v ∧ Condition.none.holds m v = !Condition.any.holds m v

/-- One evaluation of a watch at a commit of entry e. A watch that is disarmed, observes another entry, whose entry is OFF or
whose word index is not below in_len changes nothing (R142, R143). Otherwise W is the committed word, M its masked bits, D the
difference M - V modulo 65536, and the candidate c is TRUE exactly as Table 7-3 states for the condition's code of Table 10-2
(R143, R144); the five cases of R145 give outcome, pending candidate and run count; and a change of outcome that matches the
trigger, and no other, raises the fire count, saturating, and applies the actions, after the watch has its new state (R146;
FiringAppliesItsActions says what the actions do). A change to UNKNOWN, by DISARM_WATCH, DISABLE, soft reset or the loss
that a failed visit makes, raises no fire count (R146). -/
def Obligations.EvaluationFollowsThePersistenceTable : Prop :=
  (∀ (s : State) (e : EntryIdx) (n : WatchIdx),
    (s.watch n).armed = false ∨ (s.watch n).entry.toNat ≠ e.val ∨ (s.entry e).link = .off
      ∨ (s.entry e).inLen.toNat ≤ (s.watch n).word.toNat →
    evalWatch e n s = s)
  ∧ (∀ (s : State) (e : EntryIdx) (n : WatchIdx) (i : Fin 8) (w : Watch) (observed m v : Word) (d : Int) (c : Bool)
      (new : WatchOutcome) (reached : Nat), w = s.watch n → w.armed = true → w.entry.toNat = e.val →
    (s.entry e).link ≠ .off → w.word.toNat = i.val → i.val < (s.entry e).inLen.toNat → w.condition.toNat ≤ 7 →
    observed = (s.image e).input[i] → m = observed &&& w.mask → v = w.reference →
    d = ((m.toNat : Int) - v.toNat) % 65536 →
    (c = true ↔ match w.condition.toNat with
      | 0 => d = 0
      | 1 => d ≠ 0
      | 2 => v.toNat < m.toNat
      | 3 => m.toNat ≤ v.toNat
      | 4 => d < 32768
      | 5 => 32768 ≤ d
      | 6 => m.toNat ≠ 0
      | _ => m.toNat = 0) →
    new = (if c then .isTrue else .isFalse) → reached = (if w.candidate = c then w.run.toNat + 1 else 1) →
    let matching := w.trigger = 3#2 ∨ (w.trigger = 1#2 ∧ c = true) ∨ (w.trigger = 2#2 ∧ c = false)
    (w.outcome = new → evalWatch e n s = s.setWatch n { w with run := 0#2 })
    ∧ (w.outcome ≠ new → reached < w.persistence.toNat →
        evalWatch e n s = s.setWatch n { w with candidate := c, run := BitVec.ofNat 2 reached })
    ∧ (w.outcome ≠ new → w.persistence.toNat ≤ reached → ¬ matching →
        evalWatch e n s = s.setWatch n { w with candidate := c, run := 0#2, outcome := new })
    ∧ (w.outcome ≠ new → w.persistence.toNat ≤ reached → matching →
        evalWatch e n s = fire n w c observed e (s.setWatch n { w with
          candidate := c, run := 0#2, outcome := new
          fires := if w.fires = 255#8 then 255#8 else w.fires + 1#8 })))
  ∧ ∀ (s t : State) (c : Instr), exec c s = .next t →
    c = .disarmWatch ∨ c = .disable ∨ c = .softReset ∨ c = .answerDeadlineExpiry ∨ c = .interByteGapExpiry
      ∨ (∃ l, c = .startBitSample l)
      ∨ (∃ b f v o, c = .answerByte b f ∧ TryEnds s v (.answerByte b f) o ∧ o.Unaccepted) →
    ∀ n, (t.watch n).fires = (s.watch n).fires

/-- A firing applies each selected action and no other: POST offers its WATCH event (R147), HOLD sets hold pending and
records the first holding watch (R47, R148), DRIVE replaces the masked bits of the drive word in both output copies of the
drive entry, each keeping its other bits (R98, R149). -/
def Obligations.FiringAppliesItsActions : Prop :=
  ∀ (s : State) (e : EntryIdx) (n : WatchIdx) (w : Watch) (c : Bool) (observed : Word) (d : EntryIdx) (i : Fin 8),
    (w.actDrive = true → w.driveEntry.toNat = d.val ∧ w.driveWord.toNat = i.val) →
    fire n w c observed e s = { s with
      events := if w.actPost then
          posted s
            { kind := .watch, subject := BitVec.ofNat 8 n, p1 := if c then 2#8 else 1#8, d0 := observed,
              d1 := BitVec.ofNat 16 e }
        else s.events
      seq := if w.actHold ∧ s.seq.holdPending = false then { s.seq with holdPending := true, holder := some n }
        else s.seq
      images := if w.actDrive then
          s.images.set d.val { s.image d with
            working := (s.image d).working.set i.val
              (((s.image d).working[i] &&& ~~~w.driveMask) ||| (w.driveValue &&& w.driveMask)) i.isLt
            committed := (s.image d).committed.set i.val
              (((s.image d).committed[i] &&& ~~~w.driveMask) ||| (w.driveValue &&& w.driveMask)) i.isLt } d.isLt
        else s.images }

/-! ### Events -/

/-- A post (R153 to R157): discarded by the filter with nothing changed, bit n of the filter's word at 018H being the enable
of event kind n for n from 1 to 9 (R155, Table 10-5); entered at the tail with the next sequence number
and the cycle number; dropped from a full queue with the dropped count raised, saturating. -/
def Obligations.PostsEnterOrDrop : Prop :=
  ∀ (u : EventUnit) (cycle : Word) (p : Post),
    (u.filter.passes p.kind = false → u.take cycle p = u)
    ∧ (u.filter.passes p.kind = true → u.queue.length < 32 →
        u.take cycle p = { u with
          queue := u.queue ++ [{ seq := u.nextSeq, kind := p.kind, subject := p.subject, cycle := cycle, p1 := p.p1,
                                 p2 := p.p2, d0 := p.d0, d1 := p.d1, d2 := p.d2 }]
          nextSeq := u.nextSeq + 1#16
          headWait := if u.queue = [] then 0#8 else u.headWait })
    ∧ (u.filter.passes p.kind = true → 32 ≤ u.queue.length →
        u.take cycle p = { u with dropped := if u.dropped = 255#8 then 255#8 else u.dropped + 1#8 })
    ∧ u.filter.passes .overflow = true
    ∧ ∀ (s : State) (k : EventKind) (n : Nat), s.resetHeld = false →
        n = (match k with
          | .link => 1 | .attention => 2 | .errand => 3 | .watch => 4 | .cycle => 5 | .overrun => 6 | .hold => 7
          | .lineFault => 8 | .stopped => 9 | .overflow => 10) →
        k = .overflow ∨ s.events.filter.passes k = (s.readWord 0x018#11).getLsbD n

/-- POP (R158, R159): EMPTY on an empty queue; otherwise the head record goes, an OVERFLOW record with the dropped count is
appended if that is above 0, and the value is the queue count afterwards. The head wait count of a queue left empty is the
model's reading (log 7). -/
def Obligations.PopRemovesTheHead : Prop :=
  ∀ s : State, s.resetHeld = false →
    (s.events.queue = [] → exec .pop s = .next { s with port := answered s .empty 0#8 })
    ∧ ∀ r rest, s.events.queue = r :: rest →
      (s.events.dropped = 0#8 →
        exec .pop s = .next { s with
          events := { s.events with queue := rest, headWait := 0#8 }
          port := answered s .ok (BitVec.ofNat 8 rest.length) })
      ∧ (s.events.dropped ≠ 0#8 →
        exec .pop s = .next { s with
          events := { s.events with
            queue := rest ++ [{ seq := s.events.nextSeq, kind := .overflow, subject := 0xFF#8, cycle := s.seq.cycle,
                                p1 := s.events.dropped, p2 := 0#8, d0 := 0#16, d1 := 0#16, d2 := 0#16 }]
            nextSeq := s.events.nextSeq + 1#16, dropped := 0#8, headWait := 0#8 }
          port := answered s .ok (BitVec.ofNat 8 (rest.length + 1)) })

/-- IRQ is low exactly when the global enable is set and one of the four conditions holds (R161, R163). -/
def Obligations.IrqFollowsItsConditions : Prop :=
  ∀ s : State, s.irqLow = true ↔
    s.events.globalIrq = true
    ∧ (min 32 (max 1 s.events.threshold.toNat) ≤ s.events.queue.length
      ∨ (0 < s.events.coalescing.toNat ∧ 1 ≤ s.events.queue.length
          ∧ s.events.coalescing.toNat ≤ s.events.headWait.toNat)
      ∨ ((s.seq.state = .stopped ∨ s.seq.state = .held ∨ s.seq.state = .faulted) ∧ 1 ≤ s.events.queue.length)
      ∨ (s.events.faultIrq = true ∧ s.port.fault ≠ none))

/-! ### Host port and window -/

/-- HOST_WRITE to a read/write word that is not locked: each field takes the written bits at its positions, other bits are
discarded, and no other word of the window changes but the status word, whose IRQ bit follows (R168, R179). The read/write
words at their offsets, each field at its bits and every other bit 0: the argument (Table 10-3), the global configuration
(Table 10-4), the event unit's control words (Table 10-5), selector and staging record (Table 10-7), the configuration of
every entry (Table 10-8), the working words, and the configuration of every watch (Table 10-10). That the queue of commands
and the list of arrivals are kept is the model's choice (log 1, log 6). -/
def Obligations.TakenWritesStoreTheirFields : Prop :=
  (∀ (s : State) (o : Offset) (v : Word), s.resetHeld = false →
    accessAt o.toNat = .rw ∨ (∃ e, accessAt o.toNat = .lockedByEntry e ∧ (s.entry e).link = .off)
      ∨ (accessAt o.toNat = .lockedBySequencer ∧ s.seq.state = .stopped)
      ∨ (∃ n, accessAt o.toNat = .lockedByWatch n ∧ (s.watch n).armed = false) →
    ∃ t, exec (.hostWrite o v) s = .next t ∧ t.readWord o = v &&& (locate o).mask
      ∧ (∀ l, l ≠ locate o → l ≠ .statusA → readLoc l t = readLoc l s)
      ∧ t.seq = s.seq ∧ t.line = s.line ∧ t.attn = s.attn ∧ t.events.queue = s.events.queue
      ∧ t.port.fault = s.port.fault ∧ t.pending = s.pending ∧ t.amid = s.amid)
  ∧ ∀ s : State, s.resetHeld = false →
    let rd (offset : Nat) : Word := s.readWord (BitVec.ofNat 11 offset)
    let word (n : Nat) : Word := BitVec.ofNat 16 n
    (rd 0x003 = s.port.argument ∧ rd 0x010 = word s.cfg.runMode.toNat ∧ rd 0x011 = word s.cfg.lineRate.toNat
      ∧ rd 0x012 = s.cfg.period ∧ rd 0x013 = s.cfg.deadline ∧ rd 0x014 = word s.cfg.probeSpacing.toNat
      ∧ rd 0x015 = word s.cfg.syncEnable.toNat ∧ rd 0x016 = word s.cfg.budget.toNat)
    ∧ (rd 0x018 = word (2 * s.events.filter.link.toNat + 4 * s.events.filter.attention.toNat
          + 8 * s.events.filter.errand.toNat + 16 * s.events.filter.watch.toNat + 32 * s.events.filter.cycle.toNat
          + 64 * s.events.filter.overrun.toNat + 128 * s.events.filter.hold.toNat
          + 256 * s.events.filter.lineFault.toNat + 512 * s.events.filter.stopped.toNat)
      ∧ rd 0x019 = word s.events.threshold.toNat ∧ rd 0x01A = word s.events.coalescing.toNat
      ∧ rd 0x01B = word (s.events.globalIrq.toNat + 2 * s.events.faultIrq.toNat))
    ∧ (rd 0x028 = word (s.selector.entry.toNat + 256 * s.selector.word.toNat)
      ∧ rd 0x030 = word (s.errand.staging.tag.toNat + 256 * s.errand.staging.entry.toNat)
      ∧ rd 0x031 = word (s.errand.staging.kind.toNat + 16 * s.errand.staging.len.toNat
          + 256 * s.errand.staging.object.toNat)
      ∧ ∀ i : Fin 8, rd (0x032 + i.val) = s.errand.staging.payload[i])
    ∧ (∀ e : EntryIdx,
      rd (0x100 + 8 * e.val) = word ((s.entry e).address.toNat + 256 * (s.entry e).divisor.toNat
          + 4096 * (s.entry e).phase.toNat)
      ∧ rd (0x101 + 8 * e.val) = word ((s.entry e).retryLimit.toNat + 16 * (s.entry e).lossLimit.toNat
          + 256 * (s.entry e).outLen.toNat + 4096 * (s.entry e).inLen.toNat)
      ∧ rd (0x102 + 8 * e.val) = word ((decide ((s.entry e).commitMode = .gated)).toNat
          + 2 * (s.entry e).substitute.toNat)
      ∧ ∀ i : Fin 8, rd (0x240 + 8 * e.val + i.val) = (s.image e).working[i])
    ∧ ∀ n : WatchIdx,
      rd (0x650 + 8 * n.val) = word ((s.watch n).entry.toNat + 256 * (s.watch n).word.toNat
          + 4096 * (s.watch n).condition.toNat)
      ∧ rd (0x651 + 8 * n.val) = (s.watch n).mask ∧ rd (0x652 + 8 * n.val) = (s.watch n).reference
      ∧ rd (0x653 + 8 * n.val) = word ((s.watch n).trigger.toNat + 16 * (s.watch n).persistence.toNat
          + 256 * (s.watch n).actPost.toNat + 512 * (s.watch n).actHold.toNat + 1024 * (s.watch n).actDrive.toNat)
      ∧ rd (0x654 + 8 * n.val) = word ((s.watch n).driveEntry.toNat + 256 * (s.watch n).driveWord.toNat)
      ∧ rd (0x655 + 8 * n.val) = (s.watch n).driveMask ∧ rd (0x656 + 8 * n.val) = (s.watch n).driveValue

/-- HOST_WRITE refused: UNMAPPED, READ_ONLY or LOCKED by the access type of the offset, which `accessAt` gives by ranges
(Tables 10-1 to 10-11, R178), and by its owner's state, and then nothing changes but the fault record, which an empty record
takes, or the fault count, raised up to 15 (R168, R172). The model's locations have the access types of their offsets, and
an unmapped or an action word reads 0000H (R178). -/
def Obligations.RefusedWritesRecordTheFirstFault : Prop :=
  (∀ o : Offset, (locate o).access = accessAt o.toNat
    ∧ ∀ s : State, accessAt o.toNat = .none ∨ accessAt o.toNat = .action → s.readWord o = 0#16)
  ∧ ∀ (s : State) (o : Offset) (v : Word) (cause : AccessCause), s.resetHeld = false →
    (accessAt o.toNat = .none ∧ cause = .unmapped) ∨ (accessAt o.toNat = .ro ∧ cause = .readOnly)
      ∨ (cause = .locked ∧ ((∃ e, accessAt o.toNat = .lockedByEntry e ∧ (s.entry e).link ≠ .off)
          ∨ (accessAt o.toNat = .lockedBySequencer ∧ s.seq.state ≠ .stopped)
          ∨ (∃ n, accessAt o.toNat = .lockedByWatch n ∧ (s.watch n).armed = true))) →
    (s.port.fault = none →
      exec (.hostWrite o v) s = .next { s with port := { s.port with fault := some ⟨o, cause⟩ } })
    ∧ (s.port.fault ≠ none →
      exec (.hostWrite o v) s = .next { s with port := { s.port with
        faultCount := if s.port.faultCount = 15#4 then 15#4 else s.port.faultCount + 1#4 } })

/-- The identity word reads 4001H in every state with RESET high, neither reset changes it, and a write to it is refused
with READ_ONLY (R174). -/
def Obligations.IdentityWordIsConstant : Prop :=
  ∀ s : State, s.resetHeld = false →
    s.readWord 0x000#11 = 0x4001#16
    ∧ (∀ v,
      (s.port.fault = none →
        exec (.hostWrite 0x000#11 v) s = .next { s with port := { s.port with fault := some ⟨0x000#11, .readOnly⟩ } })
      ∧ (s.port.fault ≠ none →
        exec (.hostWrite 0x000#11 v) s = .next { s with port := { s.port with
          faultCount := if s.port.faultCount = 15#4 then 15#4 else s.port.faultCount + 1#4 } }))
    ∧ (∀ t, exec .softReset s = .next t → t.readWord 0x000#11 = 0x4001#16)
    ∧ ∀ t u, exec .hardwareReset s = .next t → exec .resetRelease t = .next u → u.readWord 0x000#11 = 0x4001#16

/-- The read-only words of the window at their offsets, each field at its bits and every other bit 0 (R167, R179), with the
codes of Table 10-2: status, result, fault and counts (Table 10-3, R171, R172, R175), the event unit's counts and the head
window (Tables 10-5 and 10-6), the views of the queue and of the attention list and the freeze window (Table 10-7), the
runtime and counter words of the roster (Table 10-8), committed and input words and the input status (Table 10-9), the watch
state (Table 10-10) and the slots (Table 10-11). -/
def Obligations.ReadOnlyWordsShowTheirFields : Prop :=
  ([LinkState.off, .await, .online, .suspect, .lost].map LinkState.code = [0, 1, 2, 3, 4]
    ∧ [SeqState.stopped, .running, .waiting, .held, .faulted].map SeqState.code = [0, 1, 2, 3, 4]
    ∧ [Phase.none, .sync, .roster, .window].map Phase.code = [0, 1, 2, 3]
    ∧ [CallKind.exchange, .read, .write, .attend, .reset, .sync].map CallKind.code = [1, 2, 3, 4, 5, 6]
    ∧ [SlotState.free, .queued, .active, .done].map SlotState.code = [0, 1, 2, 3]
    ∧ [SlotOutcome.none, .doneOk, .refused, .noAnswer, .noLink, .cancelled, .aborted].map SlotOutcome.code =
        [0, 1, 2, 3, 4, 5, 6]
    ∧ [WatchOutcome.unknown, .isFalse, .isTrue].map WatchOutcome.code = [0, 1, 2]
    ∧ [EventKind.link, .attention, .errand, .watch, .cycle, .overrun, .hold, .lineFault, .stopped, .overflow].map
        EventKind.code = [1, 2, 3, 4, 5, 6, 7, 8, 9, 10]
    ∧ [AccessCause.unmapped, .readOnly, .locked, .badTarget].map AccessCause.code = [1, 2, 3, 4]
    ∧ [CmdOutcome.ok, .busy, .refused, .badArg, .full, .tooLate, .conflict, .notPending, .empty].map CmdOutcome.code =
        [0, 1, 2, 3, 4, 5, 6, 7, 8])
  ∧ ∀ s : State, s.resetHeld = false →
    let rd (offset : Nat) : Word := s.readWord (BitVec.ofNat 11 offset)
    let word (n : Nat) : Word := BitVec.ofNat 16 n
    (rd 0x001 = word (s.seq.state.code + 16 * s.seq.phase.code + 256 * s.port.fault.isSome.toNat + 512 * s.irqLow.toNat)
      ∧ rd 0x002 = word (s.cursor.toNat + 256 * s.events.queue.length)
      ∧ rd 0x005 = word (s.port.value.toNat + 256 * s.port.count.toNat)
      ∧ rd 0x006 = word s.port.outcome.code
      ∧ rd 0x007 = (match s.port.fault with
          | none => 0#16
          | some f => word (f.offset.toNat + 4096 * f.cause.code + 32768))
      ∧ rd 0x008 = word s.port.faultCount.toNat ∧ rd 0x009 = word s.seq.overruns.toNat
      ∧ rd 0x00A = word s.line.echoFaults.toNat ∧ rd 0x00B = word s.line.lineFaults.toNat
      ∧ rd 0x00C = s.line.strayBytes)
    ∧ (rd 0x01C = word s.events.queue.length ∧ rd 0x01D = s.events.nextSeq
      ∧ rd 0x01E = word s.events.dropped.toNat ∧ rd 0x01F = word s.events.headWait.toNat
      ∧ (s.events.queue = [] → ∀ i < 7, rd (0x020 + i) = 0#16)
      ∧ ∀ r rest, s.events.queue = r :: rest →
        rd 0x020 = r.seq ∧ rd 0x021 = word (r.kind.code + 256 * r.subject.toNat) ∧ rd 0x022 = r.cycle
        ∧ rd 0x023 = word (r.p1.toNat + 256 * r.p2.toNat) ∧ rd 0x024 = r.d0 ∧ rd 0x025 = r.d1 ∧ rd 0x026 = r.d2)
    ∧ (rd 0x040 = word s.errand.queue.length
      ∧ (∀ i : Fin 8, rd (0x041 + i.val) = match s.errand.queue[i.val]? with | some k => word k.val | none => 0x00FF#16)
      ∧ (s.attn.items.length ≤ 40 →
          rd 0x050 = word (s.attn.items.length + 256 * match s.attn.mark with | some e => e.val | none => 255))
      ∧ (∀ i : Fin 40, rd (0x051 + i.val) = match s.attn.items[i.val]? with | some e => word e.val | none => 0x00FF#16)
      ∧ rd 0x080 = word (s.freeze.entry.toNat + 256 * s.freeze.link.code + 32768 * s.freeze.fresh.toNat)
      ∧ rd 0x081 = word (s.freeze.generation.toNat + 256 * s.freeze.age.toNat)
      ∧ rd 0x082 = word s.freeze.inLen.toNat ∧ ∀ i : Fin 8, rd (0x083 + i.val) = s.freeze.words[i])
    ∧ (∀ e : EntryIdx,
      rd (0x103 + 8 * e.val) = word ((s.entry e).link.code + 16 * (s.entry e).miss.toNat
          + 256 * (s.entry e).nextToggle.toNat + 512 * (s.entry e).resync.toNat + 1024 * (s.visitInFlight e).toNat
          + 4096 * (s.entry e).probe.toNat)
      ∧ rd (0x104 + 8 * e.val) = word ((s.entry e).retries.toNat + 256 * (s.entry e).failedVisits.toNat)
      ∧ rd (0x105 + 8 * e.val) = word (s.entry e).losses.toNat
      ∧ (∀ i : Fin 8, rd (0x380 + 8 * e.val + i.val) = (s.image e).committed[i]
          ∧ rd (0x4C0 + 8 * e.val + i.val) = (s.image e).input[i])
      ∧ rd (0x600 + 2 * e.val) = word ((s.image e).generation.toNat + 32768 * (s.image e).fresh.toNat)
      ∧ rd (0x601 + 2 * e.val) = word (s.image e).age.toNat)
    ∧ (∀ n : WatchIdx,
      rd (0x657 + 8 * n.val) = word ((s.watch n).armed.toNat + 2 * (s.watch n).outcome.code
          + 8 * (s.watch n).candidate.toNat + 16 * (s.watch n).run.toNat + 256 * (s.watch n).fires.toNat))
    ∧ ∀ k : SlotIdx,
      rd (0x750 + 16 * k.val) = word ((s.slot k).state.code + 16 * (s.slot k).outcome.code
          + 256 * (s.slot k).ansLen.toNat)
      ∧ rd (0x751 + 16 * k.val) = word ((s.slot k).tag.toNat + 256 * (s.slot k).entry.val)
      ∧ rd (0x752 + 16 * k.val) = word ((match (s.slot k).kind with | some kind => kind.call.code | none => 0)
          + 16 * (s.slot k).reqLen.toNat + 256 * (s.slot k).object.toNat)
      ∧ ∀ i : Fin 8, rd (0x753 + 16 * k.val + i.val) = (s.slot k).payload[i]

/-- CLEAR_FAULT (R173): record and count emptied, OK, and IRQ high if no other condition holds. -/
def Obligations.ClearFaultEmptiesTheRecord : Prop :=
  ∀ s : State, s.resetHeld = false →
    ∃ t, exec .clearFault s = .next t
      ∧ t = { s with port := { answered s .ok 0#8 with fault := none, faultCount := 0#4 } }
      ∧ readLoc .faultRecord t = 0#16 ∧ readLoc .faultCount t = 0#16
      ∧ (({ s with port := { s.port with fault := none } } : State).irqLow = false → t.irqLow = false)

/-- Every write to the command word raises the command count by 1 and leaves the argument word (R169 to R171); a code that
names no command gives BAD_ARG with value 0 and no block acts (R170). A HOST_WRITE at 004H, and an UNKNOWN_COMMAND_CODE
whose code names a command, act as the command they spell: the model's choice for ill-formed rows (log 14). -/
def Obligations.EveryCommandWriteIsCounted : Prop :=
  (∀ (c : Instr) (w : Word) (s : State), busWrite c = some (0x004#11, w) → s.resetHeld = false →
    ∃ t, exec c s = .next t ∧ t.port.count = s.port.count + 1#8 ∧ t.port.argument = s.port.argument)
  ∧ (∀ (w : Word) (s : State),
    exec (.hostWrite 0x004#11 w) s = exec (ofBusWrite 0x004#11 w) s
    ∧ exec (.unknownCommandCode w) s = exec (ofBusWrite 0x004#11 w) s)
  ∧ ∀ (w : Word) (s : State), s.resetHeld = false → (w.toNat % 32 = 0 ∨ 17 < w.toNat % 32) →
    exec (.unknownCommandCode w) s = .next { s with port := answered s .badArg 0#8 }

/-- An access is a read, a write or neither by the levels of CS*, RD* and WR*: a write brings the command it spells, a read
drives the word it reads, and an access that is neither brings no command and drives no data (R166, R167). Not rules of the
spec but the model's choices: that a write's command waits behind those that came before it (log 1), or, for a write that
arrives amid the evaluations of a commit, in a list of such arrivals (log 6), and that CS* low with RD* and WR* both high, of
which R166 does not speak, is neither (log 16). A bus write is
decoded to the command it makes, for every command and every operand, and every mapped location of the
window stands at its own offset (Tables 10-1, 10-2, R170, R178). -/
def Obligations.BusWritesAndOffsetsAgree : Prop :=
  (∀ (c : Instr) (o : Offset) (w : Word), c.wellFormed = true → busWrite c = some (o, w) → ofBusWrite o w = c)
  ∧ (∀ (o : Offset) (w : Word), (ofBusWrite o w).wellFormed = true)
  ∧ (∀ (l : Loc) (n : Nat), l.offset = some n → n < 2000 ∧ locateNat n = l)
  ∧ (∀ n < 2048, locateNat n ≠ .unmapped → (locateNat n).offset = some n)
  ∧ ∀ (s : State) (cs rd wr : Level) (o : Offset) (v : Word),
    (cs = .low ∧ rd = .low ∧ wr = .high →
      s.busData cs rd wr o = some (s.readWord o) ∧ s.withAccess cs rd wr o v = s)
    ∧ (cs = .low ∧ rd = .high ∧ wr = .low →
      s.busData cs rd wr o = none
      ∧ s.withAccess cs rd wr o v = { s with pending := s.pending ++ [ofBusWrite o v] })
    ∧ (cs = .high ∨ rd = wr → s.busData cs rd wr o = none ∧ s.withAccess cs rd wr o v = s)
    ∧ ∀ passed : Nat,
      (cs = .low ∧ rd = .high ∧ wr = .low →
        s.withAccessAmid passed cs rd wr o v =
          { s with amid := s.amid ++ [{ passed := passed, offset := o, value := v }] })
      ∧ (¬ (cs = .low ∧ rd = .high ∧ wr = .low) → s.withAccessAmid passed cs rd wr o v = s)

/-! ### Laws that hold at reset and that every step keeps -/

/-- Every law of the part holds at reset. The laws' model's readings are those of StepsKeepEveryLaw (log 4, log 5, log 7). -/
def Obligations.ResetStateIsLawful : Prop := Lawful State.reset

/-- Every step keeps all the laws together. The model's readings in them: a try that waits and has not begun, with the visit
it asks for not in flight and the marker that the pass goes on (log 4, log 5), and no head wait without a head (log 7). -/
def Obligations.StepsKeepEveryLaw : Prop := ∀ s t : State, Lawful s → step s = .next t → Lawful t

/-- Every step keeps the laws of the roster: the miss count by link state (R17), a valid configuration outside OFF (R2), no
two entries outside OFF with one address (R21). -/
def Obligations.StepsKeepTheRosterLaw : Prop := ∀ s t : State, RosterLaw s → step s = .next t → RosterLaw t

/-- Every step keeps the laws of the event queue: at most 32 records, drops only behind a full queue, consecutive sequence
numbers (R152, R154, R159), and no head wait without a head (log 7). -/
def Obligations.StepsKeepTheEventLaw : Prop := ∀ s t : State, EventLaw s → step s = .next t → EventLaw t

/-- Every step keeps, each by itself: an armed watch's examined configuration (R136), one attention item per entry with the
mark on the head (R125), and age 0 for an entry committed in the cycle (R93). -/
def Obligations.StepsKeepTheSmallLaws : Prop :=
  ∀ s t : State, step s = .next t →
    (ArmedValid s → ArmedValid t) ∧ (AttentionOrder s → AttentionOrder t) ∧ (CommittedIsNew s → CommittedIsNew t)

end
end

