-- ==== Sys2Proof/Laws/State.lean ====
section
/-! SUPPORT. One lemma per field per update of the state, true by definition, so that no proof unfolds a record update;
and what a table holds after one of its rows is replaced. -/

namespace Sys2Proof.Machine

variable (s : State)

/-! ### setEntry -/

@[simp] theorem setEntry_roster (e : EntryIdx) (x : Entry) :
    (s.setEntry e x).roster = s.roster.set e.val x e.isLt := rfl
@[simp] theorem setEntry_images (e : EntryIdx) (x : Entry) : (s.setEntry e x).images = s.images := rfl
@[simp] theorem setEntry_selector (e : EntryIdx) (x : Entry) : (s.setEntry e x).selector = s.selector := rfl
@[simp] theorem setEntry_freeze (e : EntryIdx) (x : Entry) : (s.setEntry e x).freeze = s.freeze := rfl
@[simp] theorem setEntry_cfg (e : EntryIdx) (x : Entry) : (s.setEntry e x).cfg = s.cfg := rfl
@[simp] theorem setEntry_seq (e : EntryIdx) (x : Entry) : (s.setEntry e x).seq = s.seq := rfl
@[simp] theorem setEntry_line (e : EntryIdx) (x : Entry) : (s.setEntry e x).line = s.line := rfl
@[simp] theorem setEntry_errand (e : EntryIdx) (x : Entry) : (s.setEntry e x).errand = s.errand := rfl
@[simp] theorem setEntry_attn (e : EntryIdx) (x : Entry) : (s.setEntry e x).attn = s.attn := rfl
@[simp] theorem setEntry_watches (e : EntryIdx) (x : Entry) : (s.setEntry e x).watches = s.watches := rfl
@[simp] theorem setEntry_events (e : EntryIdx) (x : Entry) : (s.setEntry e x).events = s.events := rfl
@[simp] theorem setEntry_port (e : EntryIdx) (x : Entry) : (s.setEntry e x).port = s.port := rfl
@[simp] theorem setEntry_resetHeld (e : EntryIdx) (x : Entry) : (s.setEntry e x).resetHeld = s.resetHeld := rfl
@[simp] theorem setEntry_pending (e : EntryIdx) (x : Entry) : (s.setEntry e x).pending = s.pending := rfl
@[simp] theorem setEntry_amid (e : EntryIdx) (x : Entry) : (s.setEntry e x).amid = s.amid := rfl
@[simp] theorem setEntry_image (e : EntryIdx) (x : Entry) (f : EntryIdx) : (s.setEntry e x).image f = s.image f := rfl
@[simp] theorem setEntry_slot (e : EntryIdx) (x : Entry) (j : SlotIdx) : (s.setEntry e x).slot j = s.slot j := rfl
@[simp] theorem setEntry_watch (e : EntryIdx) (x : Entry) (m : WatchIdx) : (s.setEntry e x).watch m = s.watch m := rfl
@[simp] theorem setEntry_visit (e : EntryIdx) (x : Entry) : (s.setEntry e x).visit = s.visit := rfl
@[simp] theorem setEntry_calledEntry (e : EntryIdx) (x : Entry) : (s.setEntry e x).calledEntry = s.calledEntry := rfl
@[simp] theorem setEntry_runMode (e : EntryIdx) (x : Entry) : (s.setEntry e x).runMode = s.runMode := rfl

/-! ### setImage -/

@[simp] theorem setImage_roster (e : EntryIdx) (x : Image) : (s.setImage e x).roster = s.roster := rfl
@[simp] theorem setImage_images (e : EntryIdx) (x : Image) :
    (s.setImage e x).images = s.images.set e.val x e.isLt := rfl
@[simp] theorem setImage_selector (e : EntryIdx) (x : Image) : (s.setImage e x).selector = s.selector := rfl
@[simp] theorem setImage_freeze (e : EntryIdx) (x : Image) : (s.setImage e x).freeze = s.freeze := rfl
@[simp] theorem setImage_cfg (e : EntryIdx) (x : Image) : (s.setImage e x).cfg = s.cfg := rfl
@[simp] theorem setImage_seq (e : EntryIdx) (x : Image) : (s.setImage e x).seq = s.seq := rfl
@[simp] theorem setImage_line (e : EntryIdx) (x : Image) : (s.setImage e x).line = s.line := rfl
@[simp] theorem setImage_errand (e : EntryIdx) (x : Image) : (s.setImage e x).errand = s.errand := rfl
@[simp] theorem setImage_attn (e : EntryIdx) (x : Image) : (s.setImage e x).attn = s.attn := rfl
@[simp] theorem setImage_watches (e : EntryIdx) (x : Image) : (s.setImage e x).watches = s.watches := rfl
@[simp] theorem setImage_events (e : EntryIdx) (x : Image) : (s.setImage e x).events = s.events := rfl
@[simp] theorem setImage_port (e : EntryIdx) (x : Image) : (s.setImage e x).port = s.port := rfl
@[simp] theorem setImage_resetHeld (e : EntryIdx) (x : Image) : (s.setImage e x).resetHeld = s.resetHeld := rfl
@[simp] theorem setImage_pending (e : EntryIdx) (x : Image) : (s.setImage e x).pending = s.pending := rfl
@[simp] theorem setImage_amid (e : EntryIdx) (x : Image) : (s.setImage e x).amid = s.amid := rfl
@[simp] theorem setImage_entry (e : EntryIdx) (x : Image) (f : EntryIdx) : (s.setImage e x).entry f = s.entry f := rfl
@[simp] theorem setImage_slot (e : EntryIdx) (x : Image) (j : SlotIdx) : (s.setImage e x).slot j = s.slot j := rfl
@[simp] theorem setImage_watch (e : EntryIdx) (x : Image) (m : WatchIdx) : (s.setImage e x).watch m = s.watch m := rfl
@[simp] theorem setImage_visit (e : EntryIdx) (x : Image) : (s.setImage e x).visit = s.visit := rfl
@[simp] theorem setImage_calledEntry (e : EntryIdx) (x : Image) : (s.setImage e x).calledEntry = s.calledEntry := rfl
@[simp] theorem setImage_runMode (e : EntryIdx) (x : Image) : (s.setImage e x).runMode = s.runMode := rfl

/-! ### setSlot -/

@[simp] theorem setSlot_roster (k : SlotIdx) (x : Slot) : (s.setSlot k x).roster = s.roster := rfl
@[simp] theorem setSlot_images (k : SlotIdx) (x : Slot) : (s.setSlot k x).images = s.images := rfl
@[simp] theorem setSlot_selector (k : SlotIdx) (x : Slot) : (s.setSlot k x).selector = s.selector := rfl
@[simp] theorem setSlot_freeze (k : SlotIdx) (x : Slot) : (s.setSlot k x).freeze = s.freeze := rfl
@[simp] theorem setSlot_cfg (k : SlotIdx) (x : Slot) : (s.setSlot k x).cfg = s.cfg := rfl
@[simp] theorem setSlot_seq (k : SlotIdx) (x : Slot) : (s.setSlot k x).seq = s.seq := rfl
@[simp] theorem setSlot_line (k : SlotIdx) (x : Slot) : (s.setSlot k x).line = s.line := rfl
@[simp] theorem setSlot_errand (k : SlotIdx) (x : Slot) :
    (s.setSlot k x).errand = { s.errand with slots := s.errand.slots.set k.val x k.isLt } := rfl
@[simp] theorem setSlot_attn (k : SlotIdx) (x : Slot) : (s.setSlot k x).attn = s.attn := rfl
@[simp] theorem setSlot_watches (k : SlotIdx) (x : Slot) : (s.setSlot k x).watches = s.watches := rfl
@[simp] theorem setSlot_events (k : SlotIdx) (x : Slot) : (s.setSlot k x).events = s.events := rfl
@[simp] theorem setSlot_port (k : SlotIdx) (x : Slot) : (s.setSlot k x).port = s.port := rfl
@[simp] theorem setSlot_resetHeld (k : SlotIdx) (x : Slot) : (s.setSlot k x).resetHeld = s.resetHeld := rfl
@[simp] theorem setSlot_pending (k : SlotIdx) (x : Slot) : (s.setSlot k x).pending = s.pending := rfl
@[simp] theorem setSlot_amid (k : SlotIdx) (x : Slot) : (s.setSlot k x).amid = s.amid := rfl
@[simp] theorem setSlot_entry (k : SlotIdx) (x : Slot) (f : EntryIdx) : (s.setSlot k x).entry f = s.entry f := rfl
@[simp] theorem setSlot_image (k : SlotIdx) (x : Slot) (f : EntryIdx) : (s.setSlot k x).image f = s.image f := rfl
@[simp] theorem setSlot_watch (k : SlotIdx) (x : Slot) (m : WatchIdx) : (s.setSlot k x).watch m = s.watch m := rfl
@[simp] theorem setSlot_visit (k : SlotIdx) (x : Slot) : (s.setSlot k x).visit = s.visit := rfl
@[simp] theorem setSlot_calledEntry (k : SlotIdx) (x : Slot) : (s.setSlot k x).calledEntry = s.calledEntry := rfl
@[simp] theorem setSlot_runMode (k : SlotIdx) (x : Slot) : (s.setSlot k x).runMode = s.runMode := rfl

/-! ### setWatch -/

@[simp] theorem setWatch_roster (n : WatchIdx) (x : Watch) : (s.setWatch n x).roster = s.roster := rfl
@[simp] theorem setWatch_images (n : WatchIdx) (x : Watch) : (s.setWatch n x).images = s.images := rfl
@[simp] theorem setWatch_selector (n : WatchIdx) (x : Watch) : (s.setWatch n x).selector = s.selector := rfl
@[simp] theorem setWatch_freeze (n : WatchIdx) (x : Watch) : (s.setWatch n x).freeze = s.freeze := rfl
@[simp] theorem setWatch_cfg (n : WatchIdx) (x : Watch) : (s.setWatch n x).cfg = s.cfg := rfl
@[simp] theorem setWatch_seq (n : WatchIdx) (x : Watch) : (s.setWatch n x).seq = s.seq := rfl
@[simp] theorem setWatch_line (n : WatchIdx) (x : Watch) : (s.setWatch n x).line = s.line := rfl
@[simp] theorem setWatch_errand (n : WatchIdx) (x : Watch) : (s.setWatch n x).errand = s.errand := rfl
@[simp] theorem setWatch_attn (n : WatchIdx) (x : Watch) : (s.setWatch n x).attn = s.attn := rfl
@[simp] theorem setWatch_watches (n : WatchIdx) (x : Watch) :
    (s.setWatch n x).watches = s.watches.set n.val x n.isLt := rfl
@[simp] theorem setWatch_events (n : WatchIdx) (x : Watch) : (s.setWatch n x).events = s.events := rfl
@[simp] theorem setWatch_port (n : WatchIdx) (x : Watch) : (s.setWatch n x).port = s.port := rfl
@[simp] theorem setWatch_resetHeld (n : WatchIdx) (x : Watch) : (s.setWatch n x).resetHeld = s.resetHeld := rfl
@[simp] theorem setWatch_pending (n : WatchIdx) (x : Watch) : (s.setWatch n x).pending = s.pending := rfl
@[simp] theorem setWatch_amid (n : WatchIdx) (x : Watch) : (s.setWatch n x).amid = s.amid := rfl
@[simp] theorem setWatch_entry (n : WatchIdx) (x : Watch) (f : EntryIdx) : (s.setWatch n x).entry f = s.entry f := rfl
@[simp] theorem setWatch_image (n : WatchIdx) (x : Watch) (f : EntryIdx) : (s.setWatch n x).image f = s.image f := rfl
@[simp] theorem setWatch_slot (n : WatchIdx) (x : Watch) (j : SlotIdx) : (s.setWatch n x).slot j = s.slot j := rfl
@[simp] theorem setWatch_visit (n : WatchIdx) (x : Watch) : (s.setWatch n x).visit = s.visit := rfl
@[simp] theorem setWatch_calledEntry (n : WatchIdx) (x : Watch) : (s.setWatch n x).calledEntry = s.calledEntry := rfl
@[simp] theorem setWatch_runMode (n : WatchIdx) (x : Watch) : (s.setWatch n x).runMode = s.runMode := rfl

/-! ### setSeq -/

@[simp] theorem setSeq_roster (x : Sequencer) : (s.setSeq x).roster = s.roster := rfl
@[simp] theorem setSeq_images (x : Sequencer) : (s.setSeq x).images = s.images := rfl
@[simp] theorem setSeq_selector (x : Sequencer) : (s.setSeq x).selector = s.selector := rfl
@[simp] theorem setSeq_freeze (x : Sequencer) : (s.setSeq x).freeze = s.freeze := rfl
@[simp] theorem setSeq_cfg (x : Sequencer) : (s.setSeq x).cfg = s.cfg := rfl
@[simp] theorem setSeq_seq (x : Sequencer) : (s.setSeq x).seq = x := rfl
@[simp] theorem setSeq_line (x : Sequencer) : (s.setSeq x).line = s.line := rfl
@[simp] theorem setSeq_errand (x : Sequencer) : (s.setSeq x).errand = s.errand := rfl
@[simp] theorem setSeq_attn (x : Sequencer) : (s.setSeq x).attn = s.attn := rfl
@[simp] theorem setSeq_watches (x : Sequencer) : (s.setSeq x).watches = s.watches := rfl
@[simp] theorem setSeq_events (x : Sequencer) : (s.setSeq x).events = s.events := rfl
@[simp] theorem setSeq_port (x : Sequencer) : (s.setSeq x).port = s.port := rfl
@[simp] theorem setSeq_resetHeld (x : Sequencer) : (s.setSeq x).resetHeld = s.resetHeld := rfl
@[simp] theorem setSeq_pending (x : Sequencer) : (s.setSeq x).pending = s.pending := rfl
@[simp] theorem setSeq_amid (x : Sequencer) : (s.setSeq x).amid = s.amid := rfl
@[simp] theorem setSeq_entry (x : Sequencer) (f : EntryIdx) : (s.setSeq x).entry f = s.entry f := rfl
@[simp] theorem setSeq_image (x : Sequencer) (f : EntryIdx) : (s.setSeq x).image f = s.image f := rfl
@[simp] theorem setSeq_slot (x : Sequencer) (j : SlotIdx) : (s.setSeq x).slot j = s.slot j := rfl
@[simp] theorem setSeq_watch (x : Sequencer) (m : WatchIdx) : (s.setSeq x).watch m = s.watch m := rfl
@[simp] theorem setSeq_visit (x : Sequencer) : (s.setSeq x).visit = s.visit := rfl
@[simp] theorem setSeq_calledEntry (x : Sequencer) : (s.setSeq x).calledEntry = s.calledEntry := rfl
@[simp] theorem setSeq_runMode (x : Sequencer) : (s.setSeq x).runMode = s.runMode := rfl

/-! ### setLine -/

@[simp] theorem setLine_roster (x : LineEngine) : (s.setLine x).roster = s.roster := rfl
@[simp] theorem setLine_images (x : LineEngine) : (s.setLine x).images = s.images := rfl
@[simp] theorem setLine_selector (x : LineEngine) : (s.setLine x).selector = s.selector := rfl
@[simp] theorem setLine_freeze (x : LineEngine) : (s.setLine x).freeze = s.freeze := rfl
@[simp] theorem setLine_cfg (x : LineEngine) : (s.setLine x).cfg = s.cfg := rfl
@[simp] theorem setLine_seq (x : LineEngine) : (s.setLine x).seq = s.seq := rfl
@[simp] theorem setLine_line (x : LineEngine) : (s.setLine x).line = x := rfl
@[simp] theorem setLine_errand (x : LineEngine) : (s.setLine x).errand = s.errand := rfl
@[simp] theorem setLine_attn (x : LineEngine) : (s.setLine x).attn = s.attn := rfl
@[simp] theorem setLine_watches (x : LineEngine) : (s.setLine x).watches = s.watches := rfl
@[simp] theorem setLine_events (x : LineEngine) : (s.setLine x).events = s.events := rfl
@[simp] theorem setLine_port (x : LineEngine) : (s.setLine x).port = s.port := rfl
@[simp] theorem setLine_resetHeld (x : LineEngine) : (s.setLine x).resetHeld = s.resetHeld := rfl
@[simp] theorem setLine_pending (x : LineEngine) : (s.setLine x).pending = s.pending := rfl
@[simp] theorem setLine_amid (x : LineEngine) : (s.setLine x).amid = s.amid := rfl
@[simp] theorem setLine_entry (x : LineEngine) (f : EntryIdx) : (s.setLine x).entry f = s.entry f := rfl
@[simp] theorem setLine_image (x : LineEngine) (f : EntryIdx) : (s.setLine x).image f = s.image f := rfl
@[simp] theorem setLine_slot (x : LineEngine) (j : SlotIdx) : (s.setLine x).slot j = s.slot j := rfl
@[simp] theorem setLine_watch (x : LineEngine) (m : WatchIdx) : (s.setLine x).watch m = s.watch m := rfl
@[simp] theorem setLine_runMode (x : LineEngine) : (s.setLine x).runMode = s.runMode := rfl

/-! ### setErrand -/

@[simp] theorem setErrand_roster (x : ErrandUnit) : (s.setErrand x).roster = s.roster := rfl
@[simp] theorem setErrand_images (x : ErrandUnit) : (s.setErrand x).images = s.images := rfl
@[simp] theorem setErrand_selector (x : ErrandUnit) : (s.setErrand x).selector = s.selector := rfl
@[simp] theorem setErrand_freeze (x : ErrandUnit) : (s.setErrand x).freeze = s.freeze := rfl
@[simp] theorem setErrand_cfg (x : ErrandUnit) : (s.setErrand x).cfg = s.cfg := rfl
@[simp] theorem setErrand_seq (x : ErrandUnit) : (s.setErrand x).seq = s.seq := rfl
@[simp] theorem setErrand_line (x : ErrandUnit) : (s.setErrand x).line = s.line := rfl
@[simp] theorem setErrand_errand (x : ErrandUnit) : (s.setErrand x).errand = x := rfl
@[simp] theorem setErrand_attn (x : ErrandUnit) : (s.setErrand x).attn = s.attn := rfl
@[simp] theorem setErrand_watches (x : ErrandUnit) : (s.setErrand x).watches = s.watches := rfl
@[simp] theorem setErrand_events (x : ErrandUnit) : (s.setErrand x).events = s.events := rfl
@[simp] theorem setErrand_port (x : ErrandUnit) : (s.setErrand x).port = s.port := rfl
@[simp] theorem setErrand_resetHeld (x : ErrandUnit) : (s.setErrand x).resetHeld = s.resetHeld := rfl
@[simp] theorem setErrand_pending (x : ErrandUnit) : (s.setErrand x).pending = s.pending := rfl
@[simp] theorem setErrand_amid (x : ErrandUnit) : (s.setErrand x).amid = s.amid := rfl
@[simp] theorem setErrand_entry (x : ErrandUnit) (f : EntryIdx) : (s.setErrand x).entry f = s.entry f := rfl
@[simp] theorem setErrand_image (x : ErrandUnit) (f : EntryIdx) : (s.setErrand x).image f = s.image f := rfl
@[simp] theorem setErrand_watch (x : ErrandUnit) (m : WatchIdx) : (s.setErrand x).watch m = s.watch m := rfl
@[simp] theorem setErrand_visit (x : ErrandUnit) : (s.setErrand x).visit = s.visit := rfl
@[simp] theorem setErrand_calledEntry (x : ErrandUnit) : (s.setErrand x).calledEntry = s.calledEntry := rfl
@[simp] theorem setErrand_runMode (x : ErrandUnit) : (s.setErrand x).runMode = s.runMode := rfl

/-! ### setAttn -/

@[simp] theorem setAttn_roster (x : AttentionList) : (s.setAttn x).roster = s.roster := rfl
@[simp] theorem setAttn_images (x : AttentionList) : (s.setAttn x).images = s.images := rfl
@[simp] theorem setAttn_selector (x : AttentionList) : (s.setAttn x).selector = s.selector := rfl
@[simp] theorem setAttn_freeze (x : AttentionList) : (s.setAttn x).freeze = s.freeze := rfl
@[simp] theorem setAttn_cfg (x : AttentionList) : (s.setAttn x).cfg = s.cfg := rfl
@[simp] theorem setAttn_seq (x : AttentionList) : (s.setAttn x).seq = s.seq := rfl
@[simp] theorem setAttn_line (x : AttentionList) : (s.setAttn x).line = s.line := rfl
@[simp] theorem setAttn_errand (x : AttentionList) : (s.setAttn x).errand = s.errand := rfl
@[simp] theorem setAttn_attn (x : AttentionList) : (s.setAttn x).attn = x := rfl
@[simp] theorem setAttn_watches (x : AttentionList) : (s.setAttn x).watches = s.watches := rfl
@[simp] theorem setAttn_events (x : AttentionList) : (s.setAttn x).events = s.events := rfl
@[simp] theorem setAttn_port (x : AttentionList) : (s.setAttn x).port = s.port := rfl
@[simp] theorem setAttn_resetHeld (x : AttentionList) : (s.setAttn x).resetHeld = s.resetHeld := rfl
@[simp] theorem setAttn_pending (x : AttentionList) : (s.setAttn x).pending = s.pending := rfl
@[simp] theorem setAttn_amid (x : AttentionList) : (s.setAttn x).amid = s.amid := rfl
@[simp] theorem setAttn_entry (x : AttentionList) (f : EntryIdx) : (s.setAttn x).entry f = s.entry f := rfl
@[simp] theorem setAttn_image (x : AttentionList) (f : EntryIdx) : (s.setAttn x).image f = s.image f := rfl
@[simp] theorem setAttn_slot (x : AttentionList) (j : SlotIdx) : (s.setAttn x).slot j = s.slot j := rfl
@[simp] theorem setAttn_watch (x : AttentionList) (m : WatchIdx) : (s.setAttn x).watch m = s.watch m := rfl
@[simp] theorem setAttn_visit (x : AttentionList) : (s.setAttn x).visit = s.visit := rfl
@[simp] theorem setAttn_calledEntry (x : AttentionList) : (s.setAttn x).calledEntry = s.calledEntry := rfl
@[simp] theorem setAttn_runMode (x : AttentionList) : (s.setAttn x).runMode = s.runMode := rfl

/-! ### setAmid -/

@[simp] theorem setAmid_roster (x : List Arrival) : (s.setAmid x).roster = s.roster := rfl
@[simp] theorem setAmid_images (x : List Arrival) : (s.setAmid x).images = s.images := rfl
@[simp] theorem setAmid_selector (x : List Arrival) : (s.setAmid x).selector = s.selector := rfl
@[simp] theorem setAmid_freeze (x : List Arrival) : (s.setAmid x).freeze = s.freeze := rfl
@[simp] theorem setAmid_cfg (x : List Arrival) : (s.setAmid x).cfg = s.cfg := rfl
@[simp] theorem setAmid_seq (x : List Arrival) : (s.setAmid x).seq = s.seq := rfl
@[simp] theorem setAmid_line (x : List Arrival) : (s.setAmid x).line = s.line := rfl
@[simp] theorem setAmid_errand (x : List Arrival) : (s.setAmid x).errand = s.errand := rfl
@[simp] theorem setAmid_attn (x : List Arrival) : (s.setAmid x).attn = s.attn := rfl
@[simp] theorem setAmid_watches (x : List Arrival) : (s.setAmid x).watches = s.watches := rfl
@[simp] theorem setAmid_events (x : List Arrival) : (s.setAmid x).events = s.events := rfl
@[simp] theorem setAmid_port (x : List Arrival) : (s.setAmid x).port = s.port := rfl
@[simp] theorem setAmid_resetHeld (x : List Arrival) : (s.setAmid x).resetHeld = s.resetHeld := rfl
@[simp] theorem setAmid_pending (x : List Arrival) : (s.setAmid x).pending = s.pending := rfl
@[simp] theorem setAmid_amid (x : List Arrival) : (s.setAmid x).amid = x := rfl
@[simp] theorem setAmid_entry (x : List Arrival) (f : EntryIdx) : (s.setAmid x).entry f = s.entry f := rfl
@[simp] theorem setAmid_image (x : List Arrival) (f : EntryIdx) : (s.setAmid x).image f = s.image f := rfl
@[simp] theorem setAmid_slot (x : List Arrival) (j : SlotIdx) : (s.setAmid x).slot j = s.slot j := rfl
@[simp] theorem setAmid_watch (x : List Arrival) (m : WatchIdx) : (s.setAmid x).watch m = s.watch m := rfl
@[simp] theorem setAmid_visit (x : List Arrival) : (s.setAmid x).visit = s.visit := rfl
@[simp] theorem setAmid_calledEntry (x : List Arrival) : (s.setAmid x).calledEntry = s.calledEntry := rfl
@[simp] theorem setAmid_runMode (x : List Arrival) : (s.setAmid x).runMode = s.runMode := rfl

/-! ### setEvents -/

@[simp] theorem setEvents_roster (x : EventUnit) : (s.setEvents x).roster = s.roster := rfl
@[simp] theorem setEvents_images (x : EventUnit) : (s.setEvents x).images = s.images := rfl
@[simp] theorem setEvents_selector (x : EventUnit) : (s.setEvents x).selector = s.selector := rfl
@[simp] theorem setEvents_freeze (x : EventUnit) : (s.setEvents x).freeze = s.freeze := rfl
@[simp] theorem setEvents_cfg (x : EventUnit) : (s.setEvents x).cfg = s.cfg := rfl
@[simp] theorem setEvents_seq (x : EventUnit) : (s.setEvents x).seq = s.seq := rfl
@[simp] theorem setEvents_line (x : EventUnit) : (s.setEvents x).line = s.line := rfl
@[simp] theorem setEvents_errand (x : EventUnit) : (s.setEvents x).errand = s.errand := rfl
@[simp] theorem setEvents_attn (x : EventUnit) : (s.setEvents x).attn = s.attn := rfl
@[simp] theorem setEvents_watches (x : EventUnit) : (s.setEvents x).watches = s.watches := rfl
@[simp] theorem setEvents_events (x : EventUnit) : (s.setEvents x).events = x := rfl
@[simp] theorem setEvents_port (x : EventUnit) : (s.setEvents x).port = s.port := rfl
@[simp] theorem setEvents_resetHeld (x : EventUnit) : (s.setEvents x).resetHeld = s.resetHeld := rfl
@[simp] theorem setEvents_pending (x : EventUnit) : (s.setEvents x).pending = s.pending := rfl
@[simp] theorem setEvents_amid (x : EventUnit) : (s.setEvents x).amid = s.amid := rfl
@[simp] theorem setEvents_entry (x : EventUnit) (f : EntryIdx) : (s.setEvents x).entry f = s.entry f := rfl
@[simp] theorem setEvents_image (x : EventUnit) (f : EntryIdx) : (s.setEvents x).image f = s.image f := rfl
@[simp] theorem setEvents_slot (x : EventUnit) (j : SlotIdx) : (s.setEvents x).slot j = s.slot j := rfl
@[simp] theorem setEvents_watch (x : EventUnit) (m : WatchIdx) : (s.setEvents x).watch m = s.watch m := rfl
@[simp] theorem setEvents_visit (x : EventUnit) : (s.setEvents x).visit = s.visit := rfl
@[simp] theorem setEvents_calledEntry (x : EventUnit) : (s.setEvents x).calledEntry = s.calledEntry := rfl
@[simp] theorem setEvents_runMode (x : EventUnit) : (s.setEvents x).runMode = s.runMode := rfl

/-! ### setPort -/

@[simp] theorem setPort_roster (x : HostPort) : (s.setPort x).roster = s.roster := rfl
@[simp] theorem setPort_images (x : HostPort) : (s.setPort x).images = s.images := rfl
@[simp] theorem setPort_selector (x : HostPort) : (s.setPort x).selector = s.selector := rfl
@[simp] theorem setPort_freeze (x : HostPort) : (s.setPort x).freeze = s.freeze := rfl
@[simp] theorem setPort_cfg (x : HostPort) : (s.setPort x).cfg = s.cfg := rfl
@[simp] theorem setPort_seq (x : HostPort) : (s.setPort x).seq = s.seq := rfl
@[simp] theorem setPort_line (x : HostPort) : (s.setPort x).line = s.line := rfl
@[simp] theorem setPort_errand (x : HostPort) : (s.setPort x).errand = s.errand := rfl
@[simp] theorem setPort_attn (x : HostPort) : (s.setPort x).attn = s.attn := rfl
@[simp] theorem setPort_watches (x : HostPort) : (s.setPort x).watches = s.watches := rfl
@[simp] theorem setPort_events (x : HostPort) : (s.setPort x).events = s.events := rfl
@[simp] theorem setPort_port (x : HostPort) : (s.setPort x).port = x := rfl
@[simp] theorem setPort_resetHeld (x : HostPort) : (s.setPort x).resetHeld = s.resetHeld := rfl
@[simp] theorem setPort_pending (x : HostPort) : (s.setPort x).pending = s.pending := rfl
@[simp] theorem setPort_amid (x : HostPort) : (s.setPort x).amid = s.amid := rfl
@[simp] theorem setPort_entry (x : HostPort) (f : EntryIdx) : (s.setPort x).entry f = s.entry f := rfl
@[simp] theorem setPort_image (x : HostPort) (f : EntryIdx) : (s.setPort x).image f = s.image f := rfl
@[simp] theorem setPort_slot (x : HostPort) (j : SlotIdx) : (s.setPort x).slot j = s.slot j := rfl
@[simp] theorem setPort_watch (x : HostPort) (m : WatchIdx) : (s.setPort x).watch m = s.watch m := rfl
@[simp] theorem setPort_visit (x : HostPort) : (s.setPort x).visit = s.visit := rfl
@[simp] theorem setPort_calledEntry (x : HostPort) : (s.setPort x).calledEntry = s.calledEntry := rfl
@[simp] theorem setPort_runMode (x : HostPort) : (s.setPort x).runMode = s.runMode := rfl

/-! ### post -/

@[simp] theorem post_roster (p : Post) : (post p s).roster = s.roster := rfl
@[simp] theorem post_images (p : Post) : (post p s).images = s.images := rfl
@[simp] theorem post_selector (p : Post) : (post p s).selector = s.selector := rfl
@[simp] theorem post_freeze (p : Post) : (post p s).freeze = s.freeze := rfl
@[simp] theorem post_cfg (p : Post) : (post p s).cfg = s.cfg := rfl
@[simp] theorem post_seq (p : Post) : (post p s).seq = s.seq := rfl
@[simp] theorem post_line (p : Post) : (post p s).line = s.line := rfl
@[simp] theorem post_errand (p : Post) : (post p s).errand = s.errand := rfl
@[simp] theorem post_attn (p : Post) : (post p s).attn = s.attn := rfl
@[simp] theorem post_watches (p : Post) : (post p s).watches = s.watches := rfl
@[simp] theorem post_events (p : Post) : (post p s).events = s.events.take s.seq.cycle p := rfl
@[simp] theorem post_port (p : Post) : (post p s).port = s.port := rfl
@[simp] theorem post_resetHeld (p : Post) : (post p s).resetHeld = s.resetHeld := rfl
@[simp] theorem post_pending (p : Post) : (post p s).pending = s.pending := rfl
@[simp] theorem post_amid (p : Post) : (post p s).amid = s.amid := rfl
@[simp] theorem post_entry (p : Post) (f : EntryIdx) : (post p s).entry f = s.entry f := rfl
@[simp] theorem post_image (p : Post) (f : EntryIdx) : (post p s).image f = s.image f := rfl
@[simp] theorem post_slot (p : Post) (j : SlotIdx) : (post p s).slot j = s.slot j := rfl
@[simp] theorem post_watch (p : Post) (m : WatchIdx) : (post p s).watch m = s.watch m := rfl
@[simp] theorem post_visit (p : Post) : (post p s).visit = s.visit := rfl
@[simp] theorem post_calledEntry (p : Post) : (post p s).calledEntry = s.calledEntry := rfl
@[simp] theorem post_runMode (p : Post) : (post p s).runMode = s.runMode := rfl

/-! ### setEngine -/

@[simp] theorem setEngine_roster (g : Engine) : (setEngine g s).roster = s.roster := rfl
@[simp] theorem setEngine_images (g : Engine) : (setEngine g s).images = s.images := rfl
@[simp] theorem setEngine_selector (g : Engine) : (setEngine g s).selector = s.selector := rfl
@[simp] theorem setEngine_freeze (g : Engine) : (setEngine g s).freeze = s.freeze := rfl
@[simp] theorem setEngine_cfg (g : Engine) : (setEngine g s).cfg = s.cfg := rfl
@[simp] theorem setEngine_seq (g : Engine) : (setEngine g s).seq = s.seq := rfl
@[simp] theorem setEngine_line (g : Engine) : (setEngine g s).line = { s.line with engine := g } := rfl
@[simp] theorem setEngine_errand (g : Engine) : (setEngine g s).errand = s.errand := rfl
@[simp] theorem setEngine_attn (g : Engine) : (setEngine g s).attn = s.attn := rfl
@[simp] theorem setEngine_watches (g : Engine) : (setEngine g s).watches = s.watches := rfl
@[simp] theorem setEngine_events (g : Engine) : (setEngine g s).events = s.events := rfl
@[simp] theorem setEngine_port (g : Engine) : (setEngine g s).port = s.port := rfl
@[simp] theorem setEngine_resetHeld (g : Engine) : (setEngine g s).resetHeld = s.resetHeld := rfl
@[simp] theorem setEngine_pending (g : Engine) : (setEngine g s).pending = s.pending := rfl
@[simp] theorem setEngine_amid (g : Engine) : (setEngine g s).amid = s.amid := rfl
@[simp] theorem setEngine_entry (g : Engine) (f : EntryIdx) : (setEngine g s).entry f = s.entry f := rfl
@[simp] theorem setEngine_image (g : Engine) (f : EntryIdx) : (setEngine g s).image f = s.image f := rfl
@[simp] theorem setEngine_slot (g : Engine) (j : SlotIdx) : (setEngine g s).slot j = s.slot j := rfl
@[simp] theorem setEngine_watch (g : Engine) (m : WatchIdx) : (setEngine g s).watch m = s.watch m := rfl
@[simp] theorem setEngine_runMode (g : Engine) : (setEngine g s).runMode = s.runMode := rfl

/-! ### setRx -/

@[simp] theorem setRx_roster (r : RxPath) : (setRx r s).roster = s.roster := rfl
@[simp] theorem setRx_images (r : RxPath) : (setRx r s).images = s.images := rfl
@[simp] theorem setRx_selector (r : RxPath) : (setRx r s).selector = s.selector := rfl
@[simp] theorem setRx_freeze (r : RxPath) : (setRx r s).freeze = s.freeze := rfl
@[simp] theorem setRx_cfg (r : RxPath) : (setRx r s).cfg = s.cfg := rfl
@[simp] theorem setRx_seq (r : RxPath) : (setRx r s).seq = s.seq := rfl
@[simp] theorem setRx_line (r : RxPath) : (setRx r s).line = { s.line with rx := r } := rfl
@[simp] theorem setRx_errand (r : RxPath) : (setRx r s).errand = s.errand := rfl
@[simp] theorem setRx_attn (r : RxPath) : (setRx r s).attn = s.attn := rfl
@[simp] theorem setRx_watches (r : RxPath) : (setRx r s).watches = s.watches := rfl
@[simp] theorem setRx_events (r : RxPath) : (setRx r s).events = s.events := rfl
@[simp] theorem setRx_port (r : RxPath) : (setRx r s).port = s.port := rfl
@[simp] theorem setRx_resetHeld (r : RxPath) : (setRx r s).resetHeld = s.resetHeld := rfl
@[simp] theorem setRx_pending (r : RxPath) : (setRx r s).pending = s.pending := rfl
@[simp] theorem setRx_amid (r : RxPath) : (setRx r s).amid = s.amid := rfl
@[simp] theorem setRx_entry (r : RxPath) (f : EntryIdx) : (setRx r s).entry f = s.entry f := rfl
@[simp] theorem setRx_image (r : RxPath) (f : EntryIdx) : (setRx r s).image f = s.image f := rfl
@[simp] theorem setRx_slot (r : RxPath) (j : SlotIdx) : (setRx r s).slot j = s.slot j := rfl
@[simp] theorem setRx_watch (r : RxPath) (m : WatchIdx) : (setRx r s).watch m = s.watch m := rfl
@[simp] theorem setRx_runMode (r : RxPath) : (setRx r s).runMode = s.runMode := rfl

/-! ### setStaging -/

@[simp] theorem setStaging_roster (g : Staging) : (setStaging g s).roster = s.roster := rfl
@[simp] theorem setStaging_images (g : Staging) : (setStaging g s).images = s.images := rfl
@[simp] theorem setStaging_selector (g : Staging) : (setStaging g s).selector = s.selector := rfl
@[simp] theorem setStaging_freeze (g : Staging) : (setStaging g s).freeze = s.freeze := rfl
@[simp] theorem setStaging_cfg (g : Staging) : (setStaging g s).cfg = s.cfg := rfl
@[simp] theorem setStaging_seq (g : Staging) : (setStaging g s).seq = s.seq := rfl
@[simp] theorem setStaging_line (g : Staging) : (setStaging g s).line = s.line := rfl
@[simp] theorem setStaging_errand (g : Staging) : (setStaging g s).errand = { s.errand with staging := g } := rfl
@[simp] theorem setStaging_attn (g : Staging) : (setStaging g s).attn = s.attn := rfl
@[simp] theorem setStaging_watches (g : Staging) : (setStaging g s).watches = s.watches := rfl
@[simp] theorem setStaging_events (g : Staging) : (setStaging g s).events = s.events := rfl
@[simp] theorem setStaging_port (g : Staging) : (setStaging g s).port = s.port := rfl
@[simp] theorem setStaging_resetHeld (g : Staging) : (setStaging g s).resetHeld = s.resetHeld := rfl
@[simp] theorem setStaging_pending (g : Staging) : (setStaging g s).pending = s.pending := rfl
@[simp] theorem setStaging_amid (g : Staging) : (setStaging g s).amid = s.amid := rfl
@[simp] theorem setStaging_entry (g : Staging) (f : EntryIdx) : (setStaging g s).entry f = s.entry f := rfl
@[simp] theorem setStaging_image (g : Staging) (f : EntryIdx) : (setStaging g s).image f = s.image f := rfl
@[simp] theorem setStaging_slot (g : Staging) (j : SlotIdx) : (setStaging g s).slot j = s.slot j := rfl
@[simp] theorem setStaging_watch (g : Staging) (m : WatchIdx) : (setStaging g s).watch m = s.watch m := rfl
@[simp] theorem setStaging_visit (g : Staging) : (setStaging g s).visit = s.visit := rfl
@[simp] theorem setStaging_calledEntry (g : Staging) : (setStaging g s).calledEntry = s.calledEntry := rfl
@[simp] theorem setStaging_runMode (g : Staging) : (setStaging g s).runMode = s.runMode := rfl

/-! ### setConfig -/

@[simp] theorem setConfig_roster (c : GlobalConfig) : (setConfig c s).roster = s.roster := rfl
@[simp] theorem setConfig_images (c : GlobalConfig) : (setConfig c s).images = s.images := rfl
@[simp] theorem setConfig_selector (c : GlobalConfig) : (setConfig c s).selector = s.selector := rfl
@[simp] theorem setConfig_freeze (c : GlobalConfig) : (setConfig c s).freeze = s.freeze := rfl
@[simp] theorem setConfig_cfg (c : GlobalConfig) : (setConfig c s).cfg = c := rfl
@[simp] theorem setConfig_seq (c : GlobalConfig) : (setConfig c s).seq = s.seq := rfl
@[simp] theorem setConfig_line (c : GlobalConfig) : (setConfig c s).line = s.line := rfl
@[simp] theorem setConfig_errand (c : GlobalConfig) : (setConfig c s).errand = s.errand := rfl
@[simp] theorem setConfig_attn (c : GlobalConfig) : (setConfig c s).attn = s.attn := rfl
@[simp] theorem setConfig_watches (c : GlobalConfig) : (setConfig c s).watches = s.watches := rfl
@[simp] theorem setConfig_events (c : GlobalConfig) : (setConfig c s).events = s.events := rfl
@[simp] theorem setConfig_port (c : GlobalConfig) : (setConfig c s).port = s.port := rfl
@[simp] theorem setConfig_resetHeld (c : GlobalConfig) : (setConfig c s).resetHeld = s.resetHeld := rfl
@[simp] theorem setConfig_pending (c : GlobalConfig) : (setConfig c s).pending = s.pending := rfl
@[simp] theorem setConfig_amid (c : GlobalConfig) : (setConfig c s).amid = s.amid := rfl
@[simp] theorem setConfig_entry (c : GlobalConfig) (f : EntryIdx) : (setConfig c s).entry f = s.entry f := rfl
@[simp] theorem setConfig_image (c : GlobalConfig) (f : EntryIdx) : (setConfig c s).image f = s.image f := rfl
@[simp] theorem setConfig_slot (c : GlobalConfig) (j : SlotIdx) : (setConfig c s).slot j = s.slot j := rfl
@[simp] theorem setConfig_watch (c : GlobalConfig) (m : WatchIdx) : (setConfig c s).watch m = s.watch m := rfl
@[simp] theorem setConfig_visit (c : GlobalConfig) : (setConfig c s).visit = s.visit := rfl
@[simp] theorem setConfig_calledEntry (c : GlobalConfig) : (setConfig c s).calledEntry = s.calledEntry := rfl

/-! ### removeAttention -/

@[simp] theorem removeAttention_roster (e : EntryIdx) : (removeAttention e s).roster = s.roster := rfl
@[simp] theorem removeAttention_images (e : EntryIdx) : (removeAttention e s).images = s.images := rfl
@[simp] theorem removeAttention_selector (e : EntryIdx) : (removeAttention e s).selector = s.selector := rfl
@[simp] theorem removeAttention_freeze (e : EntryIdx) : (removeAttention e s).freeze = s.freeze := rfl
@[simp] theorem removeAttention_cfg (e : EntryIdx) : (removeAttention e s).cfg = s.cfg := rfl
@[simp] theorem removeAttention_seq (e : EntryIdx) : (removeAttention e s).seq = s.seq := rfl
@[simp] theorem removeAttention_line (e : EntryIdx) : (removeAttention e s).line = s.line := rfl
@[simp] theorem removeAttention_errand (e : EntryIdx) : (removeAttention e s).errand = s.errand := rfl
@[simp] theorem removeAttention_attn (e : EntryIdx) : (removeAttention e s).attn = s.attn.remove e := rfl
@[simp] theorem removeAttention_watches (e : EntryIdx) : (removeAttention e s).watches = s.watches := rfl
@[simp] theorem removeAttention_events (e : EntryIdx) : (removeAttention e s).events = s.events := rfl
@[simp] theorem removeAttention_port (e : EntryIdx) : (removeAttention e s).port = s.port := rfl
@[simp] theorem removeAttention_resetHeld (e : EntryIdx) : (removeAttention e s).resetHeld = s.resetHeld := rfl
@[simp] theorem removeAttention_pending (e : EntryIdx) : (removeAttention e s).pending = s.pending := rfl
@[simp] theorem removeAttention_amid (e : EntryIdx) : (removeAttention e s).amid = s.amid := rfl
@[simp] theorem removeAttention_entry (e : EntryIdx) (f : EntryIdx) : (removeAttention e s).entry f = s.entry f := rfl
@[simp] theorem removeAttention_image (e : EntryIdx) (f : EntryIdx) : (removeAttention e s).image f = s.image f := rfl
@[simp] theorem removeAttention_slot (e : EntryIdx) (j : SlotIdx) : (removeAttention e s).slot j = s.slot j := rfl
@[simp] theorem removeAttention_watch (e : EntryIdx) (m : WatchIdx) : (removeAttention e s).watch m = s.watch m := rfl
@[simp] theorem removeAttention_visit (e : EntryIdx) : (removeAttention e s).visit = s.visit := rfl
@[simp] theorem removeAttention_calledEntry (e : EntryIdx) : (removeAttention e s).calledEntry = s.calledEntry := rfl
@[simp] theorem removeAttention_runMode (e : EntryIdx) : (removeAttention e s).runMode = s.runMode := rfl

/-! ### leaveQueue -/

@[simp] theorem leaveQueue_roster (k : SlotIdx) : (leaveQueue k s).roster = s.roster := rfl
@[simp] theorem leaveQueue_images (k : SlotIdx) : (leaveQueue k s).images = s.images := rfl
@[simp] theorem leaveQueue_selector (k : SlotIdx) : (leaveQueue k s).selector = s.selector := rfl
@[simp] theorem leaveQueue_freeze (k : SlotIdx) : (leaveQueue k s).freeze = s.freeze := rfl
@[simp] theorem leaveQueue_cfg (k : SlotIdx) : (leaveQueue k s).cfg = s.cfg := rfl
@[simp] theorem leaveQueue_seq (k : SlotIdx) : (leaveQueue k s).seq = s.seq := rfl
@[simp] theorem leaveQueue_line (k : SlotIdx) : (leaveQueue k s).line = s.line := rfl
@[simp] theorem leaveQueue_errand (k : SlotIdx) :
    (leaveQueue k s).errand = { s.errand with queue := s.errand.queue.filter fun j => decide (j ≠ k) } := rfl
@[simp] theorem leaveQueue_attn (k : SlotIdx) : (leaveQueue k s).attn = s.attn := rfl
@[simp] theorem leaveQueue_watches (k : SlotIdx) : (leaveQueue k s).watches = s.watches := rfl
@[simp] theorem leaveQueue_events (k : SlotIdx) : (leaveQueue k s).events = s.events := rfl
@[simp] theorem leaveQueue_port (k : SlotIdx) : (leaveQueue k s).port = s.port := rfl
@[simp] theorem leaveQueue_resetHeld (k : SlotIdx) : (leaveQueue k s).resetHeld = s.resetHeld := rfl
@[simp] theorem leaveQueue_pending (k : SlotIdx) : (leaveQueue k s).pending = s.pending := rfl
@[simp] theorem leaveQueue_amid (k : SlotIdx) : (leaveQueue k s).amid = s.amid := rfl
@[simp] theorem leaveQueue_entry (k : SlotIdx) (f : EntryIdx) : (leaveQueue k s).entry f = s.entry f := rfl
@[simp] theorem leaveQueue_image (k : SlotIdx) (f : EntryIdx) : (leaveQueue k s).image f = s.image f := rfl
@[simp] theorem leaveQueue_slot (k : SlotIdx) (j : SlotIdx) : (leaveQueue k s).slot j = s.slot j := rfl
@[simp] theorem leaveQueue_watch (k : SlotIdx) (m : WatchIdx) : (leaveQueue k s).watch m = s.watch m := rfl
@[simp] theorem leaveQueue_visit (k : SlotIdx) : (leaveQueue k s).visit = s.visit := rfl
@[simp] theorem leaveQueue_calledEntry (k : SlotIdx) : (leaveQueue k s).calledEntry = s.calledEntry := rfl
@[simp] theorem leaveQueue_runMode (k : SlotIdx) : (leaveQueue k s).runMode = s.runMode := rfl

/-! ### joinQueue -/

@[simp] theorem joinQueue_roster (k : SlotIdx) : (joinQueue k s).roster = s.roster := rfl
@[simp] theorem joinQueue_images (k : SlotIdx) : (joinQueue k s).images = s.images := rfl
@[simp] theorem joinQueue_selector (k : SlotIdx) : (joinQueue k s).selector = s.selector := rfl
@[simp] theorem joinQueue_freeze (k : SlotIdx) : (joinQueue k s).freeze = s.freeze := rfl
@[simp] theorem joinQueue_cfg (k : SlotIdx) : (joinQueue k s).cfg = s.cfg := rfl
@[simp] theorem joinQueue_seq (k : SlotIdx) : (joinQueue k s).seq = s.seq := rfl
@[simp] theorem joinQueue_line (k : SlotIdx) : (joinQueue k s).line = s.line := rfl
@[simp] theorem joinQueue_errand (k : SlotIdx) :
    (joinQueue k s).errand = { s.errand with queue := s.errand.queue ++ [k] } := rfl
@[simp] theorem joinQueue_attn (k : SlotIdx) : (joinQueue k s).attn = s.attn := rfl
@[simp] theorem joinQueue_watches (k : SlotIdx) : (joinQueue k s).watches = s.watches := rfl
@[simp] theorem joinQueue_events (k : SlotIdx) : (joinQueue k s).events = s.events := rfl
@[simp] theorem joinQueue_port (k : SlotIdx) : (joinQueue k s).port = s.port := rfl
@[simp] theorem joinQueue_resetHeld (k : SlotIdx) : (joinQueue k s).resetHeld = s.resetHeld := rfl
@[simp] theorem joinQueue_pending (k : SlotIdx) : (joinQueue k s).pending = s.pending := rfl
@[simp] theorem joinQueue_amid (k : SlotIdx) : (joinQueue k s).amid = s.amid := rfl
@[simp] theorem joinQueue_entry (k : SlotIdx) (f : EntryIdx) : (joinQueue k s).entry f = s.entry f := rfl
@[simp] theorem joinQueue_image (k : SlotIdx) (f : EntryIdx) : (joinQueue k s).image f = s.image f := rfl
@[simp] theorem joinQueue_slot (k : SlotIdx) (j : SlotIdx) : (joinQueue k s).slot j = s.slot j := rfl
@[simp] theorem joinQueue_watch (k : SlotIdx) (m : WatchIdx) : (joinQueue k s).watch m = s.watch m := rfl
@[simp] theorem joinQueue_visit (k : SlotIdx) : (joinQueue k s).visit = s.visit := rfl
@[simp] theorem joinQueue_calledEntry (k : SlotIdx) : (joinQueue k s).calledEntry = s.calledEntry := rfl
@[simp] theorem joinQueue_runMode (k : SlotIdx) : (joinQueue k s).runMode = s.runMode := rfl

/-! ### finishSlot -/

@[simp] theorem finishSlot_roster (k : SlotIdx) (x : Slot) : (finishSlot k x s).roster = s.roster := rfl
@[simp] theorem finishSlot_images (k : SlotIdx) (x : Slot) : (finishSlot k x s).images = s.images := rfl
@[simp] theorem finishSlot_selector (k : SlotIdx) (x : Slot) : (finishSlot k x s).selector = s.selector := rfl
@[simp] theorem finishSlot_freeze (k : SlotIdx) (x : Slot) : (finishSlot k x s).freeze = s.freeze := rfl
@[simp] theorem finishSlot_cfg (k : SlotIdx) (x : Slot) : (finishSlot k x s).cfg = s.cfg := rfl
@[simp] theorem finishSlot_seq (k : SlotIdx) (x : Slot) : (finishSlot k x s).seq = s.seq := rfl
@[simp] theorem finishSlot_line (k : SlotIdx) (x : Slot) : (finishSlot k x s).line = s.line := rfl
@[simp] theorem finishSlot_errand (k : SlotIdx) (x : Slot) :
    (finishSlot k x s).errand = { s.errand with slots := s.errand.slots.set k.val x k.isLt } := rfl
@[simp] theorem finishSlot_attn (k : SlotIdx) (x : Slot) : (finishSlot k x s).attn = s.attn := rfl
@[simp] theorem finishSlot_watches (k : SlotIdx) (x : Slot) : (finishSlot k x s).watches = s.watches := rfl
@[simp] theorem finishSlot_events (k : SlotIdx) (x : Slot) :
    (finishSlot k x s).events = s.events.take s.seq.cycle (errandPost k x) := rfl
@[simp] theorem finishSlot_port (k : SlotIdx) (x : Slot) : (finishSlot k x s).port = s.port := rfl
@[simp] theorem finishSlot_resetHeld (k : SlotIdx) (x : Slot) : (finishSlot k x s).resetHeld = s.resetHeld := rfl
@[simp] theorem finishSlot_pending (k : SlotIdx) (x : Slot) : (finishSlot k x s).pending = s.pending := rfl
@[simp] theorem finishSlot_amid (k : SlotIdx) (x : Slot) : (finishSlot k x s).amid = s.amid := rfl
@[simp] theorem finishSlot_entry (k : SlotIdx) (x : Slot) (f : EntryIdx) :
    (finishSlot k x s).entry f = s.entry f := rfl
@[simp] theorem finishSlot_image (k : SlotIdx) (x : Slot) (f : EntryIdx) :
    (finishSlot k x s).image f = s.image f := rfl
@[simp] theorem finishSlot_watch (k : SlotIdx) (x : Slot) (m : WatchIdx) :
    (finishSlot k x s).watch m = s.watch m := rfl
@[simp] theorem finishSlot_visit (k : SlotIdx) (x : Slot) : (finishSlot k x s).visit = s.visit := rfl
@[simp] theorem finishSlot_calledEntry (k : SlotIdx) (x : Slot) :
    (finishSlot k x s).calledEntry = s.calledEntry := rfl
@[simp] theorem finishSlot_runMode (k : SlotIdx) (x : Slot) : (finishSlot k x s).runMode = s.runMode := rfl

/-! ### completeSlot -/

@[simp] theorem completeSlot_roster (k : SlotIdx) (o : SlotOutcome) : (completeSlot k o s).roster = s.roster := rfl
@[simp] theorem completeSlot_images (k : SlotIdx) (o : SlotOutcome) : (completeSlot k o s).images = s.images := rfl
@[simp] theorem completeSlot_selector (k : SlotIdx) (o : SlotOutcome) :
    (completeSlot k o s).selector = s.selector := rfl
@[simp] theorem completeSlot_freeze (k : SlotIdx) (o : SlotOutcome) : (completeSlot k o s).freeze = s.freeze := rfl
@[simp] theorem completeSlot_cfg (k : SlotIdx) (o : SlotOutcome) : (completeSlot k o s).cfg = s.cfg := rfl
@[simp] theorem completeSlot_seq (k : SlotIdx) (o : SlotOutcome) : (completeSlot k o s).seq = s.seq := rfl
@[simp] theorem completeSlot_line (k : SlotIdx) (o : SlotOutcome) : (completeSlot k o s).line = s.line := rfl
@[simp] theorem completeSlot_errand (k : SlotIdx) (o : SlotOutcome) :
    (completeSlot k o s).errand = { s.errand with slots := s.errand.slots.set k.val ((s.slot k).complete o) k.isLt } :=
  rfl
@[simp] theorem completeSlot_attn (k : SlotIdx) (o : SlotOutcome) : (completeSlot k o s).attn = s.attn := rfl
@[simp] theorem completeSlot_watches (k : SlotIdx) (o : SlotOutcome) : (completeSlot k o s).watches = s.watches := rfl
@[simp] theorem completeSlot_events (k : SlotIdx) (o : SlotOutcome) :
    (completeSlot k o s).events = s.events.take s.seq.cycle (errandPost k ((s.slot k).complete o)) := rfl
@[simp] theorem completeSlot_port (k : SlotIdx) (o : SlotOutcome) : (completeSlot k o s).port = s.port := rfl
@[simp] theorem completeSlot_resetHeld (k : SlotIdx) (o : SlotOutcome) :
    (completeSlot k o s).resetHeld = s.resetHeld := rfl
@[simp] theorem completeSlot_pending (k : SlotIdx) (o : SlotOutcome) : (completeSlot k o s).pending = s.pending := rfl
@[simp] theorem completeSlot_amid (k : SlotIdx) (o : SlotOutcome) : (completeSlot k o s).amid = s.amid := rfl
@[simp] theorem completeSlot_entry (k : SlotIdx) (o : SlotOutcome) (f : EntryIdx) :
    (completeSlot k o s).entry f = s.entry f := rfl
@[simp] theorem completeSlot_image (k : SlotIdx) (o : SlotOutcome) (f : EntryIdx) :
    (completeSlot k o s).image f = s.image f := rfl
@[simp] theorem completeSlot_watch (k : SlotIdx) (o : SlotOutcome) (m : WatchIdx) :
    (completeSlot k o s).watch m = s.watch m := rfl
@[simp] theorem completeSlot_visit (k : SlotIdx) (o : SlotOutcome) : (completeSlot k o s).visit = s.visit := rfl
@[simp] theorem completeSlot_calledEntry (k : SlotIdx) (o : SlotOutcome) :
    (completeSlot k o s).calledEntry = s.calledEntry := rfl
@[simp] theorem completeSlot_runMode (k : SlotIdx) (o : SlotOutcome) : (completeSlot k o s).runMode = s.runMode := rfl

/-! ### advanceAges -/

@[simp] theorem advanceAges_roster : (advanceAges s).roster = s.roster := by rw [advanceAges]
@[simp] theorem advanceAges_selector : (advanceAges s).selector = s.selector := by rw [advanceAges]
@[simp] theorem advanceAges_freeze : (advanceAges s).freeze = s.freeze := by rw [advanceAges]
@[simp] theorem advanceAges_cfg : (advanceAges s).cfg = s.cfg := by rw [advanceAges]
@[simp] theorem advanceAges_seq : (advanceAges s).seq = s.seq := by rw [advanceAges]
@[simp] theorem advanceAges_line : (advanceAges s).line = s.line := by rw [advanceAges]
@[simp] theorem advanceAges_errand : (advanceAges s).errand = s.errand := by rw [advanceAges]
@[simp] theorem advanceAges_attn : (advanceAges s).attn = s.attn := by rw [advanceAges]
@[simp] theorem advanceAges_watches : (advanceAges s).watches = s.watches := by rw [advanceAges]
@[simp] theorem advanceAges_events : (advanceAges s).events = s.events := by rw [advanceAges]
@[simp] theorem advanceAges_port : (advanceAges s).port = s.port := by rw [advanceAges]
@[simp] theorem advanceAges_resetHeld : (advanceAges s).resetHeld = s.resetHeld := by rw [advanceAges]
@[simp] theorem advanceAges_pending : (advanceAges s).pending = s.pending := by rw [advanceAges]
@[simp] theorem advanceAges_amid : (advanceAges s).amid = s.amid := by rw [advanceAges]
@[simp] theorem advanceAges_entry (f : EntryIdx) :
    (advanceAges s).entry f = s.entry f := by simp only [State.entry, advanceAges]
@[simp] theorem advanceAges_slot (j : SlotIdx) :
    (advanceAges s).slot j = s.slot j := by simp only [State.slot, advanceAges]
@[simp] theorem advanceAges_watch (m : WatchIdx) :
    (advanceAges s).watch m = s.watch m := by simp only [State.watch, advanceAges]
@[simp] theorem advanceAges_visit : (advanceAges s).visit = s.visit := by simp only [State.visit, advanceAges]
@[simp] theorem advanceAges_calledEntry :
    (advanceAges s).calledEntry = s.calledEntry := by simp only [State.calledEntry, State.visit, advanceAges]
@[simp] theorem advanceAges_runMode : (advanceAges s).runMode = s.runMode := by simp only [State.runMode, advanceAges]

/-! ### clearCommitMarks -/

@[simp] theorem clearCommitMarks_roster : (clearCommitMarks s).roster = s.roster := by rw [clearCommitMarks]
@[simp] theorem clearCommitMarks_selector : (clearCommitMarks s).selector = s.selector := by rw [clearCommitMarks]
@[simp] theorem clearCommitMarks_freeze : (clearCommitMarks s).freeze = s.freeze := by rw [clearCommitMarks]
@[simp] theorem clearCommitMarks_cfg : (clearCommitMarks s).cfg = s.cfg := by rw [clearCommitMarks]
@[simp] theorem clearCommitMarks_seq : (clearCommitMarks s).seq = s.seq := by rw [clearCommitMarks]
@[simp] theorem clearCommitMarks_line : (clearCommitMarks s).line = s.line := by rw [clearCommitMarks]
@[simp] theorem clearCommitMarks_errand : (clearCommitMarks s).errand = s.errand := by rw [clearCommitMarks]
@[simp] theorem clearCommitMarks_attn : (clearCommitMarks s).attn = s.attn := by rw [clearCommitMarks]
@[simp] theorem clearCommitMarks_watches : (clearCommitMarks s).watches = s.watches := by rw [clearCommitMarks]
@[simp] theorem clearCommitMarks_events : (clearCommitMarks s).events = s.events := by rw [clearCommitMarks]
@[simp] theorem clearCommitMarks_port : (clearCommitMarks s).port = s.port := by rw [clearCommitMarks]
@[simp] theorem clearCommitMarks_resetHeld : (clearCommitMarks s).resetHeld = s.resetHeld := by rw [clearCommitMarks]
@[simp] theorem clearCommitMarks_pending : (clearCommitMarks s).pending = s.pending := by rw [clearCommitMarks]
@[simp] theorem clearCommitMarks_amid : (clearCommitMarks s).amid = s.amid := by rw [clearCommitMarks]
@[simp] theorem clearCommitMarks_entry (f : EntryIdx) :
    (clearCommitMarks s).entry f = s.entry f := by simp only [State.entry, clearCommitMarks]
@[simp] theorem clearCommitMarks_slot (j : SlotIdx) :
    (clearCommitMarks s).slot j = s.slot j := by simp only [State.slot, clearCommitMarks]
@[simp] theorem clearCommitMarks_watch (m : WatchIdx) :
    (clearCommitMarks s).watch m = s.watch m := by simp only [State.watch, clearCommitMarks]
@[simp] theorem clearCommitMarks_visit :
    (clearCommitMarks s).visit = s.visit := by simp only [State.visit, clearCommitMarks]
@[simp] theorem clearCommitMarks_calledEntry :
    (clearCommitMarks s).calledEntry = s.calledEntry :=
  by simp only [State.calledEntry, State.visit, clearCommitMarks]
@[simp] theorem clearCommitMarks_runMode :
    (clearCommitMarks s).runMode = s.runMode := by simp only [State.runMode, clearCommitMarks]

/-! ### accessFault -/

@[simp] theorem accessFault_roster (o : Offset) (c : AccessCause) : (accessFault o c s).roster = s.roster := rfl
@[simp] theorem accessFault_images (o : Offset) (c : AccessCause) : (accessFault o c s).images = s.images := rfl
@[simp] theorem accessFault_selector (o : Offset) (c : AccessCause) : (accessFault o c s).selector = s.selector := rfl
@[simp] theorem accessFault_freeze (o : Offset) (c : AccessCause) : (accessFault o c s).freeze = s.freeze := rfl
@[simp] theorem accessFault_cfg (o : Offset) (c : AccessCause) : (accessFault o c s).cfg = s.cfg := rfl
@[simp] theorem accessFault_seq (o : Offset) (c : AccessCause) : (accessFault o c s).seq = s.seq := rfl
@[simp] theorem accessFault_line (o : Offset) (c : AccessCause) : (accessFault o c s).line = s.line := rfl
@[simp] theorem accessFault_errand (o : Offset) (c : AccessCause) : (accessFault o c s).errand = s.errand := rfl
@[simp] theorem accessFault_attn (o : Offset) (c : AccessCause) : (accessFault o c s).attn = s.attn := rfl
@[simp] theorem accessFault_watches (o : Offset) (c : AccessCause) : (accessFault o c s).watches = s.watches := rfl
@[simp] theorem accessFault_events (o : Offset) (c : AccessCause) : (accessFault o c s).events = s.events := rfl
@[simp] theorem accessFault_port (o : Offset) (c : AccessCause) : (accessFault o c s).port = s.port.refuse o c := rfl
@[simp] theorem accessFault_resetHeld (o : Offset) (c : AccessCause) :
    (accessFault o c s).resetHeld = s.resetHeld := rfl
@[simp] theorem accessFault_pending (o : Offset) (c : AccessCause) : (accessFault o c s).pending = s.pending := rfl
@[simp] theorem accessFault_amid (o : Offset) (c : AccessCause) : (accessFault o c s).amid = s.amid := rfl
@[simp] theorem accessFault_entry (o : Offset) (c : AccessCause) (f : EntryIdx) :
    (accessFault o c s).entry f = s.entry f := rfl
@[simp] theorem accessFault_image (o : Offset) (c : AccessCause) (f : EntryIdx) :
    (accessFault o c s).image f = s.image f := rfl
@[simp] theorem accessFault_slot (o : Offset) (c : AccessCause) (j : SlotIdx) :
    (accessFault o c s).slot j = s.slot j := rfl
@[simp] theorem accessFault_watch (o : Offset) (c : AccessCause) (m : WatchIdx) :
    (accessFault o c s).watch m = s.watch m := rfl
@[simp] theorem accessFault_visit (o : Offset) (c : AccessCause) : (accessFault o c s).visit = s.visit := rfl
@[simp] theorem accessFault_calledEntry (o : Offset) (c : AccessCause) :
    (accessFault o c s).calledEntry = s.calledEntry := rfl
@[simp] theorem accessFault_runMode (o : Offset) (c : AccessCause) : (accessFault o c s).runMode = s.runMode := rfl

/-! ### withdrawVisit -/

@[simp] theorem withdrawVisit_roster (e : EntryIdx) : (withdrawVisit e s).roster = s.roster := rfl
@[simp] theorem withdrawVisit_images (e : EntryIdx) : (withdrawVisit e s).images = s.images := rfl
@[simp] theorem withdrawVisit_selector (e : EntryIdx) : (withdrawVisit e s).selector = s.selector := rfl
@[simp] theorem withdrawVisit_freeze (e : EntryIdx) : (withdrawVisit e s).freeze = s.freeze := rfl
@[simp] theorem withdrawVisit_cfg (e : EntryIdx) : (withdrawVisit e s).cfg = s.cfg := rfl
@[simp] theorem withdrawVisit_seq (e : EntryIdx) : (withdrawVisit e s).seq = s.seq := rfl
@[simp] theorem withdrawVisit_line (e : EntryIdx) :
    (withdrawVisit e s).line = { s.line with waiting := s.line.waiting.map (Request.withdraw e) } := rfl
@[simp] theorem withdrawVisit_errand (e : EntryIdx) : (withdrawVisit e s).errand = s.errand := rfl
@[simp] theorem withdrawVisit_attn (e : EntryIdx) : (withdrawVisit e s).attn = s.attn := rfl
@[simp] theorem withdrawVisit_watches (e : EntryIdx) : (withdrawVisit e s).watches = s.watches := rfl
@[simp] theorem withdrawVisit_events (e : EntryIdx) : (withdrawVisit e s).events = s.events := rfl
@[simp] theorem withdrawVisit_port (e : EntryIdx) : (withdrawVisit e s).port = s.port := rfl
@[simp] theorem withdrawVisit_resetHeld (e : EntryIdx) : (withdrawVisit e s).resetHeld = s.resetHeld := rfl
@[simp] theorem withdrawVisit_pending (e : EntryIdx) : (withdrawVisit e s).pending = s.pending := rfl
@[simp] theorem withdrawVisit_amid (e : EntryIdx) : (withdrawVisit e s).amid = s.amid := rfl
@[simp] theorem withdrawVisit_entry (e : EntryIdx) (f : EntryIdx) : (withdrawVisit e s).entry f = s.entry f := rfl
@[simp] theorem withdrawVisit_image (e : EntryIdx) (f : EntryIdx) : (withdrawVisit e s).image f = s.image f := rfl
@[simp] theorem withdrawVisit_slot (e : EntryIdx) (j : SlotIdx) : (withdrawVisit e s).slot j = s.slot j := rfl
@[simp] theorem withdrawVisit_watch (e : EntryIdx) (m : WatchIdx) : (withdrawVisit e s).watch m = s.watch m := rfl
@[simp] theorem withdrawVisit_runMode (e : EntryIdx) : (withdrawVisit e s).runMode = s.runMode := rfl

/-! ### countPick -/

@[simp] theorem countPick_roster (u : Turn) : (countPick u s).roster = s.roster := rfl
@[simp] theorem countPick_images (u : Turn) : (countPick u s).images = s.images := rfl
@[simp] theorem countPick_selector (u : Turn) : (countPick u s).selector = s.selector := rfl
@[simp] theorem countPick_freeze (u : Turn) : (countPick u s).freeze = s.freeze := rfl
@[simp] theorem countPick_cfg (u : Turn) : (countPick u s).cfg = s.cfg := rfl
@[simp] theorem countPick_seq (u : Turn) :
    (countPick u s).seq = { s.seq with transactions := s.seq.transactions + 1 } := rfl
@[simp] theorem countPick_line (u : Turn) : (countPick u s).line = s.line := rfl
@[simp] theorem countPick_errand (u : Turn) :
    (countPick u s).errand = { s.errand with budgetLeft := s.errand.budgetLeft - 1, turn := u } := rfl
@[simp] theorem countPick_attn (u : Turn) : (countPick u s).attn = s.attn := rfl
@[simp] theorem countPick_watches (u : Turn) : (countPick u s).watches = s.watches := rfl
@[simp] theorem countPick_events (u : Turn) : (countPick u s).events = s.events := rfl
@[simp] theorem countPick_port (u : Turn) : (countPick u s).port = s.port := rfl
@[simp] theorem countPick_resetHeld (u : Turn) : (countPick u s).resetHeld = s.resetHeld := rfl
@[simp] theorem countPick_pending (u : Turn) : (countPick u s).pending = s.pending := rfl
@[simp] theorem countPick_amid (u : Turn) : (countPick u s).amid = s.amid := rfl
@[simp] theorem countPick_entry (u : Turn) (f : EntryIdx) : (countPick u s).entry f = s.entry f := rfl
@[simp] theorem countPick_image (u : Turn) (f : EntryIdx) : (countPick u s).image f = s.image f := rfl
@[simp] theorem countPick_slot (u : Turn) (j : SlotIdx) : (countPick u s).slot j = s.slot j := rfl
@[simp] theorem countPick_watch (u : Turn) (m : WatchIdx) : (countPick u s).watch m = s.watch m := rfl
@[simp] theorem countPick_visit (u : Turn) : (countPick u s).visit = s.visit := rfl
@[simp] theorem countPick_calledEntry (u : Turn) : (countPick u s).calledEntry = s.calledEntry := rfl
@[simp] theorem countPick_runMode (u : Turn) : (countPick u s).runMode = s.runMode := rfl

/-! ### becomeWaiting -/

@[simp] theorem becomeWaiting_roster : (becomeWaiting s).roster = s.roster := rfl
@[simp] theorem becomeWaiting_images : (becomeWaiting s).images = s.images := rfl
@[simp] theorem becomeWaiting_selector : (becomeWaiting s).selector = s.selector := rfl
@[simp] theorem becomeWaiting_freeze : (becomeWaiting s).freeze = s.freeze := rfl
@[simp] theorem becomeWaiting_cfg : (becomeWaiting s).cfg = s.cfg := rfl
@[simp] theorem becomeWaiting_seq : (becomeWaiting s).seq = { s.seq with state := .waiting, phase := .none } := rfl
@[simp] theorem becomeWaiting_line : (becomeWaiting s).line = s.line := rfl
@[simp] theorem becomeWaiting_errand : (becomeWaiting s).errand = s.errand := rfl
@[simp] theorem becomeWaiting_attn : (becomeWaiting s).attn = s.attn := rfl
@[simp] theorem becomeWaiting_watches : (becomeWaiting s).watches = s.watches := rfl
@[simp] theorem becomeWaiting_events : (becomeWaiting s).events = s.events := rfl
@[simp] theorem becomeWaiting_port : (becomeWaiting s).port = s.port := rfl
@[simp] theorem becomeWaiting_resetHeld : (becomeWaiting s).resetHeld = s.resetHeld := rfl
@[simp] theorem becomeWaiting_pending : (becomeWaiting s).pending = s.pending := rfl
@[simp] theorem becomeWaiting_amid : (becomeWaiting s).amid = s.amid := rfl
@[simp] theorem becomeWaiting_entry (f : EntryIdx) : (becomeWaiting s).entry f = s.entry f := rfl
@[simp] theorem becomeWaiting_image (f : EntryIdx) : (becomeWaiting s).image f = s.image f := rfl
@[simp] theorem becomeWaiting_slot (j : SlotIdx) : (becomeWaiting s).slot j = s.slot j := rfl
@[simp] theorem becomeWaiting_watch (m : WatchIdx) : (becomeWaiting s).watch m = s.watch m := rfl
@[simp] theorem becomeWaiting_visit : (becomeWaiting s).visit = s.visit := rfl
@[simp] theorem becomeWaiting_calledEntry : (becomeWaiting s).calledEntry = s.calledEntry := rfl
@[simp] theorem becomeWaiting_runMode : (becomeWaiting s).runMode = s.runMode := rfl

/-! ### Rows of the tables -/

@[simp] theorem entry_setEntry (s : State) (e f : EntryIdx) (x : Entry) :
    (s.setEntry e x).entry f = if f = e then x else s.entry f := by
  simp [State.entry, State.setEntry, Vector.getElem_set, Fin.ext_iff, eq_comm]

@[simp] theorem image_setImage (s : State) (e f : EntryIdx) (x : Image) :
    (s.setImage e x).image f = if f = e then x else s.image f := by
  simp [State.image, State.setImage, Vector.getElem_set, Fin.ext_iff, eq_comm]

@[simp] theorem slot_setSlot (s : State) (k j : SlotIdx) (x : Slot) :
    (s.setSlot k x).slot j = if j = k then x else s.slot j := by
  simp [State.slot, State.setSlot, Vector.getElem_set, Fin.ext_iff, eq_comm]

@[simp] theorem watch_setWatch (s : State) (n m : WatchIdx) (x : Watch) :
    (s.setWatch n x).watch m = if m = n then x else s.watch m := by
  simp [State.watch, State.setWatch, Vector.getElem_set, Fin.ext_iff, eq_comm]

@[simp] theorem slot_finishSlot (s : State) (k j : SlotIdx) (x : Slot) :
    (finishSlot k x s).slot j = if j = k then x else s.slot j := slot_setSlot s k j x

@[simp] theorem slot_completeSlot (s : State) (k j : SlotIdx) (o : SlotOutcome) :
    (completeSlot k o s).slot j = if j = k then (s.slot k).complete o else s.slot j := slot_setSlot s k j _

@[simp] theorem image_advanceAges (s : State) (e : EntryIdx) :
    (advanceAges s).image e = (s.image e).advanceAge (s.entry e).link := by
  simp [State.image, advanceAges, State.entry]

@[simp] theorem image_clearCommitMarks (s : State) (e : EntryIdx) :
    (clearCommitMarks s).image e = { s.image e with commitMark := false } := by
  simp [State.image, clearCommitMarks]

@[simp] theorem watch_forgetWatches (s : State) (e : EntryIdx) (n : WatchIdx) :
    (forgetWatches e s).watch n =
      if (s.watch n).armed = true ∧ (s.watch n).entry = BitVec.ofNat 8 e then (s.watch n).forget else s.watch n := by
  simp only [State.watch, forgetWatches, Fin.getElem_fin, Vector.getElem_map, Bool.and_eq_true, decide_eq_true_eq]
  congr

/-- Two states with equal fields are equal. -/
theorem State.eq_of_fields {s t : State} (h1 : s.roster = t.roster) (h2 : s.images = t.images)
    (h3 : s.selector = t.selector) (h4 : s.freeze = t.freeze) (h5 : s.cfg = t.cfg) (h6 : s.seq = t.seq)
    (h7 : s.line = t.line) (h8 : s.errand = t.errand) (h9 : s.attn = t.attn) (h10 : s.watches = t.watches)
    (h11 : s.events = t.events) (h12 : s.port = t.port) (h13 : s.resetHeld = t.resetHeld)
    (h14 : s.pending = t.pending) (h15 : s.amid = t.amid) : s = t := by
  cases s; cases t; simp_all

/-- Two errand units with equal fields are equal. -/
theorem ErrandUnit.eq_of_fields {u w : ErrandUnit} (h1 : u.slots = w.slots) (h2 : u.queue = w.queue)
    (h3 : u.staging = w.staging) (h4 : u.turn = w.turn) (h5 : u.budget = w.budget)
    (h6 : u.budgetLeft = w.budgetLeft) : u = w := by
  cases u; cases w; simp_all

/-- A table is known by its rows. -/
theorem roster_ext {s t : State} (h : ∀ e, s.entry e = t.entry e) : s.roster = t.roster :=
  Vector.ext fun i hi => h ⟨i, hi⟩

theorem images_ext {s t : State} (h : ∀ e, s.image e = t.image e) : s.images = t.images :=
  Vector.ext fun i hi => h ⟨i, hi⟩

theorem watches_ext {s t : State} (h : ∀ n, s.watch n = t.watch n) : s.watches = t.watches :=
  Vector.ext fun i hi => h ⟨i, hi⟩

theorem slots_ext {s t : State} (h : ∀ k, s.slot k = t.slot k) : s.errand.slots = t.errand.slots :=
  Vector.ext fun i hi => h ⟨i, hi⟩

end Sys2Proof.Machine
end

