-- ==== Sys2Proof/Laws/Abandon.lean ====
section
/-! SUPPORT. What an abandonment does (R16, R51, R78, R120), field by field: the line, the entry of the visit, the ACTIVE
slot, and nothing else. -/

namespace Sys2Proof.Machine

/-! ### The line and the entry of the visit -/

theorem applyAbandon_cases (e : EntryIdx) (k : CallKind) (s : State) :
    applyAbandon e k s = s
      ∨ ((s.entry e).link ≠ .off ∧ applyAbandon e k s = s.setEntry e { s.entry e with resync := true }) := by
  unfold applyAbandon
  dsimp only
  split
  · rename_i h
    simp only [Bool.and_eq_true] at h
    exact .inr ⟨of_decide_eq_true h.2, rfl⟩
  · exact .inl rfl

/-- An abandonment ends the call and the waiting try, and then marks at most one entry. -/
theorem abandonLine_cases (s : State) :
    let t := s.setLine { s.line with engine := s.line.engine.abandon s.txByte, job := none, waiting := none }
    abandonLine s = t
      ∨ ∃ e, (s.entry e).link ≠ .off ∧ abandonLine s = t.setEntry e { s.entry e with resync := true } := by
  unfold abandonLine
  dsimp only
  split
  · rename_i v _
    rcases applyAbandon_cases v.entry v.kind
      (s.setLine { s.line with engine := s.line.engine.abandon s.txByte, job := none, waiting := none }) with h | ⟨h1, h2⟩
    · exact .inl h
    · exact .inr ⟨v.entry, h1, h2⟩
  · exact .inl rfl

@[simp] theorem abandonLine_images (s : State) : (abandonLine s).images = s.images := by
  rcases abandonLine_cases s with h | ⟨e, _, h⟩ <;> rw [h] <;> rfl

@[simp] theorem abandonLine_selector (s : State) : (abandonLine s).selector = s.selector := by
  rcases abandonLine_cases s with h | ⟨e, _, h⟩ <;> rw [h] <;> rfl

@[simp] theorem abandonLine_freeze (s : State) : (abandonLine s).freeze = s.freeze := by
  rcases abandonLine_cases s with h | ⟨e, _, h⟩ <;> rw [h] <;> rfl

@[simp] theorem abandonLine_cfg (s : State) : (abandonLine s).cfg = s.cfg := by
  rcases abandonLine_cases s with h | ⟨e, _, h⟩ <;> rw [h] <;> rfl

@[simp] theorem abandonLine_seq (s : State) : (abandonLine s).seq = s.seq := by
  rcases abandonLine_cases s with h | ⟨e, _, h⟩ <;> rw [h] <;> rfl

@[simp] theorem abandonLine_errand (s : State) : (abandonLine s).errand = s.errand := by
  rcases abandonLine_cases s with h | ⟨e, _, h⟩ <;> rw [h] <;> rfl

@[simp] theorem abandonLine_attn (s : State) : (abandonLine s).attn = s.attn := by
  rcases abandonLine_cases s with h | ⟨e, _, h⟩ <;> rw [h] <;> rfl

@[simp] theorem abandonLine_watches (s : State) : (abandonLine s).watches = s.watches := by
  rcases abandonLine_cases s with h | ⟨e, _, h⟩ <;> rw [h] <;> rfl

@[simp] theorem abandonLine_events (s : State) : (abandonLine s).events = s.events := by
  rcases abandonLine_cases s with h | ⟨e, _, h⟩ <;> rw [h] <;> rfl

@[simp] theorem abandonLine_port (s : State) : (abandonLine s).port = s.port := by
  rcases abandonLine_cases s with h | ⟨e, _, h⟩ <;> rw [h] <;> rfl

@[simp] theorem abandonLine_resetHeld (s : State) : (abandonLine s).resetHeld = s.resetHeld := by
  rcases abandonLine_cases s with h | ⟨e, _, h⟩ <;> rw [h] <;> rfl

@[simp] theorem abandonLine_pending (s : State) : (abandonLine s).pending = s.pending := by
  rcases abandonLine_cases s with h | ⟨e, _, h⟩ <;> rw [h] <;> rfl

@[simp] theorem abandonLine_amid (s : State) : (abandonLine s).amid = s.amid := by
  rcases abandonLine_cases s with h | ⟨e, _, h⟩ <;> rw [h] <;> rfl

@[simp] theorem abandonLine_line (s : State) :
    (abandonLine s).line = { s.line with engine := s.line.engine.abandon s.txByte, job := none, waiting := none } := by
  rcases abandonLine_cases s with h | ⟨e, _, h⟩ <;> rw [h] <;> rfl

@[simp] theorem abandonLine_image (s : State) (e : EntryIdx) : (abandonLine s).image e = s.image e := by
  simp only [State.image, abandonLine_images]

@[simp] theorem abandonLine_slot (s : State) (k : SlotIdx) : (abandonLine s).slot k = s.slot k := by
  simp only [State.slot, abandonLine_errand]

@[simp] theorem abandonLine_watch (s : State) (n : WatchIdx) : (abandonLine s).watch n = s.watch n := by
  simp only [State.watch, abandonLine_watches]

/-- The visit in flight leaves its entry in doubt where its kind says so and the entry is not OFF (R16, R10). -/
theorem abandonLine_entry_visit {s : State} {v : Visit} (hv : s.visit = some v)
    (hk : (v.kind.toggled || decide (v.kind = .reset)) = true) (hl : (s.entry v.entry).link ≠ .off) :
    (abandonLine s).entry v.entry = { s.entry v.entry with resync := true } := by
  unfold abandonLine
  simp [hv, applyAbandon, hk, hl]

/-- Every other entry is as it was. -/
theorem abandonLine_entry_other {s : State} {e : EntryIdx}
    (h : ∀ v, s.visit = some v → v.entry = e →
      (v.kind.toggled || decide (v.kind = .reset)) = false ∨ (s.entry e).link = .off) :
    (abandonLine s).entry e = s.entry e := by
  unfold abandonLine
  dsimp only
  split
  · rename_i v hv
    by_cases he : v.entry = e
    · subst he
      have hc := h v hv rfl
      have hn : ((v.kind.toggled || decide (v.kind = .reset)) && decide ((s.entry v.entry).link ≠ .off)) = false := by
        rcases hc with h1 | h1 <;> simp [h1]
      unfold applyAbandon
      dsimp only
      rw [if_neg]
      · rfl
      · exact fun h => Bool.false_ne_true (hn.symm.trans h)
    · unfold applyAbandon
      dsimp only
      split <;> simp [Ne.symm he]
  · rfl

/-- An entry after an abandonment is as it was, or in doubt. -/
theorem abandonLine_entry_cases (s : State) (e : EntryIdx) :
    (abandonLine s).entry e = s.entry e
      ∨ ((s.entry e).link ≠ .off ∧ (abandonLine s).entry e = { s.entry e with resync := true }) := by
  rcases abandonLine_cases s with h | ⟨f, hf, h⟩ <;> rw [h]
  · exact .inl rfl
  · by_cases he : e = f
    · subst he; exact .inr ⟨hf, by simp⟩
    · exact .inl (by simp [he])

/-! ### The ACTIVE slot -/

theorem abortSlot_slot (s : State) (k j : SlotIdx) :
    (abortSlot s k).slot j =
      if j = k ∧ (s.slot k).state = .active then (s.slot k).complete .aborted else s.slot j := by
  unfold abortSlot
  split <;> rename_i h <;> by_cases hj : j = k <;> simp [h, hj]

/-- A property that each slot's completion keeps is kept by all of them. -/
theorem abortActive_keeps {P : State → Prop} (h : ∀ s k, P s → P (completeSlot k .aborted s)) {s : State} (hs : P s) :
    P (abortActive s) := by
  unfold abortActive
  generalize List.finRange 8 = l
  induction l generalizing s with
  | nil => exact hs
  | cons k rest ih =>
    refine ih ?_
    unfold abortSlot
    split
    · exact h s k hs
    · exact hs

@[simp] theorem abortActive_roster (s : State) : (abortActive s).roster = s.roster :=
  abortActive_keeps (P := fun t => t.roster = s.roster) (fun _ _ h => h) rfl

@[simp] theorem abortActive_images (s : State) : (abortActive s).images = s.images :=
  abortActive_keeps (P := fun t => t.images = s.images) (fun _ _ h => h) rfl

@[simp] theorem abortActive_selector (s : State) : (abortActive s).selector = s.selector :=
  abortActive_keeps (P := fun t => t.selector = s.selector) (fun _ _ h => h) rfl

@[simp] theorem abortActive_freeze (s : State) : (abortActive s).freeze = s.freeze :=
  abortActive_keeps (P := fun t => t.freeze = s.freeze) (fun _ _ h => h) rfl

@[simp] theorem abortActive_cfg (s : State) : (abortActive s).cfg = s.cfg :=
  abortActive_keeps (P := fun t => t.cfg = s.cfg) (fun _ _ h => h) rfl

@[simp] theorem abortActive_seq (s : State) : (abortActive s).seq = s.seq :=
  abortActive_keeps (P := fun t => t.seq = s.seq) (fun _ _ h => h) rfl

@[simp] theorem abortActive_attn (s : State) : (abortActive s).attn = s.attn :=
  abortActive_keeps (P := fun t => t.attn = s.attn) (fun _ _ h => h) rfl

@[simp] theorem abortActive_watches (s : State) : (abortActive s).watches = s.watches :=
  abortActive_keeps (P := fun t => t.watches = s.watches) (fun _ _ h => h) rfl

@[simp] theorem abortActive_port (s : State) : (abortActive s).port = s.port :=
  abortActive_keeps (P := fun t => t.port = s.port) (fun _ _ h => h) rfl

@[simp] theorem abortActive_resetHeld (s : State) : (abortActive s).resetHeld = s.resetHeld :=
  abortActive_keeps (P := fun t => t.resetHeld = s.resetHeld) (fun _ _ h => h) rfl

@[simp] theorem abortActive_pending (s : State) : (abortActive s).pending = s.pending :=
  abortActive_keeps (P := fun t => t.pending = s.pending) (fun _ _ h => h) rfl

@[simp] theorem abortActive_amid (s : State) : (abortActive s).amid = s.amid :=
  abortActive_keeps (P := fun t => t.amid = s.amid) (fun _ _ h => h) rfl

@[simp] theorem abortActive_line (s : State) : (abortActive s).line = s.line :=
  abortActive_keeps (P := fun t => t.line = s.line) (fun _ _ h => h) rfl

@[simp] theorem abortActive_queue (s : State) : (abortActive s).errand.queue = s.errand.queue :=
  abortActive_keeps (P := fun t => t.errand.queue = s.errand.queue) (fun _ _ h => h) rfl

@[simp] theorem abortActive_staging (s : State) : (abortActive s).errand.staging = s.errand.staging :=
  abortActive_keeps (P := fun t => t.errand.staging = s.errand.staging) (fun _ _ h => h) rfl

@[simp] theorem abortActive_turn (s : State) : (abortActive s).errand.turn = s.errand.turn :=
  abortActive_keeps (P := fun t => t.errand.turn = s.errand.turn) (fun _ _ h => h) rfl

@[simp] theorem abortActive_budget (s : State) : (abortActive s).errand.budget = s.errand.budget :=
  abortActive_keeps (P := fun t => t.errand.budget = s.errand.budget) (fun _ _ h => h) rfl

@[simp] theorem abortActive_budgetLeft (s : State) : (abortActive s).errand.budgetLeft = s.errand.budgetLeft :=
  abortActive_keeps (P := fun t => t.errand.budgetLeft = s.errand.budgetLeft) (fun _ _ h => h) rfl

/-- The completions over a run of slot numbers. -/
theorem abortSlots_spec (l : List SlotIdx) (hl : l.Nodup) (s : State) :
    (∀ j, (l.foldl abortSlot s).slot j =
      if j ∈ l ∧ (s.slot j).state = .active then (s.slot j).complete .aborted else s.slot j)
    ∧ ((∀ k ∈ l, (s.slot k).state ≠ .active) → l.foldl abortSlot s = s)
    ∧ (∀ k ∈ l, (∀ j ∈ l, (s.slot j).state = .active ↔ j = k) →
        l.foldl abortSlot s = completeSlot k .aborted s) := by
  induction l generalizing s with
  | nil => exact ⟨fun j => by simp, fun _ => rfl, fun k hk => by simp at hk⟩
  | cons k rest ih =>
    obtain ⟨hk, hr⟩ := List.nodup_cons.1 hl
    obtain ⟨h1, h2, h3⟩ := ih hr (abortSlot s k)
    refine ⟨fun j => ?_, fun hn => ?_, fun i hi ho => ?_⟩
    · rw [List.foldl_cons, h1 j, abortSlot_slot]
      by_cases hj : j = k
      · subst hj
        by_cases ha : (s.slot j).state = .active <;> simp [hk, ha]
      · simp [hj]
    · have hs : abortSlot s k = s := if_neg (hn k List.mem_cons_self)
      rw [hs] at h2
      rw [List.foldl_cons, hs]
      exact h2 fun j hj => hn j (List.mem_cons_of_mem _ hj)
    · rw [List.foldl_cons]
      by_cases hik : i = k
      · subst hik
        have hs : abortSlot s i = completeSlot i .aborted s := if_pos ((ho i hi).2 rfl)
        rw [h2, hs]
        intro j hj
        have hji : j ≠ i := fun h => hk (h ▸ hj)
        rw [abortSlot_slot]
        simp only [hji, false_and, if_false]
        exact fun h => hji ((ho j (List.mem_cons_of_mem _ hj)).1 h)
      · have hs : abortSlot s k = s :=
          if_neg fun h => hik ((ho k List.mem_cons_self).1 h).symm
        rw [hs] at h3 ⊢
        exact h3 i ((List.mem_cons.1 hi).resolve_left hik) fun j hj => ho j (List.mem_cons_of_mem _ hj)

/-- Every ACTIVE slot is DONE with ABORTED, and no other slot changes (R120). -/
theorem abortActive_slot (s : State) (j : SlotIdx) :
    (abortActive s).slot j =
      if (s.slot j).state = .active then (s.slot j).complete .aborted else s.slot j := by
  unfold abortActive
  rw [(abortSlots_spec (List.finRange 8) (List.nodup_finRange 8) s).1 j]
  simp [List.mem_finRange]

theorem abortActive_none {s : State} (h : ∀ k, (s.slot k).state ≠ .active) : abortActive s = s :=
  (abortSlots_spec (List.finRange 8) (List.nodup_finRange 8) s).2.1 fun k _ => h k

theorem abortActive_one {s : State} {k : SlotIdx} (h : ∀ j, (s.slot j).state = .active ↔ j = k) :
    abortActive s = completeSlot k .aborted s :=
  (abortSlots_spec (List.finRange 8) (List.nodup_finRange 8) s).2.2 k (List.mem_finRange k) fun j _ => h j

/-! ### Both together (R51) -/

@[simp] theorem abandon_images (s : State) : (abandon s).images = s.images := by
  simp [abandon]

@[simp] theorem abandon_selector (s : State) : (abandon s).selector = s.selector := by
  simp [abandon]

@[simp] theorem abandon_freeze (s : State) : (abandon s).freeze = s.freeze := by
  simp [abandon]

@[simp] theorem abandon_cfg (s : State) : (abandon s).cfg = s.cfg := by
  simp [abandon]

@[simp] theorem abandon_seq (s : State) : (abandon s).seq = s.seq := by
  simp [abandon]

@[simp] theorem abandon_watches (s : State) : (abandon s).watches = s.watches := by
  simp [abandon]

@[simp] theorem abandon_port (s : State) : (abandon s).port = s.port := by
  simp [abandon]

@[simp] theorem abandon_resetHeld (s : State) : (abandon s).resetHeld = s.resetHeld := by
  simp [abandon]

@[simp] theorem abandon_pending (s : State) : (abandon s).pending = s.pending := by
  simp [abandon]

@[simp] theorem abandon_amid (s : State) : (abandon s).amid = s.amid := by
  simp [abandon]

@[simp] theorem abandon_queue (s : State) : (abandon s).errand.queue = s.errand.queue := by
  simp [abandon]

@[simp] theorem abandon_staging (s : State) : (abandon s).errand.staging = s.errand.staging := by
  simp [abandon]

@[simp] theorem abandon_turn (s : State) : (abandon s).errand.turn = s.errand.turn := by
  simp [abandon]

@[simp] theorem abandon_budget (s : State) : (abandon s).errand.budget = s.errand.budget := by
  simp [abandon]

@[simp] theorem abandon_budgetLeft (s : State) : (abandon s).errand.budgetLeft = s.errand.budgetLeft := by
  simp [abandon]

@[simp] theorem abandon_attn (s : State) : (abandon s).attn = { s.attn with mark := none } := by
  simp [abandon]

@[simp] theorem abandon_line (s : State) :
    (abandon s).line = { s.line with engine := s.line.engine.abandon s.txByte, job := none, waiting := none } := by
  simp [abandon]

theorem abandon_slot (s : State) (j : SlotIdx) :
    (abandon s).slot j = if (s.slot j).state = .active then (s.slot j).complete .aborted else s.slot j := by
  simp [abandon, abortActive_slot]

theorem abandon_entry (s : State) (e : EntryIdx) : (abandon s).entry e = (abandonLine s).entry e := by
  simp [abandon, State.entry]

theorem abandon_events_none {s : State} (h : ∀ k, (s.slot k).state ≠ .active) : (abandon s).events = s.events := by
  have h' : ∀ k, ((abandonLine s).slot k).state ≠ .active := by simpa using h
  simp [abandon, abortActive_none h']

theorem abandon_events_one {s : State} {k : SlotIdx} (h : ∀ j, (s.slot j).state = .active ↔ j = k) :
    (abandon s).events = s.events.take s.seq.cycle (errandPost k ((s.slot k).complete .aborted)) := by
  have h' : ∀ j, ((abandonLine s).slot j).state = .active ↔ j = k := by simpa using h
  simp [abandon, abortActive_one h']

end Sys2Proof.Machine
end

