-- ==== Sys2Proof/Laws/Exec.lean ====
section
/-! SUPPORT. What each row does to a part whose reset input is high, one equation per row, and the host port after a
command word write. -/

namespace Sys2Proof.Machine

variable {s : State}

/-- While the reset input is high a row acts. -/
theorem whenLive_live (f : State → State) (h : s.resetHeld = false) : whenLive f s = f s := by simp [whenLive, h]

/-- While the reset input is low it does not (R177). -/
theorem whenLive_held (f : State → State) (h : s.resetHeld = true) : whenLive f s = s := by simp [whenLive, h]

/-- A command that gives only an outcome leaves the command result word, and the state it names (R170, R171). -/
theorem issue_only {run : State → Reply} {t : State} {o : CmdOutcome} (h : run s = .only t o) :
    issue run s = t.setPort { t.port with outcome := o, value := 0#8, count := t.port.count + 1#8 } := by
  simp [issue, h, Reply.only, HostPort.result]

/-- A command with a value leaves it beside the outcome (R170, R171). -/
theorem issue_reply {run : State → Reply} {t : State} {o : CmdOutcome} {v : Byte}
    (h : run s = { state := t, outcome := o, value := v }) :
    issue run s = t.setPort { t.port with outcome := o, value := v, count := t.port.count + 1#8 } := by
  simp [issue, h, HostPort.result]

/-- While the reset input is low every row but the two of the reset input itself changes nothing (R177). -/
theorem exec_held {c : Instr} (h : s.resetHeld = true) (h1 : c ≠ .hardwareReset) (h2 : c ≠ .resetRelease) :
    exec c s = .next s := by
  cases c <;> first
    | exact absurd rfl h1
    | exact absurd rfl h2
    | exact congrArg Host.Outcome.next (whenLive_held _ h)

/-! ### The rows -/

theorem exec_start (h : s.resetHeld = false) : exec .start s = .next (issue runStart s) :=
  congrArg Host.Outcome.next (whenLive_live _ h)

theorem exec_stop (h : s.resetHeld = false) : exec .stop s = .next (issue runStop s) :=
  congrArg Host.Outcome.next (whenLive_live _ h)

theorem exec_halt (h : s.resetHeld = false) : exec .halt s = .next (issue runHalt s) :=
  congrArg Host.Outcome.next (whenLive_live _ h)

theorem exec_release (h : s.resetHeld = false) : exec .release s = .next (issue runRelease s) :=
  congrArg Host.Outcome.next (whenLive_live _ h)

theorem exec_enable (h : s.resetHeld = false) : exec .enable s = .next (issue runEnable s) :=
  congrArg Host.Outcome.next (whenLive_live _ h)

theorem exec_disable (h : s.resetHeld = false) : exec .disable s = .next (issue runDisable s) :=
  congrArg Host.Outcome.next (whenLive_live _ h)

theorem exec_commit (h : s.resetHeld = false) : exec .commit s = .next (issue runCommit s) :=
  congrArg Host.Outcome.next (whenLive_live _ h)

theorem exec_freeze (h : s.resetHeld = false) : exec .freeze s = .next (issue runFreeze s) :=
  congrArg Host.Outcome.next (whenLive_live _ h)

theorem exec_pop (h : s.resetHeld = false) : exec .pop s = .next (issue runPop s) :=
  congrArg Host.Outcome.next (whenLive_live _ h)

theorem exec_submit (h : s.resetHeld = false) : exec .submit s = .next (issue runSubmit s) :=
  congrArg Host.Outcome.next (whenLive_live _ h)

theorem exec_cancel (h : s.resetHeld = false) : exec .cancel s = .next (issue runCancel s) :=
  congrArg Host.Outcome.next (whenLive_live _ h)

theorem exec_releaseSlot (h : s.resetHeld = false) : exec .releaseSlot s = .next (issue runReleaseSlot s) :=
  congrArg Host.Outcome.next (whenLive_live _ h)

theorem exec_armWatch (h : s.resetHeld = false) : exec .armWatch s = .next (issue runArmWatch s) :=
  congrArg Host.Outcome.next (whenLive_live _ h)

theorem exec_disarmWatch (h : s.resetHeld = false) : exec .disarmWatch s = .next (issue runDisarmWatch s) :=
  congrArg Host.Outcome.next (whenLive_live _ h)

theorem exec_clearCounters (h : s.resetHeld = false) : exec .clearCounters s = .next (issue runClearCounters s) :=
  congrArg Host.Outcome.next (whenLive_live _ h)

theorem exec_clearFault (h : s.resetHeld = false) : exec .clearFault s = .next (issue runClearFault s) :=
  congrArg Host.Outcome.next (whenLive_live _ h)

theorem exec_softReset (h : s.resetHeld = false) : exec .softReset s = .next (issue runSoftReset s) :=
  congrArg Host.Outcome.next (whenLive_live _ h)

theorem exec_unknownCommandCode (w : Word) (h : s.resetHeld = false) : exec (.unknownCommandCode w) s = .next (commandWrite w s) :=
  congrArg Host.Outcome.next (whenLive_live _ h)

theorem exec_setPort (m : Word) (h : s.resetHeld = false) : exec (.setPort m) s = .next (portWrite .set m s) :=
  congrArg Host.Outcome.next (whenLive_live _ h)

theorem exec_clearPort (m : Word) (h : s.resetHeld = false) : exec (.clearPort m) s = .next (portWrite .clear m s) :=
  congrArg Host.Outcome.next (whenLive_live _ h)

theorem exec_flipPort (m : Word) (h : s.resetHeld = false) : exec (.flipPort m) s = .next (portWrite .flip m s) :=
  congrArg Host.Outcome.next (whenLive_live _ h)

theorem exec_hostWrite (o : Offset) (v : Word) (h : s.resetHeld = false) : exec (.hostWrite o v) s = .next (hostWrite o v s) :=
  congrArg Host.Outcome.next (whenLive_live _ h)

theorem exec_periodTimerExpiry (h : s.resetHeld = false) : exec .periodTimerExpiry s = .next (periodExpiry s) :=
  congrArg Host.Outcome.next (whenLive_live _ h)

theorem exec_freeMinimumExpiry (h : s.resetHeld = false) : exec .freeMinimumExpiry s = .next (freeMinimum s) :=
  congrArg Host.Outcome.next (whenLive_live _ h)

theorem exec_cycPulseEnd (h : s.resetHeld = false) : exec .cycPulseEnd s = .next (endCycPulse s) :=
  congrArg Host.Outcome.next (whenLive_live _ h)

theorem exec_callByteEcho (x : Echo) (h : s.resetHeld = false) : exec (.callByteEcho x) s = .next (callEcho x s) :=
  congrArg Host.Outcome.next (whenLive_live _ h)

theorem exec_callSent (h : s.resetHeld = false) : exec .callSent s = .next (callEnd s) :=
  congrArg Host.Outcome.next (whenLive_live _ h)

theorem exec_callRemainderEnd (h : s.resetHeld = false) : exec .callRemainderEnd s = .next (remainderEnd s) :=
  congrArg Host.Outcome.next (whenLive_live _ h)

theorem exec_answerByte (b : Byte) (f : Bool) (h : s.resetHeld = false) : exec (.answerByte b f) s = .next (answer b f s) :=
  congrArg Host.Outcome.next (whenLive_live _ h)

theorem exec_answerDeadlineExpiry (h : s.resetHeld = false) : exec .answerDeadlineExpiry s = .next (deadlinePasses s) :=
  congrArg Host.Outcome.next (whenLive_live _ h)

theorem exec_interByteGapExpiry (h : s.resetHeld = false) : exec .interByteGapExpiry s = .next (gapPasses s) :=
  congrArg Host.Outcome.next (whenLive_live _ h)

theorem exec_strayByte (b : Byte) (f : Bool) (h : s.resetHeld = false) : exec (.strayByte b f) s = .next (strayTaken f s) :=
  congrArg Host.Outcome.next (whenLive_live _ h)

theorem exec_quietGapEnd (h : s.resetHeld = false) : exec .quietGapEnd s = .next (gapEnd s) :=
  congrArg Host.Outcome.next (whenLive_live _ h)

theorem exec_rxdFallingEdge (h : s.resetHeld = false) : exec .rxdFallingEdge s = .next (fallingEdge s) :=
  congrArg Host.Outcome.next (whenLive_live _ h)

theorem exec_startBitSample (l : Level) (h : s.resetHeld = false) : exec (.startBitSample l) s = .next (sampleStart l s) :=
  congrArg Host.Outcome.next (whenLive_live _ h)

theorem exec_rxdReturnsHigh (h : s.resetHeld = false) : exec .rxdReturnsHigh s = .next (returnHigh s) :=
  congrArg Host.Outcome.next (whenLive_live _ h)

/-- Every row of the host bus is the write that spells it (R166, R168, R170). -/
theorem exec_busWrite {c : Instr} {o : Offset} {w : Word} (hb : busWrite c = some (o, w)) (h : s.resetHeld = false) :
    exec c s = .next (hostWrite o w s) := by
  cases c <;> simp only [busWrite, Option.some.injEq, Prod.mk.injEq, reduceCtorEq] at hb <;> obtain ⟨rfl, rfl⟩ := hb <;>
    exact congrArg Host.Outcome.next (whenLive_live _ h)

end Sys2Proof.Machine
end

