-- ==== Sys2Proof/Laws/Cascade.lean ====
section
/-! SUPPORT. What a step can do after the line has been served: the cycle start, the roster pass, the window, the cycle
end and the ends of visits run on within one step, and each is made of a few single changes. A relation of states that is
reflexive, transitive and holds across each single change holds across the whole run, so a later proof checks the single
changes and never unfolds a run. -/

namespace Sys2Proof.Machine

/-- A change of the sequencer inside a cycle: not of the cycle number, the tallies of visits, the first holding watch, the
missed expiries, the FREE minimum and CYC, and never into phase SYNC. -/
def Sequencer.Within (p q : Sequencer) : Prop :=
  q = { p with
    state := q.state, phase := q.phase, passPos := q.passPos, stopPending := q.stopPending
    holdPending := q.holdPending, singleRun := q.singleRun, expiryInHold := q.expiryInHold
    transactions := q.transactions, timer := q.timer, overruns := q.overruns }
  ∧ (q.phase = .sync → p.phase = .sync)

/-- A relation of states that each single change inside a cycle keeps. -/
structure WithinCycle (R : State → State → Prop) : Prop where
  refl : ∀ s, R s s
  trans : ∀ {s t u}, R s t → R t u → R s u
  post : ∀ p s, R s (post p s)
  seq : ∀ s q, s.seq.Within q → R s (s.setSeq q)
  probe : ∀ s e n, (s.entry e).link = .lost → R s (s.setEntry e { s.entry e with probe := n })
  request : ∀ s role e k, R s (requestTry (.visit role e k) s)
  noLink : ∀ s k rest, s.errand.queue = k :: rest →
    R s (completeSlot k .noLink (s.setErrand { s.errand with queue := rest }))
  budget : ∀ s n, R s (s.setErrand { s.errand with budgetLeft := n })
  pickErrand : ∀ s k rest, s.errand.queue = k :: rest →
    R s ((leaveQueue k (countPick .attention s)).setSlot k { s.slot k with state := .active })
  pickAttention : ∀ s e rest, s.attn.items = e :: rest →
    R s ((countPick .errand s).setAttn { s.attn with mark := some e })

/-- Both branches of a choice. -/
theorem rel_ite {R : State → State → Prop} {s t u : State} {c : Prop} [Decidable c] (ht : R s t) (hu : R s u) :
    R s (if c then t else u) := by
  split
  · exact ht
  · exact hu

namespace WithinCycle

variable {R : State → State → Prop} (h : WithinCycle R) {finish : State → State}
include h

theorem completeUncallable (l : List SlotIdx) (s : State) (hl : s.errand.queue = l) :
    R s (completeUncallable l s) := by
  induction l generalizing s with
  | nil => exact h.refl s
  | cons k rest ih =>
    simp only [Machine.completeUncallable]
    split
    · exact h.refl s
    · exact h.trans (h.noLink s k rest hl) (ih _ (by simp))

theorem requestOwn (k : SlotIdx) (s : State) : R s (requestOwn k s) := by
  unfold Machine.requestOwn
  split
  · exact h.request ..
  · exact h.refl s

theorem pickErrandRel (k : SlotIdx) (rest : List SlotIdx) (s : State) (hq : s.errand.queue = k :: rest) :
    R s (Machine.pickErrand k s) := by
  unfold Machine.pickErrand
  exact rel_ite (h.trans (h.pickErrand s k rest hq) (h.request ..)) (h.trans (h.pickErrand s k rest hq) (h.requestOwn ..))

theorem pickAttentionRel (e : EntryIdx) (rest : List EntryIdx) (s : State) (hq : s.attn.items = e :: rest) :
    R s (Machine.pickAttention e s) := by
  unfold Machine.pickAttention
  exact rel_ite (h.trans (h.pickAttention s e rest hq) (h.request ..)) (h.trans (h.pickAttention s e rest hq) (h.request ..))

theorem arbiterLook (hf : ∀ s, R s (finish s)) (s : State) : R s (arbiterLook finish s) := by
  refine h.trans (h.completeUncallable _ s rfl) ?_
  simp only [Machine.arbiterLook]
  generalize Machine.completeUncallable s.errand.queue s = t
  split
  · exact hf t
  · split
    · exact hf t
    · exact h.pickErrandRel _ _ t ‹_›
    · exact h.pickAttentionRel _ _ t ‹_›
    · split
      · exact h.pickErrandRel _ _ t ‹_›
      · exact h.pickAttentionRel _ _ t ‹_›

theorem openWindow (hf : ∀ s, R s (finish s)) (s : State) : R s (openWindow finish s) := by
  unfold Machine.openWindow
  exact h.trans (h.seq s { s.seq with phase := .window } ⟨rfl, nofun⟩) (h.trans (h.budget _ _) (h.arbiterLook hf _))

theorem passOver (l : List EntryIdx) (s : State) : R s (passOver l s).1 := by
  induction l generalizing s with
  | nil => exact h.refl s
  | cons e rest ih =>
    simp only [Machine.passOver]
    split
    · exact ih s
    · split <;> try exact h.refl s
      · exact ih s
      · rename_i hl
        split
        · exact h.probe s e _ hl
        · exact h.trans (h.probe s e _ hl) (ih _)

theorem passFrom (hf : ∀ s, R s (finish s)) (l : List EntryIdx) (s : State) : R s (passFrom finish l s) := by
  have hp := h.passOver l s
  unfold Machine.passFrom
  split
  · rename_i t e k heq
    rw [heq] at hp
    exact h.trans hp (h.trans (h.seq t { t.seq with passPos := e } ⟨rfl, id⟩) (h.request ..))
  · rename_i t heq
    rw [heq] at hp
    exact h.trans hp (h.openWindow hf _)

theorem beginRoster (hf : ∀ s, R s (finish s)) (s : State) : R s (beginRoster finish s) :=
  h.trans (h.seq s { s.seq with phase := .roster, passPos := 0 } ⟨rfl, nofun⟩) (h.passFrom hf _ _)

end WithinCycle

/-- A relation of states that each single change of a cycle end keeps too. -/
structure CycleEnds (R : State → State → Prop) : Prop extends WithinCycle R where
  headWait : ∀ s, R s (advanceHeadWait s)
  ages : ∀ s, R s (advanceAges s)

namespace CycleEnds

variable {R : State → State → Prop} (h : CycleEnds R) {again : State → State}
include h

theorem takeFlags (ha : ∀ s, R s (again s)) (s : State) : R s (takeFlags again s) := by
  unfold Machine.takeFlags
  split
  · exact h.trans (h.seq s s.seq.stopRun ⟨rfl, nofun⟩) (h.post ..)
  · split
    · exact h.trans (h.seq s { s.seq with state := .held, phase := .none, holdPending := false, expiryInHold := false }
        ⟨rfl, nofun⟩) (h.post ..)
    · split
      · exact ha s
      · exact h.seq s { s.seq with state := .waiting, phase := .none } ⟨rfl, nofun⟩

theorem accountOverrun (s : State) : R s (accountOverrun s) := by
  unfold Machine.accountOverrun
  split
  · exact h.refl s
  · exact h.trans (h.seq s { s.seq with overruns := satAdd s.seq.overruns s.seq.missed } ⟨rfl, id⟩) (h.post ..)

theorem finishCycle (ha : ∀ s, R s (again s)) (s : State) : R s (finishCycle again s) :=
  h.trans (h.ages s) (h.trans (h.headWait _) (h.trans (h.post ..) (h.trans (h.accountOverrun _) (h.takeFlags ha _))))

theorem endSameStepCycle (s : State) : R s (endSameStepCycle s) :=
  h.finishCycle (fun s => h.seq s { s.seq with state := .waiting, phase := .none } ⟨rfl, nofun⟩) s

/-- A cycle with sync disabled, from its start on: the pass, and the window and the cycle end that may follow in the same
step. -/
theorem beginRosterNext (s : State) : R s (Machine.beginRoster Machine.endSameStepCycle s) :=
  h.beginRoster h.endSameStepCycle s

end CycleEnds

/-- A relation of states that each single change of a cycle start keeps too. -/
structure Cascade (R : State → State → Prop) : Prop extends CycleEnds R where
  cycleStart : ∀ s, R s (clearCommitMarks (s.setSeq s.seq.startCycle))
  requestSync : ∀ s, R s (requestTry .sync (s.setSeq { s.seq with phase := .sync }))

namespace Cascade

variable {R : State → State → Prop} (h : Cascade R) {again finish : State → State}
include h

theorem startCycle (hf : ∀ s, R s (finish s)) (s : State) : R s (startCycle finish s) := by
  simp only [Machine.startCycle]
  refine h.trans (h.cycleStart s) ?_
  split
  · exact h.requestSync _
  · exact h.beginRoster hf _

theorem startNextCycle (s : State) : R s (startNextCycle s) := h.startCycle h.endSameStepCycle s

theorem endCycle (s : State) : R s (endCycle s) := h.finishCycle h.startNextCycle s

theorem lookAgain (s : State) : R s (lookAgain s) := h.arbiterLook h.endCycle s

theorem continuePass (s : State) : R s (continuePass s) := h.passFrom h.endCycle _ s

end Cascade

/-- A relation of states that each single change at the end of a failed or discarded visit keeps too. -/
structure FailedVisits (R : State → State → Prop) : Prop extends Cascade R where
  lineJob : ∀ s, R s (s.setLine { s.line with job := none })
  tally : ∀ s a b, R s (s.setSeq { s.seq with visits := a, failedVisits := b })
  failure : ∀ s e k, R s (applyFailure e k s)
  clearFresh : ∀ s e, R s (s.setImage e (s.image e).clearFresh)
  complete : ∀ s k o, R s (completeSlot k o s)
  attnRemove : ∀ s e, R s (removeAttention e s)

namespace FailedVisits

variable {R : State → State → Prop} (h : FailedVisits R)
include h

theorem applyEnd {v : Visit} {r : VisitEnd} (hr : r = .failure ∨ r = .discarded) (s : State) :
    R s (applyEnd v r s) := by
  refine h.trans (h.tally s (s.seq.visits + 1) s.seq.failedVisits) ?_
  rcases hr with rfl | rfl
  · exact h.trans (h.tally _ (s.seq.visits + 1) (s.seq.failedVisits + 1)) (h.failure _ v.entry v.kind)
  · exact h.refl _

theorem afterVisit {v : Visit} {r : VisitEnd} (hr : r = .failure ∨ r = .discarded) (s : State) :
    R s (afterVisit v r s) := by
  have ha : ∀ s, appendAttention v.entry r.attn s = s := by
    intro s; rcases hr with rfl | rfl <;> rfl
  have hi : (imageEnd v r s).1 = .full ∧ R s (imageEnd v r s).2 := by
    rcases hr with rfl | rfl
    · exact ⟨rfl, h.clearFresh ..⟩
    · exact ⟨rfl, h.refl s⟩
  have hp : R s (endPassVisit v r (if v.kind = .exchange then imageEnd v r s else (.full, s))) := by
    split
    · simp only [endPassVisit, hi.1, ha]
      exact h.trans hi.2 (h.continuePass _)
    · simp only [endPassVisit, ha]
      exact h.continuePass _
  have he : ∀ k, R s (errandEnd k r s) := by
    intro k
    rcases hr with rfl | rfl
    · exact h.complete ..
    · exact h.complete ..
  have ht : R s (attentionEnd v.entry r s) := by
    rcases hr with rfl | rfl
    · exact h.attnRemove ..
    · exact h.refl s
  unfold Machine.afterVisit
  split
  · exact hp
  · rw [ha]
    exact h.trans (he _) (h.lookAgain _)
  · rcases hr with rfl | rfl
    · exact h.trans (h.complete ..) (h.lookAgain _)
    · exact h.trans (h.complete ..) (h.lookAgain _)
  · rw [ha]
    exact h.trans ht (h.lookAgain _)
  · rcases hr with rfl | rfl
    · exact h.trans (h.attnRemove ..) (h.lookAgain _)
    · exact h.lookAgain _

theorem endVisit (v : Visit) (s : State) : R s (endVisit v .failure s) := by
  refine h.trans (h.lineJob s) ?_
  unfold Machine.endVisit
  dsimp only
  generalize s.setLine _ = t
  split
  · exact h.trans (h.applyEnd (.inr rfl) t) (h.afterVisit (.inr rfl) _)
  · exact h.trans (h.applyEnd (.inl rfl) t) (h.afterVisit (.inl rfl) _)

theorem dropTransaction (role : Role) (s : State) : R s (dropTransaction role s) := by
  unfold Machine.dropTransaction
  split
  · exact h.continuePass _
  · exact h.trans (h.complete ..) (h.lookAgain _)
  · exact h.trans (h.complete ..) (h.lookAgain _)
  · exact h.lookAgain _
  · exact h.lookAgain _

end FailedVisits

/-- A relation of states that each single change made by an event of the line or of a duration keeps too, but for
the bytes of an answer. -/
structure LineMoves (R : State → State → Prop) : Prop extends FailedVisits R where
  line : ∀ s l, R s (s.setLine l)
  seqAny : ∀ s q, q.cycle = s.seq.cycle → R s (s.setSeq q)
  retries : ∀ s e, R s (s.setEntry e (s.entry e).raiseRetries)
  resync : ∀ s e, (s.entry e).link ≠ .off → R s (s.setEntry e { s.entry e with resync := true })
  mark : ∀ s, R s (s.setAttn { s.attn with mark := none })

namespace LineMoves

variable {R : State → State → Prop} (h : LineMoves R)
include h

theorem setEngine (g : Engine) (s : State) : R s (setEngine g s) := h.line ..

theorem setRx (r : RxPath) (s : State) : R s (setRx r s) := h.line ..

theorem beginTry (r : Request) (s : State) : R s (beginTry r s) := by
  simp only [Machine.beginTry]
  refine h.trans ?_ (h.line ..)
  split
  · unfold Machine.countRetry
    split
    · exact h.retries ..
    · exact h.refl s
  · exact h.refl s

theorem unacceptedTry (v : Visit) (s : State) : R s (unacceptedTry v s) := by
  unfold Machine.unacceptedTry
  split
  · exact h.line ..
  · exact h.endVisit ..

theorem endTry (v : Visit) {o : TryOutcome} (ho : o = .silent ∨ o = .garbled ∨ o = .stray ∨ o = .mismatch) (s : State) :
    R s (endTry v o s) := by
  refine h.trans (h.setEngine (.quiet Config.quietGapBits) s) ?_
  rcases ho with rfl | rfl | rfl | rfl
  all_goals exact h.unacceptedTry ..

theorem endAnswer {o : TryOutcome} (ho : o = .silent ∨ o = .garbled) (s : State) : R s (endAnswer o s) := by
  unfold Machine.endAnswer
  split
  · exact h.endTry _ (by rcases ho with rfl | rfl <;> simp) s
  · exact h.setEngine ..

theorem takeWaiting (r : Request) (s : State) : R s (takeWaiting r s) := by
  unfold Machine.takeWaiting
  split
  · exact h.beginTry ..
  · exact h.beginTry ..
  · exact h.beginTry ..
  · exact h.continuePass _
  · split
    · exact h.beginTry ..
    · exact h.dropTransaction ..

theorem endQuietGap (s : State) : R s (endQuietGap s) := by
  simp only [Machine.endQuietGap]
  split
  · exact h.line ..
  · exact h.trans (h.line ..) (h.takeWaiting ..)

theorem abandonLine (s : State) : R s (abandonLine s) := by
  refine h.trans (h.line s { s.line with engine := s.line.engine.abandon s.txByte, job := none, waiting := none }) ?_
  simp only [Machine.abandonLine]
  generalize s.setLine _ = t
  split
  · simp only [Machine.applyAbandon]
    split
    · rename_i hc
      simp only [Bool.and_eq_true, decide_eq_true_eq] at hc
      exact h.resync _ _ hc.2
    · exact h.refl t
  · exact h.refl t

theorem abortActive (s : State) : R s (abortActive s) := by
  unfold Machine.abortActive
  generalize List.finRange 8 = l
  induction l generalizing s with
  | nil => exact h.refl s
  | cons k rest ih =>
    refine h.trans ?_ (ih (abortSlot s k))
    unfold Machine.abortSlot
    split
    · exact h.complete ..
    · exact h.refl s

theorem abandon (s : State) : R s (abandon s) :=
  h.trans (h.abandonLine s) (h.trans (h.abortActive _) (h.mark _))

theorem lineFault (s : State) : R s (lineFault s) := by
  refine h.trans (h.abandon s) ?_
  unfold Machine.lineFault
  generalize Machine.abandon s = t
  refine h.trans (h.post _ t) (h.trans (h.post _ _) (h.seqAny _ _ ?_))
  rfl

theorem echoFault (b : Option Byte) (s : State) : R s (echoFault b s) := by
  simp only [Machine.echoFault]
  split
  · exact h.trans (h.line ..) (h.lineFault _)
  · exact h.line ..

theorem periodExpiry (s : State) : R s (periodExpiry s) := by
  unfold Machine.periodExpiry
  split
  · exact h.refl s
  · split
    · exact h.startNextCycle s
    · exact h.seqAny _ _ rfl
    · exact h.seqAny _ _ rfl
    · exact h.refl s
    · exact h.refl s

theorem freeMinimum (s : State) : R s (freeMinimum s) := by
  unfold Machine.freeMinimum
  split
  · split
    · exact h.startNextCycle s
    · exact h.seqAny _ _ rfl
    · exact h.seqAny _ _ rfl
    · exact h.refl s
    · exact h.refl s
  · exact h.refl s

theorem callEcho (x : Echo) (s : State) : R s (callEcho x s) := by
  simp only [Machine.callEcho]
  split
  · split
    · exact h.refl s
    · split
      · exact h.trans (h.setRx ..) (h.setEngine ..)
      · exact h.trans (h.setRx ..) (h.echoFault _ _)
  · exact h.setRx ..
  · exact h.refl s

theorem callEnd (s : State) : R s (callEnd s) := by
  unfold Machine.callEnd
  split
  · split
    · split
      · exact h.line ..
      · exact h.trans (h.line ..) (h.beginRoster h.endCycle _)
    · exact h.refl s
  · exact h.refl s

theorem remainderEnd (s : State) : R s (remainderEnd s) := by
  unfold Machine.remainderEnd
  split
  · exact h.setEngine ..
  · exact h.refl s

theorem deadlinePasses (s : State) : R s (deadlinePasses s) := by
  unfold Machine.deadlinePasses
  split
  · split
    · exact h.setEngine ..
    · exact h.endAnswer (.inl rfl) s
  · exact h.refl s

theorem gapPasses (s : State) : R s (gapPasses s) := by
  unfold Machine.gapPasses
  split
  · exact h.refl s
  · split
    · exact h.endAnswer (.inr rfl) s
    · exact h.setEngine ..
    · exact h.refl s
    · exact h.refl s
  · exact h.refl s

theorem strayTaken (f : Bool) (s : State) : R s (strayTaken f s) := by
  unfold Machine.strayTaken
  split
  · exact h.refl s
  · split
    · exact h.line ..
    · exact h.line ..
    · exact h.refl s

theorem gapEnd (s : State) : R s (gapEnd s) := by
  unfold Machine.gapEnd
  split
  · exact h.endQuietGap s
  · exact h.refl s

theorem fallingEdge (s : State) : R s (fallingEdge s) := by
  unfold Machine.fallingEdge
  split
  · split
    · exact h.trans (h.setRx ..) (h.echoFault _ _)
    · exact h.setRx ..
  · exact h.refl s

theorem sampleStart (l : Level) (s : State) : R s (sampleStart l s) := by
  unfold Machine.sampleStart
  split
  · split
    · split
      · exact h.trans (h.setRx ..) (h.setEngine ..)
      · exact h.trans (h.setRx ..) (h.setEngine ..)
      · exact h.setRx ..
    · split
      · exact h.trans (h.setRx ..) (h.endAnswer (.inl rfl) _)
      · exact h.trans (h.setRx ..) (h.endAnswer (.inr rfl) _)
      · exact h.setRx ..
  · exact h.refl s

theorem returnHigh (s : State) : R s (returnHigh s) := by
  unfold Machine.returnHigh
  split
  · exact h.setRx ..
  · exact h.refl s

/-- Every row of the line and of the durations but ANSWER_BYTE. -/
theorem row {c : Instr} {s t : State} (hb : busWrite c = none) (h1 : c ≠ .hardwareReset) (h2 : c ≠ .resetRelease)
    (h3 : ∀ b f, c ≠ .answerByte b f) (he : exec c s = .next t) : R s t := by
  cases hh : s.resetHeld with
  | true =>
    rw [exec_held hh h1 h2] at he
    cases he
    exact h.refl s
  | false =>
    cases c <;> simp only [busWrite, reduceCtorEq] at hb
    · exact absurd rfl h1
    · exact absurd rfl h2
    · rw [exec_periodTimerExpiry hh] at he; cases he; exact h.periodExpiry s
    · rw [exec_freeMinimumExpiry hh] at he; cases he; exact h.freeMinimum s
    · rw [exec_cycPulseEnd hh] at he; cases he; exact h.seqAny _ _ rfl
    · rw [exec_callByteEcho _ hh] at he; cases he; exact h.callEcho _ s
    · rw [exec_callSent hh] at he; cases he; exact h.callEnd s
    · rw [exec_callRemainderEnd hh] at he; cases he; exact h.remainderEnd s
    · exact absurd rfl (h3 _ _)
    · rw [exec_answerDeadlineExpiry hh] at he; cases he; exact h.deadlinePasses s
    · rw [exec_interByteGapExpiry hh] at he; cases he; exact h.gapPasses s
    · rw [exec_strayByte _ _ hh] at he; cases he; exact h.strayTaken _ s
    · rw [exec_quietGapEnd hh] at he; cases he; exact h.gapEnd s
    · rw [exec_rxdFallingEdge hh] at he; cases he; exact h.fallingEdge s
    · rw [exec_startBitSample _ hh] at he; cases he; exact h.sampleStart _ s
    · rw [exec_rxdReturnsHigh hh] at he; cases he; exact h.returnHigh s

end LineMoves

/-- An evaluation leaves the list of arrivals. -/
theorem evalWatch_amid (e : EntryIdx) (n : WatchIdx) (s : State) : (evalWatch e n s).amid = s.amid := by
  unfold evalWatch fire drive
  dsimp only
  split
  · split
    · rfl
    · split_ifs <;> (try split) <;> rfl
  · rfl

/-- With no access amid them the evaluations of a commit are the 32 evaluations in index order, and the course stays full
(R142). -/
theorem evaluate_quiet (e : EntryIdx) {s : State} (hs : s.amid = []) :
    evaluate e s = (.full, (List.finRange 32).foldl (fun x n => evalWatch e n x) s) := by
  have all : ∀ (l : List WatchIdx) (t : State), t.amid = [] →
      l.foldl (evaluateNext e) (.full, t) = (.full, l.foldl (fun x n => evalWatch e n x) t)
        ∧ (l.foldl (fun x n => evalWatch e n x) t).amid = [] := by
    intro l
    induction l with
    | nil => exact fun t ht => ⟨rfl, ht⟩
    | cons n rest ih =>
      intro t ht
      have hn : evaluateNext e (.full, t) n = (.full, evalWatch e n t) := by
        have : t.setAmid [] = t := by rw [← ht]; rfl
        simp [evaluateNext, ht, takeArrivals, this]
      simp only [List.foldl_cons, hn]
      exact ih _ ((evalWatch_amid e n t).trans ht)
  obtain ⟨h1, h2⟩ := all (List.finRange 32) s hs
  unfold evaluate
  rw [h1]
  generalize (List.finRange 32).foldl (fun x n => evalWatch e n x) s = t at h2
  have : t.setAmid [] = t := by rw [← h2]; rfl
  simp only [h2, takeArrivals, this]

theorem postLinkChange_amid (e : EntryIdx) (o n : LinkState) (s : State) : (postLinkChange e o n s).amid = s.amid := by
  unfold postLinkChange
  split <;> rfl

/-- The roster's part of a visit's end leaves the list of arrivals. -/
theorem applyEnd_amid (v : Visit) (r : VisitEnd) (s : State) : (applyEnd v r s).amid = s.amid := by
  unfold applyEnd applyFailure applySuccess
  dsimp only
  split <;> (try split) <;> simp [postLinkChange_amid, forgetWatches]

/-- A relation that holds of the accesses taken amid a commit's evaluations: there are none, or it holds across every host
write (R142). -/
def HoldsAmid (R : State → State → Prop) (s : State) : Prop :=
  s.amid = [] ∨ ((∀ o v t, R t (hostWrite o v t)) ∧ ∀ l t, R t (t.setAmid l))

theorem HoldsAmid.of_amid {R : State → State → Prop} {s t : State} (h : HoldsAmid R s) (ht : t.amid = s.amid) :
    HoldsAmid R t :=
  h.imp (fun hs => ht.trans hs) id

/-- A relation of states that each single change made by an accepted answer keeps too. -/
structure AnswerMoves (R : State → State → Prop) : Prop extends LineMoves R where
  success : ∀ s e k, R s (applySuccess e k s)
  commitInput : ∀ s e n payload, R s (s.setImage e ((s.image e).commitInput n payload))
  evalWatch : ∀ s e n, R s (evalWatch e n s)
  completeGood : ∀ s k payload, R s (finishSlot k ((s.slot k).completeGood payload) s)
  attnAppend : ∀ s e, R s (s.setAttn (s.attn.append e))

namespace AnswerMoves

variable {R : State → State → Prop} (h : AnswerMoves R)
include h

theorem appendAttention (e : EntryIdx) (a : Bool) (s : State) : R s (appendAttention e a s) := by
  unfold Machine.appendAttention
  exact rel_ite (h.attnAppend s e) (h.refl s)

theorem foldEvalWatch (e : EntryIdx) (l : List WatchIdx) (s : State) :
    R s (l.foldl (fun x n => Machine.evalWatch e n x) s) := by
  induction l generalizing s with
  | nil => exact h.refl s
  | cons n rest ih => exact h.trans (h.evalWatch s e n) (ih _)

theorem takeArrivals (hw : ∀ o v t, R t (hostWrite o v t)) (e : EntryIdx) (l : List Arrival) (c : Course) (s : State) :
    R s (takeArrivals e l c s).2 := by
  induction l generalizing c s with
  | nil => exact h.refl s
  | cons a rest ih => exact h.trans (hw a.offset a.value s) (ih _ _)

theorem evaluate (e : EntryIdx) {s : State} (hs : HoldsAmid R s) : R s (evaluate e s).2 := by
  rcases hs with hs | ⟨hw, ha⟩
  · have hf := h.foldEvalWatch e (List.finRange 32) s
    rw [evaluate_quiet e hs]
    generalize (List.finRange 32).foldl (fun x n => Machine.evalWatch e n x) s = t at hf
    exact hf
  · have next : ∀ x n, R x.2 (evaluateNext e x n).2 := by
      intro x n
      refine h.trans (ha (x.2.amid.drop (x.2.amid.takeWhile fun a => decide (a.passed ≤ n.val)).length) x.2) ?_
      unfold evaluateNext
      dsimp only
      split
      · exact h.trans (h.takeArrivals hw ..) (h.evalWatch ..)
      · exact h.takeArrivals hw ..
    have all : ∀ (l : List WatchIdx) x, R x.2 (l.foldl (evaluateNext e) x).2 := by
      intro l
      induction l with
      | nil => exact fun x => h.refl x.2
      | cons n rest ih => exact fun x => h.trans (next x n) (ih _)
    have arrived : ∀ x : Course × State, R x.2 (Machine.takeArrivals e x.2.amid x.1 (x.2.setAmid [])).2 :=
      fun x => h.trans (ha _ _) (h.takeArrivals hw ..)
    exact h.trans (all _ (.full, s)) (arrived _)

theorem imageEnd (v : Visit) (r : VisitEnd) {s : State} (hs : HoldsAmid R s) : R s (imageEnd v r s).2 := by
  unfold Machine.imageEnd
  split
  · exact h.trans (h.commitInput ..) (h.evaluate _ (hs.of_amid rfl))
  · exact h.clearFresh ..
  · exact h.clearFresh ..
  · exact h.refl s

theorem endPassVisit (v : Visit) (r : VisitEnd) (x : Course × State) : R x.2 (endPassVisit v r x) := by
  unfold Machine.endPassVisit
  split
  · exact h.trans (h.appendAttention ..) (h.continuePass _)
  · exact h.continuePass _
  · exact h.refl _

theorem errandEnd (k : SlotIdx) (r : VisitEnd) (s : State) : R s (errandEnd k r s) := by
  unfold Machine.errandEnd
  split
  · exact h.completeGood ..
  all_goals exact h.complete ..

theorem attentionEnd (e : EntryIdx) (r : VisitEnd) (s : State) : R s (attentionEnd e r s) := by
  unfold Machine.attentionEnd
  split
  · exact h.trans (h.post ..) (h.attnRemove ..)
  · exact h.attnRemove ..
  · exact h.attnRemove ..
  · exact h.refl s

theorem afterVisit (v : Visit) (r : VisitEnd) {s : State} (hs : HoldsAmid R s) : R s (afterVisit v r s) := by
  have a := fun e b s => h.appendAttention e b s
  unfold Machine.afterVisit
  split
  · refine h.trans ?_ (h.endPassVisit v r _)
    split
    · exact h.imageEnd v r hs
    · exact h.refl s
  · exact h.trans (h.errandEnd ..) (h.trans (a ..) (h.lookAgain _))
  · split
    · exact h.trans (a ..) (h.requestOwn ..)
    · exact h.trans (a ..) (h.requestOwn ..)
    · exact h.trans (h.complete ..) (h.lookAgain _)
    · exact h.trans (h.complete ..) (h.lookAgain _)
  · exact h.trans (h.attentionEnd ..) (h.trans (a ..) (h.lookAgain _))
  · split
    · exact h.trans (a ..) (h.request ..)
    · exact h.trans (a ..) (h.request ..)
    · exact h.trans (h.attnRemove ..) (h.lookAgain _)
    · exact h.lookAgain _

theorem applyEnd (v : Visit) (r : VisitEnd) (s : State) : R s (applyEnd v r s) := by
  refine h.trans (h.tally s (s.seq.visits + 1) s.seq.failedVisits) ?_
  unfold Machine.applyEnd
  dsimp only
  split
  · exact h.success ..
  · exact h.success ..
  · exact h.trans (h.tally _ (s.seq.visits + 1) (s.seq.failedVisits + 1)) (h.failure ..)
  · exact h.refl _

theorem endVisit (v : Visit) (r : VisitEnd) {s : State} (hs : HoldsAmid R s) : R s (endVisit v r s) :=
  h.trans (h.lineJob s) (h.trans (h.applyEnd ..) (h.afterVisit _ _ (hs.of_amid (applyEnd_amid ..))))

theorem endTry (v : Visit) (o : TryOutcome) {s : State} (hs : HoldsAmid R s) : R s (endTry v o s) := by
  refine h.trans (h.setEngine (.quiet Config.quietGapBits) s) ?_
  unfold Machine.endTry
  dsimp only
  split
  · exact h.endVisit _ _ (hs.of_amid rfl)
  · exact h.endVisit _ _ (hs.of_amid rfl)
  all_goals exact h.unacceptedTry ..

theorem answer (b : Byte) (f : Bool) {s : State} (hs : HoldsAmid R s) : R s (answer b f s) := by
  simp only [Machine.answer]
  split
  · refine h.trans (h.setRx (rxAfter f) s) ?_
    split
    · exact h.refl _
    · split
      · exact h.setEngine ..
      · exact h.endTry _ _ (hs.of_amid rfl)
  · exact h.refl s

/-- Every row of the line and of the durations. -/
theorem anyRow {c : Instr} {s t : State} (hs : HoldsAmid R s) (hb : busWrite c = none) (h1 : c ≠ .hardwareReset)
    (h2 : c ≠ .resetRelease) (he : exec c s = .next t) : R s t := by
  by_cases h3 : ∃ b f, c = .answerByte b f
  · obtain ⟨b, f, rfl⟩ := h3
    cases hh : s.resetHeld with
    | true =>
      rw [exec_held hh h1 h2] at he
      cases he
      exact h.refl s
    | false => rw [exec_answerByte _ _ hh] at he; cases he; exact h.answer _ _ hs
  · exact h.row hb h1 h2 (fun b f hc => h3 ⟨b, f, hc⟩) he

/-- Every row but those of the reset input, for a relation that holds across every host write and the model's own list of
arrivals. -/
theorem everyRow (hw : ∀ o v t, R t (hostWrite o v t)) (ha : ∀ l t, R t (t.setAmid l)) {c : Instr} {s t : State}
    (h1 : c ≠ .hardwareReset) (h2 : c ≠ .resetRelease) (he : exec c s = .next t) : R s t := by
  cases hb : busWrite c with
  | none => exact h.anyRow (.inr ⟨hw, ha⟩) hb h1 h2 he
  | some x =>
    cases hh : s.resetHeld with
    | true =>
      rw [exec_held hh h1 h2] at he
      cases he
      exact h.refl s
    | false =>
      rw [exec_busWrite hb hh] at he
      cases he
      exact hw ..

end AnswerMoves

end Sys2Proof.Machine
end

