-- ==== Sys2Proof/Laws/Operations.lean ====
section
/-! SUPPORT. Once for each shared operation what it can do, for later proofs to cite in place of unfolding it. -/

namespace Sys2Proof.Machine

/-! ### Counts and indices -/

/-- A saturating count (00_scope.md 1.6). -/
theorem satInc_byte (c : Byte) : satInc c = if c = 255#8 then 255#8 else c + 1#8 := by
  unfold satInc
  rw [show BitVec.allOnes 8 = 255#8 from rfl]
  split <;> simp_all

theorem satInc_word (c : Word) : satInc c = if c = 0xFFFF#16 then 0xFFFF#16 else c + 1#16 := by
  unfold satInc
  rw [show BitVec.allOnes 16 = 0xFFFF#16 from rfl]
  split <;> simp_all

theorem satInc_nibble (c : BitVec 4) : satInc c = if c = 15#4 then 15#4 else c + 1#4 := by
  unfold satInc
  rw [show BitVec.allOnes 4 = 15#4 from rfl]
  split <;> simp_all

/-- The consecutive echo fault count below its limit does not saturate (R74). -/
theorem satInc_below_limit {c : BitVec 2} (h : c.toNat < 2) :
    satInc c = c + 1#2 ∧ (c + 1#2).toNat ≠ Config.lineFaultLimit := by
  revert c
  decide

theorem satAdd_zero (c : Byte) : satAdd c 0 = c := by
  have := c.isLt
  apply BitVec.eq_of_toNat_eq
  simp [satAdd]
  omega

theorem entryOf_some {n : Nat} {e : EntryIdx} (h : n = e.val) : entryOf n = some e := by
  subst h
  simp [entryOf]

theorem entryOf_none {n : Nat} (h : 39 < n) : entryOf n = none := by
  simp [entryOf]
  omega

theorem entryOf_eq_some {n : Nat} {e : EntryIdx} : entryOf n = some e ↔ n = e.val := by
  refine ⟨fun h => ?_, entryOf_some⟩
  unfold entryOf at h
  split at h
  · cases h; rfl
  · cases h

theorem watchOf_some {n : Nat} {w : WatchIdx} (h : n = w.val) : watchOf n = some w := by
  subst h
  simp [watchOf]

theorem watchOf_none {n : Nat} (h : 31 < n) : watchOf n = none := by
  simp [watchOf]
  omega

theorem slotOf_some {n : Nat} {k : SlotIdx} (h : n = k.val) : slotOf n = some k := by
  subst h
  simp [slotOf]

theorem slotOf_none {n : Nat} (h : 7 < n) : slotOf n = none := by
  simp [slotOf]
  omega

/-- A stored byte names an entry exactly if it is that entry's index. -/
theorem byte_eq_entry (b : Byte) (e : EntryIdx) : b = BitVec.ofNat 8 e ↔ b.toNat = e.val := by
  rw [← BitVec.toNat_inj]
  have := e.isLt
  simp
  omega

theorem setWord_wordAt (ws : Words8) (i : Fin 8) (v : Word) :
    setWord ws i.val v = ws.set i.val v i.isLt ∧ wordAt ws i.val = ws[i] := by
  simp [setWord, wordAt]

theorem conditionOf_isSome : ∀ c : BitVec 4, (conditionOf c).isSome = decide (c.toNat ≤ 7) := by decide

theorem errandKindOf_eq : ∀ c : BitVec 4, errandKindOf c.toNat
    = if c = 2#4 then some .read else if c = 3#4 then some .write else if c = 5#4 then some .reset else none := by
  decide

/-- The run mode is PERIODIC or SINGLE exactly for their codes; every other code is FREE (R32). -/
theorem runModeOf_eq : ∀ c : BitVec 2,
    (runModeOf c = .periodic ↔ c = 1#2) ∧ (runModeOf c = .single ↔ c = 2#2)
      ∧ (runModeOf c = .free ↔ c = 0#2 ∨ c = 3#2) := by
  decide

/-! ### Events -/

/-- A post is discarded, entered or dropped (R155, R156, R157). -/
theorem take_cases (u : EventUnit) (c : Word) (p : Post) :
    (u.filter.passes p.kind = false ∧ u.take c p = u)
      ∨ (u.filter.passes p.kind = true ∧ u.queue.length < 32 ∧ u.take c p = u.enqueue c p)
      ∨ (u.filter.passes p.kind = true ∧ 32 ≤ u.queue.length
          ∧ u.take c p = { u with dropped := satInc u.dropped }) := by
  unfold EventUnit.take Config.queueCapacity
  split
  · exact .inl ⟨‹_›, rfl⟩
  · split
    · exact .inr (.inl ⟨by simp_all, ‹_›, rfl⟩)
    · exact .inr (.inr ⟨by simp_all, by omega, rfl⟩)

/-- A post never takes a record away. -/
theorem take_queue_prefix (u : EventUnit) (c : Word) (p : Post) : u.queue <+: (u.take c p).queue := by
  rcases take_cases u c p with ⟨_, h⟩ | ⟨_, _, h⟩ | ⟨_, _, h⟩ <;> rw [h]
  · exact List.prefix_append _ _

/-- A post leaves the control words of the event unit. -/
theorem take_controls (u : EventUnit) (c : Word) (p : Post) :
    (u.take c p).filter = u.filter ∧ (u.take c p).threshold = u.threshold
      ∧ (u.take c p).coalescing = u.coalescing ∧ (u.take c p).globalIrq = u.globalIrq
      ∧ (u.take c p).faultIrq = u.faultIrq := by
  rcases take_cases u c p with ⟨_, h⟩ | ⟨_, _, h⟩ | ⟨_, _, h⟩ <;> rw [h] <;> simp [EventUnit.enqueue]

/-! ### Tries, the pass and the arbiter -/

/-- A visit asked for begins at once in IDLE and waits in every other state of the engine (R66). -/
theorem requestTry_visit (role : Role) (e : EntryIdx) (k : CallKind) (s : State) :
    requestTry (.visit role e k) s =
      s.setLine (if s.line.engine = .idle
        then { s.line with engine := .sending 0, job := some (.visit (startVisit s role e k)), waiting := none }
        else { s.line with waiting := some (.visit role e k) }) := by
  unfold requestTry
  split
  · rename_i h
    rw [if_pos h]
    rfl
  · rename_i h
    rw [if_neg h]

/-- So does the SYNC call. -/
theorem requestTry_sync (s : State) :
    requestTry .sync s =
      s.setLine (if s.line.engine = .idle
        then { s.line with engine := .sending 0, job := some (.sync (syncFrame s.seq.cycle)), waiting := none }
        else { s.line with waiting := some .sync }) := by
  unfold requestTry
  split
  · rename_i h
    rw [if_pos h]
    rfl
  · rename_i h
    rw [if_neg h]

/-- The pass stops at the first entry in service that the cycle considers, if all before it are OFF or not considered
(R7, R37). -/
theorem passOver_first_due {s : State} {e : EntryIdx} (hc : (s.entry e).considered s.seq.cycle = true)
    (hl : (s.entry e).link = .await ∨ (s.entry e).link = .online ∨ (s.entry e).link = .suspect)
    {l : List EntryIdx} (he : e ∈ l) (hs : l.Pairwise (· < ·))
    (ho : ∀ i ∈ l, i < e → (s.entry i).link = .off ∨ (s.entry i).considered s.seq.cycle = false) :
    passOver l s = (s, some (e, .exchange)) := by
  induction l with
  | nil => simp at he
  | cons a rest ih =>
    rw [List.pairwise_cons] at hs
    simp only [passOver]
    rcases List.mem_cons.1 he with rfl | he
    · rw [if_neg (by simp [hc])]
      rcases hl with h | h | h <;> simp [h]
    · have ih := ih he hs.2 fun i hi => ho i (by simp [hi])
      rcases ho a (by simp) (hs.1 e he) with h | h
      · simp [h, ih]
      · simp [h, ih]

/-- With a head errand that can be called, or none, the arbiter completes none uncalled (R111). -/
theorem completeUncallable_callable {s : State} {l : List SlotIdx}
    (h : ∀ k, l.head? = some k → callable s (s.slot k) = true) : completeUncallable l s = s := by
  cases l with
  | nil => rfl
  | cons k r => simp [completeUncallable, h k rfl]

/-- An unaccepted try with budget left has the next try wait (R73). -/
theorem unacceptedTry_retry {v : Visit} (h : v.unaccepted < v.retryLimit.toNat) (s : State) :
    unacceptedTry v s = s.setLine { s.line with
      job := some (.visit { v with unaccepted := v.unaccepted + 1 }), waiting := some .retry } := by
  unfold unacceptedTry
  rw [if_pos (by omega)]

/-- With the budget spent it fails the visit (R73). -/
theorem unacceptedTry_spent {v : Visit} (h : v.retryLimit.toNat ≤ v.unaccepted) (s : State) :
    unacceptedTry v s = endVisit v .failure s := by
  unfold unacceptedTry
  rw [if_neg (by omega)]

/-- A cycle that began in the same step finds no missed expiry and the FREE minimum not passed, so none follows it at
once. -/
theorem nextAtOnce_after_start {s : State} (h1 : s.seq.missed = 0) (h2 : s.seq.freeMinPassed = false) :
    nextAtOnce s = false := by
  unfold nextAtOnce
  split <;> simp [h1, h2]

/-- A visit in flight is the job. -/
theorem visit_of_job {s : State} {v : Visit} (h : s.line.job = some (.visit v)) : s.visit = some v := by
  simp [State.visit, h]

/-! ### Watches -/

/-- A firing changes no watch. -/
theorem fire_watches (n : WatchIdx) (w : Watch) (c : Bool) (o : Word) (e : EntryIdx) (s : State) :
    (fire n w c o e s).watches = s.watches := by
  unfold fire drive
  dsimp only
  split_ifs <;> (try split) <;> rfl

/-- One evaluation that is not skipped counts the candidate and raises the fire count if it fires (R145, R146). -/
theorem evalWatch_watch {s : State} {e : EntryIdx} {n : WatchIdx} {c : Bool}
    (h : isEvaluated s e (s.watch n) = true) (hw : (s.watch n).word.toNat < (s.entry e).inLen.toNat)
    (hc : (s.watch n).candidateFor (wordAt (s.image e).input (s.watch n).word.toNat) = some c) :
    (evalWatch e n s).watch n =
      if (s.watch n).firesOn c = true then ((s.watch n).count c).raiseFires else (s.watch n).count c := by
  unfold evalWatch
  simp only [h, hw, hc, decide_true, Bool.and_self, if_true]
  split
  · simp only [State.watch, fire_watches]
    simp [State.setWatch]
  · simp

/-! ### Frames -/

theorem wordBytes_length (l : List Word) : (l.flatMap wordBytes).length = 2 * l.length := by
  induction l with
  | nil => rfl
  | cons a t ih =>
    rw [List.flatMap_cons, List.length_append, ih]
    simp [wordBytes]
    omega

/-- The words come back from their bytes (R59, R60). -/
theorem bytesWords_wordBytes (l : List Word) : bytesWords (l.flatMap wordBytes) = l := by
  induction l with
  | nil => rfl
  | cons a t ih =>
    rw [List.flatMap_cons]
    show (highByte a ++ lowByte a) :: bytesWords (t.flatMap wordBytes) = a :: t
    rw [ih]
    congr 1
    unfold highByte lowByte
    apply BitVec.eq_of_getLsbD_eq
    intro i hi
    simp only [BitVec.getLsbD_append, BitVec.getLsbD_extractLsb']
    by_cases h : i < 8
    · simp [h]
    · simp [h, show i - 8 < 8 by omega, show 8 + (i - 8) = i by omega]

end Sys2Proof.Machine
end

