-- ==== Sys2Proof/Laws/HostData.lean ====
section
/-! SUPPORT. What the host program has written is kept by every single change of which the line and the durations are
made. -/

namespace Sys2Proof.Machine

theorem SameConfig.refl (x : Entry) : SameConfig x x := ⟨rfl, rfl, rfl, rfl, rfl, rfl, rfl, rfl, rfl⟩

theorem SameConfig.trans {x y z : Entry} (h : SameConfig x y) (k : SameConfig y z) : SameConfig x z := by
  obtain ⟨a1, a2, a3, a4, a5, a6, a7, a8, a9⟩ := h
  obtain ⟨b1, b2, b3, b4, b5, b6, b7, b8, b9⟩ := k
  exact ⟨a1.trans b1, a2.trans b2, a3.trans b3, a4.trans b4, a5.trans b5, a6.trans b6, a7.trans b7, a8.trans b8,
    a9.trans b9⟩

theorem SameWatchConfig.refl (x : Watch) : SameWatchConfig x x := by cases x; rfl

theorem SameWatchConfig.trans {x y z : Watch} (h : SameWatchConfig x y) (k : SameWatchConfig y z) :
    SameWatchConfig x z := by
  unfold SameWatchConfig at *
  rw [h] at k
  exact k

/-! ### Entries and watches -/

theorem toggleSuccess_config (x : Entry) (k : CallKind) : SameConfig x (x.toggleSuccess k) := by
  unfold Entry.toggleSuccess
  split_ifs <;> exact .refl x

theorem linkSuccess_config (x : Entry) (k : CallKind) : SameConfig x (x.linkSuccess k) := by
  unfold Entry.linkSuccess
  split <;> (try split_ifs) <;> exact .refl x

theorem resyncFailure_config (x : Entry) (k : CallKind) : SameConfig x (x.resyncFailure k) := by
  unfold Entry.resyncFailure
  split_ifs <;> exact .refl x

theorem linkFailure_config (x : Entry) : SameConfig x x.linkFailure := by
  unfold Entry.linkFailure
  split <;> exact .refl x

theorem count_config (w : Watch) (c : Bool) : SameWatchConfig w (w.count c) := by
  unfold Watch.count
  split_ifs <;> rfl

theorem count_raised_config (w : Watch) (c : Bool) : SameWatchConfig w (w.count c).raiseFires := by
  unfold Watch.count
  split_ifs <;> rfl

/-! ### Single changes -/

theorem HostDataKept.refl (s : State) : HostDataKept s s :=
  ⟨rfl, rfl, rfl, rfl, rfl, rfl, rfl, rfl, rfl, rfl, rfl, rfl, fun _ => .refl _, fun _ => .refl _⟩

theorem HostDataKept.trans {s t u : State} (h : HostDataKept s t) (k : HostDataKept t u) : HostDataKept s u := by
  obtain ⟨a1, a2, a3, a4, a5, a6, a7, a8, a9, a10, a11, a12, a13, a14⟩ := h
  obtain ⟨b1, b2, b3, b4, b5, b6, b7, b8, b9, b10, b11, b12, b13, b14⟩ := k
  exact ⟨b1.trans a1, b2.trans a2, b3.trans a3, b4.trans a4, b5.trans a5, b6.trans a6, b7.trans a7, b8.trans a8,
    b9.trans a9, b10.trans a10, b11.trans a11, b12.trans a12, fun e => (a13 e).trans (b13 e),
    fun n => (a14 n).trans (b14 n)⟩

/-- A change that leaves the roster, the watches and all that the host program writes, and offers at most one event. -/
theorem HostDataKept.of_fields {s t : State} (h1 : t.roster = s.roster) (h2 : t.watches = s.watches)
    (h3 : t.cfg = s.cfg ∧ t.selector = s.selector ∧ t.freeze = s.freeze ∧ t.port = s.port
      ∧ t.resetHeld = s.resetHeld ∧ t.pending = s.pending)
    (h4 : t.errand.staging = s.errand.staging) (h5 : t.events = s.events ∨ ∃ c p, t.events = s.events.take c p) :
    HostDataKept s t := by
  obtain ⟨c1, c2, c3, c4, c5, c6⟩ := h3
  have hc : t.events.filter = s.events.filter ∧ t.events.threshold = s.events.threshold
      ∧ t.events.coalescing = s.events.coalescing ∧ t.events.globalIrq = s.events.globalIrq
      ∧ t.events.faultIrq = s.events.faultIrq := by
    rcases h5 with h | ⟨c, p, h⟩ <;> rw [h]
    · exact ⟨rfl, rfl, rfl, rfl, rfl⟩
    · exact take_controls ..
  refine ⟨c1, c2, c3, h4, c4, c5, c6, hc.1, hc.2.1, hc.2.2.1, hc.2.2.2.1, hc.2.2.2.2, fun e => ?_, fun n => ?_⟩
  · unfold State.entry; rw [h1]; exact .refl _
  · unfold State.watch; rw [h2]; exact .refl _

theorem HostDataKept.of_entry {s : State} {e : EntryIdx} {x : Entry} (h : SameConfig (s.entry e) x) :
    HostDataKept s (s.setEntry e x) := by
  refine ⟨rfl, rfl, rfl, rfl, rfl, rfl, rfl, rfl, rfl, rfl, rfl, rfl, fun f => ?_, fun _ => .refl _⟩
  rw [entry_setEntry]
  split
  · rename_i hf; subst hf; exact h
  · exact .refl _

theorem HostDataKept.of_watch {s : State} {n : WatchIdx} {x : Watch} (h : SameWatchConfig (s.watch n) x) :
    HostDataKept s (s.setWatch n x) := by
  refine ⟨rfl, rfl, rfl, rfl, rfl, rfl, rfl, rfl, rfl, rfl, rfl, rfl, fun _ => .refl _, fun m => ?_⟩
  rw [watch_setWatch]
  split
  · rename_i hm; subst hm; exact h
  · exact .refl _

theorem HostDataKept.post (p : Post) (s : State) : HostDataKept s (post p s) :=
  .of_fields rfl rfl ⟨rfl, rfl, rfl, rfl, rfl, rfl⟩ rfl (.inr ⟨_, _, rfl⟩)

theorem HostDataKept.forgetWatches (e : EntryIdx) (s : State) : HostDataKept s (forgetWatches e s) := by
  refine ⟨rfl, rfl, rfl, rfl, rfl, rfl, rfl, rfl, rfl, rfl, rfl, rfl, fun _ => .refl _, fun n => ?_⟩
  rw [watch_forgetWatches]
  split
  · rfl
  · exact .refl _

theorem HostDataKept.postLinkChange (e : EntryIdx) (o n : LinkState) (s : State) :
    HostDataKept s (postLinkChange e o n s) := by
  unfold Machine.postLinkChange
  split
  · exact .refl s
  · exact .post _ _

theorem HostDataKept.applySuccess (e : EntryIdx) (k : CallKind) (s : State) : HostDataKept s (applySuccess e k s) :=
  .trans (.of_entry ((toggleSuccess_config _ k).trans (linkSuccess_config _ k))) (.postLinkChange ..)

theorem HostDataKept.applyFailure (e : EntryIdx) (k : CallKind) (s : State) : HostDataKept s (applyFailure e k s) := by
  have hx : SameConfig (s.entry e) ((s.entry e).resyncFailure k).raiseFailed := resyncFailure_config _ k
  unfold Machine.applyFailure
  dsimp only
  split
  · refine .trans (.of_entry (x := ((s.entry e).resyncFailure k).raiseFailed.lose) hx) ?_
    refine .trans (t := removeAttention e (s.setEntry e ((s.entry e).resyncFailure k).raiseFailed.lose)) ?_ ?_
    · exact .of_fields rfl rfl ⟨rfl, rfl, rfl, rfl, rfl, rfl⟩ rfl (.inl rfl)
    · refine .trans (.forgetWatches e _) (.trans ?_ (.post ..))
      exact .of_fields rfl rfl ⟨rfl, rfl, rfl, rfl, rfl, rfl⟩ rfl (.inl rfl)
  · exact .trans (.of_entry (hx.trans (linkFailure_config _))) (.postLinkChange ..)

theorem HostDataKept.fire (n : WatchIdx) (w : Watch) (c : Bool) (o : Word) (e : EntryIdx) (s : State) :
    HostDataKept s (fire n w c o e s) := by
  have hp : HostDataKept s (if w.actPost then Machine.post (watchPost n c o e) s else s) :=
    rel_ite (.post _ s) (.refl s)
  unfold Machine.fire
  dsimp only
  refine .trans hp ?_
  generalize (if w.actPost then Machine.post (watchPost n c o e) s else s) = t
  have hh : HostDataKept t (if w.actHold then t.setSeq (t.seq.hold n) else t) :=
    rel_ite (.of_fields rfl rfl ⟨rfl, rfl, rfl, rfl, rfl, rfl⟩ rfl (.inl rfl)) (.refl t)
  refine .trans hh ?_
  generalize (if w.actHold then t.setSeq (t.seq.hold n) else t) = u
  refine rel_ite ?_ (.refl u)
  unfold drive
  split
  · exact .of_fields rfl rfl ⟨rfl, rfl, rfl, rfl, rfl, rfl⟩ rfl (.inl rfl)
  · exact .refl u

theorem HostDataKept.evalWatch (e : EntryIdx) (n : WatchIdx) (s : State) : HostDataKept s (evalWatch e n s) := by
  unfold Machine.evalWatch
  dsimp only
  split
  · split
    · exact .refl s
    · split
      · exact .trans (.of_watch (count_raised_config _ _)) (.fire ..)
      · exact .of_watch (count_config _ _)
  · exact .refl s

/-- Every single change keeps what the host program has written, so every run of them does. -/
theorem HostDataKept.moves : AnswerMoves HostDataKept where
  refl := .refl
  trans := .trans
  post := .post
  seq _ _ _ := .of_fields rfl rfl ⟨rfl, rfl, rfl, rfl, rfl, rfl⟩ rfl (.inl rfl)
  probe _ _ _ _ := .of_entry (.refl _)
  request s role e k := by
    rw [requestTry_visit]
    exact .of_fields rfl rfl ⟨rfl, rfl, rfl, rfl, rfl, rfl⟩ rfl (.inl rfl)
  noLink _ _ _ _ := .of_fields rfl rfl ⟨rfl, rfl, rfl, rfl, rfl, rfl⟩ rfl (.inr ⟨_, _, rfl⟩)
  budget _ _ := .of_fields rfl rfl ⟨rfl, rfl, rfl, rfl, rfl, rfl⟩ rfl (.inl rfl)
  pickErrand _ _ _ _ := .of_fields rfl rfl ⟨rfl, rfl, rfl, rfl, rfl, rfl⟩ rfl (.inl rfl)
  pickAttention _ _ _ _ := .of_fields rfl rfl ⟨rfl, rfl, rfl, rfl, rfl, rfl⟩ rfl (.inl rfl)
  headWait s := by
    unfold advanceHeadWait
    split
    · exact .refl s
    · exact ⟨rfl, rfl, rfl, rfl, rfl, rfl, rfl, rfl, rfl, rfl, rfl, rfl, fun _ => .refl _, fun _ => .refl _⟩
  ages s := .of_fields (by simp) (by simp) (by simp) (by simp) (.inl (by simp))
  cycleStart s := .of_fields (by simp) (by simp) (by simp) (by simp) (.inl (by simp))
  requestSync s := by
    rw [requestTry_sync]
    exact .of_fields rfl rfl ⟨rfl, rfl, rfl, rfl, rfl, rfl⟩ rfl (.inl rfl)
  lineJob _ := .of_fields rfl rfl ⟨rfl, rfl, rfl, rfl, rfl, rfl⟩ rfl (.inl rfl)
  tally _ _ _ := .of_fields rfl rfl ⟨rfl, rfl, rfl, rfl, rfl, rfl⟩ rfl (.inl rfl)
  failure s e k := .applyFailure e k s
  clearFresh _ _ := .of_fields rfl rfl ⟨rfl, rfl, rfl, rfl, rfl, rfl⟩ rfl (.inl rfl)
  complete _ _ _ := .of_fields rfl rfl ⟨rfl, rfl, rfl, rfl, rfl, rfl⟩ rfl (.inr ⟨_, _, rfl⟩)
  attnRemove _ _ := .of_fields rfl rfl ⟨rfl, rfl, rfl, rfl, rfl, rfl⟩ rfl (.inl rfl)
  line _ _ := .of_fields rfl rfl ⟨rfl, rfl, rfl, rfl, rfl, rfl⟩ rfl (.inl rfl)
  seqAny _ _ _ := .of_fields rfl rfl ⟨rfl, rfl, rfl, rfl, rfl, rfl⟩ rfl (.inl rfl)
  retries _ _ := .of_entry (.refl _)
  resync _ _ _ := .of_entry (.refl _)
  mark _ := .of_fields rfl rfl ⟨rfl, rfl, rfl, rfl, rfl, rfl⟩ rfl (.inl rfl)
  success s e k := .applySuccess e k s
  commitInput _ _ _ _ := .of_fields rfl rfl ⟨rfl, rfl, rfl, rfl, rfl, rfl⟩ rfl (.inl rfl)
  evalWatch s e n := .evalWatch e n s
  completeGood _ _ _ := .of_fields rfl rfl ⟨rfl, rfl, rfl, rfl, rfl, rfl⟩ rfl (.inr ⟨_, _, rfl⟩)
  attnAppend _ _ := .of_fields rfl rfl ⟨rfl, rfl, rfl, rfl, rfl, rfl⟩ rfl (.inl rfl)

end Sys2Proof.Machine
end

