-- ==== Sys2Proof/Laws/Keeps.lean ====
section
/-! SUPPORT. The laws of the event queue and of the roster, kept by every single change of which the line and the durations
are made. -/

namespace Sys2Proof.Machine

/-- A property kept from one state to the next. -/
def Keeps (P : State → Prop) (s t : State) : Prop := P s → P t

/-! ### The event queue -/

/-- The sequence numbers of a queue are consecutive and end just below n (R154). -/
def Consecutive (l : List EventRecord) (n : Word) : Prop :=
  ∀ i (h : i < l.length), l[i].seq = n - BitVec.ofNat 16 (l.length - i)

/-- A record with the next number keeps them consecutive. -/
theorem Consecutive.append {l : List EventRecord} {n : Word} (h : Consecutive l n) {r : EventRecord} (hr : r.seq = n) :
    Consecutive (l ++ [r]) (n + 1#16) := by
  intro i hi
  rw [List.length_append, List.length_singleton] at *
  by_cases hx : i < l.length
  · rw [List.getElem_append_left hx, h i hx]
    apply BitVec.eq_of_toNat_eq
    simp
    omega
  · have hn : i = l.length := by omega
    subst hn
    rw [List.getElem_append_right (by omega)]
    simp [hr]

/-- So does the loss of the head. -/
theorem Consecutive.tail {l : List EventRecord} {n : Word} (h : Consecutive l n) : Consecutive l.tail n := by
  cases l with
  | nil => exact h
  | cons r rest =>
    intro i hi
    have := h (i + 1) (by simp at *; omega)
    simpa using this

/-- The law of the event queue, of the event unit alone. -/
structure EventUnit.Lawful (u : EventUnit) : Prop where
  length : u.queue.length ≤ Config.queueCapacity
  dropped : u.dropped ≠ 0#8 → u.queue.length = Config.queueCapacity
  headWait : u.queue = [] → u.headWait = 0#8
  seq : Consecutive u.queue u.nextSeq

theorem eventLaw_iff (s : State) : EventLaw s ↔ s.events.Lawful :=
  ⟨fun h => ⟨h.1, h.2.1, h.2.2.1, fun i hi => h.2.2.2 ⟨i, hi⟩⟩,
    fun h => ⟨h.length, h.dropped, h.headWait, fun i => h.seq i.val i.isLt⟩⟩

/-- A record entered at the tail keeps the law (R154, R156). -/
theorem enqueue_lawful {u : EventUnit} (h : u.Lawful) (hl : u.queue.length < Config.queueCapacity) (c : Word)
    (p : Post) : (u.enqueue c p).Lawful where
  length := by simp [EventUnit.enqueue]; omega
  dropped hd := absurd (h.dropped hd) (by omega)
  headWait := by simp [EventUnit.enqueue]
  seq := h.seq.append rfl

/-- POP keeps the law (R158, R159). -/
theorem popHead_lawful {u : EventUnit} (h : u.Lawful) (c : Word) : (u.popHead c).Lawful := by
  have hlen := h.length
  have hcap : Config.queueCapacity = 32 := rfl
  unfold EventUnit.popHead
  dsimp only
  split
  · rename_i hd
    exact ⟨by simp; omega, fun hn => absurd hd hn, fun _ => rfl, h.seq.tail⟩
  · rename_i hd
    have := h.dropped hd
    exact ⟨by simp [EventUnit.enqueue]; omega, fun hn => absurd rfl hn, by simp [EventUnit.enqueue],
      h.seq.tail.append rfl⟩

theorem take_lawful {u : EventUnit} (h : u.Lawful) (c : Word) (p : Post) : (u.take c p).Lawful := by
  rcases take_cases u c p with ⟨_, e⟩ | ⟨_, hl, e⟩ | ⟨_, hl, e⟩ <;> rw [e]
  · exact h
  · exact enqueue_lawful h hl c p
  · exact ⟨h.length, fun _ => Nat.le_antisymm h.length hl, h.headWait, h.seq⟩

/-- A change that offers at most one event keeps the law of the queue. -/
theorem EventLaw.of_fields {s t : State} (h : t.events = s.events ∨ ∃ c p, t.events = s.events.take c p) :
    Keeps EventLaw s t := by
  intro hs
  rw [eventLaw_iff] at *
  rcases h with h | ⟨c, p, h⟩ <;> rw [h]
  · exact hs
  · exact take_lawful hs c p

theorem EventLaw.headWait (s : State) : Keeps EventLaw s (advanceHeadWait s) := by
  intro hs
  unfold advanceHeadWait
  split
  · exact hs
  · exact ⟨hs.1, hs.2.1, fun h => absurd h ‹_›, hs.2.2.2⟩

theorem postLinkChange_events (e : EntryIdx) (o n : LinkState) (s : State) :
    (postLinkChange e o n s).events = s.events ∨ ∃ c p, (postLinkChange e o n s).events = s.events.take c p := by
  unfold postLinkChange
  split
  · exact .inl rfl
  · exact .inr ⟨_, _, rfl⟩

theorem fire_events (n : WatchIdx) (w : Watch) (c : Bool) (o : Word) (e : EntryIdx) (s : State) :
    (fire n w c o e s).events = s.events ∨ ∃ d p, (fire n w c o e s).events = s.events.take d p := by
  unfold fire drive
  dsimp only
  split_ifs <;> (try split) <;> first | exact .inl rfl | exact .inr ⟨_, _, rfl⟩

theorem evalWatch_events (e : EntryIdx) (n : WatchIdx) (s : State) :
    (evalWatch e n s).events = s.events ∨ ∃ d p, (evalWatch e n s).events = s.events.take d p := by
  unfold evalWatch
  dsimp only
  split
  · split
    · exact .inl rfl
    · split
      · exact fire_events ..
      · exact .inl rfl
  · exact .inl rfl

/-- Every single change keeps the law of the event queue, so every run of them does. -/
theorem EventLaw.moves : AnswerMoves (Keeps EventLaw) where
  refl _ h := h
  trans h k a := k (h a)
  post _ _ := .of_fields (.inr ⟨_, _, rfl⟩)
  seq _ _ _ := .of_fields (.inl rfl)
  probe _ _ _ _ := .of_fields (.inl rfl)
  request s role e k := by rw [requestTry_visit]; exact .of_fields (.inl rfl)
  noLink _ _ _ _ := .of_fields (.inr ⟨_, _, rfl⟩)
  budget _ _ := .of_fields (.inl rfl)
  pickErrand _ _ _ _ := .of_fields (.inl rfl)
  pickAttention _ _ _ _ := .of_fields (.inl rfl)
  headWait := .headWait
  ages s := .of_fields (.inl (by simp))
  cycleStart s := .of_fields (.inl (by simp))
  requestSync s := by rw [requestTry_sync]; exact .of_fields (.inl rfl)
  lineJob _ := .of_fields (.inl rfl)
  tally _ _ _ := .of_fields (.inl rfl)
  failure s e k := by
    unfold applyFailure
    dsimp only
    split
    · exact .of_fields (.inr ⟨_, _, rfl⟩)
    · exact .of_fields (postLinkChange_events ..)
  clearFresh _ _ := .of_fields (.inl rfl)
  complete _ _ _ := .of_fields (.inr ⟨_, _, rfl⟩)
  attnRemove _ _ := .of_fields (.inl rfl)
  line _ _ := .of_fields (.inl rfl)
  seqAny _ _ _ := .of_fields (.inl rfl)
  retries _ _ := .of_fields (.inl rfl)
  resync _ _ _ := .of_fields (.inl rfl)
  mark _ := .of_fields (.inl rfl)
  success s e k := .of_fields (postLinkChange_events ..)
  commitInput _ _ _ _ := .of_fields (.inl rfl)
  evalWatch s e n := .of_fields (evalWatch_events ..)
  completeGood _ _ _ := .of_fields (.inr ⟨_, _, rfl⟩)
  attnAppend _ _ := .of_fields (.inl rfl)

/-! ### The roster -/

/-- An entry replaced by a lawful one that keeps its address and is OFF if it was keeps the laws of the roster. -/
theorem RosterLaw.of_entry {s : State} {e : EntryIdx} {x : Entry} (hx : (s.entry e).Lawful → x.Lawful)
    (ha : x.address = (s.entry e).address) (hl : (s.entry e).link = .off → x.link = .off) :
    Keeps RosterLaw s (s.setEntry e x) := by
  intro h
  refine ⟨fun f => ?_, fun f g hfg hf hg => ?_⟩
  · rw [entry_setEntry]
    split
    · exact hx (h.1 e)
    · exact h.1 f
  · have key : ∀ f, ((s.setEntry e x).entry f).link ≠ .off →
        (s.entry f).link ≠ .off ∧ ((s.setEntry e x).entry f).address = (s.entry f).address := by
      intro f hf
      rw [entry_setEntry] at hf ⊢
      by_cases hfe : f = e
      · subst hfe
        rw [if_pos rfl] at hf ⊢
        exact ⟨fun ho => hf (hl ho), ha⟩
      · rw [if_neg hfe] at hf ⊢
        exact ⟨hf, rfl⟩
    rw [(key f hf).2, (key g hg).2]
    exact h.2 f g hfg (key f hf).1 (key g hg).1

/-- A change that leaves the roster keeps its laws. -/
theorem RosterLaw.of_roster {s t : State} (h : t.roster = s.roster) : Keeps RosterLaw s t := by
  intro hs
  unfold RosterLaw AddressesDistinct State.entry at *
  rw [h]
  exact hs

/-- A valid entry has a loss limit of 1 or more and below 16 (R4). -/
theorem valid_lossLimit {x : Entry} (h : x.valid = true) : 1 ≤ x.lossLimit.toNat := by
  simp only [Entry.valid, Bool.and_eq_true, decide_eq_true_eq] at h
  omega

theorem valid_of_config {x y : Entry} (h : SameConfig x y) (hv : x.valid = true) : y.valid = true := by
  obtain ⟨h1, h2, h3, h4, h5, h6, h7, -, -⟩ := h
  unfold Entry.valid at *
  rw [← h1, ← h2, ← h3, ← h4, ← h5, ← h6, ← h7]
  exact hv

/-- The link states after a success (R11, R12, R13, R15). -/
theorem success_lawful {x : Entry} (h : x.Lawful) (k : CallKind) : ((x.toggleSuccess k).linkSuccess k).Lawful := by
  have ht : (x.toggleSuccess k).link = x.link ∧ (x.toggleSuccess k).miss = x.miss
      ∧ (x.toggleSuccess k).lossLimit = x.lossLimit ∧ (x.toggleSuccess k).probe = x.probe
      ∧ (x.toggleSuccess k).valid = x.valid := by
    unfold Entry.toggleSuccess
    split_ifs <;> exact ⟨rfl, rfl, rfl, rfl, rfl⟩
  obtain ⟨t1, t2, t3, t4, t5⟩ := ht
  have hy : (x.toggleSuccess k).Lawful := by
    unfold Entry.Lawful
    rw [t1, t2, t3, t4, t5]
    exact h
  generalize x.toggleSuccess k = y at hy
  obtain ⟨h1, h2, h3, h4, h5, h6, h7⟩ := hy
  have hv : ∀ z : Entry, SameConfig y z → y.link ≠ .off → z.valid = true := fun z hz hn =>
    valid_of_config hz (h6 hn)
  unfold Entry.linkSuccess
  split
  · exact ⟨h1, h2, h3, h4, h5, h6, h7⟩
  · rename_i hl
    split
    · refine ⟨nofun, nofun, fun _ => ?_, nofun, nofun, fun _ => hv _ ⟨rfl, rfl, rfl, rfl, rfl, rfl, rfl, rfl, rfl⟩ ?_,
        fun _ => rfl⟩
      · exact valid_lossLimit (h6 (by rw [hl]; nofun))
      · rw [hl]; nofun
    · exact ⟨h1, h2, h3, h4, h5, h6, h7⟩
  all_goals
    rename_i hl
    refine ⟨nofun, fun _ => rfl, nofun, nofun, nofun, fun _ => hv _ ⟨rfl, rfl, rfl, rfl, rfl, rfl, rfl, rfl, rfl⟩ ?_,
      fun _ => h7 ?_⟩
    · rw [hl]; nofun
    · rw [hl]; nofun

/-- The link states after a failure that loses the link (R14). -/
theorem lose_lawful {x : Entry} (hv : x.valid = true) : x.lose.Lawful :=
  ⟨nofun, nofun, nofun, nofun, fun _ => rfl, fun _ => hv, fun h => absurd rfl h⟩

/-- The link states after a failure that does not (R11, R12, R13, R15). -/
theorem failure_lawful {x : Entry} (h : x.Lawful) (hn : x.losesNow = false) : x.linkFailure.Lawful := by
  obtain ⟨h1, h2, h3, h4, h5, h6, h7⟩ := h
  have hlt := x.lossLimit.isLt
  have hm := x.miss.isLt
  unfold Entry.linkFailure
  unfold Entry.losesNow at hn
  split
  · exact ⟨h1, h2, h3, h4, h5, h6, h7⟩
  · exact ⟨h1, h2, h3, h4, h5, h6, h7⟩
  · rename_i hl
    simp only [hl, decide_eq_false_iff_not] at hn
    have := h3 hl
    refine ⟨fun h => ?_, fun h => ?_, fun _ => ?_, fun h => ?_, fun h => ?_, fun _ => h6 (by rw [hl]; nofun),
      fun _ => h7 (by rw [hl]; nofun)⟩
    · simp [hl] at h
    · simp [hl] at h
    · simp only [BitVec.toNat_add, BitVec.toNat_ofNat]; omega
    · simp [hl] at h
    · simp [hl] at h
  · rename_i hl
    simp only [hl, decide_eq_false_iff_not] at hn
    have hv := valid_lossLimit (h6 (by rw [hl]; nofun))
    have hne : x.lossLimit.toNat ≠ 1 := fun h => hn (BitVec.eq_of_toNat_eq h)
    refine ⟨nofun, nofun, nofun, fun _ => ⟨Nat.le_refl 1, ?_⟩, nofun, fun _ => h6 (by rw [hl]; nofun),
      fun _ => h7 (by rw [hl]; nofun)⟩
    show 1 < x.lossLimit.toNat
    omega
  · rename_i hl
    simp only [hl, decide_eq_false_iff_not] at hn
    have := h4 hl
    refine ⟨fun h => ?_, fun h => ?_, fun h => ?_, fun _ => ?_, fun h => ?_, fun _ => h6 (by rw [hl]; nofun),
      fun _ => h7 (by rw [hl]; nofun)⟩
    · simp [hl] at h
    · simp [hl] at h
    · simp [hl] at h
    · simp only [BitVec.toNat_add, BitVec.toNat_ofNat]; omega
    · simp [hl] at h

/-- The resync flag and the counters have no part in the laws of an entry. -/
theorem resyncFailure_lawful {x : Entry} (h : x.Lawful) (k : CallKind) : (x.resyncFailure k).raiseFailed.Lawful := by
  unfold Entry.resyncFailure
  split_ifs <;> exact h

theorem resyncFailure_link (x : Entry) (k : CallKind) :
    (x.resyncFailure k).raiseFailed.link = x.link ∧ (x.resyncFailure k).raiseFailed.address = x.address
      ∧ (x.resyncFailure k).raiseFailed.losesNow = x.losesNow ∧ (x.resyncFailure k).raiseFailed.valid = x.valid := by
  unfold Entry.resyncFailure
  split_ifs <;> exact ⟨rfl, rfl, rfl, rfl⟩

theorem linkSuccess_off (x : Entry) (k : CallKind) (h : x.link = .off) :
    ((x.toggleSuccess k).linkSuccess k).link = .off := by
  have ht : (x.toggleSuccess k).link = .off := by
    unfold Entry.toggleSuccess
    split_ifs <;> exact h
  unfold Entry.linkSuccess
  simp [ht]

theorem linkFailure_off {x : Entry} (h : x.link = .off) : x.linkFailure.link = .off := by
  unfold Entry.linkFailure
  simp [h]

theorem success_address (x : Entry) (k : CallKind) : ((x.toggleSuccess k).linkSuccess k).address = x.address := by
  have ht : (x.toggleSuccess k).address = x.address := by
    unfold Entry.toggleSuccess
    split_ifs <;> rfl
  unfold Entry.linkSuccess
  split <;> (try split) <;> exact ht

theorem linkFailure_address (x : Entry) : x.linkFailure.address = x.address := by
  unfold Entry.linkFailure
  split <;> rfl

theorem losesNow_not_off {x : Entry} (h : x.losesNow = true) : x.link ≠ .off := by
  intro hl
  simp [Entry.losesNow, hl] at h

theorem RosterLaw.applySuccess (e : EntryIdx) (k : CallKind) (s : State) : Keeps RosterLaw s (applySuccess e k s) := by
  have h := RosterLaw.of_entry (s := s) (e := e) (x := ((s.entry e).toggleSuccess k).linkSuccess k)
    (fun hx => success_lawful hx k) (success_address _ k) (linkSuccess_off _ k)
  intro hs
  refine RosterLaw.of_roster (s := s.setEntry e (((s.entry e).toggleSuccess k).linkSuccess k)) ?_ (h hs)
  unfold Machine.applySuccess postLinkChange
  dsimp only
  split <;> rfl

theorem RosterLaw.applyFailure (e : EntryIdx) (k : CallKind) (s : State) : Keeps RosterLaw s (applyFailure e k s) := by
  obtain ⟨h1, h2, h3, h4⟩ := resyncFailure_link (s.entry e) k
  intro hs
  unfold Machine.applyFailure
  dsimp only
  split
  · rename_i hn
    have hne := losesNow_not_off hn
    have h := RosterLaw.of_entry (s := s) (e := e) (x := ((s.entry e).resyncFailure k).raiseFailed.lose)
      (fun hx => lose_lawful (h4.trans (hx.2.2.2.2.2.1 hne))) h2 (fun ho => absurd ho hne)
    exact RosterLaw.of_roster (s := s.setEntry e ((s.entry e).resyncFailure k).raiseFailed.lose) rfl (h hs)
  · rename_i hn
    have hn' : ((s.entry e).resyncFailure k).raiseFailed.losesNow = false := by rw [h3]; simpa using hn
    have h := RosterLaw.of_entry (s := s) (e := e) (x := ((s.entry e).resyncFailure k).raiseFailed.linkFailure)
      (fun hx => failure_lawful (resyncFailure_lawful hx k) hn') ((linkFailure_address _).trans h2)
      (fun ho => linkFailure_off (h1.trans ho))
    refine RosterLaw.of_roster (s := s.setEntry e ((s.entry e).resyncFailure k).raiseFailed.linkFailure) ?_ (h hs)
    unfold postLinkChange
    split <;> rfl

theorem evalWatch_roster (e : EntryIdx) (n : WatchIdx) (s : State) : (evalWatch e n s).roster = s.roster := by
  unfold evalWatch fire drive
  dsimp only
  split
  · split
    · rfl
    · split_ifs <;> (try split) <;> rfl
  · rfl

/-- Every single change keeps the laws of the roster, so every run of them does. -/
theorem RosterLaw.moves : AnswerMoves (Keeps RosterLaw) where
  refl _ h := h
  trans h k a := k (h a)
  post _ _ := .of_roster rfl
  seq _ _ _ := .of_roster rfl
  probe _ _ _ hl := .of_entry (fun h => ⟨h.1, h.2.1, h.2.2.1, h.2.2.2.1, h.2.2.2.2.1, h.2.2.2.2.2.1, fun hn => absurd hl hn⟩)
    rfl id
  request s role e k := by rw [requestTry_visit]; exact .of_roster rfl
  noLink _ _ _ _ := .of_roster rfl
  budget _ _ := .of_roster rfl
  pickErrand _ _ _ _ := .of_roster rfl
  pickAttention _ _ _ _ := .of_roster rfl
  headWait s := by
    unfold advanceHeadWait
    split
    · exact fun h => h
    · exact .of_roster rfl
  ages s := .of_roster (by simp)
  cycleStart s := .of_roster (by simp)
  requestSync s := by rw [requestTry_sync]; exact .of_roster rfl
  lineJob _ := .of_roster rfl
  tally _ _ _ := .of_roster rfl
  failure s e k := .applyFailure e k s
  clearFresh _ _ := .of_roster rfl
  complete _ _ _ := .of_roster rfl
  attnRemove _ _ := .of_roster rfl
  line _ _ := .of_roster rfl
  seqAny _ _ _ := .of_roster rfl
  retries _ _ := .of_entry id rfl id
  resync _ _ _ := .of_entry id rfl id
  mark _ := .of_roster rfl
  success s e k := .applySuccess e k s
  commitInput _ _ _ _ := .of_roster rfl
  evalWatch s e n := .of_roster (evalWatch_roster e n s)
  completeGood _ _ _ := .of_roster rfl
  attnAppend _ _ := .of_roster rfl

end Sys2Proof.Machine
end

