-- ==== Sys2Proof/Laws/Visits.lean ====
section
/-! SUPPORT. Once for each way a visit begins, waits and ends what the model does then, in the words of the statements; and
what TXD, the host bus and the check of a frame show. For later proofs to cite in place of unfolding. -/

namespace Sys2Proof.Machine

/-! ### Ends of tries -/

/-- Every command that ends a try ends it by `endTry`, with the receive path as the command leaves it (R58, R68, R69). -/
theorem tryEnds_exec {s : State} {v : Visit} {c : Instr} {o : TryOutcome} (h : TryEnds s v c o) :
    exec c s = .next (endTry v o (s.setLine { s.line with rx := rxAtEnd s c })) := by
  obtain ⟨hh, hj, hc⟩ := h
  have hv := visit_of_job hj
  have hvr : ∀ r, (setRx r s).visit = some v := fun r => visit_of_job (by simpa [setRx] using hj)
  cases c with
  | answerByte b f =>
    obtain ⟨bytes, late, he, hr⟩ := hc
    rw [exec_answerByte b f hh]
    simp only [answer, he, hv, hr, setRx, rxAtEnd, rxAfter]
  | answerDeadlineExpiry =>
    obtain ⟨rfl, hx, late, he⟩ := hc
    rw [exec_answerDeadlineExpiry hh]
    change _ = Host.Outcome.next (endTry v _ s)
    simp only [deadlinePasses, he, hx, if_false, endAnswer, hv]
  | interByteGapExpiry =>
    obtain ⟨rfl, hx, b, rest, late, he⟩ := hc
    rw [exec_interByteGapExpiry hh]
    change _ = Host.Outcome.next (endTry v _ s)
    simp only [gapPasses, he, hx, endAnswer, hv]
  | startBitSample l =>
    cases l with
    | low => exact hc.elim
    | high =>
      obtain ⟨hx, ⟨rfl, he⟩ | ⟨rfl, bytes, he⟩⟩ := hc <;> rw [exec_startBitSample .high hh] <;>
        simp only [sampleStart, hx, he, if_true, endAnswer, hvr] <;> rfl
  | _ => exact hc.elim

/-! ### Beginnings of visits -/

/-- A waiting visit that the rules let begin is begun (R116, R131). -/
theorem mayBegin_of_mayAsk {s : State} {role : Role} {e : EntryIdx} {k : CallKind} (h : MayAsk s role e k) :
    mayBegin s role e k = true := by
  cases role with
  | pass => rfl
  | errandResync j => simpa [mayBegin] using h.2
  | errandOwn j =>
    obtain ⟨kind, -, rfl, hl, hr⟩ := h
    rcases hr with rfl | hr
    · simp [mayBegin, hl, ErrandKind.call, CallKind.toggled]
    · simp [mayBegin, hl, hr]
  | attnResync => simpa [mayBegin] using h.2
  | attnOwn => simpa [mayBegin] using h.2

/-- The visit it begins is the one the rules describe (R6, R62, R63, R84, R116). -/
theorem startVisit_eq_begunVisit {s : State} {role : Role} {e : EntryIdx} {k : CallKind} (h : MayAsk s role e k) :
    startVisit s role e k = begunVisit s role e k := by
  have ht : visitToggle (s.entry e) k
      = ((decide (k = .read) || decide (k = .write) || decide (k = .attend)) && (s.entry e).nextToggle) := by
    cases k <;> rfl
  have hc : visitContent s role e k = askedContent s role e k := by
    cases role with
    | pass =>
      rcases h with rfl | rfl
      · cases hm : (s.entry e).commitMode <;> simp [visitContent, askedContent, Image.payload, firstWords, hm]
      · rfl
    | errandResync j => obtain ⟨rfl, -⟩ := h; rfl
    | errandOwn j =>
      obtain ⟨kind, hk, rfl, -⟩ := h
      cases kind <;> simp [visitContent, askedContent, Slot.content, ErrandKind.call, firstWords, hk]
    | attnResync => obtain ⟨rfl, -⟩ := h; rfl
    | attnOwn => obtain ⟨rfl, -⟩ := h; rfl
  simp only [startVisit, begunVisit, hc, ht]

/-- The head errand can be called unless its entry is OFF, or LOST for a READ or WRITE (R111). -/
theorem callable_iff {s : State} {x : Slot} {kind : ErrandKind} (hk : x.kind = some kind) :
    callable s x = true ↔ (s.entry x.entry).link ≠ .off ∧ (kind = .reset ∨ (s.entry x.entry).link ≠ .lost) := by
  cases kind <;> simp [callable, hk]

/-- An errand's call needs a resync RESET first when it is toggled and the entry is in doubt (R20, R114). -/
theorem needsResync_iff {s : State} {x : Slot} {kind : ErrandKind} (hk : x.kind = some kind) :
    needsResync s x = true ↔ kind ≠ .reset ∧ (s.entry x.entry).resync = true := by
  cases kind <;> simp [needsResync, hk]

/-! ### The roster pass -/

/-- The pass goes over an entry without a visit, raising the probe count of a considered LOST one (R7, R8). -/
theorem passOver_passedOver {s : State} {e : EntryIdx} {rest : List EntryIdx}
    (h : (s.entry e).PassedOver s.seq.cycle s.cfg.probeSpacing) :
    ∃ x, x = (s.entry e).passedOver s.seq.cycle ∧ passOver (e :: rest) s = passOver rest (s.setEntry e x) := by
  refine ⟨_, rfl, ?_⟩
  have same : s.setEntry e (s.entry e) = s := by simp [State.setEntry, State.entry]
  simp only [passOver, Entry.considered]
  by_cases hc : (s.entry e).ConsideredIn s.seq.cycle
  · rcases h with hl | hl | ⟨hl, hp⟩
    · simp [Entry.passedOver, hl, same]
    · exact absurd hc hl
    · have : ¬ probeSpacingOf s.cfg.probeSpacing ≤ (s.entry e).probe.toNat + 1 := by
        unfold probeSpacingOf; omega
      simp only [Entry.passedOver, hl, this, if_false, decide_eq_false_iff_not, true_and]
      rw [if_neg (not_not.mpr hc), if_pos hc]
  · simp [Entry.passedOver, hc, same]

/-- One index gone over: what holds of the pass from the next one on holds from it on. -/
theorem PassGoesOn.step {n : EntryIdx} {s t : State} (h : (s.entry n).PassedOver s.seq.cycle s.cfg.probeSpacing)
    (hp : PassGoesOn (n.val + 1) (s.setEntry n ((s.entry n).passedOver s.seq.cycle)) t) : PassGoesOn n.val s t := by
  have at_n : (s.setEntry n ((s.entry n).passedOver s.seq.cycle)).entry n = (s.entry n).passedOver s.seq.cycle := by simp
  have other : ∀ i, i ≠ n → (s.setEntry n ((s.entry n).passedOver s.seq.cycle)).entry i = s.entry i := by
    intro i hi; simp [hi]
  have later : ∀ i : EntryIdx, n.val + 1 ≤ i.val → i ≠ n := by rintro i hi rfl; omega
  have before : ∀ i : EntryIdx, i ≠ n → n.val ≤ i.val → n.val + 1 ≤ i.val := by
    intro i hi hn
    have : i.val ≠ n.val := fun hv => hi (Fin.ext hv)
    omega
  rcases hp with ⟨e, k, w, he, hv, ho, hw, hr, ht⟩ | ⟨ho, w, ht, hw, hr⟩
  · have hen : e ≠ n := later e he
    refine .inl ⟨e, k, w, by omega, by simpa [other e hen] using hv, fun i hi hie => ?_, hw, fun i => ?_, ht⟩
    · by_cases hin : i = n
      · subst hin; exact h
      · have := ho i (before i hin hi) hie
        rwa [other i hin] at this
    · rw [hr i]
      by_cases hin : i = n
      · subst hin
        have hlt : i < e := by
          have : i.val < e.val := by omega
          exact this
        simp [at_n, hlt, hen.symm]
      · have hiff : (n.val + 1 ≤ i.val ∧ i < e) ↔ (n.val ≤ i.val ∧ i < e) :=
          ⟨fun ⟨a, b⟩ => ⟨by omega, b⟩, fun ⟨a, b⟩ => ⟨before i hin a, b⟩⟩
        simp only [hiff, other i hin, other e hen, setEntry_seq]
  · refine .inr ⟨fun i hi => ?_, w, ht, hw, fun i => ?_⟩
    · by_cases hin : i = n
      · subst hin; exact h
      · have := ho i (before i hin hi)
        rwa [other i hin] at this
    · rw [hr i]
      by_cases hin : i = n
      · subst hin; simp [at_n]
      · have hiff : n.val + 1 ≤ i.val ↔ n.val ≤ i.val := ⟨fun a => by omega, before i hin⟩
        simp only [hiff, other i hin, setEntry_seq]

/-- An entry at which the pass makes a visit, and all it does there (R7, R8, R37). -/
theorem passFrom_visitedIn {s : State} {e : EntryIdx} {rest : List EntryIdx} {k : CallKind} (finish : State → State)
    (h : (s.entry e).VisitedIn s.seq.cycle s.cfg.probeSpacing k) :
    ∃ x, x = (if k = .reset then { s.entry e with probe := 0#4 } else s.entry e)
      ∧ passFrom finish (e :: rest) s
        = requestTry (.visit .pass e k) ((s.setEntry e x).setSeq { s.seq with passPos := e }) := by
  refine ⟨_, rfl, ?_⟩
  have same : s.setEntry e (s.entry e) = s := by simp [State.setEntry, State.entry]
  obtain ⟨hc, ⟨hl, rfl⟩ | ⟨hl, rfl, hp⟩⟩ := h
  · have hd : (s.entry e).considered s.seq.cycle = true := by simpa [Entry.considered] using hc
    have : passOver (e :: rest) s = (s, some (e, .exchange)) := by
      rcases hl with hl | hl | hl <;> simp [passOver, hd, hl]
    simp [passFrom, this, same]
  · have hd : (s.entry e).considered s.seq.cycle = true := by simpa [Entry.considered] using hc
    have hs : probeSpacingOf s.cfg.probeSpacing ≤ (s.entry e).probe.toNat + 1 := by
      unfold probeSpacingOf; omega
    have : passOver (e :: rest) s = (s.setEntry e { s.entry e with probe := 0#4 }, some (e, .reset)) := by
      simp only [passOver, hd, hl, hs, if_true, Bool.true_eq_false, if_false]
    simp [passFrom, this]

/-- Every entry is passed over or visited. -/
theorem passedOver_or_visitedIn (x : Entry) (c : Word) (spacing : BitVec 4) :
    x.PassedOver c spacing ∨ ∃ k, x.VisitedIn c spacing k := by
  by_cases hc : x.ConsideredIn c
  · cases hl : x.link with
    | off => exact .inl (.inl hl)
    | await => exact .inr ⟨.exchange, hc, .inl ⟨.inl hl, rfl⟩⟩
    | online => exact .inr ⟨.exchange, hc, .inl ⟨.inr (.inl hl), rfl⟩⟩
    | suspect => exact .inr ⟨.exchange, hc, .inl ⟨.inr (.inr hl), rfl⟩⟩
    | lost =>
      by_cases hp : max 1 spacing.toNat ≤ x.probe.toNat + 1
      · exact .inr ⟨.reset, hc, .inr ⟨hl, rfl, hp⟩⟩
      · exact .inl (.inr (.inr ⟨hl, by omega⟩))
  · exact .inl (.inr (.inl hc))

/-- The pass with no index left opens the window (R39, R110). -/
theorem passFrom_nil_goesOn {n : Nat} (hn : 40 ≤ n) (s : State) : PassGoesOn n s (passFrom endCycle [] s) := by
  have none_left : ∀ i : EntryIdx, ¬ n ≤ i.val := fun i => by omega
  exact .inr ⟨fun i hi => absurd hi (none_left i), _, rfl, rfl, fun i => (if_neg (none_left i)).symm⟩

/-- The pass taken up at index n is the one the statements speak of (R7, R8, R37, R39). -/
theorem passFrom_goesOn (n : Nat) (s : State) : PassGoesOn n s (passFrom endCycle (indicesFrom n) s) := by
  by_cases hn : 40 ≤ n
  · have : indicesFrom n = [] := List.drop_eq_nil_of_le (by simpa using hn)
    rw [this]
    exact passFrom_nil_goesOn hn s
  · obtain ⟨m, hm⟩ : ∃ m, n + m = 40 := ⟨40 - n, by omega⟩
    induction m generalizing n s with
    | zero => omega
    | succ m ih =>
      obtain ⟨e, rfl⟩ : ∃ e : EntryIdx, n = e.val := ⟨⟨n, by omega⟩, rfl⟩
      have hcons : indicesFrom e.val = e :: indicesFrom (e.val + 1) := by
        unfold indicesFrom
        rw [List.drop_eq_getElem_cons (by simp)]
        simp
      rw [hcons]
      rcases passedOver_or_visitedIn (s.entry e) s.seq.cycle s.cfg.probeSpacing with h | ⟨k, h⟩
      · obtain ⟨x, rfl, hx⟩ := passOver_passedOver (rest := indicesFrom (e.val + 1)) h
        have : passFrom endCycle (e :: indicesFrom (e.val + 1)) s
            = passFrom endCycle (indicesFrom (e.val + 1)) (s.setEntry e ((s.entry e).passedOver s.seq.cycle)) := by
          unfold passFrom
          rw [hx]
        rw [this]
        refine PassGoesOn.step h ?_
        by_cases hlast : 40 ≤ e.val + 1
        · have : indicesFrom (e.val + 1) = [] := List.drop_eq_nil_of_le (by simpa using hlast)
          rw [this]
          exact passFrom_nil_goesOn hlast _
        · exact ih _ _ hlast (by omega)
      · obtain ⟨x, hx, hp⟩ := passFrom_visitedIn (rest := indicesFrom (e.val + 1)) endCycle h
        rw [hp, requestTry_visit]
        have hk : MayAsk ((s.setEntry e x).setSeq { s.seq with passPos := e }) .pass e k := by
          rcases h.2 with ⟨-, hk⟩ | ⟨-, hk, -⟩
          · exact .inl hk
          · exact .inr hk
        rw [startVisit_eq_begunVisit hk]
        refine .inl ⟨e, k, _, Nat.le_refl _, h, fun i hi hie => absurd hi (Nat.not_le_of_lt hie), rfl, fun i => ?_, rfl⟩
        rw [if_neg (fun ⟨hi, hie⟩ => absurd hi (Nat.not_le_of_lt hie))]
        by_cases hie : i = e
        · subst hie
          simp [hx]
        · simp [hie]

/-! ### Cycles that begin and end in one step -/

theorem takeFlags_congr {a b : State → State} {s : State} (h : nextAtOnce s = false) : takeFlags a s = takeFlags b s := by
  simp [takeFlags, h]

/-- The end of a cycle that began in the same step is the cycle end all the same: no cycle follows it at once (R41, R42). -/
theorem endSameStepCycle_eq {s : State} (h1 : s.seq.missed = 0) (h2 : s.seq.freeMinPassed = false) :
    endSameStepCycle s = endCycle s := by
  have hw : (advanceHeadWait (advanceAges s)).seq = s.seq := by
    unfold advanceHeadWait
    split <;> simp
  unfold endSameStepCycle endCycle finishCycle
  refine takeFlags_congr ?_
  have ha : accountOverrun (post (cyclePost s.seq) (advanceHeadWait (advanceAges s)))
      = post (cyclePost s.seq) (advanceHeadWait (advanceAges s)) := by
    simp [accountOverrun, hw, h1]
  rw [ha]
  exact nextAtOnce_after_start (by simp [hw, h1]) (by simp [hw, h2])

theorem completeUncallable_seq (l : List SlotIdx) (s : State) : (completeUncallable l s).seq = s.seq := by
  induction l generalizing s with
  | nil => rfl
  | cons k rest ih =>
    unfold completeUncallable
    split
    · rfl
    · simp [ih]

theorem arbiterLook_sameStep {s : State} (h1 : s.seq.missed = 0) (h2 : s.seq.freeMinPassed = false) :
    arbiterLook endSameStepCycle s = arbiterLook endCycle s := by
  have hs := completeUncallable_seq s.errand.queue s
  have he := endSameStepCycle_eq (s := completeUncallable s.errand.queue s) (by rw [hs, h1]) (by rw [hs, h2])
  simp only [arbiterLook, he]

/-- So a pass that begins at a cycle start goes on as any other does (R35, R37). -/
theorem passFrom_sameStep {s : State} (h1 : s.seq.missed = 0) (h2 : s.seq.freeMinPassed = false) (l : List EntryIdx) :
    passFrom endSameStepCycle l s = passFrom endCycle l s := by
  have hp : (passOver l s).1.seq = s.seq := by
    induction l generalizing s with
    | nil => rfl
    | cons e rest ih =>
      simp only [passOver]
      split
      · exact ih h1 h2
      · split <;> (try split) <;> first | rfl | exact ih h1 h2
  unfold passFrom
  split
  · rfl
  · rename_i t heq
    replace hp : t.seq = s.seq := by rw [heq] at hp; exact hp
    exact arbiterLook_sameStep (by simp [hp, h1]) (by simp [hp, h2])

/-! ### TXD and the host bus -/

/-- TXD is high whenever no byte is being sent (R56). -/
theorem txd_of_none {s : State} (h : s.txByte = none) (i : Nat) : s.txd i = .high := by
  simp [State.txd, h]

/-- A write on the bus waits as the command it spells; a read and an access that is neither change nothing (R166). -/
theorem withAccess_cases (s : State) (cs rd wr : Level) (o : Offset) (v : Word) :
    (busAccess cs rd wr = .write ∧ s.withAccess cs rd wr o v = { s with pending := s.pending ++ [ofBusWrite o v] })
    ∨ (busAccess cs rd wr ≠ .write ∧ s.withAccess cs rd wr o v = s) := by
  cases h : busAccess cs rd wr <;> simp [State.withAccess, busCommand, h]

/-! ### The check of a frame (R61) -/

/-- One step of the register, a word added to it first: its top bit is the bit taken in. -/
theorem crcShift_xor (r y : Word) : crcShift (r ^^^ y) = crcBit r (y.getLsbD 15) ^^^ (y <<< 1) := by
  unfold crcShift crcBit
  simp only [BitVec.msb_eq_getLsbD_last, BitVec.getLsbD_xor, BitVec.shiftLeft_xor_distrib]
  cases r.getLsbD 15 <;> cases y.getLsbD 15 <;> simp [BitVec.xor_assoc, BitVec.xor_comm (y <<< 1)]

/-- A byte taken into the register is its eight bits taken in, the most significant first. -/
theorem crcByte_eq_bits (r : Word) (b : Byte) : crcByte r b = (checkBits [b]).foldl crcBit r := by
  have out : (b.setWidth 16 : Word) <<< 16 = 0#16 := BitVec.shiftLeft_eq_zero (Nat.le_refl 16)
  simp [crcByte, crcShift_xor, ← BitVec.shiftLeft_add, checkBits, List.range_succ, out]

/-- The check by bytes is the check by bits that the statements speak of. -/
theorem crc_eq_checkOf (covered : List Byte) : crc covered = checkOf covered := by
  unfold crc checkOf
  generalize 0xFFFF#16 = r
  induction covered generalizing r with
  | nil => rfl
  | cons b rest ih =>
    rw [List.foldl_cons, ih, crcByte_eq_bits, ← List.foldl_append]
    simp [checkBits]

end Sys2Proof.Machine
end

