-- ==== Sys2Proof/Tests/Slice0.lean ====
section
/-! SUPPORT. Tests. The smoke test of WellFormed; the command codes and the words of the window as the spec writes them;
steps whose results the spec states in its examples and tables; and one witness per statement of the obligations that
has hypotheses, at the boundary of each clause. Expected values are the spec's own, or worked out from it by hand. -/

namespace Sys2Proof.Tests

open Sys2Proof.Machine

-- The tests are many and each is small: one after another, so that no thread waits for each.
set_option Elab.async false

/-! ### Small states -/

/-- The state a command leaves. -/
def after (s : State) (c : Instr) : State :=
  match exec c s with
  | .next t => t
  | .fault _ => s
  | .refused _ => s

/-- A state with another argument word. -/
def withArg (n : Nat) (s : State) : State := s.setPort { s.port with argument := BitVec.ofNat 16 n }

/-- A state with entry 4 in a link state: address 17, retry limit 1, loss limit 3, out_len 1, in_len 2. -/
def withLink (l : LinkState) (s : State) : State :=
  s.setEntry 4 { Entry.reset with address := 17#8, outLen := 1#4, inLen := 2#4, link := l }

/-- A state with the sequencer in a state and a phase, in cycle 7. -/
def withSeq (q : SeqState) (p : Phase) (s : State) : State := s.setSeq { s.seq with state := q, phase := p, cycle := 7#16 }

/-- A visit to entry 4, station address 17. -/
def visitOf (role : Role) (k : CallKind) (toggle : Bool) : Visit :=
  { entry := 4, role := role, kind := k, address := 17#8, toggle := toggle, retryLimit := 1#3, outLen := 1#4,
    inLen := 2#4, frame := callFrame 17#8 k toggle {}, unaccepted := 0 }

/-- A cycle with a call in flight: the engine in a state, and entry 4 ONLINE. -/
def busyWith (g : Engine) (j : Job) (p : Phase) : State :=
  let s := withSeq .running p (withLink .online State.reset)
  s.setSeq { s.seq with passPos := 4 } |>.setLine { s.line with engine := g, job := some j }

/-- The EXCHANGE visit of the pass to entry 4. -/
def exchange : Visit := visitOf .pass .exchange false

/-- A GOOD answer to that visit but for its last byte: words 0011H and 0002H (section 4's example, step 3). -/
def exchangeAnswer (status : Byte) : List Byte :=
  let body := [17#8, status, 2#8, 0x00#8, 0x11#8, 0x00#8, 0x02#8]
  0x5A#8 :: body ++ [highByte (crc body)]

/-- Its last byte. -/
def lastByte (status : Byte) : Byte := lowByte (crc [17#8, status, 2#8, 0x00#8, 0x11#8, 0x00#8, 0x02#8])

/-- A complete answer with a correct check. -/
def answerOf (body : List Byte) : List Byte := 0x5A#8 :: body ++ wordBytes (crc body)

/-- A state with slot 3 holding an errand of entry 4. -/
def withSlot (x : SlotState) (k : ErrandKind) (s : State) : State :=
  s.setSlot 3 { Slot.reset with state := x, tag := 0x5A#8, entry := 4, kind := some k, object := 9#8 }

/-- Watch 0 of section 10.6's example: words 0006H, 0001H, 0001H, 0521H, 000BH, 0100H, 0000H. -/
def guardWatch : Watch :=
  { Watch.reset with
    entry := 6#8, mask := 1#16, reference := 1#16, trigger := 1#2, persistence := 2#3, actPost := true
    actDrive := true, driveEntry := 11#8, driveMask := 0x0100#16 }

/-- Watch 0 armed, and entry 6 ONLINE with in_len 2 and the given input word 0 (section 7's example). -/
def guarded (w : Watch) (v : Word) : State :=
  let s := State.reset.setWatch 0 { w with armed := true }
  let s := s.setEntry 6 { Entry.reset with address := 33#8, inLen := 2#4, link := .online }
  s.setImage 6 { Image.reset with input := zeroWords.set 0 v }

/-- An event record with a sequence number. -/
def recordOf (n : Nat) : EventRecord :=
  { seq := BitVec.ofNat 16 n, kind := .link, subject := 5#8, cycle := 200#16, p1 := 3#8, p2 := 2#8, d0 := 0#16,
    d1 := 0#16, d2 := 0#16 }

/-- Section 11.6's full queue: 32 records, seq 40 to 71, next 72, with a dropped count. -/
def fullQueue (dropped : Byte) : State :=
  State.reset.setEvents { EventUnit.reset with
    queue := (List.range 32).map fun i => recordOf (40 + i), nextSeq := 72#16, dropped := dropped }

/-- A part whose reset input is low. -/
def heldState : State := { State.reset with resetHeld := true }

/-- A state with a visit to entry 4 in its answer, of which the last byte is to come. -/
def answering (l : LinkState) (v : Visit) (a : List Byte) (p : Phase) : State :=
  withLink l (busyWith (.receiving a.dropLast false) (.visit v) p)

/-- The command that brings the last byte. -/
def lastOf (a : List Byte) : Instr := .answerByte (a.getLastD 0#8) false

/-- It ends the try with the outcome that the receiver gives. -/
theorem answering_ends {l : LinkState} {v : Visit} {a : List Byte} {p : Phase} {o : TryOutcome}
    (h : receive v (a.dropLast ++ [a.getLastD 0#8]) false = .ends o) : TryEnds (answering l v a p) v (lastOf a) o :=
  ⟨rfl, rfl, _, _, rfl, h⟩

/-- A visit at its last unaccepted try. -/
def atLastTry (v : Visit) : Visit := { v with unaccepted := 1 }

/-- A state with entry 4's item on the attention list, under the service mark. -/
def withItem (s : State) : State := s.setAttn ⟨[4], some 4⟩

/-- A state in a quiet gap with a visit to entry 4 waiting. -/
def gapBefore (l : LinkState) (role : Role) (k : CallKind) : State :=
  let s := withSlot .active .write (withLink l (withSeq .running .window State.reset))
  s.setLine { s.line with waiting := some (.visit role 4 k) }

/-! ### WellFormed: the smoke test -/

/-- An unknown-code row may not carry a code that names a command, whatever its other bits (R170, R180). -/
theorem smoke_known_code_is_ill_formed :
    (Instr.unknownCommandCode 0x0001#16).wellFormed = false ∧ (Instr.unknownCommandCode 0x0011#16).wellFormed = false
    ∧ (Instr.unknownCommandCode 0xFFE1#16).wellFormed = false ∧ (Instr.unknownCommandCode 0x0000#16).wellFormed = true
    ∧ (Instr.unknownCommandCode 0x0012#16).wellFormed = true ∧ (Instr.unknownCommandCode 0xFFFF#16).wellFormed = true := by
  decide

/-- HOST_WRITE may not go to an action word (R168). -/
theorem smoke_action_offset_is_ill_formed :
    (Instr.hostWrite 0x004#11 0#16).wellFormed = false ∧ (Instr.hostWrite 0x029#11 0#16).wellFormed = false
    ∧ (Instr.hostWrite 0x02A#11 0#16).wellFormed = false ∧ (Instr.hostWrite 0x02B#11 0#16).wellFormed = false
    ∧ (Instr.hostWrite 0x003#11 0#16).wellFormed = true ∧ (Instr.hostWrite 0x7FF#11 0#16).wellFormed = true := by
  decide

/-! ### Bus writes (Tables 10-2, 10-3 and 10-7) -/

/-- The codes of Table 10-2 in their order. -/
theorem test_command_codes :
    ((List.range 18).drop 1).map (fun n => ofBusWrite 0x004#11 (BitVec.ofNat 16 n)) =
      [.start, .stop, .halt, .release, .enable, .disable, .commit, .freeze, .pop, .submit, .cancel, .releaseSlot,
        .armWatch, .disarmWatch, .clearCounters, .clearFault, .softReset] := by
  decide

/-- Bits 15 to 5 are not examined; the ports stand at 029H, 02AH and 02BH; another offset is a plain write. -/
theorem test_bus_writes :
    ofBusWrite 0x004#11 0xABE9#16 = .pop ∧ ofBusWrite 0x004#11 0x0012#16 = .unknownCommandCode 0x0012#16
    ∧ ofBusWrite 0x029#11 5#16 = .setPort 5#16 ∧ ofBusWrite 0x02A#11 5#16 = .clearPort 5#16
    ∧ ofBusWrite 0x02B#11 5#16 = .flipPort 5#16 ∧ ofBusWrite 0x128#11 0x0215#16 = .hostWrite 0x128#11 0x0215#16 := by
  decide

/-- R166, level by level: a read, a write, not addressed, both strobes low. -/
theorem test_bus_levels :
    State.reset.busData .low .low .high 0x000#11 = some 0x4001#16
    ∧ (State.reset.withAccess .low .high .low 0x004#11 9#16).pending = [.pop]
    ∧ State.reset.withAccess .high .high .low 0x004#11 9#16 = State.reset
    ∧ State.reset.withAccess .low .low .low 0x7FF#11 9#16 = State.reset
    ∧ State.reset.busData .low .low .low 0x000#11 = none ∧ heldState.busData .low .low .high 0x000#11 = some 0#16 := by
  decide

/-- The table's rows have no bits, so no word spells a command. -/
theorem test_table_words_spell_nothing :
    decodeTableWord 16 1 = none ∧ State.reset.withFetchWord 16 1 = State.reset := by
  decide

/-! ### Words of the window -/

/-- Section 10.4's example, entry 5: 0215H at 128H is address 21, divisor 2, phase 0; 4231H at 129H is in_len 4, out_len
2, loss limit 3, retry limit 1. -/
theorem test_config_words :
    let t := after (after State.reset (.hostWrite 0x128#11 0x0215#16)) (.hostWrite 0x129#11 0x4231#16)
    (t.entry 5).address = 21#8 ∧ (t.entry 5).divisor = 2#4 ∧ (t.entry 5).phase = 0#4 ∧ (t.entry 5).inLen = 4#4
    ∧ (t.entry 5).outLen = 2#4 ∧ (t.entry 5).lossLimit = 3#4 ∧ (t.entry 5).retryLimit = 1#3
    ∧ t.readWord 0x129#11 = 0x4231#16 := by
  decide

/-- Section 10.4's example: ONLINE, miss count 0, next-toggle 1, resync set, no visit in flight reads 0302H at 12BH. -/
theorem test_runtime_word :
    (State.reset.setEntry 5 { Entry.reset with link := .online, resync := true }).readWord 0x12B#11 = 0x0302#16 := by
  decide

/-- Reset values of Tables 10-3 to 10-11. -/
theorem test_reset_words :
    [0x000#11, 0x010#11, 0x011#11, 0x012#11, 0x013#11, 0x014#11, 0x015#11, 0x016#11, 0x018#11, 0x019#11, 0x100#11,
        0x101#11, 0x102#11, 0x103#11, 0x601#11, 0x657#11, 0x750#11].map State.reset.readWord =
      [0x4001#16, 0#16, 1#16, 0x04E2#16, 0x00A0#16, 4#16, 1#16, 2#16, 0x03DE#16, 1#16, 0x0100#16, 0x0031#16, 0#16,
        0x0100#16, 0x00FF#16, 0#16, 0#16] := by
  decide

/-- Section 10.6's example, watch 0: the words read back and decode to the guard watch. -/
theorem test_watch_words :
    (State.reset.setWatch 0 guardWatch).readWord 0x650#11 = 0x0006#16
    ∧ (State.reset.setWatch 0 guardWatch).readWord 0x653#11 = 0x0521#16
    ∧ (State.reset.setWatch 0 guardWatch).readWord 0x654#11 = 0x000B#16
    ∧ ((after State.reset (.hostWrite 0x653#11 0x0521#16)).watch 0).persistence = 2#3
    ∧ ((after State.reset (.hostWrite 0x653#11 0x0521#16)).watch 0).actHold = false := by
  decide

/-! ### Frames -/

/-- Section 10.8's example: a READ of object 9 with toggle 1 sends C3H, the address, 82H, 00H, 09H and the check: 7
bytes. -/
theorem test_read_frame :
    (callFrame 21#8 .read true { object := some 9#8 }).take 5 = [0xC3#8, 0x15#8, 0x82#8, 0x00#8, 0x09#8]
    ∧ (callFrame 21#8 .read true { object := some 9#8 }).length = 7 := by
  decide

/-- Section 10.8's example: an EXCHANGE call to address 21 with two output words opens C3H, 15H, 01H, 02H and has 10
bytes. -/
theorem test_exchange_frame :
    (callFrame 21#8 .exchange false { payload := [0x1234#16, 0xABCD#16] }).take 8 =
      [0xC3#8, 0x15#8, 0x01#8, 0x02#8, 0x12#8, 0x34#8, 0xAB#8, 0xCD#8]
    ∧ (callFrame 21#8 .exchange false { payload := [0x1234#16, 0xABCD#16] }).length = 10 := by
  decide

/-- PRESUMED, the one expected value from outside the spec: the generator and start value of R61 name the CRC whose
published check value over the digits 1 to 9 is 29B1H. -/
theorem test_crc_check_value :
    crc [0x31#8, 0x32#8, 0x33#8, 0x34#8, 0x35#8, 0x36#8, 0x37#8, 0x38#8, 0x39#8] = 0x29B1#16 := by
  decide +kernel

/-- Table 3-5: answers to an ATTEND call with toggle 1 to address 17, row by row. -/
theorem test_classification_examples :
    let v := visitOf .attnOwn .attend true
    receive v [0xA5#8] false = .ends .garbled
    ∧ receive v [0x5A#8, 17#8, 0x84#8, 9#8] false = .ends .garbled
    ∧ receive v (0x5A#8 :: [18#8, 0x84#8, 0#8] ++ [0#8, 0#8]) false = .ends .garbled
    ∧ receive v (answerOf [18#8, 0x84#8, 1#8, 0#8, 1#8]) false = .ends .stray
    ∧ receive v (answerOf [17#8, 0x82#8, 1#8, 0#8, 1#8]) false = .ends .mismatch
    ∧ receive v (answerOf [17#8, 0x04#8, 1#8, 0#8, 1#8]) false = .ends .mismatch
    ∧ receive v (answerOf [17#8, 0x84#8, 4#8, 0#8, 1#8, 0#8, 1#8, 0#8, 1#8, 0#8, 1#8]) false = .ends .mismatch
    ∧ receive v (answerOf [17#8, 0xC4#8, 1#8, 0#8, 1#8]) false = .ends .mismatch
    ∧ receive v (answerOf [17#8, 0xC4#8, 0#8]) false = .ends (.refused false)
    ∧ receive v (answerOf [17#8, 0x84#8, 2#8, 0#8, 1#8, 0x12#8, 0x34#8]) false =
        .ends (.good false [0x0001#16, 0x1234#16]) := by
  decide +kernel

/-! ### Commands -/

/-- START from reset: cycle 1, RUNNING in the SYNC phase with CYC high, and the SYNC call waits for the gap (R33, R35,
R71). -/
theorem test_start :
    let t := after State.reset .start
    t.seq.state = .running ∧ t.seq.phase = .sync ∧ t.seq.cycle = 1#16 ∧ t.seq.cyc = true
    ∧ t.line.waiting = some .sync ∧ t.port.count = 1#8 := by
  decide

/-- Section 2's example at 0.0 ms: PERIODIC, period 250. -/
theorem test_start_periodic :
    (after { State.reset with cfg := { GlobalConfig.reset with runMode := 1#2, period := 250#16 } } .start).seq.timer
      = some 250 := by
  decide

/-- STOP in HELD: STOPPED at once with a STOPPED event of cause STOP (R49). -/
theorem test_stop_held :
    let t := after (withSeq .held .none State.reset) .stop
    t.seq.state = .stopped ∧ t.events.queue.map (·.kind) = [.stopped] ∧ t.events.queue.map (·.p1) = [1#8]
    ∧ t.events.queue.map (·.cycle) = [7#16] := by
  decide

/-- HALT during a READ visit: the ACTIVE errand is ABORTED with its ERRAND event before STOPPED, and the entry is left in
doubt (R16, R50, R51). -/
theorem test_halt :
    let t := after (withSlot .active .read (busyWith (.awaiting false) (.visit (visitOf (.errandOwn 3) .read true))
      .window)) .halt
    t.seq.state = .stopped ∧ (t.slot 3).state = .done ∧ (t.slot 3).outcome = .aborted ∧ (t.entry 4).resync = true
    ∧ t.events.queue.map (·.kind) = [.errand, .stopped] ∧ t.events.queue.map (·.p1) = [6#8, 3#8]
    ∧ t.line.engine = .quiet 20 := by
  decide

/-- Section 2's example at 9.1 ms: RELEASE with the expiry-in-hold flag set starts the next cycle. -/
theorem test_release :
    let s := withSeq .held .none State.reset
    let s := { s.setSeq { s.seq with expiryInHold := true, timer := some 250 } with
      cfg := { s.cfg with runMode := 1#2 } }
    (after s .release).seq.state = .running ∧ (after s .release).seq.cycle = 8#16
    ∧ (after s .release).seq.expiryInHold = false := by
  decide

/-- R21: a divisor of 3 gives BAD_ARG. -/
theorem test_enable_refuses_divisor_three :
    (after (withArg 5 (State.reset.setEntry 5 { Entry.reset with address := 1#8, divisor := 3#4 })) .enable).port.outcome
      = .badArg := by
  decide

/-- R21: an address held by an entry that is not OFF gives CONFLICT; another address gives AWAIT and a LINK event. -/
theorem test_enable :
    let s := withLink .online State.reset
    (after (withArg 5 (s.setEntry 5 { Entry.reset with address := 17#8 })) .enable).port.outcome = .conflict
    ∧ ((after (withArg 5 (s.setEntry 5 { Entry.reset with address := 18#8 })) .enable).entry 5).link = .await
    ∧ (after (withArg 5 (s.setEntry 5 { Entry.reset with address := 18#8 })) .enable).events.queue.map (·.p2)
      = [1#8] := by
  decide

/-- DISABLE during a visit: OFF at once, the visit goes on (R23). -/
theorem test_disable :
    let t := after (withArg 4 (busyWith (.awaiting false) (.visit exchange) .roster)) .disable
    (t.entry 4).link = .off ∧ t.visitInFlight 4 = true ∧ t.line.engine = .awaiting false
    ∧ t.events.queue.map (·.p1) = [2#8] := by
  decide

/-- Section 4's example, step 5: COMMIT(12). -/
theorem test_commit :
    let s := State.reset.setImage 12 { Image.reset with working := zeroWords.set 0 0x0005#16 }
    ((after (withArg 12 s) .commit).image 12).committed[0] = 0x0005#16 := by
  decide

/-- FREEZE shows index, link state, generation and words together (R96, Table 10-7). -/
theorem test_freeze :
    let s := (withLink .online State.reset).setImage 4
      { Image.reset with input := zeroWords.set 1 0x0002#16, generation := 8#8, age := 0#8, fresh := true }
    (after (withArg 4 s) .freeze).freeze = ⟨4#8, .online, true, 8#8, 0#8, 2#4, zeroWords.set 1 0x0002#16⟩ := by
  decide

/-- Section 4's example, step 6: 0100H to the SET port makes 0005H into 0105H; CLEAR and FLIP on the same word. -/
theorem test_ports :
    let s := State.reset.setImage 12 { Image.reset with working := zeroWords.set 0 0x0005#16 }
    let s := { s with selector := ⟨12#8, 0#4⟩ }
    ((after s (.setPort 0x0100#16)).image 12).working[0] = 0x0105#16
    ∧ ((after s (.clearPort 0x0004#16)).image 12).working[0] = 0x0001#16
    ∧ ((after s (.flipPort 0x0006#16)).image 12).working[0] = 0x0003#16 := by
  decide

/-- Section 9's example, steps 1, 2 and 4: the first fault stays, later ones are counted. -/
theorem test_faults :
    let s := withSeq .running .roster (withLink .online State.reset)
    let s := after (after s (.hostWrite 0x120#11 0#16)) (.hostWrite 0x012#11 0#16)
    let s := after (after s (.hostWrite 0x028#11 0x0034#16)) (.setPort 1#16)
    s.port.fault = some ⟨0x120#11, .locked⟩ ∧ s.port.faultCount = 2#4 ∧ s.selector = ⟨52#8, 0#4⟩ := by
  decide

/-- Section 9's example, step 7: CLEAR_FAULT empties the record and IRQ goes high. -/
theorem test_clear_fault :
    let s := State.reset.setPort { HostPort.reset with fault := some ⟨0x120#11, .locked⟩, faultCount := 3#4 }
    let s := s.setEvents { EventUnit.reset with globalIrq := true, faultIrq := true }
    s.irqLow = true ∧ (after s .clearFault).irqLow = false ∧ (after s .clearFault).port.faultCount = 0#4 := by
  decide

/-- Section 11.6's example, step 1: POP of a full queue after three drops. -/
theorem test_pop_after_drops :
    let t := after (fullQueue 3#8) .pop
    t.port.value = 32#8 ∧ t.events.dropped = 0#8 ∧ t.events.nextSeq = 73#16
    ∧ t.events.queue.map (fun r => r.seq.toNat) = (List.range 32).map (· + 41)
    ∧ (t.events.queue.drop 31).map (fun r => (r.kind, r.p1)) = [(.overflow, 3#8)] := by
  decide

/-- Section 8's example, step 14: POP of an empty queue. -/
theorem test_pop_empty : (after State.reset .pop).port.outcome = .empty ∧ (after State.reset .pop).port.value = 0#8 := by
  decide

/-- SUBMIT of a READ of object 9 to entry 4 takes slot 0 (R105). -/
theorem test_submit :
    let s := State.reset.setErrand { ErrandUnit.reset with staging := ⟨7#8, 4#8, 2#4, 0#4, 9#8, zeroWords⟩ }
    let t := after s .submit
    (t.slot 0).state = .queued ∧ (t.slot 0).tag = 7#8 ∧ t.errand.queue = [0] ∧ t.port.value = 0#8 := by
  decide

/-- CANCEL of a QUEUED slot: DONE with CANCELLED and an ERRAND event that carries the tag and the entry (R107, R121). -/
theorem test_cancel :
    let s := withSlot .queued .read State.reset
    let t := after (withArg 3 (s.setErrand { s.errand with queue := [3] })) .cancel
    (t.slot 3).outcome = .cancelled ∧ t.errand.queue = []
    ∧ t.events.queue.map (fun r => (r.subject, r.p1, r.d0, r.d1)) = [(3#8, 5#8, 0x5A#16, 4#16)] := by
  decide

/-- RELEASE_SLOT of a DONE slot and of an ACTIVE one (R109). -/
theorem test_release_slot :
    ((after (withArg 3 (withSlot .done .read State.reset)) .releaseSlot).slot 3).state = .free
    ∧ (after (withArg 3 (withSlot .active .read State.reset)) .releaseSlot).port.outcome = .notPending := by
  decide

/-- ARM_WATCH of the guard watch, and of an unwritten one (R139, R150). -/
theorem test_arm_watch :
    ((after (withArg 0 (State.reset.setWatch 0 guardWatch)) .armWatch).watch 0).armed = true
    ∧ (after (withArg 0 State.reset) .armWatch).port.outcome = .badArg := by
  decide

/-- DISARM_WATCH keeps the pending candidate and the fire count (R140). -/
theorem test_disarm_watch :
    let w := { guardWatch with armed := true, outcome := .isTrue, candidate := true, run := 1#2, fires := 5#8 }
    (after (withArg 0 (State.reset.setWatch 0 w)) .disarmWatch).watch 0 =
      { w with armed := false, outcome := .unknown, run := 0#2 } := by
  decide

/-- CLEAR_COUNTERS with FFH clears the part's counters too; 40 clears nothing (R25). -/
theorem test_clear_counters :
    let s := State.reset.setLine { LineEngine.reset with strayBytes := 9#16, lineFaults := 5#8 }
    (after (withArg 0xFF s) .clearCounters).line.strayBytes = 0#16
    ∧ (after (withArg 40 s) .clearCounters).line.strayBytes = 9#16 := by
  decide

/-- SOFT_RESET: the entry in AWAIT with resync set, the queue empty, the command's own result (R28, R165, R176). -/
theorem test_soft_reset :
    let t := after (withLink .lost (fullQueue 3#8)) .softReset
    (t.entry 4).link = .await ∧ (t.entry 4).resync = true ∧ t.events.queue = [] ∧ t.events.nextSeq = 0#16
    ∧ t.port.count = 1#8 := by
  decide +kernel

/-- A code that names no command: BAD_ARG, and the count is raised (R170). -/
theorem test_unknown_command :
    (after State.reset (.unknownCommandCode 0x001F#16)).port =
      { HostPort.reset with outcome := .badArg, count := 1#8 } := by
  decide

/-- A write to a locked word while its owner is free, and to an unmapped one (R168). -/
theorem test_host_write :
    (after State.reset (.hostWrite 0x012#11 250#16)).cfg.period = 250#16
    ∧ (after State.reset (.hostWrite 0x7FF#11 1#16)).port.fault = some ⟨0x7FF#11, .unmapped⟩ := by
  decide

/-- HARDWARE_RESET and RESET_RELEASE (R177). -/
theorem test_hardware_reset :
    after (withLink .online State.reset) .hardwareReset = heldState
    ∧ after (after (withLink .online State.reset) .hardwareReset) .resetRelease = State.reset
    ∧ heldState.readWord 0#11 = 0#16 := by
  decide

/-! ### Time and the station line -/

/-- Section 2's example: expiries at 4.0 ms in RUNNING and at 6.0 ms in HELD. -/
theorem test_period_expiry :
    let run := withSeq .running .roster State.reset
    let held := withSeq .held .none State.reset
    (after (run.setSeq { run.seq with timer := some 250 }) .periodTimerExpiry).seq.missed = 1
    ∧ (after (held.setSeq { held.seq with timer := some 250 }) .periodTimerExpiry).seq.expiryInHold = true := by
  decide

/-- The FREE minimum passes in WAITING: the next cycle (R42); and the end of the CYC pulse (R35). -/
theorem test_free_minimum_and_cyc :
    let t := after (withSeq .waiting .none State.reset) .freeMinimumExpiry
    t.seq.state = .running ∧ t.seq.cycle = 8#16 ∧ t.seq.cyc = true ∧ (after t .cycPulseEnd).seq.cyc = false := by
  decide

/-- Section 3's echo example, try 1: an echo that differs raises both counts and no byte follows (R67, R74). -/
theorem test_echo_fault :
    let s := busyWith (.sending 3) (.visit exchange) .roster
    let s := s.setLine { s.line with lineFaults := 5#8 }
    let t := after s (.callByteEcho (.taken 0xFF#8 false))
    t.line.engine = .remainder (some 0#8) ∧ t.line.echoFaults = 1#2 ∧ t.line.lineFaults = 6#8
    ∧ t.line.waiting = some .repeatTry := by
  decide

/-- Section 3's echo example, the third fault in a row: LINE_FAULT with p1 3, STOPPED with cause FAULT, FAULTED. -/
theorem test_third_echo_fault :
    let s := busyWith (.sending 0) (.visit exchange) .roster
    let t := after (s.setLine { s.line with echoFaults := 2#2 }) (.callByteEcho .missing)
    t.seq.state = .faulted ∧ t.line.echoFaults = 3#2
    ∧ t.events.queue.map (fun r => (r.kind, r.subject, r.p1)) = [(.lineFault, 4#8, 3#8), (.stopped, 0xFF#8, 4#8)] := by
  decide

/-- A call whose six bytes were echoed well: its answer is awaited and the consecutive count is 0 (R67, R74). -/
theorem test_call_sent :
    let t := after (busyWith (.sending 6) (.visit exchange) .roster) .callSent
    t.line.engine = .awaiting false ∧ t.line.echoFaults = 0#2 := by
  decide

/-- The remainder of a cut call ends: TXEN falls and the gap of 20 begins (R67, R71). -/
theorem test_remainder_end :
    let s := State.reset.setLine { LineEngine.reset with engine := .remainder (some 0xFE#8) }
    s.txen = true ∧ (after s .callRemainderEnd).txen = false ∧ (after s .callRemainderEnd).line.engine = .quiet 20 := by
  decide

/-- C3H on TXD: start bit low, 1, 1, 0, 0, 0, 0, 1, 1, stop bit high (R56); high in the gap after it and while RESET is low
(R79, R177). -/
theorem test_txd :
    let s := State.reset.setLine { LineEngine.reset with engine := .remainder (some 0xC3#8) }
    (List.range 10).map s.txd = [.low, .high, .high, .low, .low, .low, .low, .high, .high, .high]
    ∧ (after s .callRemainderEnd).txd 0 = .high ∧ ({ s with resetHeld := true } : State).txd 0 = .high
    ∧ (busyWith (.sending 0) (.visit exchange) .roster).txByte = some 0xC3#8 := by
  decide

/-- Section 4's example, step 3: the GOOD answer 0011H, 0002H is committed. -/
theorem test_answer_committed :
    let s := busyWith (.receiving (exchangeAnswer 0x01#8) false) (.visit exchange) .roster
    let t := after s (.answerByte (lastByte 0x01#8) false)
    (t.image 4).input = (zeroWords.set 0 0x0011#16).set 1 0x0002#16 ∧ (t.image 4).generation = 1#8
    ∧ (t.image 4).age = 0#8 ∧ (t.image 4).fresh = true := by
  decide +kernel

/-- The GOOD answer with ATTN to entry 4 as above, with watches 0 and 1 on its word 0, which each fire at the commit, and a
command's write to 004H that arrives between their evaluations (R142). -/
def amidCommit (code : Word) : State :=
  let w := { guardWatch with entry := 4#8, persistence := 1#3, actDrive := false, armed := true }
  let s := withArg 4 (busyWith (.receiving (exchangeAnswer 0x21#8) false) (.visit exchange) .roster)
  ((s.setWatch 0 w).setWatch 1 w).setAmid [{ passed := 1, offset := 0x004#11, value := code }]

/-- HALT between two evaluations: the first watch keeps its outcome and its WATCH event, the second its state; no append,
the run is over (R51, R142). -/
theorem test_halt_amid_commit :
    let t := after (amidCommit 3#16) (.answerByte (lastByte 0x21#8) false)
    (t.watch 0).outcome = .isTrue ∧ (t.watch 1).outcome = .unknown ∧ t.seq.state = .stopped ∧ t.attn.items = []
    ∧ t.events.queue.map (fun r => (r.kind, r.subject)) = [(.watch, 0#8), (.stopped, 0xFF#8)] := by
  decide +kernel

/-- DISABLE between two evaluations: the first watch is UNKNOWN again with its fire counted, the second has not been
evaluated; no append, and the cycle goes on to its end (R127, R141, R142). -/
theorem test_disable_amid_commit :
    let t := after (amidCommit 6#16) (.answerByte (lastByte 0x21#8) false)
    (t.watch 0).outcome = .unknown ∧ (t.watch 0).fires = 1#8 ∧ (t.watch 1).fires = 0#8 ∧ t.attn.items = []
    ∧ t.seq.state = .waiting ∧ t.events.queue.map (fun r => (r.kind, r.subject)) = [(.watch, 0#8), (.link, 4#8)] := by
  decide +kernel

/-- A READ errand's GOOD answer: the words come into the slot, and ATTN puts the entry on the list (R117, R127). -/
theorem test_read_answer :
    let v := visitOf (.errandOwn 3) .read true
    let a := answerOf [17#8, 0xA2#8, 1#8, 0xBE#8, 0xEF#8]
    let s := withSlot .active .read (busyWith (.receiving (a.take 7) false) (.visit v) .window)
    let t := after s (.answerByte (a.getD 7 0#8) false)
    (t.slot 3).state = .done ∧ (t.slot 3).outcome = .doneOk ∧ (t.slot 3).ansLen = 1#4
    ∧ (t.slot 3).payload[0] = 0xBEEF#16 ∧ t.attn.items = [4] ∧ (t.entry 4).nextToggle = false := by
  decide +kernel

/-- Section 3's visit example: the deadline passes, the try is SILENT and a retry waits for the gap. -/
theorem test_deadline :
    let t := after (busyWith (.awaiting false) (.visit exchange) .roster) .answerDeadlineExpiry
    t.line.engine = .quiet 20 ∧ t.line.waiting = some .retry := by
  decide

/-- The second SILENT try of the same visit: failure, ONLINE to SUSPECT with miss count 1 and a LINK event (section 1's
example, cycle 100). -/
theorem test_visit_fails :
    let s := busyWith (.awaiting false) (.visit { exchange with unaccepted := 1 }) .roster
    let t := after s .answerDeadlineExpiry
    (t.entry 4).link = .suspect ∧ (t.entry 4).miss = 1#4 ∧ (t.entry 4).failedVisits = 1#8
    ∧ t.events.queue.map (fun r => (r.kind, r.subject, r.p1, r.p2)) = [(.link, 4#8, 2#8, 3#8)] := by
  decide

/-- The gap limit inside an answer (R69). -/
theorem test_gap_limit :
    let t := after (busyWith (.receiving [0x5A#8] false) (.visit exchange) .roster) .interByteGapExpiry
    t.line.engine = .quiet 20 ∧ t.line.waiting = some .retry := by
  decide

/-- A stray byte in QUIET is counted and the count saturates (R72). -/
theorem test_stray_byte :
    (after State.reset (.strayByte 0x55#8 false)).line.strayBytes = 1#16
    ∧ (after (State.reset.setLine { LineEngine.reset with strayBytes := 0xFFFF#16 }) (.strayByte 0x55#8 true)).line =
      { LineEngine.reset with strayBytes := 0xFFFF#16, rx := .waitHigh } := by
  decide

/-- The quiet gap ends: the retry goes out and raises the entry's retry counter (section 3's visit example). -/
theorem test_quiet_gap_end :
    let s := busyWith (.quiet 20) (.visit { exchange with unaccepted := 1 }) .roster
    let t := after (s.setLine { s.line with waiting := some .retry }) .quietGapEnd
    t.line.engine = .sending 0 ∧ (t.entry 4).retries = 1#8 := by
  decide

/-- An edge, its sample, and the byte's first state (R58, R68). -/
theorem test_edge_and_sample :
    let s := busyWith (.awaiting false) (.visit exchange) .roster
    let t := after (after s .rxdFallingEdge) (.startBitSample .low)
    t.line.engine = .receiving [] false ∧ t.line.rx = .inByte
    ∧ (after (after s .rxdFallingEdge) (.startBitSample .high)).line = s.line := by
  decide +kernel

/-- After a framing fault the path looks for start bits again once the line is high (R58). -/
theorem test_returns_high :
    (after (after State.reset (.strayByte 0#8 true)) .rxdReturnsHigh).line.rx = .watching := by
  decide

/-! ### Parts of a step -/

/-- Table 7-4, row by row: EQ, NE, HI, LS, PL, MI, ANY, NONE. -/
theorem test_condition_examples :
    ([(0x1234#16, 0x00F0#16, 0x0030#16), (0xFFFE#16, 0xFFFF#16, 0x0002#16), (0x0005#16, 0xFFFF#16, 0xFFF0#16),
        (0x8000#16, 0x7FFF#16, 0x0000#16)] : List (Word × Word × Word)).map
      (fun x => [Condition.eq, .ne, .hi, .ls, .pl, .mi, .any, .none].map fun c => c.holds (x.1 &&& x.2.1) x.2.2) =
      [[true, false, false, true, true, false, true, false], [false, true, true, false, false, true, true, false],
        [false, true, false, true, true, false, true, false], [true, false, false, true, true, false, false, true]] := by
  decide

/-- Section 7's example, watch 0 at cycles 30, 32 and 34. -/
theorem test_watch_example :
    let w := (evalWatch 6 0 (guarded guardWatch 0#16)).watch 0
    let x := (evalWatch 6 0 (guarded { guardWatch with outcome := .isFalse } 1#16)).watch 0
    let y := evalWatch 6 0 (guarded { guardWatch with outcome := .isFalse, candidate := true, run := 1#2 } 1#16)
    (w.candidate, w.run, w.outcome, w.fires) = (false, 1#2, .unknown, 0#8)
    ∧ (x.candidate, x.run, x.outcome, x.fires) = (true, 1#2, .isFalse, 0#8)
    ∧ ((y.watch 0).run, (y.watch 0).outcome, (y.watch 0).fires) = (0#2, .isTrue, 1#8)
    ∧ y.events.queue.map (fun r => (r.kind, r.subject, r.p1, r.d0, r.d1)) = [(.watch, 0#8, 2#8, 1#16, 6#16)] := by
  decide

/-- Section 2's example at 5.8 ms: the cycle end with watch 6's hold pending. -/
theorem test_cycle_end_hold :
    let s := withSeq .running .window State.reset
    let t := endCycle (s.setSeq { s.seq with holdPending := true, holder := some 6 })
    t.seq.state = .held ∧ t.events.queue.map (fun r => (r.kind, r.subject, r.cycle)) = [(.hold, 6#8, 7#16)] := by
  decide

/-- Section 5's example, step 3: both lists hold items and the turn is ERRAND, so the head slot is picked; its entry's
resync flag has a RESET made first (step 4). -/
theorem test_arbiter_example :
    let s := withSlot .queued .read (withSeq .running .window (withLink .online State.reset))
    let s := s.setEntry 4 { s.entry 4 with resync := true }
    let s := (s.setErrand { s.errand with queue := [3], turn := .errand, budgetLeft := 1 }).setAttn ⟨[12], none⟩
    let t := lookAgain s
    (t.slot 3).state = .active ∧ t.errand.budgetLeft = 0 ∧ t.errand.turn = .attention
    ∧ t.line.waiting = some (.visit (.errandResync 3) 4 .reset) := by
  decide

/-! ### Witnesses: states and operands that meet the hypotheses of each statement -/

theorem witness_StepRunsTheFrontCommand : State.reset.pending = [] := by decide

theorem witness_EveryCommandAnswersANextState :
    Instr.start ≠ .hardwareReset ∧ Instr.start ≠ .resetRelease := by
  decide

theorem witness_LowResetInputTakesNothing :
    heldState.resetHeld = true ∧ Instr.start ≠ .hardwareReset ∧ Instr.start ≠ .resetRelease := by
  decide

theorem witness_LineAndTimeKeepHostData :
    busWrite (.strayByte 0#8 false) = none ∧ Instr.strayByte 0#8 false ≠ .hardwareReset
    ∧ Instr.strayByte 0#8 false ≠ .resetRelease
    ∧ exec (.strayByte 0#8 false) State.reset =
        .next (State.reset.setLine { LineEngine.reset with strayBytes := 1#16 })
    ∧ (∀ b f, Instr.strayByte 0#8 false ≠ .answerByte b f) ∧ State.reset.amid = [] :=
  ⟨rfl, by decide, by decide, rfl, fun b f h => (nomatch h), rfl⟩

/-- HARDWARE_RESET from any state, RESET_RELEASE with the input low; for HardwareResetOfRosterAndImages and
HardwareResetOfTheOtherBlocks. -/
theorem witness_HardwareReset :
    (Instr.hardwareReset = .hardwareReset ∨ Instr.hardwareReset = .resetRelease ∧ State.reset.resetHeld = true)
    ∧ (Instr.resetRelease = .hardwareReset ∨ Instr.resetRelease = .resetRelease ∧ heldState.resetHeld = true) := by
  decide

/-- The input high, as nearly every statement asks; this alone for SoftResetOfRosterImagesWatches,
SoftResetOfTheOtherBlocks, IdentityWordIsConstant and ClearFaultEmptiesTheRecord. -/
theorem witness_input_high :
    State.reset.resetHeld = false ∧ exec .softReset State.reset = .next (after State.reset .softReset)
    ∧ exec .hardwareReset State.reset = .next heldState ∧ exec .resetRelease heldState = .next State.reset
    ∧ ({ State.reset with port := { State.reset.port with fault := none } } : State).irqLow = false :=
  ⟨rfl, rfl, rfl, rfl, by decide⟩

theorem witness_StartBeginsARunFromStopped :
    (withSeq .faulted .none State.reset).seq.state = .faulted ∧ (withSeq .held .none State.reset).seq.state = .held
    ∧ (State.reset.seq.state = .stopped ∧ State.reset.port.argument = 0#16 ∧ State.reset.cfg.syncEnable = true
        ∧ State.reset.line.engine ≠ .idle)
    ∧ ((withArg 1 State.reset).seq.state = .stopped ∧ (withArg 1 State.reset).port.argument = 1#16)
    ∧ ((withArg 2 State.reset).seq.state = .stopped ∧ (withArg 2 State.reset).port.argument ≠ 0#16
        ∧ (withArg 2 State.reset).port.argument ≠ 1#16)
    ∧ (State.reset.setLine { LineEngine.reset with engine := .idle }).line.engine = .idle
    ∧ ({ State.reset with cfg := { GlobalConfig.reset with syncEnable := false } } : State).cfg.syncEnable = false := by
  decide

theorem witness_StopActsByState :
    (withSeq .running .roster State.reset).seq.state = .running ∧ (withSeq .waiting .none State.reset).seq.state = .waiting
    ∧ (withSeq .held .none State.reset).seq.state = .held ∧ (withSeq .faulted .none State.reset).seq.state = .faulted
    ∧ State.reset.seq.state = .stopped ∧ (withSeq .running .roster State.reset).resetHeld = false := by
  decide

/-- No slot ACTIVE, and exactly slot 3. -/
theorem witness_HaltAbandonsAndStops :
    let s := busyWith (.awaiting false) (.visit exchange) .roster
    s.resetHeld = false ∧ s.seq.state ≠ .stopped ∧ (∀ k, (s.slot k).state ≠ .active)
    ∧ (∀ j, ((withSlot .active .read s).slot j).state = .active ↔ j = 3) := by
  decide

theorem witness_ReleaseFollowsTheHold :
    let s := withSeq .held .none State.reset
    s.resetHeld = false ∧ State.reset.seq.state ≠ .held ∧ s.seq.state = .held ∧ s.cfg.runMode = 0#2
    ∧ s.seq.freeMinPassed = false ∧ s.seq.expiryInHold = false
    ∧ (s.setSeq { s.seq with freeMinPassed := true }).seq.freeMinPassed = true
    ∧ (s.setSeq { s.seq with expiryInHold := true }).seq.expiryInHold = true
    ∧ ({ s with cfg := { s.cfg with runMode := 1#2 } } : State).cfg.runMode = 1#2
    ∧ ({ s with cfg := { s.cfg with runMode := 2#2 } } : State).cfg.runMode ≠ 1#2 := by
  decide

theorem witness_TimersActByState :
    State.reset.seq.timer = none ∧ State.reset.cfg.runMode = 0#2
    ∧ (withSeq .waiting .none State.reset).seq.state = .waiting ∧ (withSeq .held .none State.reset).seq.state = .held
    ∧ ((withSeq .running .window State.reset).setSeq
        { (withSeq .running .window State.reset).seq with timer := some 1 }).seq.timer ≠ none
    ∧ State.reset.seq.state = .stopped
    ∧ ({ State.reset with cfg := { State.reset.cfg with runMode := 1#2 } } : State).cfg.runMode = 1#2 := by
  decide

/-- The equations define their names; the flags of each clause, and a full event queue, whose head waits. -/
theorem witness_CycleEndTakesItsFlags :
    let s := fullQueue 0#8
    let q := { s.seq with stopPending := true }
    s.events.queue ≠ [] ∧ (s.setSeq q).seq.stopPending = true
    ∧ (s.setSeq { s.seq with holdPending := true }).seq.holdPending = true ∧ s.seq.stopPending = false
    ∧ s.seq.singleRun = false ∧ (s.cfg.runMode ≠ 1#2 ∧ s.seq.freeMinPassed = false)
    ∧ (s.setSeq { s.seq with freeMinPassed := true }).seq.freeMinPassed = true
    ∧ (0 < (s.setSeq { s.seq with missed := 256 }).seq.missed
        ∧ ({ s with cfg := { s.cfg with runMode := 1#2 } } : State).cfg.runMode = 1#2) := by
  decide +kernel

theorem badEcho_missing (rx : RxPath) (b : Byte) : BadEcho rx .missing b := Or.inr (Or.inl rfl)

/-- The last byte of a call of six, echoed well; and an echo that is missing, with the consecutive count at 1. -/
theorem witness_EchoDecidesTheNextByte :
    let s := busyWith (.sending 5) (.visit exchange) .roster
    s.resetHeld = false ∧ s.line.engine = .sending 5 ∧ s.line.job = some (.visit exchange)
    ∧ (Job.visit exchange).frame[5]? = some 0xFE#8 ∧ s.line.rx ≠ .waitHigh ∧ BadEcho s.line.rx .missing 0xFE#8
    ∧ (s.setLine { s.line with echoFaults := 1#2 }).line.echoFaults.toNat < 2 :=
  ⟨by decide +kernel, by decide +kernel, by decide +kernel, by decide +kernel, by decide +kernel, badEcho_missing _ _, by decide +kernel⟩

/-- With no slot ACTIVE, and with slot 3. -/
theorem witness_ThirdEchoFaultEndsInFaulted :
    let s := (busyWith (.sending 5) (.visit exchange) .roster)
    let s := s.setLine { s.line with echoFaults := 2#2 }
    s.resetHeld = false ∧ s.line.engine = .sending 5 ∧ s.line.job = some (.visit exchange)
    ∧ (Job.visit exchange).frame[5]? = some 0xFE#8 ∧ BadEcho s.line.rx .missing 0xFE#8 ∧ s.line.echoFaults = 2#2
    ∧ (∀ k, (s.slot k).state ≠ .active) ∧ (∀ i, ((withSlot .active .read s).slot i).state = .active ↔ i = 3) :=
  ⟨by decide +kernel, by decide +kernel, by decide +kernel, by decide +kernel, badEcho_missing _ _, by decide +kernel, by decide +kernel, by decide +kernel⟩

/-- A visit's call sent, and a SYNC call with entry 4 the first one due; the other cases of the pass in the next theorem. -/
theorem witness_CallSentAwaitsOrEntersThePass :
    let s := busyWith (.sending 6) (.visit exchange) .roster
    let t := busyWith (.sending 8) (.sync (syncFrame 7#16)) .sync
    s.line.engine = .sending (Job.visit exchange).frame.length ∧ s.line.job = some (.visit exchange)
    ∧ t.line.engine = .sending (Job.sync (syncFrame 7#16)).frame.length
    ∧ t.line.job = some (.sync (syncFrame 7#16))
    ∧ t.seq.cycle.toNat % (t.entry 4).divisor.toNat = (t.entry 4).phase.toNat ∧ (t.entry 4).link.InService
    ∧ (∀ i < (4 : EntryIdx), (t.entry i).link = .off
        ∨ t.seq.cycle.toNat % (t.entry i).divisor.toNat ≠ (t.entry i).phase.toNat) := by
  decide +kernel

/-- A LOST entry whose probe count stays below the spacing before one whose count reaches it, and none after it due. -/
theorem witness_CallSentAwaitsOrEntersThePass_probes :
    let s := busyWith (.sending 8) (.sync (syncFrame 7#16)) .sync
    let x : Entry := { Entry.reset with link := .lost, miss := 3#4 }
    let s := (s.setEntry 4 { x with probe := 2#4 }).setEntry 5 { x with probe := 3#4 }
    let none := s.setEntry 5 { x with probe := 2#4 }
    s.line.engine = .sending (Job.sync (syncFrame 7#16)).frame.length ∧ s.line.job = some (.sync (syncFrame 7#16))
    ∧ (s.entry 5).ConsideredIn s.seq.cycle ∧ (s.entry 5).link = .lost
    ∧ max 1 s.cfg.probeSpacing.toNat ≤ (s.entry 5).probe.toNat + 1
    ∧ (∀ i < (5 : EntryIdx), (s.entry i).PassedOver s.seq.cycle s.cfg.probeSpacing)
    ∧ ∀ i, (none.entry i).PassedOver none.seq.cycle none.cfg.probeSpacing := by
  decide +kernel

theorem witness_RemainderEndBeginsTheGap :
    let s := State.reset.setLine { LineEngine.reset with engine := .remainder (some 0xFE#8) }
    let c := busyWith (.sending 5) (.visit exchange) .roster
    s.line.engine = .remainder (some 0xFE#8) ∧ s.resetHeld = false ∧ s.txByte = some 0xFE#8
    ∧ c.line.engine = .sending 5 ∧ c.line.job = some (.visit exchange) ∧ 5 < (Job.visit exchange).frame.length
    ∧ State.reset.txen = false ∧ State.reset.txByte = none ∧ heldState.resetHeld = true := by
  decide +kernel

/-- The mark byte, the length byte 8, a byte that is not the last; and a bad mark, a length byte 9, a low stop bit. -/
theorem witness_AnswerBytesAreTakenOneByOne :
    let s := busyWith (.receiving [] false) (.visit exchange) .roster
    let bytes := [0x5A#8, 17#8, 1#8]
    s.resetHeld = false ∧ s.line.engine = .receiving [] false ∧ s.line.job = some (.visit exchange)
    ∧ (([] : List Byte) = [] → 0x5A#8 = 0x5A#8) ∧ (bytes.length = 3 → (8#8).toNat ≤ 8)
    ∧ (3 ≤ bytes.length → bytes.length + 1 ≠ 6 + 2 * ((bytes ++ [8#8]).getD 3 0#8).toNat)
    ∧ (([] : List Byte) = [] ∧ 0x5B#8 ≠ 0x5A#8) ∧ (bytes.length = 3 ∧ 8 < (9#8).toNat)
    ∧ exchange.unaccepted < exchange.retryLimit.toNat := by
  decide +kernel

theorem witness_ExpiriesEndTheTry_deadline :
    let s := busyWith (.awaiting false) (.visit exchange) .roster
    s.resetHeld = false ∧ s.line.engine = .awaiting false ∧ s.line.job = some (.visit exchange) ∧ s.line.rx ≠ .edge
    ∧ exchange.unaccepted < exchange.retryLimit.toNat ∧ (s.setLine { s.line with rx := .edge }).line.rx = .edge := by
  decide +kernel

theorem witness_ExpiriesEndTheTry_gap :
    let s := busyWith (.receiving [0x5A#8] false) (.visit exchange) .roster
    s.resetHeld = false ∧ s.line.engine = .receiving (0x5A#8 :: []) false ∧ s.line.job = some (.visit exchange)
    ∧ s.line.rx = .watching ∧ exchange.unaccepted < exchange.retryLimit.toNat
    ∧ (s.setLine { s.line with rx := .edge }).line.rx = .edge := by
  decide +kernel

theorem witness_StrayBytesAreCounted :
    State.reset.resetHeld = false ∧ State.reset.line.rx ≠ .waitHigh ∧ State.reset.line.engine = .quiet 20
    ∧ (State.reset.setLine { LineEngine.reset with engine := .idle, strayBytes := 0xFFFF#16 }).line.engine = .idle := by
  decide

theorem witness_QuietGapEndBeginsTheWaitingTry :
    let s := busyWith (.quiet 20) (.visit exchange) .roster
    let free := s.setLine { s.line with job := none }
    s.resetHeld = false ∧ s.line.engine = .quiet 20 ∧ s.line.waiting = none ∧ s.line.job = some (.visit exchange)
    ∧ (s.setLine { s.line with waiting := some .retry }).line.waiting = some .retry
    ∧ (s.setLine { s.line with waiting := some .repeatTry }).line.waiting = some .repeatTry
    ∧ ((free.setLine { free.line with waiting := some .sync }).line.waiting = some .sync ∧ free.line.job = none) := by
  decide +kernel

/-- The cursor's clauses: a visit in flight, the SYNC call, and no call. -/
theorem witness_QuietGapEndBeginsTheWaitingTry_cursor :
    (busyWith (.sending 0) (.visit exchange) .roster).line.job = some (.visit exchange)
    ∧ (∀ v, (busyWith (.sending 0) (.sync (syncFrame 7#16)) .sync).line.job ≠ some (.visit v))
    ∧ ∀ v, State.reset.line.job ≠ some (.visit v) :=
  ⟨rfl, fun v h => (nomatch (show some (Job.sync (syncFrame 7#16)) = some (.visit v) from h)),
    fun v h => (nomatch (show none = some (Job.visit v) from h))⟩

/-- A visit of each role waiting: an EXCHANGE, a probe, an errand's resync RESET, a WRITE, an ATTEND. -/
theorem witness_QuietGapEndBeginsTheWaitingTry_visits :
    MayAsk (gapBefore .online .pass .exchange) .pass 4 .exchange ∧ MayAsk (gapBefore .lost .pass .reset) .pass 4 .reset
    ∧ MayAsk (gapBefore .online (.errandResync 3) .reset) (.errandResync 3) 4 .reset
    ∧ MayAsk (gapBefore .online (.errandOwn 3) .write) (.errandOwn 3) 4 .write
    ∧ MayAsk (withItem (gapBefore .online .attnOwn .attend)) .attnOwn 4 .attend
    ∧ (gapBefore .online .pass .exchange).line.waiting = some (.visit .pass 4 .exchange)
    ∧ (gapBefore .online .pass .exchange).line.job = none :=
  ⟨Or.inl rfl, Or.inr rfl, ⟨rfl, by decide⟩, ⟨.write, rfl, rfl, by decide, Or.inr rfl⟩, ⟨rfl, by decide⟩, rfl, rfl⟩

/-- An errand's entry OFF, or in doubt again; an attention item gone; the pass's visit to entry 4 withdrawn with entry 5
due. -/
theorem witness_QuietGapEndDropsWithdrawnVisits :
    let off := gapBefore .off (.errandOwn 3) .write
    let doubt := (gapBefore .await (.errandOwn 3) .write).setEntry 4 { Entry.reset with link := .await, resync := true }
    let pass := (gapBefore .off .pass .exchange).setEntry 5 { Entry.reset with link := .online }
    let pass := (pass.setSeq { pass.seq with passPos := 4 }).setLine { pass.line with waiting := some .passOn }
    off.resetHeld = false ∧ off.line.engine = .quiet 20 ∧ off.line.job = none
    ∧ off.line.waiting = some (.visit (.errandOwn 3) 4 .write) ∧ (Role.errandOwn 3).slot = some 3
    ∧ 3 ∉ off.errand.queue ∧ (off.entry 4).link = .off ∧ (doubt.entry 4).resync = true
    ∧ (gapBefore .off .attnOwn .attend).line.waiting = some (.visit .attnOwn 4 .attend)
    ∧ (gapBefore .off .attnOwn .attend).attn.mark ≠ some 4
    ∧ pass.line.waiting = some .passOn ∧ pass.seq.passPos < 5 ∧ (pass.entry 5).ConsideredIn pass.seq.cycle
    ∧ (pass.entry 5).link.InService
    ∧ ∀ i, pass.seq.passPos < i → i < 5 → (pass.entry i).link = .off ∨ ¬ (pass.entry i).ConsideredIn pass.seq.cycle := by
  decide +kernel

theorem witness_FallingEdgeBeginsAStartBit :
    let s := busyWith (.sending 1) (.visit exchange) .roster
    State.reset.line.rx = .watching ∧ State.reset.line.engine = .quiet 20
    ∧ s.line.rx = .watching ∧ s.line.engine = .sending (0 + 1) ∧ s.line.job = some (.visit exchange)
    ∧ 0 < (Job.visit exchange).frame.length ∧ s.line.echoFaults.toNat < 2
    ∧ (s.setLine { s.line with echoFaults := 2#2 }).line.echoFaults = 2#2
    ∧ (s.setLine { s.line with rx := .inByte }).line.rx ≠ .watching := by
  decide +kernel

/-- An edge awaiting its sample before and after the deadline and the gap limit, in QUIET, and while a call is sent. -/
theorem witness_StartBitIsSampled :
    let s := busyWith (.awaiting true) (.visit exchange) .roster
    let s := s.setLine { s.line with rx := .edge }
    let in_ (g : Engine) : State := s.setLine { s.line with engine := g }
    (in_ (.receiving [0x5A#8] true)).line.engine = .receiving [0x5A#8] true
    ∧ (in_ (.sending 3)).line.engine = .sending 3 ∧ (in_ (.sending 3)).line.engine ≠ .awaiting true
    ∧ (in_ (.remainder none)).line.engine = .remainder none ∧
    s.resetHeld = false ∧ s.line.rx = .edge ∧ s.line.engine = .awaiting true ∧ s.line.job = some (.visit exchange)
    ∧ exchange.unaccepted < exchange.retryLimit.toNat
    ∧ (State.reset.setLine { LineEngine.reset with rx := .edge }).line.engine = .quiet 20
    ∧ (State.reset.setLine { LineEngine.reset with rx := .waitHigh }).line.rx = .waitHigh
    ∧ State.reset.line.rx ≠ .waitHigh ∧ State.reset.line.rx ≠ .edge := by
  decide +kernel

/-- The budget of 1 + retry limit unaccepted tries before and at its last one, and each way to end a try: the deadline, its
edge sampled high, the gap limit, its edge sampled high, a low stop bit. -/
theorem witness_UnacceptedTriesSpendTheBudget :
    let v := atLastTry exchange
    let late (g : Engine) : State :=
      let s := busyWith g (.visit v) .roster
      s.setLine { s.line with rx := .edge }
    (exchange.unaccepted < exchange.retryLimit.toNat ∧ v.retryLimit.toNat ≤ v.unaccepted)
    ∧ TryEnds (busyWith (.awaiting false) (.visit v) .roster) v .answerDeadlineExpiry .silent
    ∧ TryEnds (late (.awaiting true)) v (.startBitSample .high) .silent
    ∧ TryEnds (busyWith (.receiving [0x5A#8] false) (.visit v) .roster) v .interByteGapExpiry .garbled
    ∧ TryEnds (late (.receiving [0x5A#8] true)) v (.startBitSample .high) .garbled
    ∧ TryEnds (busyWith (.receiving [] false) (.visit v) .roster) v (.answerByte 0x5A#8 true) .garbled
    ∧ TryOutcome.silent.Unaccepted ∧ TryOutcome.garbled.Unaccepted :=
  ⟨by decide, ⟨rfl, rfl, rfl, by decide, false, rfl⟩, ⟨rfl, rfl, rfl, Or.inl ⟨rfl, rfl⟩⟩,
    ⟨rfl, rfl, rfl, rfl, 0x5A#8, [], false, rfl⟩, ⟨rfl, rfl, rfl, Or.inr ⟨rfl, [0x5A#8], rfl⟩⟩,
    ⟨rfl, rfl, [], false, rfl, rfl⟩, Or.inl rfl, Or.inr (Or.inl rfl)⟩

/-- A wrong check, another station's address, another kind. -/
theorem witness_UnacceptedTriesSpendTheBudget_answers :
    TryEnds (answering .suspect (atLastTry exchange) [0x5A#8, 17#8, 1#8, 0#8, 0#8, 0#8] .roster) (atLastTry exchange)
        (lastOf [0x5A#8, 17#8, 1#8, 0#8, 0#8, 0#8]) .garbled
    ∧ TryEnds (answering .await (atLastTry exchange) (answerOf [18#8, 1#8, 0#8]) .roster) (atLastTry exchange)
        (lastOf (answerOf [18#8, 1#8, 0#8])) .stray
    ∧ TryEnds (answering .off (atLastTry exchange) (answerOf [17#8, 2#8, 0#8]) .roster) (atLastTry exchange)
        (lastOf (answerOf [17#8, 2#8, 0#8])) .mismatch
    ∧ TryOutcome.stray.Unaccepted ∧ TryOutcome.mismatch.Unaccepted :=
  ⟨answering_ends (by decide +kernel), answering_ends (by decide +kernel), answering_ends (by decide +kernel),
    Or.inr (Or.inr (Or.inl rfl)), Or.inr (Or.inr (Or.inr rfl))⟩

/-- A probe answered by a LOST station, a READ, a REFUSED EXCHANGE, and an answer for an entry in OFF. -/
theorem witness_AcceptedAnswersReachTheRoster :
    TryEnds (answering .lost (visitOf .pass .reset false) (answerOf [17#8, 0x25#8, 0#8]) .roster)
        (visitOf .pass .reset false) (lastOf (answerOf [17#8, 0x25#8, 0#8])) (.good true [])
    ∧ TryEnds (answering .suspect (visitOf (.errandOwn 3) .read true) (answerOf [17#8, 0x82#8, 0#8]) .window)
        (visitOf (.errandOwn 3) .read true) (lastOf (answerOf [17#8, 0x82#8, 0#8])) (.good false [])
    ∧ TryEnds (answering .online exchange (answerOf [17#8, 0x41#8, 0#8]) .roster) exchange
        (lastOf (answerOf [17#8, 0x41#8, 0#8])) (.refused false)
    ∧ TryEnds (answering .off exchange (answerOf [17#8, 0x61#8, 0#8]) .roster) exchange
        (lastOf (answerOf [17#8, 0x61#8, 0#8])) (.refused true)
    ∧ (TryOutcome.good true []).Accepted true ∧ (TryOutcome.refused false).Accepted false
    ∧ ((answering .lost exchange [] .roster).entry 4).link = .lost
    ∧ ((answering .off exchange [] .roster).entry 4).link = .off ∧ exchange.role = .pass
    ∧ (answering .online exchange [] .roster).amid = [] :=
  ⟨answering_ends (by decide +kernel), answering_ends (by decide +kernel), answering_ends (by decide +kernel),
    answering_ends (by decide +kernel), Or.inl ⟨[], rfl⟩, Or.inr rfl, by decide +kernel, by decide +kernel, rfl, rfl⟩

/-- An answer with ATTN set; the two equations define the part at the commit and behind the evaluations. -/
theorem witness_GoodExchangeCommitsItsWords :
    let s := busyWith (.receiving (exchangeAnswer 0x21#8) false) (.visit exchange) .roster
    s.resetHeld = false ∧ s.line.engine = .receiving (exchangeAnswer 0x21#8) false
    ∧ s.line.job = some (.visit exchange) ∧ exchange.role = .pass ∧ exchange.kind = .exchange
    ∧ (s.entry exchange.entry).link.InService
    ∧ receive exchange (exchangeAnswer 0x21#8 ++ [lastByte 0x21#8]) false = .ends (.good true [0x0011#16, 0x0002#16])
    ∧ s.amid = [] := by
  decide +kernel

/-- One host write amid the evaluations, and the parts that HALT, DISABLE of entry 4 and DISARM_WATCH leave there. -/
theorem witness_GoodExchangeCommitsItsWords_arrivals :
    let s := amidCommit 6#16
    s.seq.state = .running ∧ s.amid = [{ passed := 1, offset := 0x004#11, value := 6#16 }]
    ∧ (after s (.hostWrite 0x004#11 3#16)).seq.state ≠ .running
    ∧ ((after s (.hostWrite 0x004#11 6#16)).seq.state = .running
        ∧ ((after s (.hostWrite 0x004#11 6#16)).entry 4).link = .off)
    ∧ ((after s (.hostWrite 0x004#11 14#16)).seq.state = .running
        ∧ ((after s (.hostWrite 0x004#11 14#16)).entry 4).link ≠ .off) := by
  decide +kernel

/-- The longest payload, and a check one bit off; the second equation defines the body. -/
theorem witness_CompleteAnswersAreClassifiedInOrder :
    (List.replicate 8 0xFFFF#16 : List Word).length ≤ 8
    ∧ checkOf [17#8, 1#8, 0#8] ^^^ 1#16 ≠ checkOf [17#8, 1#8, 0#8] := by
  decide +kernel

/-- Arguments 39 and 40, and each state of entry 39 that an outcome asks for. -/
theorem witness_EnableChecksThenAwaits :
    let ok : Entry := { Entry.reset with address := 18#8 }
    let s := withLink .online State.reset
    let inFlight := busyWith (.awaiting false) (.visit exchange) .roster
    (39 < (withArg 40 s).port.argument.toNat)
    ∧ (withArg 39 s).port.argument.toNat = (39 : EntryIdx).val ∧ (withArg 39 s).resetHeld = false
    ∧ (s.entry 4).link ≠ .off ∧ (s.entry 39).link = .off ∧ (s.entry 39).valid = false
    ∧ ((s.setEntry 39 ok).entry 39).valid = true ∧ s.visitInFlight 39 = false
    ∧ (4 ≠ (39 : EntryIdx) ∧ ((s.setEntry 39 { ok with address := 17#8 }).entry 4).link ≠ .off
        ∧ ((s.setEntry 39 { ok with address := 17#8 }).entry 4).address
          = ((s.setEntry 39 { ok with address := 17#8 }).entry 39).address)
    ∧ (∀ i, i ≠ 39 → ((s.setEntry 39 ok).entry i).link ≠ .off →
        ((s.setEntry 39 ok).entry i).address ≠ ((s.setEntry 39 ok).entry 39).address)
    ∧ (((withLink .off inFlight).entry 4).link = .off ∧ ((withLink .off inFlight).entry 4).valid = true
        ∧ (withLink .off inFlight).visitInFlight 4 = true) := by
  decide +kernel

theorem witness_EnableChecksThenAwaits_addresses : AddressesDistinct (withLink .online State.reset) := by decide +kernel

/-- An entry in OFF, in service and LOST, with a visit of the pass waiting and without. -/
theorem witness_DisableTakesTheEntryOff :
    let s := withArg 39 State.reset
    let lost := State.reset.setEntry 39 { Entry.reset with link := .lost, miss := 3#4 }
    s.resetHeld = false ∧ 39 < (withArg 40 s).port.argument.toNat ∧ s.port.argument.toNat = (39 : EntryIdx).val
    ∧ (s.entry 39).link = .off ∧ (lost.entry 39).link ≠ .off ∧ (lost.entry 39).link = .lost
    ∧ (∀ k, s.line.waiting ≠ some (.visit .pass 39 k))
    ∧ (s.setLine { s.line with waiting := some (.visit .pass 39 .exchange) }).line.waiting
        = some (.visit .pass 39 .exchange) := by
  refine ⟨by decide, by decide, by decide, by decide, by decide, by decide, fun k => ?_, by decide⟩
  cases k <;> decide

/-- Arguments 39, FFH and 40. -/
theorem witness_ClearCountersByArgument :
    State.reset.resetHeld = false ∧ (withArg 39 State.reset).port.argument.toNat = (39 : EntryIdx).val
    ∧ (withArg 255 State.reset).port.argument = 0x00FF#16 ∧ 39 < (withArg 40 State.reset).port.argument.toNat
    ∧ (withArg 40 State.reset).port.argument ≠ 0x00FF#16 := by
  decide

/-- Arguments 39 and 40. -/
theorem witness_CommitAndFreezeCopyTheirWords :
    State.reset.resetHeld = false ∧ 39 < (withArg 40 State.reset).port.argument.toNat
    ∧ (withArg 39 State.reset).port.argument.toNat = (39 : EntryIdx).val := by
  decide

/-- Selector (39, 7), and either field one beyond. -/
theorem witness_BitPortsChangeTheMaskedBits :
    (⟨39#8, 7#4⟩ : Selector).entry.toNat = (39 : EntryIdx).val ∧ (⟨39#8, 7#4⟩ : Selector).word.toNat = (7 : Fin 8).val
    ∧ 39 < (⟨40#8, 7#4⟩ : Selector).entry.toNat ∧ 7 < (⟨39#8, 8#4⟩ : Selector).word.toNat
    ∧ State.reset.port.fault = none ∧ (accessFault 0x7D0#11 .unmapped State.reset).port.fault ≠ none
    ∧ State.reset.resetHeld = false := by
  decide

/-- A WRITE of eight words to entry 39, object 63; a length of 9; slot 3 free behind three that are not; no slot free. -/
theorem witness_SubmitTakesTheLowestFreeSlot :
    let g : Staging := ⟨7#8, 39#8, 3#4, 8#4, 63#8, zeroWords⟩
    let full : ErrandUnit := { ErrandUnit.reset with slots := Vector.replicate 8 { Slot.reset with state := .done } }
    let three : State := State.reset.setErrand { full with slots := full.slots.set 3 Slot.reset }
    (g.entry.toNat ≤ 39 ∧ g.object.toNat ≤ 63 ∧ (g.kind = 3#4 ∧ 1 ≤ g.len.toNat ∧ g.len.toNat ≤ 8))
    ∧ ¬ ((9#4).toNat ≤ 8) ∧ (∀ k, ((State.reset.setErrand full).slot k).state ≠ .free)
    ∧ (39 : EntryIdx).val = g.entry.toNat ∧ (three.slot 3).state = .free
    ∧ (∀ i < (3 : SlotIdx), (three.slot i).state ≠ .free) ∧ three.resetHeld = false := by
  decide

/-- Arguments 7 and 8, and the four states. -/
theorem witness_CancelAndReleaseSlotActByState :
    7 < (withArg 8 State.reset).port.argument.toNat
    ∧ (withArg 7 State.reset).port.argument.toNat = (7 : SlotIdx).val ∧ (State.reset.slot 7).state = .free
    ∧ ((withSlot .queued .read State.reset).slot 3).state = .queued
    ∧ ((withSlot .active .read State.reset).slot 3).state = .active
    ∧ ((withSlot .done .read State.reset).slot 3).state = .done ∧ State.reset.resetHeld = false := by
  decide

/-- Both lists empty; both lists with an item and the turn either way; the budget spent and not; a head errand whose entry
is OFF, and a READ to a LOST one. -/
theorem witness_ArbiterPicksByTurn :
    let s := withSlot .queued .read (withLink .online State.reset)
    let s := (s.setErrand { s.errand with queue := [3], budgetLeft := 1 }).setAttn ⟨[4], none⟩
    (State.reset.errand.queue = [] ∧ State.reset.attn.items = [] ∧ State.reset.errand.budgetLeft = 0)
    ∧ s.errand.queue.head? = some 3 ∧ (s.slot 3).kind = some .read ∧ (s.entry (s.slot 3).entry).link ≠ .off
    ∧ (s.entry (s.slot 3).entry).link ≠ .lost ∧ s.errand.queue = 3 :: []
    ∧ s.errand.budgetLeft ≠ 0 ∧ (3 : SlotIdx) ∉ ([] : List SlotIdx) ∧ s.attn.items = 4 :: []
    ∧ s.errand.turn = .attention ∧ s.line.job = none
    ∧ (s.setErrand { s.errand with turn := .errand }).errand.turn = .errand
    ∧ ((withLink .off s).entry ((withLink .off s).slot 3).entry).link = .off
    ∧ (ErrandKind.read ≠ .reset ∧ ((withLink .lost s).entry ((withLink .lost s).slot 3).entry).link = .lost) := by
  decide

/-- A READ with one word, a REFUSED answer, a resync RESET's answer, the last try of a READ, and an entry in OFF. -/
theorem witness_ErrandVisitEndsCompleteTheSlot :
    let v := visitOf (.errandOwn 3) .read true
    let r := visitOf (.errandResync 3) .reset false
    let a := answerOf [17#8, 0x82#8, 1#8, 0xBE#8, 0xEF#8]
    TryEnds (withSlot .active .read (answering .online v a .window)) v (lastOf a) (.good false [0xBEEF#16])
    ∧ TryEnds (withSlot .active .read (answering .off v (answerOf [17#8, 0xC2#8, 0#8]) .window)) v
        (lastOf (answerOf [17#8, 0xC2#8, 0#8])) (.refused false)
    ∧ TryEnds (withSlot .active .read (answering .suspect r (answerOf [17#8, 5#8, 0#8]) .window)) r
        (lastOf (answerOf [17#8, 5#8, 0#8])) (.good false [])
    ∧ TryEnds (withSlot .active .read (busyWith (.awaiting false) (.visit (atLastTry v)) .window)) (atLastTry v)
        .answerDeadlineExpiry .silent
    ∧ (atLastTry v).retryLimit.toNat ≤ (atLastTry v).unaccepted
    ∧ v.role.slot = some 3 ∧ r.role.slot = some 3
    ∧ ((withSlot .active .read State.reset).slot 3).state = .active
    ∧ ((withSlot .active .read State.reset).slot 3).kind = some .read ∧ 3 ∉ (withSlot .active .read State.reset).errand.queue :=
  ⟨⟨rfl, rfl, _, _, rfl, by decide +kernel⟩, ⟨rfl, rfl, _, _, rfl, by decide +kernel⟩,
    ⟨rfl, rfl, _, _, rfl, by decide +kernel⟩, ⟨rfl, rfl, rfl, by decide, false, rfl⟩, by decide, rfl, rfl, by decide,
    by decide, by decide⟩

/-- An ATTEND answered with a cause and one detail and ATTN set, REFUSED, and unanswered; a resync RESET answered; OFF. -/
theorem witness_AttentionTransactionsEnd :
    let v := visitOf .attnOwn .attend true
    let r := visitOf .attnResync .reset false
    let a := answerOf [17#8, 0xA4#8, 2#8, 0#8, 1#8, 0x12#8, 0x34#8]
    TryEnds (withItem (answering .await v a .window)) v (lastOf a) (.good true [0x0001#16, 0x1234#16])
    ∧ TryEnds (withItem (answering .online v (answerOf [17#8, 0xC4#8, 0#8]) .window)) v
        (lastOf (answerOf [17#8, 0xC4#8, 0#8])) (.refused false)
    ∧ TryEnds (withItem (answering .suspect r (answerOf [17#8, 5#8, 0#8]) .window)) r
        (lastOf (answerOf [17#8, 5#8, 0#8])) (.good false [])
    ∧ TryEnds (withItem (busyWith (.awaiting false) (.visit (atLastTry v)) .window)) (atLastTry v)
        .answerDeadlineExpiry .silent
    ∧ TryEnds (answering .off v a .window) v (lastOf a) (.good true [0x0001#16, 0x1234#16])
    ∧ (atLastTry v).retryLimit.toNat ≤ (atLastTry v).unaccepted ∧ v.role = .attnOwn ∧ r.role = .attnResync
    ∧ ((withItem (answering .suspect r [] .window)).entry 4).link.InService
    ∧ (withItem State.reset).attn.mark = some 4 ∧ 4 ∈ (withItem State.reset).attn.items :=
  ⟨⟨rfl, rfl, _, _, rfl, by decide +kernel⟩, ⟨rfl, rfl, _, _, rfl, by decide +kernel⟩,
    ⟨rfl, rfl, _, _, rfl, by decide +kernel⟩, ⟨rfl, rfl, rfl, by decide, false, rfl⟩,
    ⟨rfl, rfl, _, _, rfl, by decide +kernel⟩, by decide, rfl, rfl, by decide +kernel, rfl, by decide⟩

/-- Arguments 31 and 32; an armed watch, an unwritten one and the guard watch. -/
theorem witness_WatchesAreArmedAndDisarmed :
    let w := guardWatch
    State.reset.resetHeld = false ∧ 31 < (withArg 32 State.reset).port.argument.toNat
    ∧ (withArg 31 State.reset).port.argument.toNat = (31 : WatchIdx).val
    ∧ ((guarded w 0#16).watch 0).armed = true ∧ (State.reset.watch 31).armed = false
    ∧ (State.reset.watch 31).persistence.toNat = 0
    ∧ ¬ (39 < w.entry.toNat ∨ 7 < w.word.toNat ∨ 7 < w.condition.toNat ∨ w.trigger = 0#2 ∨ w.persistence.toNat = 0
        ∨ 4 < w.persistence.toNat ∨ (w.actPost = false ∧ w.actHold = false ∧ w.actDrive = false)
        ∨ (w.actDrive = true ∧ (39 < w.driveEntry.toNat ∨ 7 < w.driveWord.toNat))) := by
  decide

/-- FFFEH against 0002H (Table 7-4). -/
theorem witness_ConditionsCompareMaskedWords :
    (0xFFFC : Int) = (((0xFFFE#16).toNat : Int) - (0x0002#16).toNat) % 65536 := by
  decide

/-- A candidate equal to the outcome, a run begun, a run that reaches the persistence with a trigger that matches and one
that does not; a disarmed watch, and word 2 of an entry with in_len 2. -/
theorem witness_EvaluationFollowsThePersistenceTable :
    let s := guarded guardWatch 1#16
    (s.watch 0).armed = true ∧ (s.watch 0).entry.toNat = (6 : EntryIdx).val ∧ (s.entry 6).link ≠ .off
    ∧ (s.watch 0).word.toNat = (0 : Fin 8).val ∧ (0 : Fin 8).val < (s.entry 6).inLen.toNat
    ∧ (s.watch 0).condition.toNat ≤ 7
    ∧ (0 : Int) = ((((s.image 6).input[(0 : Fin 8)] &&& (s.watch 0).mask).toNat : Int) - (s.watch 0).reference.toNat) % 65536
    ∧ (s.watch 0).trigger = 1#2 ∧ ¬ (2#2 = 3#2 ∨ (2#2 = 1#2 ∧ true = true) ∨ (2#2 = 2#2 ∧ true = false))
    ∧ (State.reset.watch 0).armed = false
    ∧ ((guarded { guardWatch with word := 2#4 } 1#16).entry 6).inLen.toNat
        ≤ ((guarded { guardWatch with word := 2#4 } 1#16).watch 0).word.toNat
    ∧ ((guarded { guardWatch with outcome := .isTrue } 1#16).watch 0).outcome = .isTrue
    ∧ ((s.watch 0).outcome ≠ .isTrue ∧ (s.watch 0).candidate = false ∧ 1 < (s.watch 0).persistence.toNat)
    ∧ (s.watch 0).persistence.toNat ≤ (1#2).toNat + 1 := by
  decide

theorem witness_EvaluationFollowsThePersistenceTable_unknown :
    exec .disarmWatch (guarded guardWatch 1#16) = .next (after (guarded guardWatch 1#16) .disarmWatch) := rfl

/-- A watch with DRIVE, and one without, whatever its drive fields. -/
theorem witness_FiringAppliesItsActions :
    ({ guardWatch with actDrive := false, driveEntry := 200#8 } : Watch).actDrive ≠ true
    ∧ guardWatch.driveEntry.toNat = (11 : EntryIdx).val ∧ guardWatch.driveWord.toNat = (0 : Fin 8).val := by
  decide

/-- A kind the filter stops, 31 records and 32. -/
theorem witness_PostsEnterOrDrop :
    EventUnit.reset.filter.passes .cycle = false ∧ EventUnit.reset.filter.passes .link = true
    ∧ (fullQueue 0#8).events.queue.length = 32 ∧ (after (fullQueue 0#8) .pop).events.queue.length = 31
    ∧ (fullQueue 0#8).events.filter.passes .link = true ∧ State.reset.resetHeld = false := by
  decide +kernel

/-- An empty queue, and a full one with and without drops. -/
theorem witness_PopRemovesTheHead :
    State.reset.events.queue = [] ∧ (fullQueue 255#8).events.dropped ≠ 0#8 ∧ (fullQueue 0#8).events.dropped = 0#8
    ∧ (fullQueue 0#8).events.queue = recordOf 40 :: ((fullQueue 0#8).events.queue.drop 1)
    ∧ (fullQueue 0#8).resetHeld = false := by
  decide +kernel

/-- A plain word, and a locked word of each owner while it is free. -/
theorem witness_TakenWritesStoreTheirFields :
    State.reset.resetHeld = false ∧ accessAt (0x003#11).toNat = .rw
    ∧ (accessAt (0x238#11).toNat = .lockedByEntry 39 ∧ (State.reset.entry 39).link = .off)
    ∧ (accessAt (0x016#11).toNat = .lockedBySequencer ∧ State.reset.seq.state = .stopped)
    ∧ (accessAt (0x74E#11).toNat = .lockedByWatch 31 ∧ (State.reset.watch 31).armed = false) := by
  decide

/-- Each cause, with the record empty and occupied; an action word. -/
theorem witness_RefusedWritesRecordTheFirstFault :
    accessAt (0x7D0#11).toNat = .none ∧ accessAt (0x02B#11).toNat = .action ∧ accessAt (0x000#11).toNat = .ro
    ∧ (accessAt (0x122#11).toNat = .lockedByEntry 4 ∧ ((withLink .online State.reset).entry 4).link ≠ .off)
    ∧ (accessAt (0x010#11).toNat = .lockedBySequencer ∧ (withSeq .faulted .none State.reset).seq.state ≠ .stopped)
    ∧ (accessAt (0x656#11).toNat = .lockedByWatch 0 ∧ ((guarded guardWatch 0#16).watch 0).armed = true)
    ∧ State.reset.port.fault = none ∧ (accessFault 0x7D0#11 .unmapped State.reset).port.fault ≠ none
    ∧ State.reset.resetHeld = false := by
  decide

/-- A command's write, and the words of codes 0, 18 and 31. -/
theorem witness_EveryCommandWriteIsCounted :
    busWrite .softReset = some (0x004#11, 17#16) ∧ State.reset.resetHeld = false
    ∧ (0x0020#16).toNat % 32 = 0 ∧ 17 < (0x0012#16).toNat % 32 ∧ 17 < (0xFFFF#16).toNat % 32 := by
  decide

/-- A row that is a bus write; the first and the last mapped location; the ends of the window's areas. -/
theorem witness_BusWritesAndOffsetsAgree :
    ((Instr.hostWrite 0x7FF#11 0#16).wellFormed = true
      ∧ busWrite (.hostWrite 0x7FF#11 0#16) = some (0x7FF#11, 0#16))
    ∧ Loc.identity.offset = some 0 ∧ (Loc.slotWord 7 7).offset = some 0x7CA ∧ locateNat 0x7CA ≠ .unmapped
    ∧ locateNat 0x7CB = .unmapped := by
  decide

/-- The longest attention list and an occupied queue, whose head window shows a record. -/
theorem witness_ReadOnlyWordsShowTheirFields :
    State.reset.resetHeld = false ∧ (List.finRange 40).length ≤ 40 ∧ State.reset.events.queue = []
    ∧ (fullQueue 0#8).events.queue = recordOf 40 :: ((fullQueue 0#8).events.queue.drop 1) := by
  decide +kernel

/-- A lawful state in the roster pass, with entry 4 ONLINE and its visit waiting for the gap, whose end is the command in
front; for the statements that every step keeps a law. -/
def lawfulState : State :=
  let s := withSeq .running .roster (withLink .online State.reset)
  let s := s.setSeq { s.seq with passPos := 4 }
  { s.setLine { s.line with waiting := some (.visit .pass 4 .exchange) } with pending := [.quietGapEnd] }

theorem witness_StepsKeepTheLaws_roster : RosterLaw lawfulState := by decide +kernel

theorem witness_StepsKeepTheLaws_events :
    EventLaw lawfulState ∧ ArmedValid lawfulState ∧ AttentionOrder lawfulState ∧ CommittedIsNew lawfulState := by
  refine ⟨by decide +kernel, by decide +kernel, ⟨by decide, fun e h => ?_⟩, by decide +kernel⟩
  exact absurd h (by simp [lawfulState, withSeq, withLink, State.reset, State.setSeq, State.setLine, State.setEntry])

theorem witness_StepsKeepTheLaws_step :
    ∃ t, step lawfulState = .next t ∧ t.line.engine = .sending 0 ∧ t.visitInFlight 4 = true :=
  ⟨_, rfl, by decide, by decide⟩

theorem witness_StepsKeepEveryLaw_watches_and_slots :
    UnknownWhenIdle lawfulState ∧ AttentionInService lawfulState ∧ ErrandLaw lawfulState := by
  decide +kernel

theorem witness_StepsKeepEveryLaw_line : LineLaw lawfulState :=
  ⟨(rfl : lawfulState.line.job = none), fun _ => (by decide : lawfulState.line.waiting ≠ none),
    fun f h => nomatch (show none = some (Job.sync f) from h)⟩

theorem witness_StepsKeepEveryLaw_sequencer : SequencerLaw lawfulState := by
  refine ⟨by decide, fun h => absurd (by decide) h, fun _ => Or.inr (by decide), fun _ => by decide,
    fun h => absurd (by decide) h, fun h => absurd h (by decide), fun h => absurd h (by decide), ?_, ?_⟩
  · intro role e k h
    have hw : lawfulState.work = some (.pass, 4, .exchange) := by decide
    rw [hw] at h
    cases h
    exact ⟨by unfold RoleFits; decide, by decide⟩
  · intro k h
    exact absurd h (by revert k; decide)

theorem witness_StepsKeepEveryLaw : Lawful lawfulState :=
  ⟨witness_StepsKeepTheLaws_roster, witness_StepsKeepTheLaws_events.1, witness_StepsKeepTheLaws_events.2.1,
    witness_StepsKeepEveryLaw_watches_and_slots.1, witness_StepsKeepTheLaws_events.2.2.1,
    witness_StepsKeepEveryLaw_watches_and_slots.2.1, witness_StepsKeepTheLaws_events.2.2.2,
    witness_StepsKeepEveryLaw_watches_and_slots.2.2, witness_StepsKeepEveryLaw_line,
    witness_StepsKeepEveryLaw_sequencer⟩

end Sys2Proof.Tests
end

section
/-! SUPPORT. Proofs about the roster and link supervision (section 1): CLEAR_COUNTERS, soft reset and ENABLE. -/

namespace Sys2Proof.Machine

/-! ### A command whose reply keeps the port -/

/-- A command that leaves the port alone changes it only by its result (R170, R171). -/
theorem issue_only_answered {run : State → Reply} {s t : State} {o : CmdOutcome} (h : run s = .only t o)
    (hp : t.port = s.port) : issue run s = { t with port := answered s o 0#8 } := by
  rw [issue_only h, hp]
  rfl

/-! ### CLEAR_COUNTERS (R25) -/

/-- No index is FFH, so an argument that names an entry is not the one for all of them. -/
theorem runClearCounters_entry {s : State} {e : EntryIdx} (h : s.port.argument.toNat = e.val) :
    runClearCounters s = .only (s.setEntry e (s.entry e).clearCounters) .ok := by
  have not_all : s.port.argument ≠ 0xFF#16 := by
    intro all
    rw [all] at h
    have : (255 : Nat) = e.val := h
    omega
  unfold runClearCounters
  rw [if_neg not_all, entryOf_some h]

theorem runClearCounters_badArg {s : State} (h : 39 < s.port.argument.toNat) (not_all : s.port.argument ≠ 0xFF#16) :
    runClearCounters s = .only s .badArg := by
  unfold runClearCounters
  rw [if_neg not_all, entryOf_none h]

theorem runClearCounters_all {s : State} (h : s.port.argument = 0xFF#16) :
    runClearCounters s = .only { s with
      roster := s.roster.map Entry.clearCounters
      seq := { s.seq with overruns := 0#8 }
      line := { s.line with strayBytes := 0#16, lineFaults := 0#8 } } .ok :=
  if_pos h

/-- Settles O34, by the three kinds of argument. -/
theorem clearCountersByArgument : Obligations.ClearCountersByArgument := by
  intro s live
  refine ⟨fun e he => ?_, fun all => ?_, fun above not_all => ?_⟩
  · rw [exec_clearCounters live, issue_only_answered (runClearCounters_entry he) rfl]
    rfl
  · rw [exec_clearCounters live, issue_only_answered (runClearCounters_all all) rfl]
    exact ⟨_, rfl, fun e => Vector.getElem_map .., rfl⟩
  · rw [exec_clearCounters live, issue_only_answered (runClearCounters_badArg above not_all) rfl]

/-! ### SOFT_RESET of the roster, the images and the watches (R28, R101, R151) -/

/-- The resync flag, which the abandonment may set, is set at soft reset in any case. -/
theorem abandonLine_entry_softReset (s : State) (e : EntryIdx) :
    ((abandonLine s).entry e).softReset = (s.entry e).softReset := by
  rcases abandonLine_entry_cases s e with same | ⟨not_off, in_doubt⟩
  · rw [same]
  · rw [in_doubt]
    simp [Entry.softReset, Entry.toAwait, not_off]

theorem softResetAll_entry (s : State) (e : EntryIdx) : (softResetAll s).entry e = (s.entry e).softReset :=
  calc (softResetAll s).entry e
    _ = ((abandonLine s).entry e).softReset := Vector.getElem_map ..
    _ = (s.entry e).softReset := abandonLine_entry_softReset s e

theorem softResetAll_image (s : State) (e : EntryIdx) : (softResetAll s).image e = (s.image e).softReset :=
  calc (softResetAll s).image e
    _ = ((abandonLine s).image e).softReset := Vector.getElem_map ..
    _ = (s.image e).softReset := by rw [abandonLine_image]

theorem softResetAll_watch (s : State) (n : WatchIdx) : (softResetAll s).watch n = (s.watch n).softReset :=
  calc (softResetAll s).watch n
    _ = ((abandonLine s).watch n).softReset := Vector.getElem_map ..
    _ = (s.watch n).softReset := by rw [abandonLine_watch]

/-- The abandonment ends the call, so no visit is in flight (R78). -/
theorem softResetAll_visitInFlight (s : State) (e : EntryIdx) : (softResetAll s).visitInFlight e = false := by
  have no_job : (softResetAll s).line.job = none := by simp [softResetAll]
  simp [State.visitInFlight, State.calledEntry, State.visit, no_job]

/-- SOFT_RESET leaves the part at its soft reset values, with its result in the port. -/
theorem exec_softReset_eq {s : State} (live : s.resetHeld = false) :
    ∃ p, exec .softReset s = .next ((softResetAll s).setPort p) :=
  ⟨_, by rw [exec_softReset live, issue_only rfl]⟩

/-- Settles O7, from what soft reset leaves of each row of the tables. -/
theorem softResetOfRosterImagesWatches : Obligations.SoftResetOfRosterImagesWatches := by
  intro s live
  obtain ⟨p, run⟩ := exec_softReset_eq live
  exact ⟨_, run, softResetAll_entry s, softResetAll_visitInFlight s, congrArg _ (abandonLine_cfg s),
    softResetAll_image s, abandonLine_selector s, abandonLine_freeze s, softResetAll_watch s, rfl⟩

/-! ### ENABLE (R21, R22) -/

/-- The fifth test of R21 asks whether another enabled entry holds the address. -/
theorem addressTaken_iff (s : State) (e : EntryIdx) :
    addressTaken s e = true
      ↔ ∃ i, i ≠ e ∧ (s.entry i).link ≠ .off ∧ (s.entry i).address = (s.entry e).address := by
  simp [addressTaken, and_assoc]

theorem addressTaken_eq_false_iff (s : State) (e : EntryIdx) :
    addressTaken s e = false
      ↔ ∀ i, i ≠ e → (s.entry i).link ≠ .off → (s.entry i).address ≠ (s.entry e).address := by
  simp [← Bool.not_eq_true, addressTaken_iff]

theorem runEnable_badArg {s : State} (h : 39 < s.port.argument.toNat) : runEnable s = .only s .badArg := by
  unfold runEnable
  rw [entryOf_none h]

/-- An argument that names an entry leaves the tests of R21 on that entry, in their order. -/
theorem runEnable_entry {s : State} {e : EntryIdx} (h : s.port.argument.toNat = e.val) :
    runEnable s =
      if (s.entry e).link ≠ .off then .only s .ok
      else if (s.entry e).valid = false then .only s .badArg
      else if s.visitInFlight e then .only s .busy
      else if addressTaken s e then .only s .conflict
      else .only (post (linkPost e .off .await) (s.setEntry e (s.entry e).toAwait)) .ok := by
  unfold runEnable
  rw [entryOf_some h]

/-- An entry whose address no other enabled entry holds may take any link state. -/
theorem addressesDistinct_setEntry {s : State} {e : EntryIdx} {x : Entry} (distinct : AddressesDistinct s)
    (free : ∀ i, i ≠ e → (s.entry i).link ≠ .off → (s.entry i).address ≠ x.address) :
    AddressesDistinct (s.setEntry e x) := by
  intro i j hij hi hj
  rw [entry_setEntry] at hi hj ⊢
  rw [entry_setEntry]
  by_cases hie : i = e
  · have hje : j ≠ e := fun h => hij (hie.trans h.symm)
    rw [if_neg hje] at hj ⊢
    rw [if_pos hie]
    exact (free j hje hj).symm
  · rw [if_neg hie] at hi ⊢
    by_cases hje : j = e
    · rw [if_pos hje]
      exact free i hie hi
    · rw [if_neg hje] at hj ⊢
      exact distinct i j hij hi hj

/-- Settles O31, by the tests of R21 in their order; the law is kept because the last test found the address free. -/
theorem enableChecksThenAwaits : Obligations.EnableChecksThenAwaits := by
  intro s live
  rw [exec_enable live]
  have no_effect : ∀ {o}, runEnable s = .only s o →
      (.next (issue runEnable s) : Host.Outcome State Fault Refusal) = .next { s with port := answered s o 0#8 } :=
    fun run => congrArg _ (issue_only_answered run rfl)
  refine ⟨fun above => no_effect (runEnable_badArg above), fun e he => ?_⟩
  refine ⟨fun on => no_effect ?_, fun off invalid => no_effect ?_, fun off valid busy => no_effect ?_,
    fun off valid idle taken => no_effect ?_, fun off valid idle free => ?_⟩
  · rw [runEnable_entry he, if_pos on]
  · simp [runEnable_entry he, off, invalid]
  · simp [runEnable_entry he, off, valid, busy]
  · simp [runEnable_entry he, off, valid, idle, (addressTaken_iff s e).mpr taken]
  · have run : runEnable s = .only (post (linkPost e .off .await) (s.setEntry e (s.entry e).toAwait)) .ok := by
      simp [runEnable_entry he, off, valid, idle, (addressTaken_eq_false_iff s e).mpr free]
    rw [issue_only_answered run rfl]
    exact ⟨_, rfl, rfl, fun distinct => addressesDistinct_setEntry (x := (s.entry e).toAwait) distinct free⟩

end Sys2Proof.Machine
end

section
/-! SUPPORT. Proofs about hardware reset (R177) of the blocks behind the roster and the image store. -/

namespace Sys2Proof.Machine

/-! ### The two rows of the reset input -/

/-- Both rows that reset the part leave `resetAll`; they differ only in the level of the reset input (R177). -/
theorem exec_resetInput_eq {c : Instr} {s : State}
    (resets : c = .hardwareReset ∨ (c = .resetRelease ∧ s.resetHeld = true)) :
    exec c s = .next (resetAll (decide (c = .hardwareReset)) s) := by
  rcases resets with rfl | ⟨rfl, held⟩
  · rfl
  · exact congrArg Host.Outcome.next (if_pos held)

/-- The global interrupt enable stands over the four conditions (R163). -/
theorem irqLow_of_disabled {s : State} (disabled : s.events.globalIrq = false) : s.irqLow = false := by
  simp [State.irqLow, disabled]

/-! ### What the part's views show after a hardware reset, the input low or high -/

section
variable (held : Bool) (s : State)

theorem resetAll_slot (k : SlotIdx) : (resetAll held s).slot k = Slot.reset := Vector.getElem_replicate ..

theorem resetAll_watch (n : WatchIdx) : (resetAll held s).watch n = Watch.reset := Vector.getElem_replicate ..

/-- The engine has no call, so no entry is addressed (R29, R54). -/
theorem resetAll_cursor : (resetAll held s).cursor = 0xFF#8 := rfl

/-- The queue is empty, so the head window reads 0 (R164). -/
theorem resetAll_headWindow (i : Fin 7) : readLoc (.headWindow i) (resetAll held s) = 0#16 := rfl

theorem resetAll_irqLow : (resetAll held s).irqLow = false := irqLow_of_disabled rfl

/-- The engine is in its quiet gap (R56, R79). -/
theorem resetAll_txen : (resetAll held s).txen = false := rfl

/-- No byte is being sent, so TXD is high with the input low and high (R79, R177). -/
theorem resetAll_txd (i : Nat) : (resetAll held s).txd i = .high := by
  cases held
  case true => rfl
  case false => rfl

end

/-! ### Words of the reset values -/

/-- Every kind is enabled but CYCLE, bit 5 (R155, R164). -/
theorem eventUnit_reset_filter_word : EventUnit.reset.filter.word = 0x03DE#16 := by decide

theorem watch_reset_configWord (i : Fin 7) : Watch.reset.configWord i = 0#16 := by
  revert i
  decide

/-- Trigger, persistence and actions are all clear, and each of these alone makes a configuration invalid (R139). -/
theorem watch_reset_valid : Watch.reset.valid = false := by decide

/-! ### The blocks together -/

/-- Settles O6: each block of `resetAll` is its record at hardware reset, and the views follow from those records. -/
theorem hardwareResetOfTheOtherBlocks : Obligations.HardwareResetOfTheOtherBlocks := by
  intro c s resets
  refine ⟨_, exec_resetInput_eq resets, ?sequencer, rfl, ?events, ?errands, fun n => ?watch, ?line, rfl⟩
  case sequencer =>
    exact ⟨rfl, rfl, resetAll_cursor _ s, rfl, rfl, rfl, rfl, rfl, rfl, rfl, rfl, rfl, rfl, rfl, rfl⟩
  case events =>
    exact ⟨rfl, resetAll_headWindow _ s, rfl, rfl, rfl, eventUnit_reset_filter_word, rfl, rfl, rfl, rfl,
      resetAll_irqLow _ s⟩
  case errands => exact ⟨resetAll_slot _ s, rfl, rfl, rfl, rfl⟩
  case watch =>
    rw [resetAll_watch]
    exact ⟨rfl, watch_reset_configWord, rfl, rfl, rfl, rfl, watch_reset_valid⟩
  case line =>
    exact ⟨rfl, rfl, rfl, resetAll_txen _ s, resetAll_txd _ s, rfl, rfl, rfl, rfl, rfl⟩

end Sys2Proof.Machine
end

section
/-! SUPPORT. Proofs about the process images (section 4): COMMIT, FREEZE and the three bit ports. -/

namespace Sys2Proof.Machine

/-! ### COMMIT (R83) -/

theorem runCommit_badArg {s : State} (h : 39 < s.port.argument.toNat) : runCommit s = .only s .badArg := by
  unfold runCommit
  rw [entryOf_none h]

theorem runCommit_entry {s : State} {e : EntryIdx} (h : s.port.argument.toNat = e.val) :
    runCommit s = .only (s.setImage e (s.image e).commitOutputs) .ok := by
  unfold runCommit
  rw [entryOf_some h]

/-! ### FREEZE (R96) -/

theorem runFreeze_badArg {s : State} (h : 39 < s.port.argument.toNat) : runFreeze s = .only s .badArg := by
  unfold runFreeze
  rw [entryOf_none h]

theorem runFreeze_entry {s : State} {e : EntryIdx} (h : s.port.argument.toNat = e.val) :
    runFreeze s = .only { s with freeze := frozen e (s.entry e) (s.image e) } .ok := by
  unfold runFreeze
  rw [entryOf_some h]

/-- Settles O35, for each command by whether its argument names an entry; neither touches the port but by its result. -/
theorem commitAndFreezeCopyTheirWords : Obligations.CommitAndFreezeCopyTheirWords := by
  intro s live
  rw [exec_commit live, exec_freeze live]
  refine ⟨⟨fun above => ?_, fun e he => ?_⟩, fun above => ?_, fun e he => ?_⟩
  · rw [issue_only_answered (runCommit_badArg above) rfl]
  · rw [issue_only_answered (runCommit_entry he) rfl]
    rfl
  · rw [issue_only_answered (runFreeze_badArg above) rfl]
  · rw [issue_only_answered (runFreeze_entry he) rfl]
    rfl

/-! ### The target of the bit ports (R86, R88) -/

theorem selector_target_some {t : Selector} {e : EntryIdx} {n : Fin 8} (he : t.entry.toNat = e.val)
    (hn : t.word.toNat = n.val) : t.target = some (e, n.val) := by
  have in_range : n.val ≤ 7 := Nat.le_of_lt_succ n.isLt
  unfold Selector.target
  rw [entryOf_some he, hn]
  exact if_pos in_range

/-- Either field out of range leaves the ports without a target. -/
theorem selector_target_none {t : Selector} (h : 39 < t.entry.toNat ∨ 7 < t.word.toNat) : t.target = none := by
  unfold Selector.target
  rcases h with entry_above | word_above
  · rw [entryOf_none entry_above]
  · split
    · exact if_neg (Nat.not_le_of_lt word_above)
    · rfl

/-! ### A refused access (R172) -/

/-- An empty fault record takes the access. -/
theorem accessFault_of_empty {s : State} (o : Offset) (c : AccessCause) (h : s.port.fault = none) :
    accessFault o c s = { s with port := { s.port with fault := some ⟨o, c⟩ } } := by
  unfold accessFault HostPort.refuse
  rw [h]
  rfl

/-- An occupied one stays, and the saturating fault count is raised. -/
theorem accessFault_of_occupied {s : State} (o : Offset) (c : AccessCause) (h : s.port.fault ≠ none) :
    accessFault o c s = { s with port := { s.port with
      faultCount := if s.port.faultCount = 15#4 then 15#4 else s.port.faultCount + 1#4 } } := by
  unfold accessFault HostPort.refuse
  rw [← satInc_nibble]
  split
  next empty => exact absurd empty h
  next => rfl

/-! ### SET_PORT, CLEAR_PORT and FLIP_PORT (R87, R88) -/

theorem portWrite_target {s : State} {e : EntryIdx} {n : Fin 8} (p : BitPort) (mask : Word)
    (he : s.selector.entry.toNat = e.val) (hn : s.selector.word.toNat = n.val) :
    portWrite p mask s = s.setImage e { s.image e with
      working := (s.image e).working.set n.val (p.apply (s.image e).working[n] mask) n.isLt } := by
  unfold portWrite
  rw [selector_target_some he hn]
  dsimp only
  rw [(setWord_wordAt _ n _).1, (setWord_wordAt _ n 0#16).2]

theorem portWrite_badTarget {s : State} (p : BitPort) (mask : Word)
    (h : 39 < s.selector.entry.toNat ∨ 7 < s.selector.word.toNat) :
    portWrite p mask s = accessFault p.offset .badTarget s := by
  unfold portWrite
  rw [selector_target_none h]

/-- Each row of a bit port is a write to the port at its offset (Table 10-7). -/
theorem exec_bitPort {s : State} {c : Instr} {o : Offset} {mask : Word} (live : s.resetHeld = false)
    (row : (c = .setPort mask ∧ o = 0x029#11) ∨ (c = .clearPort mask ∧ o = 0x02A#11)
      ∨ (c = .flipPort mask ∧ o = 0x02B#11)) :
    ∃ p : BitPort, o = p.offset ∧ exec c s = .next (portWrite p mask s) := by
  rcases row with ⟨rfl, rfl⟩ | ⟨rfl, rfl⟩ | ⟨rfl, rfl⟩
  · exact ⟨.set, rfl, exec_setPort mask live⟩
  · exact ⟨.clear, rfl, exec_clearPort mask live⟩
  · exact ⟨.flip, rfl, exec_flipPort mask live⟩

/-- Settles O36, by whether the selector names a target; without one, by whether the fault record is empty. -/
theorem bitPortsChangeTheMaskedBits : Obligations.BitPortsChangeTheMaskedBits := by
  intro s mask live
  refine ⟨fun e n he hn => ?_, fun out_of_range c o row => ?_⟩
  · rw [exec_setPort mask live, exec_clearPort mask live, exec_flipPort mask live]
    simp only [portWrite_target _ mask he hn]
    exact ⟨rfl, rfl, rfl⟩
  · obtain ⟨p, rfl, run⟩ := exec_bitPort live row
    rw [run, portWrite_badTarget p mask out_of_range]
    exact ⟨fun empty => congrArg _ (accessFault_of_empty _ _ empty),
      fun occupied => congrArg _ (accessFault_of_occupied _ _ occupied)⟩

end Sys2Proof.Machine
end

section
/-! SUPPORT. Proofs about the errand slots and the errand queue (section 5): SUBMIT, CANCEL and RELEASE_SLOT. -/

namespace Sys2Proof.Machine

/-! ### A command that answers with a value and keeps the port -/

/-- Such a command changes the port only by its result, the value beside the outcome (R170, R171). -/
theorem issue_reply_answered {run : State → Reply} {s t : State} {o : CmdOutcome} {v : Byte}
    (h : run s = { state := t, outcome := o, value := v }) (hp : t.port = s.port) :
    issue run s = { t with port := answered s o v } := by
  rw [issue_reply h, hp]
  rfl

/-! ### The staging record (R105 step 1) -/

/-- What R105 asks of the staging record; `Staging.check_of_suits` and `Staging.check_of_not_suits` tie it to the model's
check. -/
def Staging.Suits (g : Staging) : Prop :=
  g.entry.toNat ≤ 39 ∧ g.object.toNat ≤ 63
    ∧ ((g.kind = 3#4 ∧ 1 ≤ g.len.toNat ∧ g.len.toNat ≤ 8) ∨ ((g.kind = 2#4 ∨ g.kind = 5#4) ∧ g.len = 0#4))

/-- The kind of errand that the kind field of a suiting record names (Table 5-1). -/
def Staging.namedKind (g : Staging) : ErrandKind :=
  if g.kind = 3#4 then .write else if g.kind = 2#4 then .read else .reset

/-- A suiting record passes the check, as an errand to the entry and of the kind it names. -/
theorem Staging.check_of_suits {g : Staging} {e : EntryIdx} (suits : g.Suits) (he : e.val = g.entry.toNat) :
    g.check = some (e, g.namedKind) := by
  unfold Staging.check Staging.namedKind
  rw [entryOf_some he.symm, errandKindOf_eq]
  obtain ⟨-, object_le, ⟨write, one_le, le_eight⟩ | ⟨read | reset, no_words⟩⟩ := suits
  · simp [write, object_le, one_le, le_eight]
  · simp [read, object_le, no_words]
  · simp [reset, object_le, no_words]

/-- The length rule of the check is that of the kind the code names. -/
theorem errandKindOf_length {c len : BitVec 4} {k : ErrandKind} (named : errandKindOf c.toNat = some k)
    (length : if k = .write then 1 ≤ len.toNat ∧ len.toNat ≤ 8 else len = 0#4) :
    (c = 3#4 ∧ 1 ≤ len.toNat ∧ len.toNat ≤ 8) ∨ ((c = 2#4 ∨ c = 5#4) ∧ len = 0#4) := by
  rw [errandKindOf_eq] at named
  split_ifs at named with read write reset <;> cases named
  · exact .inr ⟨.inl read, length⟩
  · exact .inl ⟨write, length⟩
  · exact .inr ⟨.inr reset, length⟩

/-- A record that passes every test of the check suits, so any other fails it. -/
theorem Staging.check_of_not_suits {g : Staging} (unsuited : ¬ g.Suits) : g.check = none := by
  unfold Staging.check
  split
  next e k entry_named kind_named =>
    refine if_neg fun ⟨object_le, length⟩ => unsuited ⟨?_, object_le, errandKindOf_length kind_named length⟩
    rw [entryOf_eq_some.mp entry_named]
    exact Nat.le_of_lt_succ e.isLt
  next => rfl

/-! ### The lowest FREE slot (R105 step 2) -/

theorem freeSlot_none {s : State} (taken : ∀ k, (s.slot k).state ≠ .free) : freeSlot s = none :=
  List.find?_eq_none.mpr fun k _ => by simp [taken k]

theorem freeSlot_lowest {s : State} {k : SlotIdx} (free : (s.slot k).state = .free)
    (lowest : ∀ i < k, (s.slot i).state ≠ .free) : freeSlot s = some k := by
  unfold freeSlot
  rw [← Fin.find?_eq_find?_finRange, Fin.find?_eq_some_iff]
  exact ⟨decide_eq_true free, fun i hi => decide_eq_false (lowest i hi)⟩

/-! ### SUBMIT (R105) -/

theorem runSubmit_badArg {s : State} (unsuited : ¬ s.errand.staging.Suits) :
    runSubmit s = { state := s, outcome := .badArg, value := 0xFF#8 } := by
  unfold runSubmit
  rw [Staging.check_of_not_suits unsuited]

theorem runSubmit_full {s : State} (suits : s.errand.staging.Suits) (taken : ∀ k, (s.slot k).state ≠ .free) :
    runSubmit s = { state := s, outcome := .full, value := 0xFF#8 } := by
  have entry_lt : s.errand.staging.entry.toNat < 40 := Nat.lt_succ_of_le suits.1
  unfold runSubmit
  rw [Staging.check_of_suits (e := ⟨_, entry_lt⟩) suits rfl, freeSlot_none taken]

theorem runSubmit_lowest {s : State} {e : EntryIdx} {k : SlotIdx} (suits : s.errand.staging.Suits)
    (he : e.val = s.errand.staging.entry.toNat) (free : (s.slot k).state = .free)
    (lowest : ∀ i < k, (s.slot i).state ≠ .free) :
    runSubmit s =
      { state := joinQueue k (s.setSlot k (s.errand.staging.slot e s.errand.staging.namedKind))
        outcome := .ok, value := BitVec.ofNat 8 k } := by
  unfold runSubmit
  rw [Staging.check_of_suits suits he, freeSlot_lowest free lowest]

/-- Settles O37, by the outcomes of R105 in their order; none of them touches the port but by its result. -/
theorem submitTakesTheLowestFreeSlot : Obligations.SubmitTakesTheLowestFreeSlot := by
  intro s live
  rw [exec_submit live]
  refine ⟨fun unsuited => ?_, fun suits taken => ?_, fun e k suits he free lowest => ?_⟩
  · rw [issue_reply_answered (runSubmit_badArg unsuited) rfl]
  · rw [issue_reply_answered (runSubmit_full suits taken) rfl]
  · rw [issue_reply_answered (runSubmit_lowest suits he free lowest) rfl]
    rfl

/-! ### CANCEL (R107) -/

/-- The event of a slot completed with answer length 0 carries the slot's tag and entry as they were (R121). -/
theorem errandPost_complete (k : SlotIdx) (x : Slot) (o : SlotOutcome) :
    errandPost k (x.complete o) = errandEvent k x (BitVec.ofNat 8 o.code) := rfl

theorem runCancel_badArg {s : State} (h : 7 < s.port.argument.toNat) : runCancel s = .only s .badArg := by
  unfold runCancel
  rw [slotOf_none h]

section
variable {s : State} {k : SlotIdx} (h : s.port.argument.toNat = k.val)
include h

theorem runCancel_queued (queued : (s.slot k).state = .queued) :
    runCancel s = .only (completeSlot k .cancelled (leaveQueue k s)) .ok := by
  simp only [runCancel, slotOf_some h, queued]

theorem runCancel_active (active : (s.slot k).state = .active) : runCancel s = .only s .tooLate := by
  simp only [runCancel, slotOf_some h, active]

theorem runCancel_notPending (ended : (s.slot k).state = .free ∨ (s.slot k).state = .done) :
    runCancel s = .only s .notPending := by
  rcases ended with free | done
  · simp only [runCancel, slotOf_some h, free]
  · simp only [runCancel, slotOf_some h, done]

end

/-! ### RELEASE_SLOT (R109) -/

theorem runReleaseSlot_badArg {s : State} (h : 7 < s.port.argument.toNat) : runReleaseSlot s = .only s .badArg := by
  unfold runReleaseSlot
  rw [slotOf_none h]

section
variable {s : State} {k : SlotIdx} (h : s.port.argument.toNat = k.val)
include h

theorem runReleaseSlot_done (done : (s.slot k).state = .done) :
    runReleaseSlot s = .only (s.setSlot k { s.slot k with state := .free }) .ok := by
  simp only [runReleaseSlot, slotOf_some h, done]

theorem runReleaseSlot_notPending (not_done : (s.slot k).state ≠ .done) : runReleaseSlot s = .only s .notPending := by
  unfold runReleaseSlot
  rw [slotOf_some h]
  dsimp only
  split
  next done => exact absurd done not_done
  all_goals rfl

end

/-- Settles O38, for each command by the argument and then by the slot's state. -/
theorem cancelAndReleaseSlotActByState : Obligations.CancelAndReleaseSlotActByState := by
  intro s live
  rw [exec_cancel live, exec_releaseSlot live]
  refine ⟨⟨fun above => ?_, fun k hk => ⟨fun queued => ?_, fun active => ?_, fun ended => ?_⟩⟩,
    fun above => ?_, fun k hk => ⟨fun done => ?_, fun not_done => ?_⟩⟩
  · rw [issue_only_answered (runCancel_badArg above) rfl]
  · rw [issue_only_answered (runCancel_queued hk queued) rfl, completeSlot_events, errandPost_complete]
    rfl
  · rw [issue_only_answered (runCancel_active hk active) rfl]
  · rw [issue_only_answered (runCancel_notPending hk ended) rfl]
  · rw [issue_only_answered (runReleaseSlot_badArg above) rfl]
  · rw [issue_only_answered (runReleaseSlot_done hk done) rfl]
  · rw [issue_only_answered (runReleaseSlot_notPending hk not_done) rfl]

end Sys2Proof.Machine
end

section
/-! SUPPORT. Proofs about the watch unit (section 7): the conditions, ARM_WATCH and DISARM_WATCH, the evaluation of a
watch at a commit, and the changes that raise no fire count. -/

namespace Sys2Proof.Machine

/-! ### The conditions (R143, R144) -/

/-- The row of Table 7-3 for a condition, on M, V and their difference D; `Condition.holds_iff_row` ties it to the
model's test. -/
def Condition.Row (k : Condition) (m v : Word) (d : Int) : Prop :=
  match k with
  | .eq => d = 0
  | .ne => d ≠ 0
  | .hi => v.toNat < m.toNat
  | .ls => m.toNat ≤ v.toNat
  | .pl => d < 32768
  | .mi => 32768 ≤ d
  | .any => m.toNat ≠ 0
  | .none => m.toNat = 0

/-- The word difference is D, the difference modulo 65536. -/
theorem toNat_sub_eq_emod (m v : Word) : ((m - v).toNat : Int) = ((m.toNat : Int) - v.toNat) % 65536 := by
  have := v.isLt
  rw [BitVec.toNat_sub]
  omega

/-- The most significant bit of a word says that it is 32768 or more. -/
theorem word_msb_iff (x : Word) : x.msb = true ↔ 32768 ≤ x.toNat := by
  simp [BitVec.msb_eq_decide]

theorem Condition.holds_iff_row (k : Condition) {m v : Word} {d : Int} (hd : d = ((m.toNat : Int) - v.toNat) % 65536) :
    k.holds m v = true ↔ k.Row m v d := by
  rw [← toNat_sub_eq_emod] at hd
  have zero : m - v = 0#16 ↔ d = 0 := by rw [BitVec.toNat_eq, BitVec.toNat_ofNat]; omega
  have high : (m - v).msb = true ↔ 32768 ≤ d := by rw [word_msb_iff]; omega
  cases k with
  | eq => exact decide_eq_true_iff.trans zero
  | ne => exact decide_eq_true_iff.trans (not_congr zero)
  | hi => exact decide_eq_true_iff
  | ls => exact decide_eq_true_iff
  | pl => simp only [Condition.holds, Condition.Row, Bool.not_eq_true', ← Bool.not_eq_true, high, Int.not_le]
  | mi => exact high
  | any => exact decide_eq_true_iff.trans (not_congr BitVec.toNat_eq)
  | none => exact decide_eq_true_iff.trans BitVec.toNat_eq

/-- The other condition of a pair (R144). -/
def Condition.opposite : Condition → Condition
  | .eq => .ne
  | .ne => .eq
  | .hi => .ls
  | .ls => .hi
  | .pl => .mi
  | .mi => .pl
  | .any => .none
  | .none => .any

theorem Condition.holds_opposite (k : Condition) (m v : Word) : k.opposite.holds m v = !k.holds m v := by
  have not_above : ∀ a b : Nat, decide (a ≤ b) = !decide (b < a) := fun a b => by simp [← decide_not]
  cases k <;> simp [opposite, holds, not_above]

/-- Settles O43, row by row and pair by pair. -/
theorem conditionsCompareMaskedWords : Obligations.ConditionsCompareMaskedWords := by
  intro m v d hd
  have row : ∀ k : Condition, k.holds m v = true ↔ k.Row m v d := fun k => k.holds_iff_row hd
  have pair : ∀ k : Condition, k.opposite.holds m v = !k.holds m v := fun k => k.holds_opposite m v
  exact ⟨row .eq, row .ne, row .hi, row .ls, row .pl, row .mi, row .any, row .none,
    pair .eq, pair .hi, pair .pl, pair .any⟩

/-! ### ARM_WATCH (R139) -/

/-- What makes a configuration fail the examination of ARM_WATCH; `Watch.valid_eq_false_iff` ties it to the model's
examination. -/
def Watch.Rejected (w : Watch) : Prop :=
  39 < w.entry.toNat ∨ 7 < w.word.toNat ∨ 7 < w.condition.toNat ∨ w.trigger = 0#2
    ∨ w.persistence.toNat = 0 ∨ 4 < w.persistence.toNat
    ∨ (w.actPost = false ∧ w.actHold = false ∧ w.actDrive = false)
    ∨ (w.actDrive = true ∧ (39 < w.driveEntry.toNat ∨ 7 < w.driveWord.toNat))

theorem Watch.valid_eq_false_iff (w : Watch) : w.valid = false ↔ w.Rejected := by
  simp only [valid, Rejected, conditionOf_isSome, Bool.and_eq_false_iff, Bool.or_eq_false_iff, Bool.not_eq_eq_eq_not,
    Bool.not_false, decide_eq_false_iff_not, Nat.not_le, Nat.lt_one_iff, ne_eq, Decidable.not_not, or_assoc, and_assoc]

theorem runArmWatch_badArg {s : State} (h : 31 < s.port.argument.toNat) : runArmWatch s = .only s .badArg := by
  unfold runArmWatch
  rw [watchOf_none h]

/-- An argument that names a watch leaves the tests of R139 on that watch, in their order. -/
theorem runArmWatch_watch {s : State} {n : WatchIdx} (h : s.port.argument.toNat = n.val) :
    runArmWatch s =
      if (s.watch n).armed then .only s .ok
      else if (s.watch n).valid = false then .only s .badArg
      else .only (s.setWatch n (s.watch n).arm) .ok := by
  unfold runArmWatch
  rw [watchOf_some h]

/-! ### DISARM_WATCH (R140) -/

theorem runDisarmWatch_badArg {s : State} (h : 31 < s.port.argument.toNat) : runDisarmWatch s = .only s .badArg := by
  unfold runDisarmWatch
  rw [watchOf_none h]

theorem runDisarmWatch_watch {s : State} {n : WatchIdx} (h : s.port.argument.toNat = n.val) :
    runDisarmWatch s =
      if (s.watch n).armed then .only (s.setWatch n { (s.watch n).forget with armed := false }) .ok
      else .only s .ok := by
  unfold runDisarmWatch
  rw [watchOf_some h]

/-- Settles O42, for each command by the argument and then by its tests in their order. -/
theorem watchesAreArmedAndDisarmed : Obligations.WatchesAreArmedAndDisarmed := by
  intro s live
  rw [exec_armWatch live, exec_disarmWatch live]
  refine ⟨⟨fun above => ?_, fun n hn => ⟨fun armed => ?_, fun disarmed rejected => ?_, fun disarmed suits => ?_⟩⟩,
    fun above => ?_, fun n hn => ⟨fun armed => ?_, fun disarmed => ?_⟩⟩
  · rw [issue_only_answered (runArmWatch_badArg above) rfl]
  · rw [issue_only_answered ((runArmWatch_watch hn).trans (if_pos armed)) rfl]
  · have invalid := (s.watch n).valid_eq_false_iff.mpr rejected
    have run : runArmWatch s = .only s .badArg := by simp [runArmWatch_watch hn, disarmed, invalid]
    rw [issue_only_answered run rfl]
  · have valid : ¬ (s.watch n).valid = false := fun invalid => suits ((s.watch n).valid_eq_false_iff.mp invalid)
    have run : runArmWatch s = .only (s.setWatch n (s.watch n).arm) .ok := by
      simp [runArmWatch_watch hn, disarmed, valid]
    rw [issue_only_answered run rfl]
    rfl
  · rw [issue_only_answered (runDisarmWatch_badArg above) rfl]
  · rw [issue_only_answered ((runDisarmWatch_watch hn).trans (if_pos armed)) rfl]
    rfl
  · have run : runDisarmWatch s = .only s .ok := by simp [runDisarmWatch_watch hn, disarmed]
    rw [issue_only_answered run rfl]

/-! ### What an evaluation finds (R142 to R144) -/

/-- A watch is skipped unless it is armed and observes the entry, the entry is not OFF and the word is below in_len. -/
theorem evalWatch_skipped {s : State} {e : EntryIdx} {n : WatchIdx}
    (skip : (s.watch n).armed = false ∨ (s.watch n).entry.toNat ≠ e.val ∨ (s.entry e).link = .off
      ∨ (s.entry e).inLen.toNat ≤ (s.watch n).word.toNat) :
    evalWatch e n s = s := by
  refine if_neg ?_
  simp only [isEvaluated, byte_eq_entry, Bool.and_eq_true, decide_eq_true_eq]
  rintro ⟨⟨⟨armed, observes⟩, on⟩, below⟩
  rcases skip with disarmed | elsewhere | off | beyond
  · exact Bool.false_ne_true (disarmed.symm.trans armed)
  · exact elsewhere observes
  · exact on off
  · exact Nat.not_lt_of_le beyond below

/-- The code of a condition (Table 10-2); `conditionOf_code` ties it to the model's reading of a code. -/
def Condition.code : Condition → Nat
  | .eq => 0
  | .ne => 1
  | .hi => 2
  | .ls => 3
  | .pl => 4
  | .mi => 5
  | .any => 6
  | .none => 7

theorem conditionOf_code {b : BitVec 4} (named : b.toNat ≤ 7) :
    ∃ k : Condition, conditionOf b = some k ∧ b.toNat = k.code := by
  revert b
  decide

/-- The row of Table 7-3 for the condition that the stored code names gives the candidate. -/
theorem Watch.candidateFor_of_row {w : Watch} {observed : Word} {d : Int} {c : Bool} {k : Condition}
    (named : conditionOf w.condition = some k)
    (hd : d = (((observed &&& w.mask).toNat : Int) - w.reference.toNat) % 65536)
    (row : c = true ↔ k.Row (observed &&& w.mask) w.reference d) : w.candidateFor observed = some c := by
  have holds : k.holds (observed &&& w.mask) w.reference = c :=
    Bool.eq_iff_iff.mpr ((k.holds_iff_row hd).trans row.symm)
  unfold Watch.candidateFor
  rw [named]
  exact congrArg some holds

/-- An evaluation that is not skipped counts its candidate, and fires where the candidate does (R145, R146). -/
theorem evalWatch_candidate {s : State} {e : EntryIdx} {n : WatchIdx} {i : Fin 8} {c : Bool}
    (armed : (s.watch n).armed = true) (observes : (s.watch n).entry.toNat = e.val) (on : (s.entry e).link ≠ .off)
    (word : (s.watch n).word.toNat = i.val) (below : i.val < (s.entry e).inLen.toNat)
    (candidate : (s.watch n).candidateFor (s.image e).input[i] = some c) :
    evalWatch e n s =
      if (s.watch n).firesOn c then
        fire n (s.watch n) c (s.image e).input[i] e (s.setWatch n ((s.watch n).count c).raiseFires)
      else s.setWatch n ((s.watch n).count c) := by
  have evaluated : isEvaluated s e (s.watch n) = true := by simp [isEvaluated, byte_eq_entry, armed, observes, on]
  have input : wordAt (s.image e).input i.val = (s.image e).input[i] := (setWord_wordAt _ i 0#16).2
  simp only [evalWatch, evaluated, word, below, input, candidate, decide_true, Bool.and_self, if_true]

/-! ### The persistence table (R145) -/

section
variable {w : Watch} {c : Bool}

/-- First row: a candidate equal to the outcome ends the run. -/
theorem Watch.count_of_equal (equal : w.outcome = .ofBool c) : w.count c = { w with run := 0#2 } := if_pos equal

/-- Second and third row: a candidate that differs continues or starts a run below the persistence. -/
theorem Watch.count_of_below (differs : w.outcome ≠ .ofBool c) (below : w.runReached c < w.persistence.toNat) :
    w.count c = { w with candidate := c, run := BitVec.ofNat 2 (w.runReached c) } :=
  (if_neg differs).trans (if_neg (Nat.not_le_of_lt below))

/-- Fourth and fifth row: one that reaches the persistence becomes the outcome. -/
theorem Watch.count_of_reached (differs : w.outcome ≠ .ofBool c) (reached : w.persistence.toNat ≤ w.runReached c) :
    w.count c = { w with candidate := c, run := 0#2, outcome := .ofBool c } :=
  (if_neg differs).trans (if_pos reached)

/-! ### Firing (R146) -/

theorem Watch.triggers_iff :
    w.triggers c = true ↔ w.trigger = 3#2 ∨ (w.trigger = 1#2 ∧ c = true) ∨ (w.trigger = 2#2 ∧ c = false) := by
  unfold Watch.triggers
  split_ifs with rises falls
  · simp [rises]
  · simp [falls]
  · simp [rises, falls]

theorem Watch.firesOn_iff :
    w.firesOn c = true
      ↔ (w.outcome ≠ .ofBool c ∧ w.persistence.toNat ≤ w.runReached c)
        ∧ (w.trigger = 3#2 ∨ (w.trigger = 1#2 ∧ c = true) ∨ (w.trigger = 2#2 ∧ c = false)) := by
  rw [← Watch.triggers_iff]
  simp only [firesOn, changes, Bool.and_eq_true, decide_eq_true_eq]

theorem Watch.raiseFires_eq :
    w.raiseFires = { w with fires := if w.fires = 255#8 then 255#8 else w.fires + 1#8 } := by
  rw [← satInc_byte]
  rfl

end

/-! ### Changes to UNKNOWN raise no fire count (R146) -/

/-- Every watch has the fire count it had. -/
def FiresKept (s t : State) : Prop := ∀ n, (t.watch n).fires = (s.watch n).fires

theorem FiresKept.of_watches {s t : State} (h : t.watches = s.watches) : FiresKept s t := by
  intro n
  unfold State.watch
  rw [h]

theorem FiresKept.forgetWatches (e : EntryIdx) (s : State) : FiresKept s (forgetWatches e s) := by
  intro n
  rw [watch_forgetWatches]
  split
  · rfl
  · rfl

theorem postLinkChange_watches (e : EntryIdx) (o n : LinkState) (s : State) :
    (postLinkChange e o n s).watches = s.watches := by
  unfold postLinkChange
  split
  · rfl
  · rfl

/-- The loss that a failed visit makes sets the entry's watches UNKNOWN (R141); the other blocks' parts of it touch no
watch. -/
theorem FiresKept.applyFailure (e : EntryIdx) (k : CallKind) (s : State) : FiresKept s (applyFailure e k s) := by
  unfold Machine.applyFailure
  dsimp only
  split
  · exact FiresKept.forgetWatches e (removeAttention e (s.setEntry e _))
  · exact .of_watches (postLinkChange_watches ..)

/-- Every single change of the line and the durations keeps the fire counts; only an evaluation, which stands behind an
accepted answer, can raise one. -/
theorem FiresKept.moves : LineMoves FiresKept where
  refl _ _ := rfl
  trans first second n := (second n).trans (first n)
  post _ _ := .of_watches rfl
  seq _ _ _ := .of_watches rfl
  probe _ _ _ _ := .of_watches rfl
  request s role e k := by rw [requestTry_visit]; exact .of_watches rfl
  noLink _ _ _ _ := .of_watches rfl
  budget _ _ := .of_watches rfl
  pickErrand _ _ _ _ := .of_watches rfl
  pickAttention _ _ _ _ := .of_watches rfl
  headWait s := by
    unfold advanceHeadWait
    exact rel_ite (.of_watches rfl) (.of_watches rfl)
  ages s := .of_watches (advanceAges_watches s)
  cycleStart _ := .of_watches (clearCommitMarks_watches _)
  requestSync s := by rw [requestTry_sync]; exact .of_watches rfl
  lineJob _ := .of_watches rfl
  tally _ _ _ := .of_watches rfl
  failure s e k := .applyFailure e k s
  clearFresh _ _ := .of_watches rfl
  complete _ _ _ := .of_watches rfl
  attnRemove _ _ := .of_watches rfl
  line _ _ := .of_watches rfl
  seqAny _ _ _ := .of_watches rfl
  retries _ _ := .of_watches rfl
  resync _ _ _ := .of_watches rfl
  mark _ := .of_watches rfl

/-- A command's result stands in the port, so the command keeps the fire counts that its state keeps. -/
theorem FiresKept.issue {run : State → Reply} {s : State} (h : FiresKept s (run s).state) :
    FiresKept s (issue run s) := h

theorem FiresKept.runDisarmWatch (s : State) : FiresKept s (runDisarmWatch s).state := by
  by_cases above : 31 < s.port.argument.toNat
  · rw [runDisarmWatch_badArg above]
    exact .of_watches rfl
  · rw [runDisarmWatch_watch (n := ⟨s.port.argument.toNat, by omega⟩) rfl]
    split
    · intro m
      simp only [Reply.only, watch_setWatch]
      split
      next same => rw [same]; rfl
      next => rfl
    · exact .of_watches rfl

theorem FiresKept.runDisable (s : State) : FiresKept s (runDisable s).state := by
  unfold Machine.runDisable
  split
  · exact .of_watches rfl
  · dsimp only
    split
    · exact .of_watches rfl
    · exact FiresKept.forgetWatches _ (removeAttention _ (withdrawVisit _ (s.setEntry _ _)))

theorem FiresKept.runSoftReset (s : State) : FiresKept s (runSoftReset s).state := by
  intro n
  have forgotten : (Machine.runSoftReset s).state.watch n = (s.watch n).forget := softResetAll_watch s n
  rw [forgotten]
  rfl

/-- A command row that acts by its run keeps the fire counts that the run keeps; while the reset input is low it does
nothing (R177). -/
theorem FiresKept.command {c : Instr} {run : State → Reply} {s t : State} (he : exec c s = .next t)
    (row : c ≠ .hardwareReset ∧ c ≠ .resetRelease)
    (live : s.resetHeld = false → exec c s = .next (Machine.issue run s)) (keeps : FiresKept s (run s).state) :
    FiresKept s t := by
  cases held : s.resetHeld with
  | true =>
    rw [exec_held held row.1 row.2] at he
    cases he
    exact .of_watches rfl
  | false =>
    rw [live held] at he
    cases he
    exact .issue keeps

/-- A try ended unaccepted keeps the fire counts, by whichever command it ends. -/
theorem FiresKept.unaccepted {s t : State} {v : Visit} {c : Instr} {o : TryOutcome} (ends : TryEnds s v c o)
    (unaccepted : o.Unaccepted) (he : exec c s = .next t) : FiresKept s t := by
  rw [tryEnds_exec ends, Host.Outcome.next.injEq] at he
  rw [← he]
  exact FiresKept.moves.trans (FiresKept.moves.line s _) (FiresKept.moves.endTry v unaccepted _)

/-- The changes to UNKNOWN of R146, by the command that makes them. -/
theorem FiresKept.of_change_to_unknown {s t : State} {c : Instr} (he : exec c s = .next t)
    (changes : c = .disarmWatch ∨ c = .disable ∨ c = .softReset ∨ c = .answerDeadlineExpiry ∨ c = .interByteGapExpiry
      ∨ (∃ l, c = .startBitSample l)
      ∨ (∃ b f v o, c = .answerByte b f ∧ TryEnds s v (.answerByte b f) o ∧ o.Unaccepted)) :
    FiresKept s t := by
  rcases changes with rfl | rfl | rfl | rfl | rfl | ⟨l, rfl⟩ | ⟨b, f, v, o, rfl, ends, unaccepted⟩
  · exact .command he ⟨nofun, nofun⟩ exec_disarmWatch (.runDisarmWatch s)
  · exact .command he ⟨nofun, nofun⟩ exec_disable (.runDisable s)
  · exact .command he ⟨nofun, nofun⟩ exec_softReset (.runSoftReset s)
  · exact FiresKept.moves.row (c := .answerDeadlineExpiry) rfl nofun nofun nofun he
  · exact FiresKept.moves.row (c := .interByteGapExpiry) rfl nofun nofun nofun he
  · exact FiresKept.moves.row (c := (.startBitSample l)) rfl nofun nofun nofun he
  · exact .unaccepted ends unaccepted he

/-- Settles O44: the skipped evaluations; the others by the rows of the persistence table, the last two told apart by
the trigger; and the changes to UNKNOWN by their commands. -/
theorem evaluationFollowsThePersistenceTable : Obligations.EvaluationFollowsThePersistenceTable := by
  refine ⟨fun s e n => evalWatch_skipped, ?_, fun s t c he changes => FiresKept.of_change_to_unknown he changes⟩
  rintro s e n i w observed m v d c new reached rfl armed observes on word below code rfl rfl rfl hd table rfl rfl
  obtain ⟨k, named, hk⟩ := conditionOf_code code
  have row : c = true ↔ k.Row ((s.image e).input[i] &&& (s.watch n).mask) (s.watch n).reference d := by
    rw [hk] at table
    cases k <;> exact table
  rw [evalWatch_candidate armed observes on word below (Watch.candidateFor_of_row named hd row)]
  refine ⟨fun equal => ?_, fun differs short => ?_, fun differs full quiet => ?_, fun differs full matching => ?_⟩
  · have stays : ¬ (s.watch n).firesOn c = true := fun fires =>
      have ⟨⟨differs, _⟩, _⟩ := Watch.firesOn_iff.mp fires
      differs equal
    rw [if_neg stays, Watch.count_of_equal equal]
  · have runs_on : ¬ (s.watch n).firesOn c = true := fun fires =>
      have ⟨⟨_, full⟩, _⟩ := Watch.firesOn_iff.mp fires
      Nat.not_le_of_lt short full
    rw [if_neg runs_on, Watch.count_of_below differs short]
    rfl
  · rw [if_neg fun fires => quiet (Watch.firesOn_iff.mp fires).2, Watch.count_of_reached differs full]
    rfl
  · rw [if_pos (Watch.firesOn_iff.mpr ⟨⟨differs, full⟩, matching⟩), Watch.count_of_reached differs full,
      Watch.raiseFires_eq]
    rfl

end Sys2Proof.Machine
end

section
/-! SUPPORT. Proofs about the event queue and interrupt (section 8): the IRQ level. -/

namespace Sys2Proof.Machine

/-- Settles O48: the level is the global enable over four conditions, compared one by one in the order of R163. -/
theorem irqFollowsItsConditions : Obligations.IrqFollowsItsConditions := by
  intro s
  rw [State.irqLow, Bool.and_eq_true, Bool.or_eq_true, Bool.or_eq_true, Bool.or_eq_true, or_assoc, or_assoc]
  refine and_congr_right' (or_congr ?threshold (or_congr ?coalescing (or_congr ?notRunning ?faultRecord)))
  case threshold => rw [decide_eq_true_iff, thresholdOf]
  case coalescing => simp only [Bool.and_eq_true, decide_eq_true_iff, and_assoc]
  case notRunning => simp only [Bool.and_eq_true, Bool.or_eq_true, decide_eq_true_iff, or_assoc]
  case faultRecord => rw [Bool.and_eq_true, Option.isSome_iff_ne_none]

end Sys2Proof.Machine
end

section
/-! SUPPORT. Proofs about the host port (section 9): the identity word, and CLEAR_FAULT. -/

namespace Sys2Proof.Machine

/-! ### The identity word (R174) -/

/-- While the reset input is high a read returns the word of its location (R167). -/
theorem readWord_live {s : State} (o : Offset) (live : s.resetHeld = false) : s.readWord o = readLoc (locate o) s := by
  simp [State.readWord, live]

theorem locate_identity : locate 0x000#11 = .identity := by decide

/-- The word is a constant of the part, so the level of the reset input alone decides the read (R174, R177). -/
theorem readWord_identity {s : State} (live : s.resetHeld = false) : s.readWord 0x000#11 = 0x4001#16 := by
  rw [readWord_live _ live, locate_identity]
  rfl

theorem hostWrite_readOnly {o : Offset} (v : Word) (s : State) (read_only : (locate o).access = .ro) :
    hostWrite o v s = accessFault o .readOnly s := by
  unfold hostWrite
  rw [read_only]

theorem hostWrite_identity (v : Word) (s : State) : hostWrite 0x000#11 v s = accessFault 0x000#11 .readOnly s := by
  have read_only : (locate 0x000#11).access = .ro := by rw [locate_identity]; rfl
  exact hostWrite_readOnly v s read_only

theorem exec_softReset_live {s t : State} (live : s.resetHeld = false) (run : exec .softReset s = .next t) :
    t.resetHeld = false := by
  obtain ⟨p, resets⟩ := exec_softReset_eq live
  obtain rfl : (softResetAll s).setPort p = t := Host.Outcome.next.inj (resets.symm.trans run)
  exact (abandonLine_resetHeld s).trans live

/-- The fall of the reset input and its rise leave it high, whatever the state before (R177). -/
theorem exec_resetInput_live {s t u : State} (fall : exec .hardwareReset s = .next t)
    (rise : exec .resetRelease t = .next u) : u.resetHeld = false := by
  obtain rfl : resetAll true s = t := Host.Outcome.next.inj fall
  obtain rfl : resetAll false (resetAll true s) = u := Host.Outcome.next.inj rise
  rfl

/-- Settles O51: both resets end with the input high, where the word is constant, and a write meets a read-only location,
the effect of which turns on whether the fault record is empty. -/
theorem identityWordIsConstant : Obligations.IdentityWordIsConstant := by
  intro s live
  refine ⟨readWord_identity live, fun v => ?_,
    fun t run => readWord_identity (exec_softReset_live live run),
    fun t u fall rise => readWord_identity (exec_resetInput_live fall rise)⟩
  rw [exec_hostWrite _ v live, hostWrite_identity]
  exact ⟨fun empty => congrArg _ (accessFault_of_empty _ _ empty),
    fun occupied => congrArg _ (accessFault_of_occupied _ _ occupied)⟩

/-! ### CLEAR_FAULT (R173) -/

/-- The command clears the port that its result is then written to (R170, R173). -/
theorem issue_runClearFault (s : State) :
    issue runClearFault s = { s with port := { answered s .ok 0#8 with fault := none, faultCount := 0#4 } } := by
  have reply : runClearFault s = .only (s.setPort s.port.clearFault) .ok := rfl
  rw [issue_only reply]
  rfl

/-- Of the port the IRQ level looks only at the fault record (R163). -/
theorem irqLow_of_fault_eq {s t : State} (events : t.events = s.events) (seq : t.seq = s.seq)
    (fault : t.port.fault = s.port.fault) : t.irqLow = s.irqLow := by
  simp only [State.irqLow, events, seq, fault]

/-- Settles O53, from the whole next state; the level of IRQ is that of the state with its fault record emptied. -/
theorem clearFaultEmptiesTheRecord : Obligations.ClearFaultEmptiesTheRecord := by
  intro s live
  rw [exec_clearFault live, issue_runClearFault]
  exact ⟨_, rfl, rfl, rfl, rfl, fun no_other => (irqLow_of_fault_eq rfl rfl rfl).trans no_other⟩

end Sys2Proof.Machine
end

section
/-! SUPPORT. Proofs about every step at once: what a host write can do, in single changes as Laws/Cascade.lean gives them
for the line and the durations, and the laws that every step keeps. -/

namespace Sys2Proof.Machine

/-! ### Single changes of a host write -/

/-- An entry but for its configuration fields (Tables 1-7 and 1-9). -/
def SameRuntime (x y : Entry) : Prop :=
  x.link = y.link ∧ x.miss = y.miss ∧ x.nextToggle = y.nextToggle ∧ x.resync = y.resync ∧ x.probe = y.probe
  ∧ x.retries = y.retries ∧ x.failedVisits = y.failedVisits ∧ x.losses = y.losses

/-- A relation of states that each single change made by a command of the command word keeps too. -/
structure CommandMoves (R : State → State → Prop) : Prop extends AnswerMoves R where
  commitOutputs : ∀ s e, R s (s.setImage e (s.image e).commitOutputs)
  freeze : ∀ s f, R s { s with freeze := f }
  loadRun : ∀ s, R s (loadRun s)
  enable : ∀ s e, (s.entry e).valid = true → addressTaken s e = false → R s (s.setEntry e (s.entry e).toAwait)
  disable : ∀ s e,
    R s (forgetWatches e (removeAttention e (withdrawVisit e (s.setEntry e (s.entry e).disable))))
  popHead : ∀ s, R s (s.setEvents (s.events.popHead s.seq.cycle))
  submit : ∀ s k x, R s (joinQueue k (s.setSlot k x))
  leaveQueue : ∀ s k, R s (leaveQueue k s)
  releaseSlot : ∀ s k, R s (s.setSlot k { s.slot k with state := .free })
  arm : ∀ s n, (s.watch n).valid = true → R s (s.setWatch n (s.watch n).arm)
  disarm : ∀ s n, R s (s.setWatch n { (s.watch n).forget with armed := false })
  clearCounters : ∀ s e, R s (s.setEntry e (s.entry e).clearCounters)
  clearAllCounters : ∀ s, R s { s with
    roster := s.roster.map Entry.clearCounters
    seq := { s.seq with overruns := 0#8 }
    line := { s.line with strayBytes := 0#16, lineFaults := 0#8 } }
  clearFault : ∀ s, R s (s.setPort s.port.clearFault)
  softReset : ∀ s, R s (softResetAll s)

/-- A relation of states that each single change made by a host write keeps too. -/
structure HostMoves (R : State → State → Prop) : Prop extends CommandMoves R where
  port : ∀ s p, R s (s.setPort p)
  cfg : ∀ s c, R s (setConfig c s)
  selector : ∀ s t, R s { s with selector := t }
  staging : ∀ s g, R s (setStaging g s)
  eventControls : ∀ s f n c g i, R s (s.setEvents { s.events with
    filter := f, threshold := n, coalescing := c, globalIrq := g, faultIrq := i })
  entryConfig : ∀ s e x, (s.entry e).link = .off → SameRuntime (s.entry e) x → R s (s.setEntry e x)
  watchConfig : ∀ s n i v, (s.watch n).armed = false → R s (s.setWatch n ((s.watch n).store i v))
  working : ∀ s e ws, R s (s.setImage e { s.image e with working := ws })

/-- A relation that holds wherever one with the single changes of the line and the durations does has them too. -/
theorem AnswerMoves.mono {R Q : State → State → Prop} (h : AnswerMoves R) (le : ∀ {s t}, R s t → Q s t)
    (trans : ∀ {s t u}, Q s t → Q t u → Q s u) : AnswerMoves Q where
  refl s := le (h.refl s)
  trans := trans
  post p s := le (h.post p s)
  seq s q within := le (h.seq s q within)
  probe s e n lost := le (h.probe s e n lost)
  request s role e k := le (h.request s role e k)
  noLink s k rest queue := le (h.noLink s k rest queue)
  budget s n := le (h.budget s n)
  pickErrand s k rest queue := le (h.pickErrand s k rest queue)
  pickAttention s e rest items := le (h.pickAttention s e rest items)
  headWait s := le (h.headWait s)
  ages s := le (h.ages s)
  cycleStart s := le (h.cycleStart s)
  requestSync s := le (h.requestSync s)
  lineJob s := le (h.lineJob s)
  tally s a b := le (h.tally s a b)
  failure s e k := le (h.failure s e k)
  clearFresh s e := le (h.clearFresh s e)
  complete s k o := le (h.complete s k o)
  attnRemove s e := le (h.attnRemove s e)
  line s l := le (h.line s l)
  seqAny s q cycle := le (h.seqAny s q cycle)
  retries s e := le (h.retries s e)
  resync s e on := le (h.resync s e on)
  mark s := le (h.mark s)
  success s e k := le (h.success s e k)
  commitInput s e n payload := le (h.commitInput s e n payload)
  evalWatch s e n := le (h.evalWatch s e n)
  completeGood s k payload := le (h.completeGood s k payload)
  attnAppend s e := le (h.attnAppend s e)

namespace CommandMoves

variable {R : State → State → Prop} (h : CommandMoves R)
include h

theorem runStart (s : State) : R s (runStart s).state := by
  unfold Machine.runStart
  split
  case h_5 => split; exacts [h.refl s, h.trans (h.loadRun s) (h.startNextCycle _)]
  all_goals exact h.refl s

theorem runStop (s : State) : R s (runStop s).state := by
  have between : R s (stopBetweenCycles s) :=
    h.trans (t := s.setSeq { s.seq with state := .stopped, holdPending := false, expiryInHold := false, timer := none })
      (h.seqAny _ _ rfl) (h.post ..)
  unfold Machine.runStop
  split
  · exact h.seqAny _ _ rfl
  · exact between
  · exact between
  · exact h.seqAny _ _ rfl
  · exact h.refl s

theorem runHalt (s : State) : R s (runHalt s).state := by
  unfold Machine.runHalt
  split
  · exact h.refl s
  · refine h.trans (h.abandon s) ?_
    dsimp only [Reply.only]
    generalize Machine.abandon s = t
    exact h.trans (h.seqAny t t.seq.halt rfl) (h.post ..)

theorem becomeWaiting (s : State) : R s (becomeWaiting s) :=
  h.seqAny s { s.seq with state := .waiting, phase := .none } rfl

theorem runRelease (s : State) : R s (runRelease s).state := by
  have free : R s (if s.seq.freeMinPassed then startNextCycle s else Machine.becomeWaiting s) :=
    rel_ite (h.startNextCycle s) (h.becomeWaiting s)
  unfold Machine.runRelease
  split
  · exact h.refl s
  · split
    · split
      · exact h.trans (h.seqAny _ { s.seq with expiryInHold := false } rfl) (h.startNextCycle _)
      · exact h.becomeWaiting s
    · exact free
    · exact free

theorem runEnable (s : State) : R s (runEnable s).state := by
  unfold Machine.runEnable
  split
  · exact h.refl s
  · dsimp only
    split_ifs with on invalid busy taken
    · exact h.refl s
    · exact h.refl s
    · exact h.refl s
    · exact h.refl s
    · exact h.trans (h.enable s _ (by simpa using invalid) (by simpa using taken)) (h.post ..)

theorem runDisable (s : State) : R s (runDisable s).state := by
  unfold Machine.runDisable
  split
  · exact h.refl s
  · dsimp only
    split
    · exact h.refl s
    · exact h.trans (h.disable s _) (h.post ..)

theorem runCommit (s : State) : R s (runCommit s).state := by
  unfold Machine.runCommit
  split
  · exact h.refl s
  · exact h.commitOutputs ..

theorem runFreeze (s : State) : R s (runFreeze s).state := by
  unfold Machine.runFreeze
  split
  · exact h.refl s
  · exact h.freeze ..

theorem runPop (s : State) : R s (runPop s).state := by
  unfold Machine.runPop
  split
  · exact h.refl s
  · exact h.popHead s

theorem runSubmit (s : State) : R s (runSubmit s).state := by
  unfold Machine.runSubmit
  split
  · exact h.refl s
  · split
    · exact h.refl s
    · exact h.submit ..

theorem runCancel (s : State) : R s (runCancel s).state := by
  unfold Machine.runCancel
  split
  · exact h.refl s
  · split
    · exact h.trans (h.leaveQueue ..) (h.complete ..)
    all_goals exact h.refl s

theorem runReleaseSlot (s : State) : R s (runReleaseSlot s).state := by
  unfold Machine.runReleaseSlot
  split
  · exact h.refl s
  · split
    · exact h.releaseSlot ..
    all_goals exact h.refl s

theorem runArmWatch (s : State) : R s (runArmWatch s).state := by
  unfold Machine.runArmWatch
  split
  · exact h.refl s
  · split_ifs with armed invalid
    · exact h.refl s
    · exact h.refl s
    · exact h.arm _ _ (by simpa using invalid)

theorem runDisarmWatch (s : State) : R s (runDisarmWatch s).state := by
  unfold Machine.runDisarmWatch
  split
  · exact h.refl s
  · split
    · exact h.disarm ..
    · exact h.refl s

theorem runClearCounters (s : State) : R s (runClearCounters s).state := by
  unfold Machine.runClearCounters
  split
  · exact h.clearAllCounters s
  · split
    · exact h.refl s
    · exact h.clearCounters ..

/-- Every code of the command word (R170). -/
theorem runCode (code : Nat) (s : State) : R s (runCode code s).state := by
  unfold Machine.runCode
  split
  · exact h.runStart s
  · exact h.runStop s
  · exact h.runHalt s
  · exact h.runRelease s
  · exact h.runEnable s
  · exact h.runDisable s
  · exact h.runCommit s
  · exact h.runFreeze s
  · exact h.runPop s
  · exact h.runSubmit s
  · exact h.runCancel s
  · exact h.runReleaseSlot s
  · exact h.runArmWatch s
  · exact h.runDisarmWatch s
  · exact h.runClearCounters s
  · exact h.clearFault s
  · exact h.softReset s
  · exact h.refl s

end CommandMoves

namespace HostMoves

variable {R : State → State → Prop} (h : HostMoves R)
include h

theorem commandWrite (w : Word) (s : State) : R s (commandWrite w s) :=
  h.trans (h.runCode (commandCode w) s) (h.port ..)

theorem portWrite (p : BitPort) (mask : Word) (s : State) : R s (portWrite p mask s) := by
  unfold Machine.portWrite
  split
  · exact h.port ..
  · exact h.working ..

/-- A store at a location that its owner does not lock (R168). -/
theorem store (l : Loc) (v : Word) {s : State} (unlocked : isLocked l.access s = false) : R s (storeLoc l v s) := by
  have off : ∀ e, l.access = .lockedByEntry e → (s.entry e).link = .off := by
    intro e access
    rw [access] at unlocked
    simpa [isLocked] using unlocked
  have disarmed : ∀ n, l.access = .lockedByWatch n → (s.watch n).armed = false := by
    intro n access
    rwa [access] at unlocked
  unfold storeLoc
  split
  case h_1 => exact h.port ..
  case h_9 | h_10 | h_11 | h_12 => exact h.eventControls s _ _ _ _ _
  case h_13 => exact h.selector ..
  case h_14 | h_15 | h_16 => exact h.staging ..
  case h_17 | h_18 | h_19 => exact h.entryConfig _ _ _ (off _ rfl) ⟨rfl, rfl, rfl, rfl, rfl, rfl, rfl, rfl⟩
  case h_20 => exact h.working ..
  case h_21 => exact h.watchConfig _ _ _ _ (disarmed _ rfl)
  case h_22 => exact h.refl s
  all_goals exact h.cfg ..

/-- A write at any offset, by the access type of its location (R168). -/
theorem hostWrite (o : Offset) (v : Word) (s : State) : R s (hostWrite o v s) := by
  have store : ∀ {a}, (locate o).access = a → isLocked a s = false → R s (storeLoc (locate o) v s) :=
    fun access unlocked => h.store _ _ (access ▸ unlocked)
  have lockable : ∀ {a}, (locate o).access = a →
      R s (if isLocked a s then accessFault o .locked s else storeLoc (locate o) v s) := by
    intro a access
    split
    next => exact h.port ..
    next unlocked => exact store access (by simpa using unlocked)
  unfold Machine.hostWrite
  split
  · exact h.port ..
  · exact h.port ..
  · exact rel_ite (h.commandWrite ..) (rel_ite (h.portWrite ..) (rel_ite (h.portWrite ..) (h.portWrite ..)))
  · exact store ‹_› rfl
  · exact lockable ‹_›
  · exact lockable ‹_›
  · exact lockable ‹_›

/-- Every row but those of the reset input and ANSWER_BYTE, whose commit takes the list of arrivals. -/
theorem rowButAnswer {c : Instr} {s t : State} (fall : c ≠ .hardwareReset) (rise : c ≠ .resetRelease)
    (noAnswer : ∀ b f, c ≠ .answerByte b f) (run : exec c s = .next t) : R s t := by
  cases bus : busWrite c with
  | none => exact h.row bus fall rise noAnswer run
  | some write =>
    cases held : s.resetHeld with
    | true =>
      rw [exec_held held fall rise] at run
      cases run
      exact h.refl s
    | false =>
      rw [exec_busWrite bus held] at run
      cases run
      exact h.hostWrite ..

/-- Every step, for a relation that the two rows of the reset input keep, and that sees neither the queue nor the list of
arrivals. -/
theorem everyStep (amid : ∀ s l, R s (s.setAmid l)) (queue : ∀ s l, R s { s with pending := l })
    (reset : ∀ s held, R s (resetAll held s)) {s t : State} (he : step s = .next t) : R s t := by
  unfold step at he
  split at he
  · cases he
    exact h.refl s
  · rename_i c rest _
    refine h.trans (queue s rest) ?_
    by_cases h1 : c = .hardwareReset
    · subst h1
      cases he
      exact reset ..
    · by_cases h2 : c = .resetRelease
      · subst h2
        cases he
        exact rel_ite (reset ..) (h.refl _)
      · exact h.everyRow h.hostWrite (fun l t => amid t l) h1 h2 he

end HostMoves

end Sys2Proof.Machine
end

section
/-! SUPPORT. Proofs about the laws that every step keeps, and the one set of laws that a step can break. -/

namespace Sys2Proof.Machine

/-! ### The event queue (R152, R154, R159, R162) -/

/-- The law speaks of the records and the counts, not of the control words. -/
theorem EventLaw.of_controls (s : State) (f : KindFilter) (n : BitVec 6) (c : Byte) (g i : Bool) :
    Keeps EventLaw s (s.setEvents { s.events with
      filter := f, threshold := n, coalescing := c, globalIrq := g, faultIrq := i }) := id

/-- An event unit without a record or a drop is lawful. -/
theorem eventLaw_of_empty {s : State} (queue : s.events.queue = []) (dropped : s.events.dropped = 0#8)
    (headWait : s.events.headWait = 0#8) : EventLaw s := by
  rw [eventLaw_iff]
  refine ⟨?_, fun raised => absurd dropped raised, fun _ => headWait, fun i below => ?_⟩
  · rw [queue]
    exact Nat.zero_le _
  · rw [queue] at below
    exact absurd below (Nat.not_lt_zero i)

theorem EventLaw.hostMoves : HostMoves (Keeps EventLaw) where
  toAnswerMoves := EventLaw.moves
  clearFault _ := .of_fields (.inl rfl)
  port _ _ := .of_fields (.inl rfl)
  cfg _ _ := .of_fields (.inl rfl)
  selector _ _ := .of_fields (.inl rfl)
  staging _ _ := .of_fields (.inl rfl)
  eventControls := .of_controls
  entryConfig _ _ _ _ _ := .of_fields (.inl rfl)
  watchConfig _ _ _ _ _ := .of_fields (.inl rfl)
  working _ _ _ := .of_fields (.inl rfl)
  commitOutputs _ _ := .of_fields (.inl rfl)
  freeze _ _ := .of_fields (.inl rfl)
  loadRun _ := .of_fields (.inl rfl)
  enable _ _ _ _ := .of_fields (.inl rfl)
  disable _ _ := .of_fields (.inl rfl)
  popHead s law := (eventLaw_iff _).mpr (popHead_lawful ((eventLaw_iff s).mp law) _)
  submit _ _ _ := .of_fields (.inl rfl)
  leaveQueue _ _ := .of_fields (.inl rfl)
  releaseSlot _ _ := .of_fields (.inl rfl)
  arm _ _ _ := .of_fields (.inl rfl)
  disarm _ _ := .of_fields (.inl rfl)
  clearCounters _ _ := .of_fields (.inl rfl)
  clearAllCounters _ := .of_fields (.inl rfl)
  softReset _ _ := eventLaw_of_empty rfl rfl rfl

/-- Settles O59: every single change keeps the law, and so does every step, which is made of them. -/
theorem stepsKeepTheEventLaw : Obligations.StepsKeepTheEventLaw := fun _ _ law run =>
  EventLaw.hostMoves.everyStep (fun _ _ => .of_fields (.inl rfl)) (fun _ _ => .of_fields (.inl rfl))
    (fun _ _ _ => eventLaw_of_empty rfl rfl rfl) run law

/-! ### The roster (R2, R8, R17, R21) -/

theorem toAwait_lawful {x : Entry} (valid : x.valid = true) : x.toAwait.Lawful :=
  ⟨nofun, nofun, fun _ => valid_lossLimit valid, nofun, nofun, fun _ => valid, fun _ => rfl⟩

theorem softReset_lawful {x : Entry} (law : x.Lawful) : x.softReset.Lawful := by
  have ⟨_, _, _, _, _, valid, _⟩ := law
  unfold Entry.softReset
  split
  · exact law
  · exact toAwait_lawful (valid ‹_›)

theorem softReset_link_off {x : Entry} : x.softReset.link = .off ↔ x.link = .off := by
  unfold Entry.softReset
  split
  · rfl
  · simpa [Entry.toAwait] using ‹¬ x.link = .off›

theorem softReset_address (x : Entry) : x.softReset.address = x.address := by
  unfold Entry.softReset
  split
  · rfl
  · rfl

theorem disable_lawful {x : Entry} (law : x.Lawful) : x.disable.Lawful := by
  obtain ⟨-, -, -, -, -, -, probe⟩ := law
  refine ⟨fun _ => rfl, nofun, nofun, nofun, nofun, fun on => absurd rfl on, fun _ => ?_⟩
  by_cases lost : x.link = .lost
  · simp [Entry.disable, lost]
  · simp [Entry.disable, lost, probe lost]

theorem reset_lawful : Entry.reset.Lawful := by decide

/-- An OFF entry is lawful by its runtime fields alone. -/
theorem SameRuntime.lawful {x y : Entry} (same : SameRuntime x y) (off : x.link = .off) (law : x.Lawful) : y.Lawful := by
  obtain ⟨link, miss, -, -, probe, -⟩ := same
  obtain ⟨missOff, -, -, -, -, -, probeOff⟩ := law
  rw [link] at off missOff probeOff
  rw [miss] at missOff
  rw [probe] at probeOff
  refine ⟨missOff, ?_, ?_, ?_, ?_, fun on => absurd off on, probeOff⟩ <;> rw [off] <;> nofun

/-- Tables whose entries are lawful, and of which each that is not OFF was so with the same address, keep the laws. -/
theorem RosterLaw.of_entries {s t : State} (lawful : ∀ e, (s.entry e).Lawful → (t.entry e).Lawful)
    (on : ∀ e, (t.entry e).link ≠ .off → (s.entry e).link ≠ .off ∧ (t.entry e).address = (s.entry e).address) :
    Keeps RosterLaw s t := by
  rintro ⟨law, distinct⟩
  refine ⟨fun e => lawful e (law e), fun e f differ onE onF => ?_⟩
  rw [(on e onE).2, (on f onF).2]
  exact distinct e f differ (on e onE).1 (on f onF).1

theorem RosterLaw.entryConfig {s : State} {e : EntryIdx} {x : Entry} (off : (s.entry e).link = .off)
    (same : SameRuntime (s.entry e) x) : Keeps RosterLaw s (s.setEntry e x) := by
  refine .of_entries (fun f law => ?_) (fun f on => ?_) <;> rw [entry_setEntry] at * <;> split
  next at_e => subst at_e; exact same.lawful off law
  next => exact law
  next at_e =>
    rw [if_pos at_e] at on
    exact absurd (same.1 ▸ off) on
  next elsewhere =>
    rw [if_neg elsewhere] at on
    exact ⟨on, rfl⟩

/-- ENABLE takes an entry to AWAIT only with a valid configuration and a free address (R21). -/
theorem RosterLaw.enable {s : State} {e : EntryIdx} (valid : (s.entry e).valid = true)
    (free : addressTaken s e = false) : Keeps RosterLaw s (s.setEntry e (s.entry e).toAwait) := by
  rintro ⟨law, distinct⟩
  refine ⟨fun f => ?_, addressesDistinct_setEntry distinct ((addressTaken_eq_false_iff s e).mp free)⟩
  rw [entry_setEntry]
  split
  · exact toAwait_lawful valid
  · exact law f

theorem RosterLaw.softReset (s : State) : Keeps RosterLaw s (softResetAll s) := by
  refine .of_entries (fun e law => ?_) (fun e on => ?_) <;> rw [softResetAll_entry] at *
  · exact softReset_lawful law
  · exact ⟨fun off => on (softReset_link_off.mpr off), softReset_address _⟩

/-- A table of OFF entries at their reset values is lawful. -/
theorem rosterLaw_resetAll (s : State) (held : Bool) : RosterLaw (resetAll held s) := by
  have entry : ∀ e, (resetAll held s).entry e = Entry.reset := fun e => Vector.getElem_replicate ..
  refine ⟨fun e => entry e ▸ reset_lawful, fun e _ _ on => absurd ?_ on⟩
  rw [entry]
  rfl

theorem RosterLaw.hostMoves : HostMoves (Keeps RosterLaw) where
  toAnswerMoves := RosterLaw.moves
  clearFault _ := .of_roster rfl
  port _ _ := .of_roster rfl
  cfg _ _ := .of_roster rfl
  selector _ _ := .of_roster rfl
  staging _ _ := .of_roster rfl
  eventControls _ _ _ _ _ _ := .of_roster rfl
  entryConfig _ _ _ := .entryConfig
  watchConfig _ _ _ _ _ := .of_roster rfl
  working _ _ _ := .of_roster rfl
  commitOutputs _ _ := .of_roster rfl
  freeze _ _ := .of_roster rfl
  loadRun _ := .of_roster rfl
  enable _ _ := .enable
  disable s e law :=
    RosterLaw.of_roster (s := s.setEntry e (s.entry e).disable) rfl
      (RosterLaw.of_entry disable_lawful rfl (fun _ => rfl) law)
  popHead _ := .of_roster rfl
  submit _ _ _ := .of_roster rfl
  leaveQueue _ _ := .of_roster rfl
  releaseSlot _ _ := .of_roster rfl
  arm _ _ _ := .of_roster rfl
  disarm _ _ := .of_roster rfl
  clearCounters _ _ := .of_entry id rfl id
  clearAllCounters s := by
    have entry : ∀ e : EntryIdx, (s.roster.map Entry.clearCounters)[e] = (s.entry e).clearCounters :=
      fun e => Vector.getElem_map ..
    refine .of_entries (fun e law => ?_) (fun e on => ?_) <;> unfold State.entry at * <;> dsimp only at * <;>
      rw [entry] at *
    · exact law
    · exact ⟨on, rfl⟩
  softReset := .softReset

/-- Settles O58, as O59. -/
theorem stepsKeepTheRosterLaw : Obligations.StepsKeepTheRosterLaw := fun _ _ law run =>
  RosterLaw.hostMoves.everyStep (fun _ _ => .of_roster rfl) (fun _ _ => .of_roster rfl)
    (fun s held _ => rosterLaw_resetAll s held) run law

/-! ### Armed watches (R136) -/

/-- What makes a watch armed and valid is not what evaluations and losses change. -/
theorem SameWatchConfig.armed_valid {x y : Watch} (same : SameWatchConfig x y) :
    y.armed = x.armed ∧ y.valid = x.valid := by
  rw [same]
  exact ⟨rfl, rfl⟩

/-- Watches that are armed and valid as before keep the law. -/
theorem ArmedValid.of_watch {s t : State}
    (h : ∀ n, (t.watch n).armed = true → (t.watch n).valid = true
      ∨ ((t.watch n).armed = (s.watch n).armed ∧ (t.watch n).valid = (s.watch n).valid)) :
    Keeps ArmedValid s t := by
  intro law n armed
  rcases h n armed with valid | ⟨sameArmed, sameValid⟩
  · exact valid
  · rw [sameValid]
    exact law n (sameArmed ▸ armed)

theorem ArmedValid.of_watches {s t : State} (h : t.watches = s.watches) : Keeps ArmedValid s t :=
  .of_watch fun n _ => .inr (by unfold State.watch; rw [h]; exact ⟨rfl, rfl⟩)

theorem ArmedValid.of_hostData {s t : State} (kept : HostDataKept s t) : Keeps ArmedValid s t := by
  obtain ⟨-, -, -, -, -, -, -, -, -, -, -, -, -, watches⟩ := kept
  exact .of_watch fun n _ => .inr (watches n).armed_valid

theorem ArmedValid.setWatch {s : State} {n : WatchIdx} {x : Watch} (h : x.armed = true → x.valid = true) :
    Keeps ArmedValid s (s.setWatch n x) := by
  refine .of_watch fun m armed => ?_
  rw [watch_setWatch] at armed ⊢
  split
  next at_n => exact .inl (h (by rwa [if_pos at_n] at armed))
  next => exact .inr ⟨rfl, rfl⟩

theorem Watch.store_armed (w : Watch) (i : Fin 7) (v : Word) : (w.store i v).armed = w.armed := by
  unfold Watch.store
  split <;> rfl

theorem ArmedValid.hostMoves : HostMoves (Keeps ArmedValid) where
  toAnswerMoves := HostDataKept.moves.mono .of_hostData fun first second law => second (first law)
  clearFault _ := .of_watches rfl
  port _ _ := .of_watches rfl
  cfg _ _ := .of_watches rfl
  selector _ _ := .of_watches rfl
  staging _ _ := .of_watches rfl
  eventControls _ _ _ _ _ _ := .of_watches rfl
  entryConfig _ _ _ _ _ := .of_watches rfl
  watchConfig s n i v disarmed := .setWatch fun armed => by
    rw [Watch.store_armed, disarmed] at armed
    exact absurd armed Bool.false_ne_true
  working _ _ _ := .of_watches rfl
  commitOutputs _ _ := .of_watches rfl
  freeze _ _ := .of_watches rfl
  loadRun _ := .of_watches rfl
  enable _ _ _ _ := .of_watches rfl
  disable s e := by
    have kept := HostDataKept.forgetWatches e (removeAttention e (withdrawVisit e (s.setEntry e (s.entry e).disable)))
    exact fun law => ArmedValid.of_hostData kept (ArmedValid.of_watches (s := s) rfl law)
  popHead _ := .of_watches rfl
  submit _ _ _ := .of_watches rfl
  leaveQueue _ _ := .of_watches rfl
  releaseSlot _ _ := .of_watches rfl
  arm _ _ valid := .setWatch fun _ => valid
  disarm _ _ := .setWatch fun armed => absurd armed Bool.false_ne_true
  clearCounters _ _ := .of_watches rfl
  clearAllCounters _ := .of_watches rfl
  softReset s := .of_watch fun n _ => .inr (by rw [softResetAll_watch]; exact ⟨rfl, rfl⟩)

theorem armedValid_resetAll (s : State) (held : Bool) : ArmedValid (resetAll held s) := by
  intro n armed
  rw [resetAll_watch] at armed
  exact absurd armed Bool.false_ne_true

/-! ### The attention list (R125) -/

theorem AttentionOrder.of_attn {s t : State} (h : t.attn = s.attn) : Keeps AttentionOrder s t := by
  intro law
  unfold AttentionOrder at *
  rwa [h]

/-- An append keeps the items single and the head in its place (R127). -/
theorem AttentionOrder.append (s : State) (e : EntryIdx) : Keeps AttentionOrder s (s.setAttn (s.attn.append e)) := by
  rintro ⟨single, head⟩
  by_cases listed : e ∈ s.attn.items
  · simp only [AttentionOrder, setAttn_attn, AttentionList.append, if_pos listed]
    exact ⟨single, head⟩
  · simp only [AttentionOrder, setAttn_attn, AttentionList.append, if_neg listed]
    refine ⟨List.nodup_append.mpr ⟨single, List.nodup_singleton e, ?_⟩, fun f mark => ?_⟩
    · rintro a mem b here rfl
      exact listed (List.mem_singleton.mp here ▸ mem)
    · exact List.head?_append_of_ne_nil _ (fun none => by simp [none] at head; exact head f mark) |>.trans (head f mark)

/-- A removal takes the mark with the item it names (R128). -/
theorem AttentionOrder.remove (s : State) (e : EntryIdx) : Keeps AttentionOrder s (s.setAttn (s.attn.remove e)) := by
  rintro ⟨single, head⟩
  refine ⟨single.filter _, fun f mark => ?_⟩
  simp only [setAttn_attn, AttentionList.remove] at mark ⊢
  split at mark
  · cases mark
  · rename_i other
    have differs : f ≠ e := fun same => other (same ▸ mark)
    obtain ⟨rest, items⟩ : ∃ rest, s.attn.items = f :: rest := List.head?_eq_some_iff.mp (head f mark)
    rw [items, List.filter_cons_of_pos (by simpa using differs)]
    rfl

theorem AttentionOrder.hostMoves : HostMoves (Keeps AttentionOrder) where
  refl _ law := law
  trans first second law := second (first law)
  post _ _ := .of_attn rfl
  seq _ _ _ := .of_attn rfl
  probe _ _ _ _ := .of_attn rfl
  request s role e k := by rw [requestTry_visit]; exact .of_attn rfl
  noLink _ _ _ _ := .of_attn rfl
  budget _ _ := .of_attn rfl
  pickErrand _ _ _ _ := .of_attn rfl
  pickAttention s e rest items := by
    rintro ⟨single, -⟩
    refine ⟨single, fun f mark => ?_⟩
    cases mark
    exact List.head?_eq_some_iff.mpr ⟨rest, items⟩
  headWait s := by
    unfold advanceHeadWait
    exact rel_ite (R := Keeps AttentionOrder) (.of_attn rfl) (.of_attn rfl)
  ages s := .of_attn (advanceAges_attn s)
  cycleStart s := .of_attn (clearCommitMarks_attn _)
  requestSync s := by rw [requestTry_sync]; exact .of_attn rfl
  lineJob _ := .of_attn rfl
  tally _ _ _ := .of_attn rfl
  failure s e k := by
    unfold applyFailure
    dsimp only
    split
    · exact .remove s e
    · refine .of_attn ?_
      unfold postLinkChange
      split <;> rfl
  clearFresh _ _ := .of_attn rfl
  complete _ _ _ := .of_attn rfl
  attnRemove := .remove
  line _ _ := .of_attn rfl
  seqAny _ _ _ := .of_attn rfl
  retries _ _ := .of_attn rfl
  resync _ _ _ := .of_attn rfl
  mark _ law := ⟨law.1, nofun⟩
  success s e k := .of_attn (by unfold applySuccess postLinkChange; dsimp only; split <;> rfl)
  commitInput _ _ _ _ := .of_attn rfl
  evalWatch s e n := .of_attn (by
    unfold evalWatch fire drive
    dsimp only
    split
    · split
      · rfl
      · split_ifs <;> (try split) <;> rfl
    · rfl)
  completeGood _ _ _ := .of_attn rfl
  attnAppend := .append
  clearFault _ := .of_attn rfl
  port _ _ := .of_attn rfl
  cfg _ _ := .of_attn rfl
  selector _ _ := .of_attn rfl
  staging _ _ := .of_attn rfl
  eventControls _ _ _ _ _ _ := .of_attn rfl
  entryConfig _ _ _ _ _ := .of_attn rfl
  watchConfig _ _ _ _ _ := .of_attn rfl
  working _ _ _ := .of_attn rfl
  commitOutputs _ _ := .of_attn rfl
  freeze _ _ := .of_attn rfl
  loadRun _ := .of_attn rfl
  enable _ _ _ _ := .of_attn rfl
  disable s e := .remove s e
  popHead _ := .of_attn rfl
  submit _ _ _ := .of_attn rfl
  leaveQueue _ _ := .of_attn rfl
  releaseSlot _ _ := .of_attn rfl
  arm _ _ _ := .of_attn rfl
  disarm _ _ := .of_attn rfl
  clearCounters _ _ := .of_attn rfl
  clearAllCounters _ := .of_attn rfl
  softReset _ _ := ⟨List.nodup_nil, nofun⟩

/-! ### Committed entries (R93) -/

/-- A change that marks no entry and leaves the age of the marked ones keeps the law. -/
theorem CommittedIsNew.of_image {s t : State}
    (h : ∀ e, (t.image e).commitMark = true → (t.image e).age = 0#8
      ∨ ((s.image e).commitMark = true ∧ (t.image e).age = (s.image e).age)) : Keeps CommittedIsNew s t := by
  intro law e mark
  rcases h e mark with new | ⟨marked, same⟩
  · exact new
  · exact same.trans (law e marked)

theorem CommittedIsNew.of_images {s t : State} (h : t.images = s.images) : Keeps CommittedIsNew s t :=
  .of_image fun e mark => .inr (by unfold State.image at *; rw [h] at *; exact ⟨mark, rfl⟩)

/-- One image record replaced by one with its commit mark and age. -/
theorem CommittedIsNew.setImage {s : State} {e : EntryIdx} {x : Image} (mark : x.commitMark = (s.image e).commitMark)
    (age : x.age = (s.image e).age) : Keeps CommittedIsNew s (s.setImage e x) := by
  refine .of_image fun f marked => .inr ?_
  rw [image_setImage] at *
  split
  next at_e =>
    rw [if_pos at_e] at marked
    subst at_e
    exact ⟨mark ▸ marked, age⟩
  next elsewhere =>
    rw [if_neg elsewhere] at marked
    exact ⟨marked, rfl⟩

theorem loseLink_mark_age (im : Image) (substitute : Bool) :
    (im.loseLink substitute).commitMark = im.commitMark ∧ (im.loseLink substitute).age = im.age := by
  unfold Image.loseLink
  split <;> exact ⟨rfl, rfl⟩

theorem CommittedIsNew.drive (w : Watch) (s : State) : Keeps CommittedIsNew s (drive w s) := by
  unfold Machine.drive
  split
  · exact .setImage rfl rfl
  · exact .of_images rfl

theorem CommittedIsNew.evalWatch (e : EntryIdx) (n : WatchIdx) (s : State) :
    Keeps CommittedIsNew s (evalWatch e n s) := by
  have fired : ∀ (w : Watch) (c : Bool) (o : Word) (t : State), Keeps CommittedIsNew t (fire n w c o e t) := by
    intro w c o t
    unfold fire
    dsimp only
    intro law
    refine rel_ite (R := Keeps CommittedIsNew) (.drive _ _) id ?_
    refine rel_ite (R := Keeps CommittedIsNew) (.of_images rfl) id ?_
    exact rel_ite (R := Keeps CommittedIsNew) (.of_images rfl) id law
  unfold Machine.evalWatch
  dsimp only
  split
  · split
    · exact id
    · split
      · exact fun law => fired _ _ _ _ (CommittedIsNew.of_images (s := s) rfl law)
      · exact .of_images rfl
  · exact id

theorem CommittedIsNew.hostMoves : HostMoves (Keeps CommittedIsNew) where
  refl _ law := law
  trans first second law := second (first law)
  post _ _ := .of_images rfl
  seq _ _ _ := .of_images rfl
  probe _ _ _ _ := .of_images rfl
  request s role e k := by rw [requestTry_visit]; exact .of_images rfl
  noLink _ _ _ _ := .of_images rfl
  budget _ _ := .of_images rfl
  pickErrand _ _ _ _ := .of_images rfl
  pickAttention _ _ _ _ := .of_images rfl
  headWait s := by
    unfold advanceHeadWait
    exact rel_ite (R := Keeps CommittedIsNew) (.of_images rfl) (.of_images rfl)
  ages s := .of_image fun e marked => by
    rw [image_advanceAges] at *
    unfold Image.advanceAge at *
    split at marked
    next old => rw [if_pos old]; exact .inr ⟨marked, rfl⟩
    next unmarked => exact absurd (.inr marked) unmarked
  cycleStart s := .of_image fun e marked => by
    rw [image_clearCommitMarks] at marked
    exact absurd marked Bool.false_ne_true
  requestSync s := by rw [requestTry_sync]; exact .of_images rfl
  lineJob _ := .of_images rfl
  tally _ _ _ := .of_images rfl
  failure s e k := by
    unfold applyFailure
    dsimp only
    split
    · have ⟨mark, age⟩ := loseLink_mark_age (s.image e) (s.entry e).substitute
      exact CommittedIsNew.setImage (s := s) mark age
    · refine .of_images ?_
      unfold postLinkChange
      split <;> rfl
  clearFresh _ _ := .setImage rfl rfl
  complete _ _ _ := .of_images rfl
  attnRemove _ _ := .of_images rfl
  line _ _ := .of_images rfl
  seqAny _ _ _ := .of_images rfl
  retries _ _ := .of_images rfl
  resync _ _ _ := .of_images rfl
  mark _ := .of_images rfl
  success s e k := .of_images (by unfold applySuccess postLinkChange; dsimp only; split <;> rfl)
  commitInput s e n payload := .of_image fun f marked => by
    rw [image_setImage] at *
    split
    next => exact .inl rfl
    next elsewhere =>
      rw [if_neg elsewhere] at marked
      exact .inr ⟨marked, rfl⟩
  evalWatch s e n := .evalWatch e n s
  completeGood _ _ _ := .of_images rfl
  attnAppend _ _ := .of_images rfl
  clearFault _ := .of_images rfl
  port _ _ := .of_images rfl
  cfg _ _ := .of_images rfl
  selector _ _ := .of_images rfl
  staging _ _ := .of_images rfl
  eventControls _ _ _ _ _ _ := .of_images rfl
  entryConfig _ _ _ _ _ := .of_images rfl
  watchConfig _ _ _ _ _ := .of_images rfl
  working _ _ _ := .setImage rfl rfl
  commitOutputs _ _ := .setImage rfl rfl
  freeze _ _ := .of_images rfl
  loadRun _ := .of_images rfl
  enable _ _ _ _ := .of_images rfl
  disable _ _ := .of_images rfl
  popHead _ := .of_images rfl
  submit _ _ _ := .of_images rfl
  leaveQueue _ _ := .of_images rfl
  releaseSlot _ _ := .of_images rfl
  arm _ _ _ := .of_images rfl
  disarm _ _ := .of_images rfl
  clearCounters _ _ := .of_images rfl
  clearAllCounters _ := .of_images rfl
  softReset s := .of_image fun e marked => by
    rw [softResetAll_image] at marked
    exact absurd marked Bool.false_ne_true

theorem committedIsNew_resetAll (s : State) (held : Bool) : CommittedIsNew (resetAll held s) := by
  intro e marked
  have image : (resetAll held s).image e = Image.reset := Vector.getElem_replicate ..
  rw [image] at marked
  exact absurd marked Bool.false_ne_true

/-- Settles O60, each of the three as O59. -/
theorem stepsKeepTheSmallLaws : Obligations.StepsKeepTheSmallLaws := fun _ _ run =>
  ⟨ArmedValid.hostMoves.everyStep (fun _ _ => .of_watches rfl) (fun _ _ => .of_watches rfl)
      (fun s held _ => armedValid_resetAll s held) run,
    AttentionOrder.hostMoves.everyStep (fun _ _ => .of_attn rfl) (fun _ _ => .of_attn rfl)
      (fun _ _ _ => ⟨List.nodup_nil, nofun⟩) run,
    CommittedIsNew.hostMoves.everyStep (fun _ _ => .of_images rfl) (fun _ _ => .of_images rfl)
      (fun s held _ => committedIsNew_resetAll s held) run⟩

end Sys2Proof.Machine
end

section
/-! SUPPORT. Proofs about the laws together, at reset and over a step. -/

namespace Sys2Proof.Machine

/-- The laws of the tables at their reset values, with the sequencer out of RUNNING and no call in hand. -/
theorem lawful_of_reset_tables {s : State}
    (tables : s = { State.reset with seq := s.seq, line := s.line, pending := s.pending })
    (job : s.line.job = none) (waiting : s.line.waiting = none) (gap : ∃ n, s.line.engine = .quiet n)
    (notRunning : s.seq.state ≠ .running) (phase : s.seq.phase = .none)
    (timer : s.seq.timer ≠ none → s.seq.state = .running ∨ s.seq.state = .waiting ∨ s.seq.state = .held)
    (hold : s.seq.holdPending = false) (single : s.seq.singleRun = false) : Lawful s := by
  have entry : ∀ e, s.entry e = Entry.reset := fun e => by rw [tables]; exact Vector.getElem_replicate ..
  have slot : ∀ k, s.slot k = Slot.reset := fun k => by rw [tables]; exact Vector.getElem_replicate ..
  have watch : ∀ n, s.watch n = Watch.reset := fun n => by rw [tables]; exact Vector.getElem_replicate ..
  have image : ∀ e, s.image e = Image.reset := fun e => by rw [tables]; exact Vector.getElem_replicate ..
  have attn : s.attn = ⟨[], none⟩ := by rw [tables]; rfl
  have queue : s.errand.queue = [] := by rw [tables]; rfl
  have events : s.events = EventUnit.reset := by rw [tables]; rfl
  have work : s.work = none := by simp [State.work, job, waiting]
  obtain ⟨n, gap⟩ := gap
  refine ⟨⟨fun e => entry e ▸ reset_lawful, fun e _ _ on => absurd ?_ on⟩, ?_, fun n armed => ?_,
    fun n => ⟨fun _ => ?_, fun _ _ _ => ?_⟩, ?_, ?_, fun e marked => ?_, ?_, ?_, ?_⟩
  · rw [entry]; rfl
  · exact eventLaw_of_empty (events ▸ rfl) (events ▸ rfl) (events ▸ rfl)
  · rw [watch] at armed
    exact absurd armed Bool.false_ne_true
  · rw [watch]; rfl
  · rw [watch]; rfl
  · rw [AttentionOrder, attn]
    exact ⟨List.nodup_nil, nofun⟩
  · rw [AttentionInService, attn]
    exact fun _ item => absurd item List.not_mem_nil
  · rw [image] at marked
    exact absurd marked Bool.false_ne_true
  · rw [ErrandLaw, queue]
    simp only [slot]
    exact ⟨List.nodup_nil, fun _ => ⟨fun item => absurd item List.not_mem_nil, nofun⟩, nofun, nofun, nofun⟩
  · simp [LineLaw, job, waiting, gap]
  · simp only [SequencerLaw, job, waiting, phase, hold, single, work, slot]
    exact ⟨⟨fun _ => notRunning, fun _ => trivial⟩, fun _ => ⟨trivial, trivial, fun _ => nofun⟩,
      fun running => absurd running notRunning, fun running => absurd running notRunning, timer, nofun, nofun, nofun, nofun⟩

/-- Settles O56. -/
theorem resetStateIsLawful : Obligations.ResetStateIsLawful :=
  lawful_of_reset_tables rfl rfl rfl ⟨_, rfl⟩ nofun rfl (fun running => absurd rfl running) rfl rfl

/-- A PERIODIC run that waits for its next cycle with a consecutive echo fault count of 3: SequencerLaw bounds that count
while the sequencer is RUNNING only. No run comes to this state, since the third echo fault leaves RUNNING for FAULTED and
START, the only way out of STOPPED, loads the count with 0. -/
def waitingAtFaultLimit : State :=
  { State.reset with
    seq := { Sequencer.reset with state := .waiting, timer := some 1 }
    line := { LineEngine.reset with echoFaults := 3#2 }
    pending := [.periodTimerExpiry] }

theorem waitingAtFaultLimit_lawful : Lawful waitingAtFaultLimit :=
  lawful_of_reset_tables rfl rfl rfl ⟨_, rfl⟩ nofun rfl (fun _ => .inr (.inl rfl)) rfl rfl

/-- The expiry starts a cycle, which leaves the count as it is. -/
theorem step_waitingAtFaultLimit :
    ∃ t, step waitingAtFaultLimit = .next t ∧ t.seq.state = .running ∧ t.line.echoFaults = 3#2 :=
  ⟨_, rfl, rfl, rfl⟩

/-- Refutes O57: the laws bound the consecutive echo fault count in RUNNING only, and a cycle start in WAITING takes over
whatever count stands there. -/
theorem not_stepsKeepEveryLaw : ¬ Obligations.StepsKeepEveryLaw := by
  intro keeps
  obtain ⟨t, run, running, count⟩ := step_waitingAtFaultLimit
  have ⟨_, _, _, _, _, _, _, _, _, _, _, _, belowLimit, _⟩ := keeps _ t waitingAtFaultLimit_lawful run
  exact belowLimit running count

end Sys2Proof.Machine
end

section
/-! SUPPORT. Proofs about every row at once: the queue, the list of arrivals, the low reset input, and what the host program
has written. -/

namespace Sys2Proof.Machine

/-! ### The queue of commands and the list of arrivals (log 1, log 6) -/

/-- Settles O1, by the definition of a step. -/
theorem stepRunsTheFrontCommand : Obligations.StepRunsTheFrontCommand :=
  ⟨fun _ _ _ => rfl, fun s empty => by rw [step, empty]⟩

/-- The queue of commands, the level of the reset input and the list of arrivals are as before. -/
def SameInputs (s t : State) : Prop := t.pending = s.pending ∧ t.resetHeld = s.resetHeld ∧ t.amid = s.amid

theorem SameInputs.setImage (s : State) (e : EntryIdx) (x : Image) : SameInputs s (s.setImage e x) := ⟨rfl, rfl, rfl⟩

theorem SameInputs.postLinkChange (e : EntryIdx) (o n : LinkState) (s : State) : SameInputs s (postLinkChange e o n s) := by
  unfold Machine.postLinkChange
  exact rel_ite ⟨rfl, rfl, rfl⟩ ⟨rfl, rfl, rfl⟩

theorem SameInputs.drive (w : Watch) (s : State) : SameInputs s (drive w s) := by
  unfold Machine.drive
  split
  · exact .setImage ..
  · exact ⟨rfl, rfl, rfl⟩

theorem SameInputs.trans {s t u : State} (first : SameInputs s t) (second : SameInputs t u) : SameInputs s u :=
  have ⟨a, b, c⟩ := first
  have ⟨x, y, z⟩ := second
  ⟨x.trans a, y.trans b, z.trans c⟩

theorem SameInputs.fire (n : WatchIdx) (w : Watch) (c : Bool) (o : Word) (e : EntryIdx) (s : State) :
    SameInputs s (fire n w c o e s) := by
  have posted : SameInputs s (if w.actPost then post (watchPost n c o e) s else s) :=
    rel_ite ⟨rfl, rfl, rfl⟩ ⟨rfl, rfl, rfl⟩
  have held : ∀ t, SameInputs t (if w.actHold then t.setSeq (t.seq.hold n) else t) :=
    fun t => rel_ite ⟨rfl, rfl, rfl⟩ ⟨rfl, rfl, rfl⟩
  exact .trans posted (.trans (held _) (rel_ite (.drive ..) ⟨rfl, rfl, rfl⟩))

theorem SameInputs.evalWatch (e : EntryIdx) (n : WatchIdx) (s : State) : SameInputs s (evalWatch e n s) := by
  unfold Machine.evalWatch
  dsimp only
  split
  · split
    · exact ⟨rfl, rfl, rfl⟩
    · exact rel_ite (.trans (t := s.setWatch n _) ⟨rfl, rfl, rfl⟩ (.fire ..)) ⟨rfl, rfl, rfl⟩
  · exact ⟨rfl, rfl, rfl⟩

/-- No single change touches the queue, the reset input or the list of arrivals. -/
theorem SameInputs.singleChanges : HostMoves SameInputs where
  refl _ := ⟨rfl, rfl, rfl⟩
  trans := .trans
  post _ _ := ⟨rfl, rfl, rfl⟩
  seq _ _ _ := ⟨rfl, rfl, rfl⟩
  probe _ _ _ _ := ⟨rfl, rfl, rfl⟩
  request s role e k := by rw [requestTry_visit]; exact ⟨rfl, rfl, rfl⟩
  noLink _ _ _ _ := by simp [SameInputs]
  budget _ _ := ⟨rfl, rfl, rfl⟩
  pickErrand _ _ _ _ := by simp [SameInputs]
  pickAttention _ _ _ _ := by simp [SameInputs]
  headWait s := by
    unfold advanceHeadWait
    exact rel_ite ⟨rfl, rfl, rfl⟩ ⟨rfl, rfl, rfl⟩
  ages s := ⟨advanceAges_pending s, advanceAges_resetHeld s, advanceAges_amid s⟩
  cycleStart s := ⟨clearCommitMarks_pending _, clearCommitMarks_resetHeld _, clearCommitMarks_amid _⟩
  requestSync s := by rw [requestTry_sync]; exact ⟨rfl, rfl, rfl⟩
  lineJob _ := ⟨rfl, rfl, rfl⟩
  tally _ _ _ := ⟨rfl, rfl, rfl⟩
  failure s e k := by
    unfold applyFailure
    exact rel_ite ⟨rfl, rfl, rfl⟩ (.trans (t := s.setEntry e _) ⟨rfl, rfl, rfl⟩ (.postLinkChange ..))
  clearFresh _ _ := ⟨rfl, rfl, rfl⟩
  complete _ _ _ := ⟨rfl, rfl, rfl⟩
  attnRemove _ _ := ⟨rfl, rfl, rfl⟩
  line _ _ := ⟨rfl, rfl, rfl⟩
  seqAny _ _ _ := ⟨rfl, rfl, rfl⟩
  retries _ _ := ⟨rfl, rfl, rfl⟩
  resync _ _ _ := ⟨rfl, rfl, rfl⟩
  mark _ := ⟨rfl, rfl, rfl⟩
  success s e k := .trans (t := s.setEntry e _) ⟨rfl, rfl, rfl⟩ (.postLinkChange ..)
  commitInput _ _ _ _ := ⟨rfl, rfl, rfl⟩
  evalWatch s e n := .evalWatch e n s
  completeGood _ _ _ := ⟨rfl, rfl, rfl⟩
  attnAppend _ _ := ⟨rfl, rfl, rfl⟩
  clearFault _ := ⟨rfl, rfl, rfl⟩
  port _ _ := ⟨rfl, rfl, rfl⟩
  cfg _ _ := ⟨rfl, rfl, rfl⟩
  selector _ _ := ⟨rfl, rfl, rfl⟩
  staging _ _ := ⟨rfl, rfl, rfl⟩
  eventControls _ _ _ _ _ _ := ⟨rfl, rfl, rfl⟩
  entryConfig _ _ _ _ _ := ⟨rfl, rfl, rfl⟩
  watchConfig _ _ _ _ _ := ⟨rfl, rfl, rfl⟩
  working _ _ _ := ⟨rfl, rfl, rfl⟩
  commitOutputs _ _ := ⟨rfl, rfl, rfl⟩
  freeze _ _ := ⟨rfl, rfl, rfl⟩
  loadRun _ := ⟨rfl, rfl, rfl⟩
  enable _ _ _ _ := ⟨rfl, rfl, rfl⟩
  disable _ _ := ⟨rfl, rfl, rfl⟩
  popHead _ := ⟨rfl, rfl, rfl⟩
  submit _ _ _ := by simp [SameInputs]
  leaveQueue _ _ := ⟨rfl, rfl, rfl⟩
  releaseSlot _ _ := ⟨rfl, rfl, rfl⟩
  arm _ _ _ := ⟨rfl, rfl, rfl⟩
  disarm _ _ := ⟨rfl, rfl, rfl⟩
  clearCounters _ _ := ⟨rfl, rfl, rfl⟩
  clearAllCounters _ := ⟨rfl, rfl, rfl⟩
  softReset s := ⟨abandonLine_pending s, abandonLine_resetHeld s, abandonLine_amid s⟩

/-- The same under a name of its own, so that what stands on it can be checked beside the record above and does not wait
for it. -/
theorem SameInputs.moves : HostMoves SameInputs := SameInputs.singleChanges

/-- The queue of commands and the level of the reset input are as before. -/
def SameQueue (s t : State) : Prop := t.pending = s.pending ∧ t.resetHeld = s.resetHeld

theorem SameInputs.sameQueue {s t : State} (same : SameInputs s t) : SameQueue s t :=
  have ⟨pending, held, _⟩ := same
  ⟨pending, held⟩

theorem SameQueue.moves : AnswerMoves SameQueue :=
  SameInputs.moves.toAnswerMoves.mono SameInputs.sameQueue fun ⟨a, b⟩ ⟨x, y⟩ => ⟨x.trans a, y.trans b⟩

/-! ### The list of arrivals behind an answer (R142; log 6) -/

theorem SameQueue.hostWrite (o : Offset) (v : Word) (s : State) : SameQueue s (hostWrite o v s) :=
  (SameInputs.moves.hostWrite o v s).sameQueue

/-- One run of the evaluations of a commit, if any, stands between changes that a relation holds across. -/
def UpToCommit (R : State → State → Prop) (s t : State) : Prop := R s t ∨ ∃ e u, R s u ∧ R (evaluate e u).2 t

namespace UpToCommit

variable {R : State → State → Prop} (h : AnswerMoves R)
include h

theorem before {s t u : State} (first : R s t) (second : UpToCommit R t u) : UpToCommit R s u :=
  second.imp (h.trans first) fun ⟨e, v, upTo, onwards⟩ => ⟨e, v, h.trans first upTo, onwards⟩

theorem behind {s t u : State} (first : UpToCommit R s t) (second : R t u) : UpToCommit R s u :=
  first.imp (fun upTo => h.trans upTo second) fun ⟨e, v, upTo, onwards⟩ => ⟨e, v, upTo, h.trans onwards second⟩

theorem imageEnd (v : Visit) (r : VisitEnd) (s : State) : UpToCommit R s (imageEnd v r s).2 := by
  unfold Machine.imageEnd
  split
  · exact .inr ⟨_, _, h.commitInput .., h.refl _⟩
  · exact .inl (h.clearFresh ..)
  · exact .inl (h.clearFresh ..)
  · exact .inl (h.refl s)

theorem afterVisit (v : Visit) (r : VisitEnd) (s : State) : UpToCommit R s (afterVisit v r s) := by
  have append := fun e b s => h.appendAttention e b s
  unfold Machine.afterVisit
  split
  · refine behind h ?_ (h.endPassVisit v r _)
    split
    · exact imageEnd h v r s
    · exact .inl (h.refl s)
  · exact .inl (h.trans (h.errandEnd ..) (h.trans (append ..) (h.lookAgain _)))
  · split
    · exact .inl (h.trans (append ..) (h.requestOwn ..))
    · exact .inl (h.trans (append ..) (h.requestOwn ..))
    · exact .inl (h.trans (h.complete ..) (h.lookAgain _))
    · exact .inl (h.trans (h.complete ..) (h.lookAgain _))
  · exact .inl (h.trans (h.attentionEnd ..) (h.trans (append ..) (h.lookAgain _)))
  · split
    · exact .inl (h.trans (append ..) (h.request ..))
    · exact .inl (h.trans (append ..) (h.request ..))
    · exact .inl (h.trans (h.attnRemove ..) (h.lookAgain _))
    · exact .inl (h.lookAgain _)

theorem endVisit (v : Visit) (r : VisitEnd) (s : State) : UpToCommit R s (endVisit v r s) :=
  before h (h.lineJob s) (before h (h.applyEnd ..) (afterVisit h ..))

theorem endTry (v : Visit) (o : TryOutcome) (s : State) : UpToCommit R s (endTry v o s) := by
  refine before h (h.setEngine (.quiet Config.quietGapBits) s) ?_
  unfold Machine.endTry
  dsimp only
  split
  · exact endVisit h ..
  · exact endVisit h ..
  all_goals exact .inl (h.unacceptedTry ..)

/-- An answer's byte makes at most one commit. -/
theorem answer (b : Byte) (f : Bool) (s : State) : UpToCommit R s (answer b f s) := by
  unfold Machine.answer
  split
  · refine before h (h.setRx (rxAfter f) s) ?_
    dsimp only
    split
    · exact .inl (h.refl _)
    · split
      · exact .inl (h.setEngine ..)
      · exact endTry h ..
  · exact .inl (h.refl s)

end UpToCommit

/-- A commit takes the whole list: what is left of it behind the last evaluation too. -/
theorem evaluate_amid (e : EntryIdx) (s : State) : (evaluate e s).2.amid = [] := by
  unfold evaluate
  dsimp only
  generalize (List.finRange 32).foldl (evaluateNext e) (.full, s) = x
  obtain ⟨-, -, same⟩ := SameInputs.moves.takeArrivals SameInputs.moves.hostWrite e x.2.amid x.1 (x.2.setAmid [])
  exact same

/-- The list of arrivals is as before, or taken whole. -/
theorem answer_amid (b : Byte) (f : Bool) (s : State) : (answer b f s).amid = s.amid ∨ (answer b f s).amid = [] := by
  rcases UpToCommit.answer SameInputs.moves.toAnswerMoves b f s with ⟨-, -, same⟩ | ⟨e, u, -, -, -, same⟩
  · exact .inl same
  · exact .inr (same.trans (evaluate_amid e u))

/-! ### Every row -/

theorem exec_resetInput_inputs {c : Instr} (s : State) (resets : c = .hardwareReset ∨ c = .resetRelease) :
    ∃ t, exec c s = .next t ∧ t.pending = s.pending ∧ t.amid = s.amid := by
  rcases resets with rfl | rfl
  · exact ⟨_, rfl, rfl, rfl⟩
  · refine ⟨_, rfl, ?_⟩
    split
    · exact ⟨rfl, rfl⟩
    · exact ⟨rfl, rfl⟩

/-- Every row answers a next state. -/
theorem exec_next (c : Instr) (s : State) : ∃ t, exec c s = .next t := by
  cases c <;> exact ⟨_, rfl⟩

/-- The bytes of an answer leave the queue and the reset input, whatever arrives amid their commit. -/
theorem exec_answerByte_queue {b : Byte} {f : Bool} {s t : State} (run : exec (.answerByte b f) s = .next t) :
    SameQueue s t :=
  SameQueue.moves.anyRow (c := .answerByte b f) (.inr ⟨SameQueue.hostWrite, fun _ _ => ⟨rfl, rfl⟩⟩) rfl nofun nofun run

theorem exec_answerByte_amid {b : Byte} {f : Bool} {s t : State} (run : exec (.answerByte b f) s = .next t) :
    t.amid = s.amid ∨ t.amid = [] := by
  cases held : s.resetHeld with
  | true =>
    rw [exec_held (c := .answerByte b f) held nofun nofun] at run
    cases run
    exact .inl rfl
  | false =>
    rw [exec_answerByte _ _ held] at run
    cases run
    exact answer_amid b f s

/-- Settles O2: the rows of the reset input, ANSWER_BYTE, and every other row. -/
theorem everyCommandAnswersANextState : Obligations.EveryCommandAnswersANextState := by
  intro c s
  by_cases resets : c = .hardwareReset ∨ c = .resetRelease
  · obtain ⟨t, run, pending, amid⟩ := exec_resetInput_inputs s resets
    exact ⟨t, run, pending, fun _ => amid, .inl amid, fun fall rise => absurd resets (not_or.mpr ⟨fall, rise⟩)⟩
  · obtain ⟨fall, rise⟩ := not_or.mp resets
    obtain ⟨t, run⟩ := exec_next c s
    by_cases answers : ∃ b f, c = .answerByte b f
    · obtain ⟨b, f, rfl⟩ := answers
      obtain ⟨pending, held⟩ := exec_answerByte_queue run
      exact ⟨t, run, pending, fun no_answer => absurd rfl (no_answer b f), exec_answerByte_amid run, fun _ _ => held⟩
    · obtain ⟨pending, held, amid⟩ := SameInputs.moves.rowButAnswer fall rise (fun b f row => answers ⟨b, f, row⟩) run
      exact ⟨t, run, pending, fun _ => amid, .inl amid, fun _ _ => held⟩

/-! ### The low reset input (R177) -/

theorem txen_of_held {s : State} (held : s.resetHeld = true) : s.txen = false := by
  unfold State.txen
  split <;> simp [held]

/-- Settles O3. -/
theorem lowResetInputTakesNothing : Obligations.LowResetInputTakesNothing := fun _ _ held =>
  ⟨exec_held held, fun _ => if_pos held, txen_of_held held⟩

/-! ### What the host program has written (R3, R31, R80, R137) -/

/-- Both output copies of every entry are as before. -/
def OutputsKept (s t : State) : Prop :=
  ∀ e, (t.image e).working = (s.image e).working ∧ (t.image e).committed = (s.image e).committed

theorem OutputsKept.of_images {s t : State} (h : t.images = s.images) : OutputsKept s t := by
  intro e
  unfold State.image
  rw [h]
  exact ⟨rfl, rfl⟩

theorem OutputsKept.setImage {s : State} {e : EntryIdx} {x : Image} (working : x.working = (s.image e).working)
    (committed : x.committed = (s.image e).committed) : OutputsKept s (s.setImage e x) := by
  intro f
  rw [image_setImage]
  split
  next at_e => exact at_e ▸ ⟨working, committed⟩
  next => exact ⟨rfl, rfl⟩

theorem loseLink_outputs (im : Image) (substitute : Bool) :
    (im.loseLink substitute).working = im.working ∧ (im.loseLink substitute).committed = im.committed := by
  unfold Image.loseLink
  split <;> exact ⟨rfl, rfl⟩

theorem postLinkChange_images (e : EntryIdx) (o n : LinkState) (s : State) :
    (postLinkChange e o n s).images = s.images := by
  unfold postLinkChange
  split <;> rfl

theorem OutputsKept.applyFailure (e : EntryIdx) (k : CallKind) (s : State) : OutputsKept s (applyFailure e k s) := by
  unfold Machine.applyFailure
  dsimp only
  split
  · have ⟨working, committed⟩ := loseLink_outputs (s.image e) (s.entry e).substitute
    exact OutputsKept.setImage (s := s) working committed
  · exact .of_images (postLinkChange_images ..)

/-- Every single change of the line and the durations keeps the output copies; only a drive, which stands behind an
evaluation, can change one (R98). -/
theorem OutputsKept.moves : LineMoves OutputsKept where
  refl _ _ := ⟨rfl, rfl⟩
  trans first second e := ⟨(second e).1.trans (first e).1, (second e).2.trans (first e).2⟩
  post _ _ := .of_images rfl
  seq _ _ _ := .of_images rfl
  probe _ _ _ _ := .of_images rfl
  request s role e k := by rw [requestTry_visit]; exact .of_images rfl
  noLink _ _ _ _ := .of_images rfl
  budget _ _ := .of_images rfl
  pickErrand _ _ _ _ := .of_images rfl
  pickAttention _ _ _ _ := .of_images rfl
  headWait s := by
    unfold advanceHeadWait
    exact rel_ite (.of_images rfl) (.of_images rfl)
  ages s e := by
    rw [image_advanceAges]
    unfold Image.advanceAge
    split <;> exact ⟨rfl, rfl⟩
  cycleStart s e := by
    rw [image_clearCommitMarks]
    exact ⟨rfl, rfl⟩
  requestSync s := by rw [requestTry_sync]; exact .of_images rfl
  lineJob _ := .of_images rfl
  tally _ _ _ := .of_images rfl
  failure s e k := .applyFailure e k s
  clearFresh _ _ := .setImage rfl rfl
  complete _ _ _ := .of_images rfl
  attnRemove _ _ := .of_images rfl
  line _ _ := .of_images rfl
  seqAny _ _ _ := .of_images rfl
  retries _ _ := .of_images rfl
  resync _ _ _ := .of_images rfl
  mark _ := .of_images rfl

/-- Settles O4: the single changes keep what the host program has written, and all but those of a commit the output
copies. -/
theorem lineAndTimeKeepHostData : Obligations.LineAndTimeKeepHostData := by
  intro c s t bus fall rise run quiet
  refine ⟨?_, fun no_answer => OutputsKept.moves.row bus fall rise no_answer run⟩
  by_cases answers : ∃ b f, c = .answerByte b f
  · exact HostDataKept.moves.anyRow (.inl (quiet answers)) bus fall rise run
  · exact HostDataKept.moves.row bus fall rise (fun b f row => answers ⟨b, f, row⟩) run

end Sys2Proof.Machine
end

section
/-! SUPPORT. Proofs about single commands: the resets, STOP, HALT, DISABLE and the rows of the line that touch one block. -/

namespace Sys2Proof.Machine

/-! ### Hardware reset of the roster and the images (R27, R100) -/

theorem resetAll_entry (held : Bool) (s : State) (e : EntryIdx) : (resetAll held s).entry e = Entry.reset :=
  Vector.getElem_replicate ..

theorem resetAll_image (held : Bool) (s : State) (e : EntryIdx) : (resetAll held s).image e = Image.reset :=
  Vector.getElem_replicate ..

/-- Address 0 alone makes the configuration invalid (R4). -/
theorem entry_reset_valid : Entry.reset.valid = false := by decide

theorem readLoc_freeze_reset (held : Bool) (s : State) :
    readLoc .freeze0 (resetAll held s) = 0#16 ∧ readLoc .freeze1 (resetAll held s) = 0#16
      ∧ readLoc .freeze2 (resetAll held s) = 0#16 := by
  refine ⟨?_, ?_, ?_⟩
  · change field 0 0 ||| field 0 8 ||| flag false 15 = 0#16
    decide
  · change field 0 0 ||| field 0 8 = 0#16
    decide
  · change field 0 0 = 0#16
    decide

theorem readLoc_freezeWord_reset (held : Bool) (s : State) (i : Fin 8) :
    readLoc (.freezeWord i) (resetAll held s) = 0#16 := by
  change zeroWords[i] = 0#16
  simp [zeroWords]

/-- Settles O5: each row of both tables is its record at hardware reset. -/
theorem hardwareResetOfRosterAndImages : Obligations.HardwareResetOfRosterAndImages := by
  intro c s resets
  have ⟨freeze0, freeze1, freeze2⟩ := readLoc_freeze_reset (decide (c = .hardwareReset)) s
  refine ⟨_, exec_resetInput_eq resets, rfl, rfl, rfl, fun e => ?_, rfl, rfl, fun e => ?_, rfl, freeze0, freeze1, freeze2,
    readLoc_freezeWord_reset _ s⟩
  · rw [resetAll_entry]
    exact ⟨rfl, rfl, entry_reset_valid⟩
  · rw [resetAll_image]
    rfl

/-! ### What an abandonment leaves of the line (R78) -/

/-- The engine that an abandonment leaves is the one the statements speak of. -/
theorem engineAfterAbandonment_eq (s : State) : s.line.engine.abandon s.txByte = engineAfterAbandonment s := by
  unfold Engine.abandon engineAfterAbandonment
  cases s.line.engine <;> rfl

/-- With no visit in flight the cursor is FFH (R29). -/
theorem cursor_of_no_job {s : State} (h : s.line.job = none) : s.cursor = 0xFF#8 := by
  simp [State.cursor, State.calledEntry, State.visit, h, entryByte]

/-! ### SOFT_RESET of the other blocks (R55, R101, R123, R165, R176) -/

theorem softResetAll_slot (s : State) (k : SlotIdx) : (softResetAll s).slot k = { s.slot k with state := .free } :=
  calc (softResetAll s).slot k
    _ = { (abandonLine s).slot k with state := .free } := Vector.getElem_map ..
    _ = { s.slot k with state := .free } := by rw [abandonLine_slot]

theorem softResetAll_line (s : State) :
    (softResetAll s).line = { s.line with engine := engineAfterAbandonment s, job := none, waiting := none } := by
  rw [← engineAfterAbandonment_eq]
  exact abandonLine_line s

theorem softResetAll_events (s : State) :
    (softResetAll s).events = { s.events with queue := [], nextSeq := 0#16, dropped := 0#8, headWait := 0#8 } := by
  simp [softResetAll, EventUnit.softReset]

/-- With no event and no fault recorded no condition of R163 holds, whatever the enables. -/
theorem irqLow_of_empty {s : State} (queue : s.events.queue = []) (fault : s.port.fault = none) : s.irqLow = false := by
  have threshold : ¬ thresholdOf s.events.threshold ≤ 0 := by unfold thresholdOf; omega
  simp only [State.irqLow, queue, fault, List.length_nil, threshold]
  simp

/-- Settles O8, block by block. -/
theorem softResetOfTheOtherBlocks : Obligations.SoftResetOfTheOtherBlocks := by
  intro s live
  have port : (softResetAll s).port = s.port.clearFault := by simp [softResetAll]
  have run : exec .softReset s
      = .next ((softResetAll s).setPort { answered s .ok 0#8 with fault := none, faultCount := 0#4 }) := by
    rw [exec_softReset live, issue_only rfl, port]
    rfl
  refine ⟨_, run, ?_, ?_, abandonLine_cfg s, softResetAll_slot s, ?_, rfl, softResetAll_events s, fun _ => ?_,
    irqLow_of_empty ?_ rfl, softResetAll_line s, rfl, (abandonLine_resetHeld s).trans live, abandonLine_pending s,
    abandonLine_amid s⟩
  · simp [softResetAll, Sequencer.softReset, Sequencer.halt, Sequencer.stopRun]
  · exact cursor_of_no_job (by simp [softResetAll_line])
  · simp [softResetAll, ErrandUnit.softReset]
  · simp [readLoc, softResetAll_events]
  · simp [softResetAll_events]

/-! ### STOP (R49) -/

/-- Settles O10, state by state. -/
theorem stopActsByState : Obligations.StopActsByState := by
  intro s live
  rw [exec_stop live]
  have reply : ∀ {t : State}, runStop s = .only t .ok → t.port = s.port →
      (.next (issue runStop s) : Host.Outcome State Fault Refusal) = .next { t with port := answered s .ok 0#8 } :=
    fun run port => congrArg _ (issue_only_answered run port)
  refine ⟨fun running => reply (t := s.setSeq { s.seq with stopPending := true }) ?_ rfl,
    fun between => reply (t := stopBetweenCycles s) ?_ rfl,
    fun faulted => reply (t := s.setSeq { s.seq with state := .stopped }) ?_ rfl, fun stopped => reply ?_ rfl⟩
  · simp only [runStop, running]
  · rcases between with waiting | held
    · simp only [runStop, waiting]
    · simp only [runStop, held]
  · simp only [runStop, faulted]
  · simp only [runStop, stopped]

/-! ### HALT (R50, R51) -/

/-- A visit is in doubt at its abandonment exactly for the kinds whose flag the model sets (R16). -/
theorem inDoubt_iff (v : Visit) : v.inDoubt ↔ (v.kind.toggled || decide (v.kind = .reset)) = true := by
  unfold Visit.inDoubt
  cases v.kind <;> decide

/-- The model's abandonment is the one the statements speak of, whatever follows it in the sequencer, the events and the
port. -/
theorem abandoned_abandon (s : State) : Abandoned s (abandon s) := by
  refine ⟨by simp, by simp, fun k => ?_, by simp, by simp, by simp, by simp, ?_, ?_, by simp, by simp⟩
  · rw [abandon_slot]
    rfl
  · rintro e v visit rfl doubt on
    rw [abandon_entry]
    exact abandonLine_entry_visit visit ((inDoubt_iff v).mp doubt) on
  · intro e kept
    rw [abandon_entry]
    refine abandonLine_entry_other fun v visit here => (kept v visit here).imp_left fun sure => ?_
    rw [inDoubt_iff] at sure
    simpa using sure

/-- Nothing in it speaks of the sequencer, the events or the port. -/
theorem Abandoned.behind {s t : State} (h : Abandoned s t) (q : Sequencer) (u : EventUnit) (p : HostPort) :
    Abandoned s (((t.setSeq q).setEvents u).setPort p) := h

/-- The ERRAND event of an aborted slot (R121). -/
theorem errandPost_aborted (k : SlotIdx) (x : Slot) : errandPost k (x.complete .aborted) = errandEvent k x 6#8 := rfl

theorem runHalt_of_run {s : State} (running : s.seq.state ≠ .stopped) :
    runHalt s = .only (post (stoppedPost .halt) ((abandon s).setSeq (abandon s).seq.halt)) .ok := if_neg running

/-- Settles O11: in STOPPED nothing happens; otherwise the abandonment, the sequencer STOPPED, and the event. -/
theorem haltAbandonsAndStops : Obligations.HaltAbandonsAndStops := by
  intro s live
  rw [exec_halt live]
  refine ⟨fun stopped => ?_, fun running => ?_⟩
  · have run : runHalt s = .only s .ok := if_pos stopped
    rw [issue_only_answered run rfl]
  · rw [issue_only (runHalt_of_run running)]
    refine ⟨_, rfl, ?_, (abandoned_abandon s).behind ..,  ?_, cursor_of_no_job ?_, ?_, fun none => ?_, fun k one => ?_, ?_,
      ?_, ?_, ?_, ?_⟩
    · simp [answered]
    · simp [Sequencer.halt, Sequencer.stopRun]
    · simp
    · simp [engineAfterAbandonment_eq]
    · simp [abandon_events_none none, Sequencer.halt, Sequencer.stopRun, stoppedPost, StopCause.code, noSubject]
    · simp [abandon_events_one one, errandPost_aborted, Sequencer.halt, Sequencer.stopRun, stoppedPost, StopCause.code,
        noSubject]
    all_goals simp

/-! ### DISABLE (R23, R128, R141) -/

theorem runDisable_entry {s : State} {e : EntryIdx} (h : s.port.argument.toNat = e.val) :
    runDisable s =
      if (s.entry e).link = .off then .only s .ok
      else .only (post (linkPost e (s.entry e).link .off)
        (forgetWatches e (removeAttention e (withdrawVisit e (s.setEntry e (s.entry e).disable))))) .ok := by
  unfold runDisable
  rw [entryOf_some h]

/-- Only the pass's visit to the entry is withdrawn (log 5). -/
theorem withdraw_other {e : EntryIdx} {r : Request} (other : ∀ k, r ≠ .visit .pass e k) : r.withdraw e = r := by
  unfold Request.withdraw
  split
  next e' k =>
    have elsewhere : e' ≠ e := fun here => other k (here ▸ rfl)
    rw [if_neg elsewhere]
  next => rfl

/-- Settles O33, by the argument and the entry's link state. -/
theorem disableTakesTheEntryOff : Obligations.DisableTakesTheEntryOff := by
  intro s live
  rw [exec_disable live]
  refine ⟨fun above => ?_, fun e he => ⟨fun off => ?_, fun on => ?_⟩⟩
  · have run : runDisable s = .only s .badArg := by unfold runDisable; rw [entryOf_none above]
    rw [issue_only_answered run rfl]
  · rw [issue_only_answered ((runDisable_entry he).trans (if_pos off)) rfl]
  · rw [issue_only_answered ((runDisable_entry he).trans (if_neg on)) rfl]
    refine ⟨_, rfl, ?_, fun i other => ?_, rfl, fun n => ?_, rfl, rfl, rfl, rfl, fun k pass => ?_, fun other => ?_, rfl⟩
    · exact (entry_setEntry s e e _).trans (if_pos rfl)
    · exact (entry_setEntry s e i _).trans (if_neg other)
    · simp only [← byte_eq_entry]
      exact watch_forgetWatches ..
    · change s.line.waiting.map (Request.withdraw e) = some .passOn
      simp [pass, Request.withdraw]
    · change s.line.waiting.map (Request.withdraw e) = s.line.waiting
      cases waiting : s.line.waiting with
      | none => rfl
      | some r => exact congrArg some (withdraw_other fun k here => other k (waiting.trans (congrArg some here)))

/-! ### The validity check (R4) -/

/-- Settles O32; a loss limit of 4 bits is at most 15. -/
theorem validityCheckOfAnEntry : Obligations.ValidityCheckOfAnEntry := by
  intro x
  have limit : x.lossLimit.toNat ≤ 15 := Nat.le_of_lt_succ x.lossLimit.isLt
  have byValue : ∀ n : BitVec 4, x.divisor = n ↔ x.divisor.toNat = n.toNat := fun _ => BitVec.toNat_inj.symm
  simp only [Entry.valid, Bool.and_eq_true, Bool.or_eq_true, decide_eq_true_eq, byValue]
  constructor
  · rintro ⟨⟨⟨⟨⟨⟨⟨low, high⟩, divisor⟩, phase⟩, retry⟩, loss⟩, out⟩, inp⟩
    exact ⟨⟨low, high⟩, by simpa [or_assoc] using divisor, phase, retry, ⟨loss, limit⟩, out, inp⟩
  · rintro ⟨⟨low, high⟩, divisor, phase, retry, ⟨loss, -⟩, out, inp⟩
    exact ⟨⟨⟨⟨⟨⟨⟨low, high⟩, by simpa [or_assoc] using divisor⟩, phase⟩, retry⟩, loss⟩, out⟩, inp⟩

/-! ### The remainder of a call, and TXD (R56, R67, R78, R79) -/

/-- The bits of a byte on the line: start bit, data from the least significant bit, stop bit (R56). -/
theorem byteBits_getD (b : Byte) :
    (byteBits b).getD 0 true = false ∧ (∀ i < 8, (byteBits b).getD (i + 1) true = b.getLsbD i)
      ∧ (byteBits b).getD 9 true = true := by
  refine ⟨rfl, fun i below => ?_, rfl⟩
  interval_cases i <;> rfl

theorem txd_of_some {s : State} {b : Byte} (live : s.resetHeld = false) (h : s.txByte = some b) (i : Nat) :
    s.txd i = if (byteBits b).getD i true then .high else .low := by
  simp [State.txd, live, h]

/-- With the reset input high, TXEN low means that no byte is being sent (R56). -/
theorem txByte_of_txen {s : State} (live : s.resetHeld = false) (low : s.txen = false) : s.txByte = none := by
  unfold State.txen at low
  unfold State.txByte
  cases engine : s.line.engine <;> simp_all

/-- Below its last byte a call carries the byte whose number is that of the good echoes (R67). -/
theorem sentByte_of_lt {j : Job} {n : Nat} (below : n < j.frame.length) : j.sentByte n = j.frame[n]? := by
  unfold Job.sentByte
  rw [Nat.min_eq_left (by omega)]

theorem remainderEnd_of_remainder {s : State} {byte : Option Byte} (engine : s.line.engine = .remainder byte) :
    remainderEnd s = setEngine (.quiet 20) s := by
  unfold remainderEnd
  rw [engine]
  rfl

/-- Settles O18. -/
theorem remainderEndBeginsTheGap : Obligations.RemainderEndBeginsTheGap := by
  refine ⟨fun s byte live engine => ⟨?_, ?_, ?_, fun t run => ?_⟩, fun s n j engine job below => ?_,
    fun s b live sent => ?_, fun s live low => txByte_of_txen live low, fun s idle i => ?_⟩
  · rw [exec_callRemainderEnd live, remainderEnd_of_remainder engine]
    rfl
  · simp [State.txen, engine, live]
  · simp [State.txByte, engine]
  · rw [exec_callRemainderEnd live, remainderEnd_of_remainder engine] at run
    cases run
    exact ⟨rfl, rfl⟩
  · simp [State.txByte, engine, job, sentByte_of_lt below]
  · obtain ⟨start, data, stop⟩ := byteBits_getD b
    refine ⟨?_, fun i below => ?_, ?_⟩ <;> rw [txd_of_some live sent]
    · rw [start]; rfl
    · rw [data i below]
    · rw [stop]; rfl
  · rcases idle with no_byte | held
    · exact txd_of_none no_byte i
    · simp [State.txd, held]

/-! ### Stray bytes (R72) -/

/-- Settles O21, in IDLE and in QUIET. -/
theorem strayBytesAreCounted : Obligations.StrayBytesAreCounted := by
  intro s b f live watching engine
  rw [exec_strayByte b f live, ← satInc_word]
  unfold strayTaken
  rw [if_neg watching]
  rcases engine with idle | ⟨g, quiet⟩
  · simp only [idle]
    rfl
  · simp only [quiet]
    rw [← quiet]
    rfl

end Sys2Proof.Machine
end

section
/-! SUPPORT. Proofs about firings, the event queue, the command word and the host bus. -/

namespace Sys2Proof.Machine

/-! ### A firing (R146 to R149) -/

theorem ofBool_code (c : Bool) : BitVec.ofNat 8 (WatchOutcome.ofBool c).code = if c then 2#8 else 1#8 := by
  cases c <;> rfl

/-- HOLD records the watch only where the flag was clear (R47). -/
theorem hold_eq (q : Sequencer) (n : WatchIdx) :
    q.hold n = if q.holdPending = false then { q with holdPending := true, holder := some n } else q := by
  unfold Sequencer.hold
  cases q.holdPending <;> rfl

/-- A drive replaces the masked bits of one word in both output copies (R98). -/
theorem drive_eq {w : Watch} {d : EntryIdx} {i : Fin 8} (entry : w.driveEntry.toNat = d.val)
    (word : w.driveWord.toNat = i.val) (s : State) :
    drive w s = s.setImage d { s.image d with
      working := (s.image d).working.set i.val
        (((s.image d).working[i] &&& ~~~w.driveMask) ||| (w.driveValue &&& w.driveMask)) i.isLt
      committed := (s.image d).committed.set i.val
        (((s.image d).committed[i] &&& ~~~w.driveMask) ||| (w.driveValue &&& w.driveMask)) i.isLt } := by
  simp only [drive, entryOf_some entry, word, Image.drive, replaceBits, (setWord_wordAt _ i _).1,
    (setWord_wordAt _ i 0#16).2]

/-- Settles O45, action by action. -/
theorem firingAppliesItsActions : Obligations.FiringAppliesItsActions := by
  intro s e n w c observed d i target
  have post_part : ∀ p, (if w.actPost then post p s else s)
      = { s with events := if w.actPost then posted s p else s.events } := by
    intro p
    split <;> rfl
  have hold_part : ∀ t : State, (if w.actHold then t.setSeq (t.seq.hold n) else t) = { t with
      seq := if w.actHold ∧ t.seq.holdPending = false then { t.seq with holdPending := true, holder := some n }
        else t.seq } := by
    intro t
    rw [hold_eq]
    cases w.actHold <;> cases t.seq.holdPending <;> rfl
  have drive_part : ∀ t : State, (if w.actDrive then drive w t else t) = { t with
      images := if w.actDrive then
          t.images.set d.val { t.image d with
            working := (t.image d).working.set i.val
              (((t.image d).working[i] &&& ~~~w.driveMask) ||| (w.driveValue &&& w.driveMask)) i.isLt
            committed := (t.image d).committed.set i.val
              (((t.image d).committed[i] &&& ~~~w.driveMask) ||| (w.driveValue &&& w.driveMask)) i.isLt } d.isLt
        else t.images } := by
    intro t
    split
    next drives => rw [drive_eq (target drives).1 (target drives).2]; rfl
    next => rfl
  unfold fire watchPost
  dsimp only
  rw [ofBool_code, post_part, hold_part, drive_part]
  rfl

/-! ### Posts (R153 to R157) -/

/-- Bit i of a field at position p is bit i - p of its value. -/
theorem field_getLsbD (v p i : Nat) :
    (field v p).getLsbD i = (decide (i < 16) && (decide (p ≤ i) && v.testBit (i - p))) := by
  rw [field, BitVec.getLsbD_ofNat, Nat.testBit_mul_two_pow]

/-- A flag stands at its own bit and leaves every other 0. -/
theorem flag_getLsbD (b : Bool) (p i : Nat) : (flag b p).getLsbD i = (decide (i < 16) && (decide (p = i) && b)) := by
  rw [flag, field_getLsbD]
  congr 1
  rcases Nat.lt_trichotomy i p with below | rfl | above
  · simp [Nat.not_le_of_lt below, below.ne']
  · cases b <;> simp
  · obtain ⟨d, rfl⟩ : ∃ d, i = p + (d + 1) := ⟨i - p - 1, by omega⟩
    cases b <;> simp [Nat.testBit_succ]

/-- Bit n of the filter's word is the enable of event kind n (Table 10-5). -/
theorem passes_eq_bit (f : KindFilter) (k : EventKind) : k = .overflow ∨ f.passes k = f.word.getLsbD k.code := by
  simp only [KindFilter.word, BitVec.getLsbD_or, flag_getLsbD]
  cases k <;> simp [KindFilter.passes, EventKind.code]

theorem readWord_filter {s : State} (live : s.resetHeld = false) : s.readWord 0x018#11 = s.events.filter.word := by
  have loc : locate 0x018#11 = .kindFilter := by decide
  rw [State.readWord, if_neg (by simp [live]), loc]
  rfl

/-- Settles O46, by the three things a post can meet. -/
theorem postsEnterOrDrop : Obligations.PostsEnterOrDrop := by
  intro u cycle p
  refine ⟨fun filtered => if_pos filtered, fun passes room => ?_, fun passes full => ?_, rfl, fun s k n live code => ?_⟩
  · rw [EventUnit.take, if_neg (by simp [passes])]
    exact if_pos room
  · rw [EventUnit.take, if_neg (by simp [passes]), ← satInc_byte]
    exact if_neg (Nat.not_lt_of_le full)
  · rw [readWord_filter live]
    have : n = k.code := by cases k <;> exact code
    exact this ▸ passes_eq_bit s.events.filter k

/-! ### POP (R158, R159) -/

section
variable {u : EventUnit} {r : EventRecord} {rest : List EventRecord}

theorem popHead_quiet (queue : u.queue = r :: rest) (quiet : u.dropped = 0#8) (c : Word) :
    u.popHead c = { u with queue := rest, headWait := 0#8 } := by
  simp [EventUnit.popHead, queue, quiet]

/-- Behind a removal the OVERFLOW record finds the queue with the head gone; its head wait count is 0 in any case. -/
theorem popHead_dropped (queue : u.queue = r :: rest) (dropped : u.dropped ≠ 0#8) (c : Word) :
    u.popHead c = { u with
      queue := rest ++ [{ seq := u.nextSeq, kind := .overflow, subject := 0xFF#8, cycle := c, p1 := u.dropped
                          p2 := 0#8, d0 := 0#16, d1 := 0#16, d2 := 0#16 }]
      nextSeq := u.nextSeq + 1#16, dropped := 0#8, headWait := 0#8 } := by
  simp only [EventUnit.popHead, if_neg dropped, EventUnit.enqueue, queue, List.tail_cons, ite_self]
  rfl

end

/-- Settles O47, by the queue and the dropped count. -/
theorem popRemovesTheHead : Obligations.PopRemovesTheHead := by
  intro s live
  rw [exec_pop live]
  refine ⟨fun empty => ?_, fun r rest queue => ⟨fun quiet => ?_, fun dropped => ?_⟩⟩
  · have run : runPop s = .only s .empty := if_pos empty
    rw [issue_only_answered run rfl]
  all_goals
    have run : runPop s =
        { state := s.setEvents (s.events.popHead s.seq.cycle), outcome := .ok
          value := BitVec.ofNat 8 (s.events.popHead s.seq.cycle).queue.length } := if_neg (by simp [queue])
    rw [issue_reply_answered run rfl]
  · rw [popHead_quiet queue quiet]
    rfl
  · rw [popHead_dropped queue dropped]
    simp only [List.length_append, List.length_singleton]
    rfl

/-! ### The command word (R169 to R171) -/

/-- The argument word and the command count are as before. -/
def SameRequest (s t : State) : Prop := t.port.argument = s.port.argument ∧ t.port.count = s.port.count

/-- No command's own work touches the argument word or the command count; its result raises the count. -/
theorem SameRequest.moves : CommandMoves SameRequest where
  toAnswerMoves := HostDataKept.moves.mono (fun ⟨_, _, _, _, port, _⟩ => by rw [SameRequest, port]; exact ⟨rfl, rfl⟩)
    fun ⟨a, b⟩ ⟨x, y⟩ => ⟨x.trans a, y.trans b⟩
  commitOutputs _ _ := ⟨rfl, rfl⟩
  freeze _ _ := ⟨rfl, rfl⟩
  loadRun _ := ⟨rfl, rfl⟩
  enable _ _ _ _ := ⟨rfl, rfl⟩
  disable _ _ := ⟨rfl, rfl⟩
  popHead _ := ⟨rfl, rfl⟩
  submit _ _ _ := ⟨rfl, rfl⟩
  leaveQueue _ _ := ⟨rfl, rfl⟩
  releaseSlot _ _ := ⟨rfl, rfl⟩
  arm _ _ _ := ⟨rfl, rfl⟩
  disarm _ _ := ⟨rfl, rfl⟩
  clearCounters _ _ := ⟨rfl, rfl⟩
  clearAllCounters _ := ⟨rfl, rfl⟩
  clearFault _ := ⟨rfl, rfl⟩
  softReset s := by simp [SameRequest, softResetAll, HostPort.clearFault]

theorem commandWrite_port (w : Word) (s : State) :
    (commandWrite w s).port.count = s.port.count + 1#8 ∧ (commandWrite w s).port.argument = s.port.argument := by
  obtain ⟨argument, count⟩ := SameRequest.moves.runCode (commandCode w) s
  exact ⟨congrArg (· + 1#8) count, argument⟩

/-- Codes 1 to 17 name a command, and its row runs what the code runs (Table 10-2, R170). -/
theorem exec_ofBusWrite_command (w : Word) (s : State) :
    exec (ofBusWrite 0x004#11 w) s = .next (whenLive (commandWrite w) s) := by
  have row : ∀ n, commandCode w = n → exec ((commandOfCode n).getD (.unknownCommandCode w)) s
      = .next (whenLive (commandWrite w) s) := by
    intro n code
    unfold commandOfCode
    split
    case h_18 => rfl
    all_goals exact congrArg (fun n => Host.Outcome.next (whenLive (issue (runCode n)) s)) code.symm
  exact row _ rfl

theorem runCode_unknown {n : Nat} (unnamed : n = 0 ∨ 17 < n) : runCode n = runUnknown := by
  unfold runCode
  split <;> first | omega | rfl

theorem commandCode_eq (w : Word) : commandCode w = w.toNat % 32 := by
  simp [commandCode]

/-- Settles O54: every row of the command word is a command word write. -/
theorem everyCommandWriteIsCounted : Obligations.EveryCommandWriteIsCounted := by
  refine ⟨fun c w s bus live => ⟨_, exec_busWrite bus live, commandWrite_port w s⟩, fun w s => ?_,
    fun w s live unnamed => ?_⟩
  · exact ⟨(exec_ofBusWrite_command w s).symm, (exec_ofBusWrite_command w s).symm⟩
  · rw [exec_unknownCommandCode w live, commandWrite, runCode_unknown (by rwa [commandCode_eq])]
    exact congrArg _ (issue_only_answered rfl rfl)

end Sys2Proof.Machine
end

section
/-! SUPPORT. Proofs about the register window (section 10): locations and offsets, access types, and the bus. -/

namespace Sys2Proof.Machine

/-! ### Locations by areas of the window (Table 10-1) -/

section
variable {n : Nat}

/-- From 100H on none of the areas inside the control area is meant. -/
theorem locateNat_above (h : 0x100 ≤ n) :
    locateNat n =
      if h : n < 0x240 then rosterLoc ⟨(n - 0x100) / 8, by omega⟩ ((n - 0x100) % 8)
      else if h : n < 0x380 then .working ⟨(n - 0x240) / 8, by omega⟩ ⟨(n - 0x240) % 8, by omega⟩
      else if h : n < 0x4C0 then .committed ⟨(n - 0x380) / 8, by omega⟩ ⟨(n - 0x380) % 8, by omega⟩
      else if h : n < 0x600 then .input ⟨(n - 0x4C0) / 8, by omega⟩ ⟨(n - 0x4C0) % 8, by omega⟩
      else if h : n < 0x650 then
        if n % 2 = 0 then .inputStatus0 ⟨(n - 0x600) / 2, by omega⟩ else .inputStatus1 ⟨(n - 0x600) / 2, by omega⟩
      else if h : n < 0x750 then
        if h7 : (n - 0x650) % 8 < 7 then .watchConfig ⟨(n - 0x650) / 8, by omega⟩ ⟨(n - 0x650) % 8, h7⟩
        else .watchState ⟨(n - 0x650) / 8, by omega⟩
      else if h : n < 0x7D0 then slotLoc ⟨(n - 0x750) / 16, by omega⟩ ((n - 0x750) % 16)
      else .unmapped := by
  unfold locateNat
  rw [dif_neg (by omega), dif_neg (by omega), dif_neg (by omega), dif_neg (by omega), dif_neg (by omega),
    if_neg (by omega)]

theorem locateNat_roster {e : EntryIdx} {w : Nat} (h : n = 0x100 + 8 * e.val + w) (below : w < 8) :
    locateNat n = rosterLoc e w := by
  have index : (n - 0x100) / 8 = e.val := by omega
  have word : (n - 0x100) % 8 = w := by omega
  rw [locateNat_above (by omega), dif_pos (by omega)]
  simp only [index, word]

theorem locateNat_working {e : EntryIdx} {w : Fin 8} (h : n = 0x240 + 8 * e.val + w.val) :
    locateNat n = .working e w := by
  have index : (n - 0x240) / 8 = e.val := by omega
  have word : (n - 0x240) % 8 = w.val := by omega
  rw [locateNat_above (by omega), dif_neg (by omega), dif_pos (by omega)]
  simp only [index, word]

theorem locateNat_committed {e : EntryIdx} {w : Fin 8} (h : n = 0x380 + 8 * e.val + w.val) :
    locateNat n = .committed e w := by
  have index : (n - 0x380) / 8 = e.val := by omega
  have word : (n - 0x380) % 8 = w.val := by omega
  rw [locateNat_above (by omega), dif_neg (by omega), dif_neg (by omega), dif_pos (by omega)]
  simp only [index, word]

theorem locateNat_input {e : EntryIdx} {w : Fin 8} (h : n = 0x4C0 + 8 * e.val + w.val) :
    locateNat n = .input e w := by
  have index : (n - 0x4C0) / 8 = e.val := by omega
  have word : (n - 0x4C0) % 8 = w.val := by omega
  rw [locateNat_above (by omega), dif_neg (by omega), dif_neg (by omega), dif_neg (by omega), dif_pos (by omega)]
  simp only [index, word]

theorem locateNat_inputStatus {e : EntryIdx} {w : Nat} (h : n = 0x600 + 2 * e.val + w) (below : w < 2) :
    locateNat n = if w = 0 then .inputStatus0 e else .inputStatus1 e := by
  have index : (n - 0x600) / 2 = e.val := by omega
  have word : n % 2 = w := by omega
  rw [locateNat_above (by omega), dif_neg (by omega), dif_neg (by omega), dif_neg (by omega), dif_neg (by omega),
    dif_pos (by omega)]
  simp only [index, word]

theorem locateNat_watchConfig {m : WatchIdx} {w : Fin 7} (h : n = 0x650 + 8 * m.val + w.val) :
    locateNat n = .watchConfig m w := by
  have index : (n - 0x650) / 8 = m.val := by omega
  have word : (n - 0x650) % 8 = w.val := by omega
  rw [locateNat_above (by omega), dif_neg (by omega), dif_neg (by omega), dif_neg (by omega), dif_neg (by omega),
    dif_neg (by omega), dif_pos (by omega), dif_pos (by omega)]
  simp only [index, word]

theorem locateNat_watchState {m : WatchIdx} (h : n = 0x650 + 8 * m.val + 7) : locateNat n = .watchState m := by
  have index : (n - 0x650) / 8 = m.val := by omega
  rw [locateNat_above (by omega), dif_neg (by omega), dif_neg (by omega), dif_neg (by omega), dif_neg (by omega),
    dif_neg (by omega), dif_pos (by omega), dif_neg (by omega)]
  simp only [index]

theorem locateNat_slot {k : SlotIdx} {w : Nat} (h : n = 0x750 + 16 * k.val + w) (below : w < 16) :
    locateNat n = slotLoc k w := by
  have index : (n - 0x750) / 16 = k.val := by omega
  have word : (n - 0x750) % 16 = w := by omega
  rw [locateNat_above (by omega), dif_neg (by omega), dif_neg (by omega), dif_neg (by omega), dif_neg (by omega),
    dif_neg (by omega), dif_neg (by omega), dif_pos (by omega)]
  simp only [index, word]

theorem locateNat_beyond (h : 0x7D0 ≤ n) : locateNat n = .unmapped := by
  rw [locateNat_above (by omega), dif_neg (by omega), dif_neg (by omega), dif_neg (by omega), dif_neg (by omega),
    dif_neg (by omega), dif_neg (by omega), dif_neg (by omega)]

/-- Every offset lies in one area of the window (Table 10-1). -/
theorem offset_areas (n : Nat) :
    n < 0x100 ∨ (∃ e : EntryIdx, ∃ w < 8, n = 0x100 + 8 * e.val + w)
      ∨ (∃ e : EntryIdx, ∃ w : Fin 8, n = 0x240 + 8 * e.val + w.val)
      ∨ (∃ e : EntryIdx, ∃ w : Fin 8, n = 0x380 + 8 * e.val + w.val)
      ∨ (∃ e : EntryIdx, ∃ w : Fin 8, n = 0x4C0 + 8 * e.val + w.val)
      ∨ (∃ e : EntryIdx, ∃ w < 2, n = 0x600 + 2 * e.val + w)
      ∨ (∃ m : WatchIdx, ∃ w < 8, n = 0x650 + 8 * m.val + w)
      ∨ (∃ k : SlotIdx, ∃ w < 16, n = 0x750 + 16 * k.val + w) ∨ 0x7D0 ≤ n := by
  rcases Nat.lt_or_ge n 0x100 with h | h
  · exact .inl h
  rcases Nat.lt_or_ge n 0x240 with h1 | h1
  · exact .inr (.inl ⟨⟨(n - 0x100) / 8, by omega⟩, (n - 0x100) % 8, by omega, by simp only; omega⟩)
  rcases Nat.lt_or_ge n 0x380 with h2 | h2
  · exact .inr (.inr (.inl ⟨⟨(n - 0x240) / 8, by omega⟩, ⟨(n - 0x240) % 8, by omega⟩, by simp only; omega⟩))
  rcases Nat.lt_or_ge n 0x4C0 with h3 | h3
  · exact .inr (.inr (.inr (.inl ⟨⟨(n - 0x380) / 8, by omega⟩, ⟨(n - 0x380) % 8, by omega⟩, by simp only; omega⟩)))
  rcases Nat.lt_or_ge n 0x600 with h4 | h4
  · exact .inr (.inr (.inr (.inr (.inl
      ⟨⟨(n - 0x4C0) / 8, by omega⟩, ⟨(n - 0x4C0) % 8, by omega⟩, by simp only; omega⟩))))
  rcases Nat.lt_or_ge n 0x650 with h5 | h5
  · exact .inr (.inr (.inr (.inr (.inr (.inl
      ⟨⟨(n - 0x600) / 2, by omega⟩, (n - 0x600) % 2, by omega, by simp only; omega⟩)))))
  rcases Nat.lt_or_ge n 0x750 with h6 | h6
  · exact .inr (.inr (.inr (.inr (.inr (.inr (.inl
      ⟨⟨(n - 0x650) / 8, by omega⟩, (n - 0x650) % 8, by omega, by simp only; omega⟩))))))
  rcases Nat.lt_or_ge n 0x7D0 with h7 | h7
  · exact .inr (.inr (.inr (.inr (.inr (.inr (.inr (.inl
      ⟨⟨(n - 0x750) / 16, by omega⟩, (n - 0x750) % 16, by omega, by simp only; omega⟩)))))))
  · exact .inr (.inr (.inr (.inr (.inr (.inr (.inr (.inr h7)))))))

end

/-! ### A location stands at its own offset (R178) -/

theorem locateNat_offset_control_blocks : ∀ (i : Fin 8) (j : Fin 32),
    locateNat (32 * i.val + j.val) ≠ .unmapped → (locateNat (32 * i.val + j.val)).offset = some (32 * i.val + j.val) := by
  intro i
  fin_cases i <;> decide

theorem locateNat_offset_control {n : Nat} (h : n < 0x100) (mapped : locateNat n ≠ .unmapped) :
    (locateNat n).offset = some n := by
  have split : 32 * (n / 32) + n % 32 = n := Nat.div_add_mod n 32
  simpa only [split] using
    locateNat_offset_control_blocks ⟨n / 32, by omega⟩ ⟨n % 32, by omega⟩ (by simpa only [split] using mapped)

/-- The location that an offset names stands there. -/
theorem locateNat_offset {n : Nat} (mapped : locateNat n ≠ .unmapped) : (locateNat n).offset = some n := by
  rcases offset_areas n with h | ⟨e, w, below, h⟩ | ⟨e, w, h⟩ | ⟨e, w, h⟩ | ⟨e, w, h⟩ | ⟨e, w, below, h⟩ | ⟨m, w, below, h⟩
    | ⟨k, w, below, h⟩ | h
  · exact locateNat_offset_control h mapped
  · rw [locateNat_roster h below] at mapped ⊢
    subst h
    interval_cases w <;> first | rfl | exact absurd rfl mapped
  · rw [locateNat_working h, h]
    rfl
  · rw [locateNat_committed h, h]
    rfl
  · rw [locateNat_input h, h]
    rfl
  · rw [locateNat_inputStatus h below]
    subst h
    interval_cases w <;> rfl
  · by_cases config : w < 7
    · rw [locateNat_watchConfig (w := ⟨w, config⟩) h, h]
      rfl
    · have last : w = 7 := by omega
      subst last
      rw [locateNat_watchState h, h]
      rfl
  · rw [locateNat_slot h below] at mapped ⊢
    subst h
    interval_cases w <;> first | rfl | exact absurd rfl mapped
  · exact absurd (locateNat_beyond h) mapped

/-- And the offset of a location names it. -/
theorem locateNat_of_offset {l : Loc} {n : Nat} (h : l.offset = some n) : n < 2000 ∧ locateNat n = l := by
  cases l <;> simp only [Loc.offset, Option.some.injEq, reduceCtorEq] at h
  case headWindow w => subst h; revert w; decide
  case stagingWord w => subst h; revert w; decide
  case queueView w => subst h; revert w; decide
  case attnView w => subst h; revert w; decide
  case freezeWord w => subst h; revert w; decide
  case configA e => exact ⟨by omega, locateNat_roster (w := 0) h.symm (by omega)⟩
  case configB e => exact ⟨by omega, locateNat_roster (w := 1) h.symm (by omega)⟩
  case configC e => exact ⟨by omega, locateNat_roster (w := 2) h.symm (by omega)⟩
  case runtime e => exact ⟨by omega, locateNat_roster (w := 3) h.symm (by omega)⟩
  case countersA e => exact ⟨by omega, locateNat_roster (w := 4) h.symm (by omega)⟩
  case countersB e => exact ⟨by omega, locateNat_roster (w := 5) h.symm (by omega)⟩
  case working e w => exact ⟨by omega, locateNat_working h.symm⟩
  case committed e w => exact ⟨by omega, locateNat_committed h.symm⟩
  case input e w => exact ⟨by omega, locateNat_input h.symm⟩
  case inputStatus0 e => exact ⟨by omega, locateNat_inputStatus (w := 0) h.symm (by omega)⟩
  case inputStatus1 e => exact ⟨by omega, locateNat_inputStatus (w := 1) h.symm (by omega)⟩
  case watchConfig m w => exact ⟨by omega, locateNat_watchConfig h.symm⟩
  case watchState m => exact ⟨by omega, locateNat_watchState h.symm⟩
  case slot0 k => exact ⟨by omega, locateNat_slot (w := 0) h.symm (by omega)⟩
  case slot1 k => exact ⟨by omega, locateNat_slot (w := 1) h.symm (by omega)⟩
  case slot2 k => exact ⟨by omega, locateNat_slot (w := 2) h.symm (by omega)⟩
  case slotWord k i =>
    have at_word : n = 0x750 + 16 * k.val + (3 + i.val) := by omega
    refine ⟨by omega, (locateNat_slot at_word (by omega)).trans ?_⟩
    fin_cases i <;> rfl
  all_goals subst h; decide

/-! ### Access types (Tables 10-1 to 10-11) -/

theorem access_control_blocks : ∀ (i : Fin 8) (j : Fin 32),
    (locateNat (32 * i.val + j.val)).access = accessAt (32 * i.val + j.val) := by
  intro i
  fin_cases i <;> decide

theorem access_control {n : Nat} (h : n < 0x100) : (locateNat n).access = accessAt n := by
  have split : 32 * (n / 32) + n % 32 = n := Nat.div_add_mod n 32
  simpa only [split] using access_control_blocks ⟨n / 32, by omega⟩ ⟨n % 32, by omega⟩

/-- From 100H on the ranges of the control area are passed. -/
theorem accessAt_above {n : Nat} (h : 0x100 ≤ n) :
    accessAt n =
      if h : 0x100 ≤ n ∧ n ≤ 0x23F then
        if (n - 0x100) % 8 ≤ 2 then .lockedByEntry ⟨(n - 0x100) / 8, by omega⟩
        else if (n - 0x100) % 8 ≤ 5 then .ro
        else .none
      else if 0x240 ≤ n ∧ n ≤ 0x37F then .rw
      else if 0x380 ≤ n ∧ n ≤ 0x64F then .ro
      else if h : 0x650 ≤ n ∧ n ≤ 0x74F then
        if (n - 0x650) % 8 ≤ 6 then .lockedByWatch ⟨(n - 0x650) / 8, by omega⟩ else .ro
      else if 0x750 ≤ n ∧ n ≤ 0x7CF then
        if (n - 0x750) % 16 ≤ 10 then .ro else .none
      else .none := by
  unfold accessAt
  rw [if_neg (by omega), if_neg (by omega), if_neg (by omega), if_neg (by omega), if_neg (by omega), if_neg (by omega),
    if_neg (by omega), if_neg (by omega), if_neg (by omega), if_neg (by omega), if_neg (by omega), if_neg (by omega),
    if_neg (by omega)]

/-- The model's locations have the access types that the tables give their offsets. -/
theorem access_locateNat (n : Nat) : (locateNat n).access = accessAt n := by
  rcases offset_areas n with h | ⟨e, w, below, h⟩ | ⟨e, w, h⟩ | ⟨e, w, h⟩ | ⟨e, w, h⟩ | ⟨e, w, below, h⟩ | ⟨m, w, below, h⟩
    | ⟨k, w, below, h⟩ | h
  · exact access_control h
  · have index : (n - 0x100) / 8 = e.val := by omega
    have word : (n - 0x100) % 8 = w := by omega
    rw [locateNat_roster h below, accessAt_above (by omega), dif_pos (by omega)]
    simp only [index, word]
    interval_cases w <;> rfl
  · rw [locateNat_working h, accessAt_above (by omega), dif_neg (by omega), if_pos (by omega)]
    rfl
  · rw [locateNat_committed h, accessAt_above (by omega), dif_neg (by omega), if_neg (by omega), if_pos (by omega)]
    rfl
  · rw [locateNat_input h, accessAt_above (by omega), dif_neg (by omega), if_neg (by omega), if_pos (by omega)]
    rfl
  · rw [accessAt_above (by omega), dif_neg (by omega), if_neg (by omega), if_pos (by omega),
      locateNat_inputStatus h below]
    split <;> rfl
  · have index : (n - 0x650) / 8 = m.val := by omega
    have word : (n - 0x650) % 8 = w := by omega
    rw [accessAt_above (by omega), dif_neg (by omega), if_neg (by omega), if_neg (by omega), dif_pos (by omega)]
    simp only [index, word]
    by_cases config : w < 7
    · rw [locateNat_watchConfig (w := ⟨w, config⟩) h, if_pos (by omega)]
      rfl
    · rw [locateNat_watchState (m := m) (by omega), if_neg (by omega)]
      rfl
  · have word : (n - 0x750) % 16 = w := by omega
    rw [locateNat_slot h below, accessAt_above (by omega), dif_neg (by omega), if_neg (by omega), if_neg (by omega),
      dif_neg (by omega), if_pos (by omega), word]
    interval_cases w <;> rfl
  · rw [locateNat_beyond h, accessAt_above (by omega), dif_neg (by omega), if_neg (by omega), if_neg (by omega),
      dif_neg (by omega), if_neg (by omega)]
    rfl

/-! ### Reads at an offset -/

/-- A read at the offset of a location returns the location's word (R167). -/
theorem readWord_at {s : State} (live : s.resetHeld = false) (l : Loc) {n : Nat} (at_offset : l.offset = some n) :
    s.readWord (BitVec.ofNat 11 n) = readLoc l s := by
  obtain ⟨below, located⟩ := locateNat_of_offset at_offset
  rw [readWord_live _ live, locate, BitVec.toNat_ofNat, Nat.mod_eq_of_lt (by omega), located]

theorem readLoc_unread {l : Loc} (s : State) (h : l.access = .none ∨ l.access = .action) : readLoc l s = 0#16 := by
  cases l <;> simp only [Loc.access, reduceCtorEq, or_self] at h <;> rfl

/-! ### Refused writes (R168, R172) -/

theorem hostWrite_refused {o : Offset} {cause : AccessCause} {s : State} (v : Word)
    (h : (accessAt o.toNat = .none ∧ cause = .unmapped) ∨ (accessAt o.toNat = .ro ∧ cause = .readOnly)
      ∨ (cause = .locked ∧ ((∃ e, accessAt o.toNat = .lockedByEntry e ∧ (s.entry e).link ≠ .off)
          ∨ (accessAt o.toNat = .lockedBySequencer ∧ s.seq.state ≠ .stopped)
          ∨ (∃ n, accessAt o.toNat = .lockedByWatch n ∧ (s.watch n).armed = true)))) :
    hostWrite o v s = accessFault o cause s := by
  have access : (locate o).access = accessAt o.toNat := access_locateNat o.toNat
  unfold hostWrite
  rcases h with ⟨type, rfl⟩ | ⟨type, rfl⟩ | ⟨rfl, ⟨e, type, locked⟩ | ⟨type, locked⟩ | ⟨n, type, locked⟩⟩ <;>
    rw [access, type] <;> simp [isLocked, locked]

/-- Settles O50: the access types agree area by area, and a refused write is one access fault. -/
theorem refusedWritesRecordTheFirstFault : Obligations.RefusedWritesRecordTheFirstFault := by
  refine ⟨fun o => ⟨access_locateNat o.toNat, fun s type => ?_⟩, fun s o v cause live refused => ?_⟩
  · have unread : readLoc (locate o) s = 0#16 := readLoc_unread s (by rwa [locate, access_locateNat])
    rw [State.readWord, unread, ite_self]
  · rw [exec_hostWrite o v live, hostWrite_refused v refused]
    exact ⟨fun empty => congrArg _ (accessFault_of_empty _ _ empty),
      fun occupied => congrArg _ (accessFault_of_occupied _ _ occupied)⟩

/-! ### The bus (R166, R170) -/

theorem commandOfCode_none {code : Nat} (h : codeNamesCommand code = false) : commandOfCode code = none := by
  unfold commandOfCode
  split <;> simp [codeNamesCommand] at h ⊢

theorem commandOfCode_wellFormed {code : Nat} {c : Instr} (h : commandOfCode code = some c) : c.wellFormed = true := by
  unfold commandOfCode at h
  split at h <;> cases h <;> rfl

theorem commandOfCode_eq_none {code : Nat} (h : commandOfCode code = none) : codeNamesCommand code = false := by
  unfold commandOfCode at h
  split at h <;> simp_all [codeNamesCommand]
  omega

theorem ofBusWrite_busWrite {c : Instr} {o : Offset} {w : Word} (wf : c.wellFormed = true)
    (write : busWrite c = some (o, w)) : ofBusWrite o w = c := by
  cases c <;> simp only [busWrite, Option.some.injEq, Prod.mk.injEq, reduceCtorEq] at write <;>
    obtain ⟨rfl, rfl⟩ := write
  case unknownCommandCode written =>
    have unnamed : commandOfCode (commandCode written) = none := commandOfCode_none (by simpa [Instr.wellFormed] using wf)
    simp [ofBusWrite, unnamed]
  case hostWrite offset value =>
    simp only [Instr.wellFormed, isActionOffset, Bool.not_eq_true', Bool.or_eq_false_iff, decide_eq_false_iff_not] at wf
    simp [ofBusWrite, wf]
  all_goals rfl

theorem ofBusWrite_wellFormed (o : Offset) (w : Word) : (ofBusWrite o w).wellFormed = true := by
  unfold ofBusWrite
  split
  next =>
    cases named : commandOfCode (commandCode w) with
    | none => simp [Instr.wellFormed, commandOfCode_eq_none named]
    | some c => exact commandOfCode_wellFormed named
  split
  next => rfl
  split
  next => rfl
  split
  next => rfl
  next command set clear flip => simp [Instr.wellFormed, isActionOffset, command, set, clear, flip]

theorem busAccess_cases (cs rd wr : Level) :
    (busAccess cs rd wr = .read ↔ cs = .low ∧ rd = .low ∧ wr = .high)
    ∧ (busAccess cs rd wr = .write ↔ cs = .low ∧ rd = .high ∧ wr = .low)
    ∧ (cs = .high ∨ rd = wr → busAccess cs rd wr = .neither) := by
  cases cs <;> cases rd <;> cases wr <;> simp [busAccess]

theorem withAccessAmid_eq (s : State) (passed : Nat) (cs rd wr : Level) (o : Offset) (v : Word) :
    s.withAccessAmid passed cs rd wr o v =
      if busAccess cs rd wr = .write then { s with amid := s.amid ++ [{ passed := passed, offset := o, value := v }] }
      else s := by
  unfold State.withAccessAmid
  cases busAccess cs rd wr <;> rfl

theorem withAccess_eq (s : State) (cs rd wr : Level) (o : Offset) (v : Word) :
    s.withAccess cs rd wr o v =
      if busAccess cs rd wr = .write then { s with pending := s.pending ++ [ofBusWrite o v] } else s := by
  rcases withAccess_cases s cs rd wr o v with ⟨write, eq⟩ | ⟨other, eq⟩
  · rw [eq, if_pos write]
  · rw [eq, if_neg other]

theorem busData_eq (s : State) (cs rd wr : Level) (o : Offset) :
    s.busData cs rd wr o = if busAccess cs rd wr = .read then some (s.readWord o) else none := by
  unfold State.busData
  cases busAccess cs rd wr <;> rfl

/-- Settles O55. -/
theorem busWritesAndOffsetsAgree : Obligations.BusWritesAndOffsetsAgree := by
  refine ⟨fun c o w => ofBusWrite_busWrite, ofBusWrite_wellFormed, fun l n => locateNat_of_offset,
    fun n _ => locateNat_offset, fun s cs rd wr o v => ?_⟩
  obtain ⟨read, write, neither⟩ := busAccess_cases cs rd wr
  refine ⟨fun levels => ?_, fun levels => ?_, fun levels => ?_, fun passed => ⟨fun levels => ?_, fun levels => ?_⟩⟩
  · simp [busData_eq, withAccess_eq, read.2 levels]
  · simp [busData_eq, withAccess_eq, write.2 levels]
  · simp [busData_eq, withAccess_eq, neither levels]
  · rw [withAccessAmid_eq, if_pos (write.2 levels)]
  · rw [withAccessAmid_eq, if_neg fun w => levels (write.1 w)]

end Sys2Proof.Machine
end

section
/-! SUPPORT. Proofs about the register window (section 10): the words that a read returns, field by field, and what a taken
write stores. -/

namespace Sys2Proof.Machine

/-! ### Fields side by side in a word (R179) -/

theorem field_zero (a : Nat) : field a 0 = BitVec.ofNat 16 a := by simp [field]

/-- A field above what stands below its position adds up with it. -/
theorem ofNat_or_field {a p : Nat} (b : Nat) (h : a < 2 ^ p) :
    BitVec.ofNat 16 a ||| field b p = BitVec.ofNat 16 (a + 2 ^ p * b) := by
  rw [field, ← BitVec.ofNat_or, Nat.add_comm, Nat.two_pow_add_eq_or_of_lt h, Nat.mul_comm, Nat.or_comm]

/-! ### Codes stay below their fields' widths (Table 10-2) -/

theorem linkState_code_lt (l : LinkState) : l.code < 8 := by cases l <;> decide
theorem seqState_code_lt (l : SeqState) : l.code < 16 := by cases l <;> decide
theorem phase_code_lt (p : Phase) : p.code < 16 := by cases p <;> decide
theorem eventKind_code_lt (k : EventKind) : k.code < 256 := by cases k <;> decide
theorem slotState_code_lt (l : SlotState) : l.code < 16 := by cases l <;> decide
theorem slotOutcome_code_lt (l : SlotOutcome) : l.code < 16 := by cases l <;> decide
theorem watchOutcome_code_lt (l : WatchOutcome) : l.code < 4 := by cases l <;> decide
theorem accessCause_code_lt (c : AccessCause) : c.code < 8 := by cases c <;> decide
theorem commitMode_code_lt (m : CommitMode) : m.code < 2 := by cases m <;> decide

theorem errandKindCode_lt (k : Option ErrandKind) : errandKindCode k < 16 := by
  rcases k with _ | _ | _ | _ <;> decide

/-! ### Words of several fields -/

section
variable (s : State)

theorem readLoc_statusA : readLoc .statusA s = BitVec.ofNat 16
    (s.seq.state.code + 16 * s.seq.phase.code + 256 * s.port.fault.isSome.toNat + 512 * s.irqLow.toNat) := by
  have := seqState_code_lt s.seq.state
  have := phase_code_lt s.seq.phase
  have := Bool.toNat_lt s.port.fault.isSome
  simp (disch := omega) only [readLoc, flag, field_zero, ofNat_or_field, Nat.reducePow]

theorem readLoc_statusB : readLoc .statusB s = BitVec.ofNat 16 (s.cursor.toNat + 256 * s.events.queue.length) := by
  simp (disch := omega) only [readLoc, field_zero, ofNat_or_field, Nat.reducePow]

theorem readLoc_resultA : readLoc .resultA s = BitVec.ofNat 16 (s.port.value.toNat + 256 * s.port.count.toNat) := by
  simp (disch := omega) only [readLoc, field_zero, ofNat_or_field, Nat.reducePow]

theorem faultWord_some (f : AccessFault) :
    faultWord (some f) = BitVec.ofNat 16 (f.offset.toNat + 4096 * f.cause.code + 32768) := by
  have := accessCause_code_lt f.cause
  simp (disch := omega) only [faultWord, flag, field_zero, ofNat_or_field, Nat.reducePow, Bool.toNat_true, Nat.mul_one]

theorem word_subject (r : EventRecord) : r.word 1 = BitVec.ofNat 16 (r.kind.code + 256 * r.subject.toNat) := by
  have := eventKind_code_lt r.kind
  simp (disch := omega) only [EventRecord.word, field_zero, ofNat_or_field, Nat.reducePow]

theorem word_parameters (r : EventRecord) : r.word 3 = BitVec.ofNat 16 (r.p1.toNat + 256 * r.p2.toNat) := by
  simp (disch := omega) only [EventRecord.word, field_zero, ofNat_or_field, Nat.reducePow]

theorem word_filter (f : KindFilter) : f.word = BitVec.ofNat 16
    (2 * f.link.toNat + 4 * f.attention.toNat + 8 * f.errand.toNat + 16 * f.watch.toNat + 32 * f.cycle.toNat
      + 64 * f.overrun.toNat + 128 * f.hold.toNat + 256 * f.lineFault.toNat + 512 * f.stopped.toNat) := by
  have := Bool.toNat_lt f.link
  have := Bool.toNat_lt f.attention
  have := Bool.toNat_lt f.errand
  have := Bool.toNat_lt f.watch
  have := Bool.toNat_lt f.cycle
  have := Bool.toNat_lt f.overrun
  have := Bool.toNat_lt f.hold
  have := Bool.toNat_lt f.lineFault
  have low : field f.link.toNat 1 = BitVec.ofNat 16 (2 * f.link.toNat) := by rw [field, Nat.mul_comm, Nat.pow_one]
  simp (disch := omega) only [KindFilter.word, flag, low, ofNat_or_field, Nat.reducePow]

theorem readLoc_irqEnables :
    readLoc .irqEnables s = BitVec.ofNat 16 (s.events.globalIrq.toNat + 2 * s.events.faultIrq.toNat) := by
  have := Bool.toNat_lt s.events.globalIrq
  simp (disch := omega) only [readLoc, flag, field_zero, ofNat_or_field, Nat.reducePow]

theorem readLoc_selector :
    readLoc .selector s = BitVec.ofNat 16 (s.selector.entry.toNat + 256 * s.selector.word.toNat) := by
  simp (disch := omega) only [readLoc, field_zero, ofNat_or_field, Nat.reducePow]

theorem readLoc_staging0 :
    readLoc .staging0 s = BitVec.ofNat 16 (s.errand.staging.tag.toNat + 256 * s.errand.staging.entry.toNat) := by
  simp (disch := omega) only [readLoc, field_zero, ofNat_or_field, Nat.reducePow]

theorem readLoc_staging1 : readLoc .staging1 s = BitVec.ofNat 16
    (s.errand.staging.kind.toNat + 16 * s.errand.staging.len.toNat + 256 * s.errand.staging.object.toNat) := by
  simp (disch := omega) only [readLoc, field_zero, ofNat_or_field, Nat.reducePow]

theorem readLoc_queueView (i : Fin 8) :
    readLoc (.queueView i) s = match s.errand.queue[i.val]? with | some k => BitVec.ofNat 16 k.val | none => 0x00FF#16 := by
  rw [readLoc, field_zero]
  cases s.errand.queue[i.val]? <;> rfl

theorem readLoc_attnView (i : Fin 40) :
    readLoc (.attnView i) s = match s.attn.items[i.val]? with | some e => BitVec.ofNat 16 e.val | none => 0x00FF#16 := by
  rw [readLoc, field_zero]
  cases s.attn.items[i.val]? <;> rfl

theorem entryByte_toNat (e : Option EntryIdx) : (entryByte e).toNat = match e with | some e => e.val | none => 255 := by
  cases e with
  | none => rfl
  | some e => exact Nat.mod_eq_of_lt (by omega)

theorem readLoc_attnViewHead (few : s.attn.items.length ≤ 40) : readLoc .attnViewHead s = BitVec.ofNat 16
    (s.attn.items.length + 256 * match s.attn.mark with | some e => e.val | none => 255) := by
  simp (disch := omega) only [readLoc, field_zero, ofNat_or_field, entryByte_toNat, Nat.reducePow]

theorem readLoc_freeze0 : readLoc .freeze0 s = BitVec.ofNat 16
    (s.freeze.entry.toNat + 256 * s.freeze.link.code + 32768 * s.freeze.fresh.toNat) := by
  have := linkState_code_lt s.freeze.link
  simp (disch := omega) only [readLoc, flag, field_zero, ofNat_or_field, Nat.reducePow]

theorem readLoc_freeze1 : readLoc .freeze1 s = BitVec.ofNat 16 (s.freeze.generation.toNat + 256 * s.freeze.age.toNat) := by
  simp (disch := omega) only [readLoc, field_zero, ofNat_or_field, Nat.reducePow]

theorem wordA_eq (x : Entry) :
    x.wordA = BitVec.ofNat 16 (x.address.toNat + 256 * x.divisor.toNat + 4096 * x.phase.toNat) := by
  simp (disch := omega) only [Entry.wordA, field_zero, ofNat_or_field, Nat.reducePow]

theorem wordB_eq (x : Entry) : x.wordB = BitVec.ofNat 16
    (x.retryLimit.toNat + 16 * x.lossLimit.toNat + 256 * x.outLen.toNat + 4096 * x.inLen.toNat) := by
  simp (disch := omega) only [Entry.wordB, field_zero, ofNat_or_field, Nat.reducePow]

theorem wordC_eq (x : Entry) :
    x.wordC = BitVec.ofNat 16 ((decide (x.commitMode = .gated)).toNat + 2 * x.substitute.toNat) := by
  have code : (decide (x.commitMode = .gated)).toNat = x.commitMode.code := by cases x.commitMode <;> rfl
  have := commitMode_code_lt x.commitMode
  simp (disch := omega) only [Entry.wordC, flag, field_zero, ofNat_or_field, Nat.pow_one, code]

theorem runtimeWord_eq (x : Entry) (inFlight : Bool) : runtimeWord x inFlight = BitVec.ofNat 16
    (x.link.code + 16 * x.miss.toNat + 256 * x.nextToggle.toNat + 512 * x.resync.toNat + 1024 * inFlight.toNat
      + 4096 * x.probe.toNat) := by
  have := linkState_code_lt x.link
  have := Bool.toNat_lt x.nextToggle
  have := Bool.toNat_lt x.resync
  have := Bool.toNat_lt inFlight
  simp (disch := omega) only [runtimeWord, flag, field_zero, ofNat_or_field, Nat.reducePow]

theorem readLoc_countersA (e : EntryIdx) :
    readLoc (.countersA e) s = BitVec.ofNat 16 ((s.entry e).retries.toNat + 256 * (s.entry e).failedVisits.toNat) := by
  simp (disch := omega) only [readLoc, field_zero, ofNat_or_field, Nat.reducePow]

theorem readLoc_inputStatus0 (e : EntryIdx) :
    readLoc (.inputStatus0 e) s = BitVec.ofNat 16 ((s.image e).generation.toNat + 32768 * (s.image e).fresh.toNat) := by
  simp (disch := omega) only [readLoc, flag, field_zero, ofNat_or_field, Nat.reducePow]

theorem configWord_head (w : Watch) :
    w.configWord 0 = BitVec.ofNat 16 (w.entry.toNat + 256 * w.word.toNat + 4096 * w.condition.toNat) := by
  simp (disch := omega) only [Watch.configWord, field_zero, ofNat_or_field, Nat.reducePow]

theorem configWord_trigger (w : Watch) : w.configWord 3 = BitVec.ofNat 16
    (w.trigger.toNat + 16 * w.persistence.toNat + 256 * w.actPost.toNat + 512 * w.actHold.toNat
      + 1024 * w.actDrive.toNat) := by
  have := Bool.toNat_lt w.actPost
  have := Bool.toNat_lt w.actHold
  simp (disch := omega) only [Watch.configWord, flag, field_zero, ofNat_or_field, Nat.reducePow]

theorem configWord_drive (w : Watch) :
    w.configWord 4 = BitVec.ofNat 16 (w.driveEntry.toNat + 256 * w.driveWord.toNat) := by
  simp (disch := omega) only [Watch.configWord, field_zero, ofNat_or_field, Nat.reducePow]

theorem stateWord_eq (w : Watch) : w.stateWord = BitVec.ofNat 16
    (w.armed.toNat + 2 * w.outcome.code + 8 * w.candidate.toNat + 16 * w.run.toNat + 256 * w.fires.toNat) := by
  have := watchOutcome_code_lt w.outcome
  have := Bool.toNat_lt w.armed
  have := Bool.toNat_lt w.candidate
  simp (disch := omega) only [Watch.stateWord, flag, field_zero, ofNat_or_field, Nat.reducePow, Nat.pow_one]

theorem readLoc_slot0 (k : SlotIdx) : readLoc (.slot0 k) s = BitVec.ofNat 16
    ((s.slot k).state.code + 16 * (s.slot k).outcome.code + 256 * (s.slot k).ansLen.toNat) := by
  have := slotState_code_lt (s.slot k).state
  have := slotOutcome_code_lt (s.slot k).outcome
  simp (disch := omega) only [readLoc, field_zero, ofNat_or_field, Nat.reducePow]

theorem readLoc_slot1 (k : SlotIdx) :
    readLoc (.slot1 k) s = BitVec.ofNat 16 ((s.slot k).tag.toNat + 256 * (s.slot k).entry.val) := by
  simp (disch := omega) only [readLoc, field_zero, ofNat_or_field, Nat.reducePow]

theorem readLoc_slot2 (k : SlotIdx) : readLoc (.slot2 k) s = BitVec.ofNat 16
    (errandKindCode (s.slot k).kind + 16 * (s.slot k).reqLen.toNat + 256 * (s.slot k).object.toNat) := by
  have := errandKindCode_lt (s.slot k).kind
  simp (disch := omega) only [readLoc, field_zero, ofNat_or_field, Nat.reducePow]

/-- An empty queue shows a head window of 0000H (Table 10-6). -/
theorem readLoc_headWindow_empty (empty : s.events.queue = []) (i : Fin 7) : readLoc (.headWindow i) s = 0#16 := by
  rw [readLoc, empty]

theorem readLoc_headWindow {r : EventRecord} {rest : List EventRecord} (head : s.events.queue = r :: rest) (i : Fin 7) :
    readLoc (.headWindow i) s = r.word i := by
  rw [readLoc, head]

end

/-! ### The read-only words at their offsets -/

/-- Settles O52: each read is that of the location at its offset, and the word there is the sum of its fields. -/
theorem readOnlyWordsShowTheirFields : Obligations.ReadOnlyWordsShowTheirFields := by
  refine ⟨by decide, fun s live => ?_⟩
  have rd : ∀ (l : Loc) {n : Nat} {x : Word}, l.offset = some n → readLoc l s = x → s.readWord (BitVec.ofNat 11 n) = x :=
    fun l _ _ at_offset eq => (readWord_at live l at_offset).trans eq
  refine ⟨⟨rd .statusA rfl (readLoc_statusA s), rd .statusB rfl (readLoc_statusB s), rd .resultA rfl (readLoc_resultA s),
      rd .resultB rfl (field_zero _), rd .faultRecord rfl ?_, rd .faultCount rfl (field_zero _),
      rd .overrunCount rfl (field_zero _), rd .echoFaultCount rfl (field_zero _), rd .lineFaultTotal rfl (field_zero _),
      rd .strayByteCount rfl rfl⟩,
    ⟨rd .queueCount rfl (field_zero _), rd .nextSeq rfl rfl, rd .droppedCount rfl (field_zero _),
      rd .headWaitCount rfl (field_zero _),
      fun empty i below => rd (.headWindow ⟨i, below⟩) rfl (readLoc_headWindow_empty s empty _),
      fun r rest head => ?_⟩,
    ⟨rd .queueViewCount rfl (field_zero _), fun i => rd (.queueView i) rfl (readLoc_queueView s i),
      fun few => rd .attnViewHead rfl (readLoc_attnViewHead s few), fun i => rd (.attnView i) rfl (readLoc_attnView s i),
      rd .freeze0 rfl (readLoc_freeze0 s), rd .freeze1 rfl (readLoc_freeze1 s), rd .freeze2 rfl (field_zero _),
      fun i => rd (.freezeWord i) rfl rfl⟩,
    fun e => ⟨?_, ?_, ?_, fun i => ⟨rd (.committed e i) rfl rfl, rd (.input e i) rfl rfl⟩,
      rd (.inputStatus0 e) rfl (readLoc_inputStatus0 s e), ?_⟩,
    fun n => ?_,
    fun k => ⟨rd (.slot0 k) rfl (readLoc_slot0 s k), ?_, ?_, fun i => ?_⟩⟩
  case refine_1 =>
    rw [readLoc]
    cases s.port.fault with
    | none => rfl
    | some f => exact faultWord_some f
  case refine_2 =>
    have window (i : Fin 7) : s.readWord (BitVec.ofNat 11 (0x20 + i.val)) = r.word i :=
      rd (.headWindow i) rfl (readLoc_headWindow s head i)
    exact ⟨window 0, (window 1).trans (word_subject r), window 2, (window 3).trans (word_parameters r), window 4, window 5,
      window 6⟩
  case refine_3 => exact rd (.runtime e) (by simp [Loc.offset]; omega) (runtimeWord_eq _ _)
  case refine_4 => exact rd (.countersA e) (by simp [Loc.offset]; omega) (readLoc_countersA s e)
  case refine_5 => exact rd (.countersB e) (by simp [Loc.offset]; omega) (field_zero _)
  case refine_6 => exact rd (.inputStatus1 e) (by simp [Loc.offset]; omega) (field_zero _)
  case refine_7 => exact rd (.watchState n) (by simp [Loc.offset]; omega) (stateWord_eq _)
  case refine_8 => exact rd (.slot1 k) (by simp [Loc.offset]; omega) (readLoc_slot1 s k)
  case refine_9 =>
    refine rd (.slot2 k) (by simp [Loc.offset]; omega) ((readLoc_slot2 s k).trans ?_)
    cases (s.slot k).kind <;> rfl
  case refine_10 => exact rd (.slotWord k i) (by simp [Loc.offset]; omega) rfl

/-! ### A taken write reads back under its mask (R168, R179) -/

/-- A field stored from its bits of a word shows those bits again. -/
theorem field_extractLsb' (v : Word) (p w : Nat) :
    field (v.extractLsb' p w).toNat p = v &&& BitVec.ofNat 16 ((2 ^ w - 1) * 2 ^ p) := by
  refine BitVec.eq_of_getLsbD_eq fun i below => ?_
  rw [field_getLsbD, BitVec.getLsbD_and, BitVec.getLsbD_ofNat, Nat.testBit_mul_two_pow, Nat.testBit_two_pow_sub_one,
    BitVec.testBit_toNat, BitVec.getLsbD_extractLsb']
  by_cases reach : p ≤ i
  · simp [below, reach, Nat.add_sub_cancel' reach, Bool.and_comm]
  · simp [reach]

theorem flag_getLsbD_self (v : Word) (p : Nat) :
    flag (v.getLsbD p) p = v &&& BitVec.ofNat 16 (2 ^ p) := by
  refine BitVec.eq_of_getLsbD_eq fun i below => ?_
  rw [flag_getLsbD, BitVec.getLsbD_and, BitVec.getLsbD_ofNat, Nat.testBit_two_pow]
  by_cases here : p = i
  · subst here
    simp [below]
  · simp [here]

theorem code_ite_gated (b : Bool) : field (if b then CommitMode.gated else .auto).code 0 = flag b 0 := by
  cases b <;> rfl

/-- The locations that a write may store into. -/
def Loc.stored (l : Loc) : Bool :=
  match l.access with
  | .rw => true
  | .lockedByEntry _ => true
  | .lockedBySequencer => true
  | .lockedByWatch _ => true
  | .ro => false
  | .action => false
  | .none => false

theorem and_allOnes (v : Word) : v &&& 0xFFFF#16 = v := BitVec.and_allOnes

theorem wordA_storeA (x : Entry) (v : Word) (e : EntryIdx) : (x.storeA v).wordA = v &&& (Loc.configA e).mask := by
  simp only [Entry.storeA, Entry.wordA, field_extractLsb', ← BitVec.and_or_distrib_left]
  rfl

theorem wordB_storeB (x : Entry) (v : Word) (e : EntryIdx) : (x.storeB v).wordB = v &&& (Loc.configB e).mask := by
  simp only [Entry.storeB, Entry.wordB, field_extractLsb', ← BitVec.and_or_distrib_left]
  rfl

theorem wordC_storeC (x : Entry) (v : Word) (e : EntryIdx) : (x.storeC v).wordC = v &&& (Loc.configC e).mask := by
  simp only [Entry.storeC, Entry.wordC, code_ite_gated, flag_getLsbD_self, ← BitVec.and_or_distrib_left]
  rfl

theorem configWord_store_self (w : Watch) (n : WatchIdx) (i : Fin 7) (v : Word) :
    (w.store i v).configWord i = v &&& (Loc.watchConfig n i).mask := by
  fin_cases i <;>
    simp only [Watch.store, Watch.configWord, field_extractLsb', flag_getLsbD_self, ← BitVec.and_or_distrib_left] <;>
    first | rfl | exact (and_allOnes v).symm

theorem readLoc_storeLoc_self {l : Loc} (stored : l.stored = true) (v : Word) (s : State) :
    readLoc l (storeLoc l v s) = v &&& l.mask := by
  cases l <;> simp only [Loc.stored, Loc.access, Bool.false_eq_true] at stored
  case argument => exact (and_allOnes v).symm
  case period => exact (and_allOnes v).symm
  case answerDeadline => exact (and_allOnes v).symm
  case stagingWord i => simp [readLoc, storeLoc, Loc.mask, and_allOnes]
  case working e w => simp [readLoc, storeLoc, Loc.mask, and_allOnes]
  case configA e => simpa [readLoc, storeLoc] using wordA_storeA (s.entry e) v e
  case configB e => simpa [readLoc, storeLoc] using wordB_storeB (s.entry e) v e
  case configC e => simpa [readLoc, storeLoc] using wordC_storeC (s.entry e) v e
  case watchConfig n i => simpa [readLoc, storeLoc] using configWord_store_self (s.watch n) n i v
  all_goals
    simp only [readLoc, storeLoc, setConfig_cfg, setStaging_errand, setEvents_events, filterOf, KindFilter.word,
      field_extractLsb', flag_getLsbD_self, ← BitVec.and_or_distrib_left]
    rfl

/-! ### And leaves every other word of the window (R168) -/

/-- An entry's replacement shows only in the words of its configuration that differ. -/
theorem readLoc_setEntry {l : Loc} {e : EntryIdx} {x : Entry} {s : State} (a : l = .configA e → x.wordA = (s.entry e).wordA)
    (b : l = .configB e → x.wordB = (s.entry e).wordB) (c : l = .configC e → x.wordC = (s.entry e).wordC)
    (runtime : SameRuntime (s.entry e) x) : readLoc l (s.setEntry e x) = readLoc l s := by
  obtain ⟨link, miss, toggle, resync, probe, retries, failed, losses⟩ := runtime
  cases l
  case configA f =>
    rw [readLoc, readLoc, entry_setEntry]
    split
    next same => exact same ▸ a (same ▸ rfl)
    next => rfl
  case configB f =>
    rw [readLoc, readLoc, entry_setEntry]
    split
    next same => exact same ▸ b (same ▸ rfl)
    next => rfl
  case configC f =>
    rw [readLoc, readLoc, entry_setEntry]
    split
    next same => exact same ▸ c (same ▸ rfl)
    next => rfl
  case runtime f =>
    rw [readLoc, readLoc, entry_setEntry]
    split
    next same =>
      subst same
      rw [runtimeWord, runtimeWord, ← link, ← miss, ← toggle, ← resync, ← probe]
      rfl
    next => rfl
  case countersA f =>
    rw [readLoc, readLoc, entry_setEntry]
    split
    next same => rw [same, ← retries, ← failed]
    next => rfl
  case countersB f =>
    rw [readLoc, readLoc, entry_setEntry]
    split
    next same => rw [same, ← losses]
    next => rfl
  all_goals rfl

theorem readLoc_setWatch {l : Loc} {n : WatchIdx} {x : Watch} {s : State}
    (config : ∀ i, l = .watchConfig n i → x.configWord i = (s.watch n).configWord i)
    (state : x.stateWord = (s.watch n).stateWord) : readLoc l (s.setWatch n x) = readLoc l s := by
  cases l
  case watchConfig m i =>
    rw [readLoc, readLoc, watch_setWatch]
    split
    next same => exact same ▸ config i (same ▸ rfl)
    next => rfl
  case watchState m =>
    rw [readLoc, readLoc, watch_setWatch]
    split
    next same => rw [same, state]
    next => rfl
  all_goals rfl

theorem configWord_store_other {w : Watch} {i j : Fin 7} (other : j ≠ i) (v : Word) :
    (w.store i v).configWord j = w.configWord j := by
  fin_cases i <;> fin_cases j <;> first | rfl | exact absurd rfl other

theorem stateWord_store (w : Watch) (i : Fin 7) (v : Word) : (w.store i v).stateWord = w.stateWord := by
  fin_cases i <;> rfl

theorem readLoc_setWorking {l : Loc} {e : EntryIdx} {w : Fin 8} (other : l ≠ .working e w) (v : Word) (s : State) :
    readLoc l (s.setImage e { s.image e with working := (s.image e).working.set w.val v w.isLt }) = readLoc l s := by
  cases l
  case working f i =>
    simp only [readLoc, image_setImage]
    split
    next same =>
      subst same
      have apart : w.val ≠ i.val := fun same => other (by rw [Fin.ext same])
      exact Vector.getElem_set_ne w.isLt i.isLt apart
    next => rfl
  case committed f i => simp only [readLoc, image_setImage]; split <;> simp_all
  case input f i => simp only [readLoc, image_setImage]; split <;> simp_all
  case inputStatus0 f => simp only [readLoc, image_setImage]; split <;> simp_all
  case inputStatus1 f => simp only [readLoc, image_setImage]; split <;> simp_all
  all_goals rfl

theorem readLoc_setStagingWord {l : Loc} {i : Fin 8} (other : l ≠ .stagingWord i) (v : Word) (s : State) :
    readLoc l (setStaging { s.errand.staging with payload := s.errand.staging.payload.set i.val v i.isLt } s)
      = readLoc l s := by
  cases l
  case stagingWord j =>
    have apart : i.val ≠ j.val := fun same => other (by rw [Fin.ext same])
    exact Vector.getElem_set_ne i.isLt j.isLt apart
  all_goals rfl

/-- A write stores into no word but its own. The first status word is left out: its IRQ bit follows the event unit's
control words. -/
theorem readLoc_storeLoc_other {l k : Loc} (stored : l.stored = true) (other : k ≠ l) (no_status : k ≠ .statusA) (v : Word)
    (s : State) : readLoc k (storeLoc l v s) = readLoc k s := by
  cases l <;> simp only [Loc.stored, Loc.access, Bool.false_eq_true] at stored
  case configA e =>
    exact readLoc_setEntry (fun same => absurd same other) (fun _ => rfl) (fun _ => rfl)
      ⟨rfl, rfl, rfl, rfl, rfl, rfl, rfl, rfl⟩
  case configB e =>
    exact readLoc_setEntry (fun _ => rfl) (fun same => absurd same other) (fun _ => rfl)
      ⟨rfl, rfl, rfl, rfl, rfl, rfl, rfl, rfl⟩
  case configC e =>
    exact readLoc_setEntry (fun _ => rfl) (fun _ => rfl) (fun same => absurd same other)
      ⟨rfl, rfl, rfl, rfl, rfl, rfl, rfl, rfl⟩
  case watchConfig n i =>
    exact readLoc_setWatch (fun j same => configWord_store_other (fun h => other (by rw [same, h])) v)
      (stateWord_store _ i v)
  case working e w => exact readLoc_setWorking other v s
  case stagingWord i => exact readLoc_setStagingWord other v s
  all_goals cases k <;> first | exact absurd rfl other | exact absurd rfl no_status | rfl

/-- The parts of the state that a store leaves as they are. -/
theorem storeLoc_kept (l : Loc) (v : Word) (s : State) :
    (storeLoc l v s).seq = s.seq ∧ (storeLoc l v s).line = s.line ∧ (storeLoc l v s).attn = s.attn
      ∧ (storeLoc l v s).events.queue = s.events.queue ∧ (storeLoc l v s).port.fault = s.port.fault
      ∧ (storeLoc l v s).pending = s.pending ∧ (storeLoc l v s).amid = s.amid
      ∧ (storeLoc l v s).resetHeld = s.resetHeld := by
  cases l <;> exact ⟨rfl, rfl, rfl, rfl, rfl, rfl, rfl, rfl⟩

theorem hostWrite_taken {o : Offset} {s : State} (v : Word)
    (h : accessAt o.toNat = .rw ∨ (∃ e, accessAt o.toNat = .lockedByEntry e ∧ (s.entry e).link = .off)
      ∨ (accessAt o.toNat = .lockedBySequencer ∧ s.seq.state = .stopped)
      ∨ (∃ n, accessAt o.toNat = .lockedByWatch n ∧ (s.watch n).armed = false)) :
    (locate o).stored = true ∧ hostWrite o v s = storeLoc (locate o) v s := by
  have access : (locate o).access = accessAt o.toNat := access_locateNat o.toNat
  unfold hostWrite Loc.stored
  rcases h with type | ⟨e, type, open_⟩ | ⟨type, open_⟩ | ⟨n, type, open_⟩ <;>
    rw [access, type] <;> simp [isLocked, *]

/-- Settles O49: what a store leaves at its own location and at every other, and the read/write words as sums of their
fields. -/
theorem takenWritesStoreTheirFields : Obligations.TakenWritesStoreTheirFields := by
  refine ⟨fun s o v live taken => ?_, fun s live => ?_⟩
  · obtain ⟨stored, write⟩ := hostWrite_taken v taken
    obtain ⟨seq, line, attn, queue, fault, pending, amid, held⟩ := storeLoc_kept (locate o) v s
    refine ⟨_, (exec_hostWrite o v live).trans (congrArg _ write), ?_,
      fun k other no_status => readLoc_storeLoc_other stored other no_status v s, seq, line, attn, queue, fault,
      pending, amid⟩
    rw [readWord_live o (held.trans live), readLoc_storeLoc_self stored]
  · have rd : ∀ (l : Loc) {n : Nat} {x : Word}, l.offset = some n → readLoc l s = x →
        s.readWord (BitVec.ofNat 11 n) = x :=
      fun l _ _ at_offset eq => (readWord_at live l at_offset).trans eq
    refine ⟨⟨rd .argument rfl rfl, rd .runMode rfl (field_zero _), rd .lineRate rfl (field_zero _), rd .period rfl rfl,
        rd .answerDeadline rfl rfl, rd .probeSpacing rfl (field_zero _), rd .syncEnable rfl (field_zero _),
        rd .windowBudget rfl (field_zero _)⟩,
      ⟨rd .kindFilter rfl (word_filter _), rd .threshold rfl (field_zero _), rd .coalescing rfl (field_zero _),
        rd .irqEnables rfl (readLoc_irqEnables s)⟩,
      ⟨rd .selector rfl (readLoc_selector s), rd .staging0 rfl (readLoc_staging0 s), rd .staging1 rfl (readLoc_staging1 s),
        fun i => rd (.stagingWord i) rfl rfl⟩,
      fun e => ⟨rd (.configA e) rfl (wordA_eq _), rd (.configB e) (by simp [Loc.offset]; omega) (wordB_eq _),
        rd (.configC e) (by simp [Loc.offset]; omega) (wordC_eq _), fun i => rd (.working e i) rfl rfl⟩,
      fun n => ?_⟩
    have config (i : Fin 7) : s.readWord (BitVec.ofNat 11 (0x650 + 8 * n.val + i.val)) = (s.watch n).configWord i :=
      rd (.watchConfig n i) rfl rfl
    refine ⟨(config 0).trans (configWord_head _), ?_⟩
    have at_word (i : Fin 7) {k : Nat} (k_eq : k = 0x650 + 8 * n.val + i.val) :
        s.readWord (BitVec.ofNat 11 k) = (s.watch n).configWord i := k_eq ▸ config i
    exact ⟨at_word 1 (by simp; omega), at_word 2 (by simp; omega), (at_word 3 (by simp; omega)).trans (configWord_trigger _),
      (at_word 4 (by simp; omega)).trans (configWord_drive _), at_word 5 (by simp; omega), at_word 6 (by simp; omega)⟩

end Sys2Proof.Machine
end

section
/-! SUPPORT. What the part leaves as it was while a step runs on behind the line (the pass, the window, the cycle end and the
cycle start), and the sequencer's commands and timers. -/

namespace Sys2Proof.Machine

/-! ### What runs on within a step -/

/-- What a pass, a window, a cycle end and a cycle start leave of the state, however many of them fall within one step. -/
structure RunsOn (s t : State) : Prop where
  entry : ∀ e, t.entry e = { s.entry e with probe := (t.entry e).probe }
  probe : ∀ e, (s.entry e).link ≠ .lost → t.entry e = s.entry e
  image : ∀ e, t.image e = { s.image e with age := (t.image e).age, commitMark := (t.image e).commitMark }
  watches : t.watches = s.watches
  items : t.attn.items = s.attn.items
  mark : s.attn.mark = none ∨ s.attn.mark = s.attn.items.head? → t.attn.mark = none ∨ t.attn.mark = t.attn.items.head?
  events : s.events.queue <+: t.events.queue
  slot : ∀ k, k ∉ s.errand.queue → t.slot k = s.slot k ∧ k ∉ t.errand.queue
  engine : s.line.engine ≠ .idle → t.line.engine = s.line.engine
  loaded : t.line.rate = s.line.rate ∧ t.line.deadline = s.line.deadline ∧ t.line.echoFaults = s.line.echoFaults
    ∧ t.errand.budget = s.errand.budget

theorem RunsOn.refl (s : State) : RunsOn s s where
  entry _ := rfl
  probe _ _ := rfl
  image _ := rfl
  watches := rfl
  items := rfl
  mark := id
  events := List.prefix_refl _
  slot _ free := ⟨rfl, free⟩
  engine _ := rfl
  loaded := ⟨rfl, rfl, rfl, rfl⟩

theorem RunsOn.trans {s t u : State} (first : RunsOn s t) (second : RunsOn t u) : RunsOn s u where
  entry e := by rw [second.entry e, first.entry e]
  probe e in_service := by
    have same := first.probe e in_service
    rw [second.probe e (by rwa [same]), same]
  image e := by rw [second.image e, first.image e]
  watches := second.watches.trans first.watches
  items := second.items.trans first.items
  mark h := second.mark (first.mark h)
  events := first.events.trans second.events
  slot k free := by
    obtain ⟨same, still⟩ := first.slot k free
    obtain ⟨same', still'⟩ := second.slot k still
    exact ⟨same'.trans same, still'⟩
  engine busy := by
    have same := first.engine busy
    exact (second.engine (by rwa [same])).trans same
  loaded := by
    obtain ⟨rate, deadline, faults, budget⟩ := first.loaded
    obtain ⟨rate', deadline', faults', budget'⟩ := second.loaded
    exact ⟨rate'.trans rate, deadline'.trans deadline, faults'.trans faults, budget'.trans budget⟩

/-- A try asked for begins or waits by the state of the engine, and touches nothing beside the line. -/
theorem RunsOn.setLine {s : State} {l : LineEngine} (engine : s.line.engine ≠ .idle → l.engine = s.line.engine)
    (loaded : l.rate = s.line.rate ∧ l.deadline = s.line.deadline ∧ l.echoFaults = s.line.echoFaults) :
    RunsOn s (s.setLine l) :=
  { RunsOn.refl s with engine := engine, loaded := ⟨loaded.1, loaded.2.1, loaded.2.2, rfl⟩ }

theorem RunsOn.noLink {s : State} {k : SlotIdx} {rest : List SlotIdx} (head : s.errand.queue = k :: rest) :
    RunsOn s (completeSlot k .noLink (s.setErrand { s.errand with queue := rest })) where
  entry _ := by simp
  probe _ _ := by simp
  image _ := by simp
  watches := by simp
  items := by simp
  mark h := by simpa using h
  events := by simpa using take_queue_prefix ..
  slot j free := by
    rw [head, List.mem_cons, not_or] at free
    rw [slot_completeSlot, if_neg free.1]
    exact ⟨rfl, by simpa using free.2⟩
  engine _ := by simp
  loaded := by simp

theorem RunsOn.pickErrand {s : State} {k : SlotIdx} {rest : List SlotIdx} (head : s.errand.queue = k :: rest) :
    RunsOn s ((leaveQueue k (countPick .attention s)).setSlot k { s.slot k with state := .active }) where
  entry _ := by simp
  probe _ _ := by simp
  image _ := by simp
  watches := by simp
  items := by simp
  mark h := by simpa using h
  events := by simp
  slot j free := by
    have other : j ≠ k := fun same => free (by simp [head, same])
    simp [other, free]
  engine _ := by simp
  loaded := by simp

theorem RunsOn.setEntry {s : State} {e : EntryIdx} {x : Entry} (probe : x = { s.entry e with probe := x.probe })
    (lost : (s.entry e).link = .lost) : RunsOn s (s.setEntry e x) :=
  { RunsOn.refl s with
    entry := fun f => by
      rw [entry_setEntry]
      split
      next same => rw [same, ← probe]
      next => rfl
    probe := fun f in_service => by
      rw [entry_setEntry]
      split
      next same => exact absurd lost (same ▸ in_service)
      next => rfl }

theorem RunsOn.advanceAges (s : State) : RunsOn s (advanceAges s) where
  entry _ := by simp
  probe _ _ := by simp
  image e := by
    rw [image_advanceAges]
    unfold Image.advanceAge
    split <;> rfl
  watches := by simp
  items := by simp
  mark h := by simpa using h
  events := by simp
  slot j free := by simp [free]
  engine _ := by simp
  loaded := by simp

theorem RunsOn.cycleStart (s : State) : RunsOn s (clearCommitMarks (s.setSeq s.seq.startCycle)) where
  entry _ := by simp
  probe _ _ := by simp
  image e := by simp
  watches := by simp
  items := by simp
  mark h := by simpa using h
  events := by simp
  slot j free := by simp [free]
  engine _ := by simp
  loaded := by simp

theorem RunsOn.singleChanges : Cascade RunsOn where
  refl := .refl
  trans := .trans
  post p s := { RunsOn.refl s with events := take_queue_prefix .. }
  seq s _ _ := { RunsOn.refl s with }
  probe s e n lost := .setEntry rfl lost
  request s role e k := by
    rw [requestTry_visit]
    exact .setLine (fun busy => by rw [if_neg busy]) (by split <;> exact ⟨rfl, rfl, rfl⟩)
  noLink s k rest head := .noLink head
  budget s _ := { RunsOn.refl s with }
  pickErrand s k rest head := .pickErrand head
  pickAttention s e rest head := { RunsOn.refl s with mark := fun _ => .inr (by simp [head]) }
  headWait s := by
    unfold advanceHeadWait
    split
    · exact .refl s
    · exact { RunsOn.refl s with }
  ages := .advanceAges
  cycleStart := .cycleStart
  requestSync s := by
    rw [requestTry_sync]
    exact .trans (t := s.setSeq { s.seq with phase := .sync }) { RunsOn.refl s with }
      (.setLine (fun busy => by rw [if_neg busy]) (by split <;> exact ⟨rfl, rfl, rfl⟩))

/-- The same under a name of its own, so that what stands on it can be checked beside the record above. -/
theorem RunsOn.moves : Cascade RunsOn := RunsOn.singleChanges

/-! ### One look of the arbiter, and one pass, case by case -/

theorem FollowedWithout.refl (k : EventKind) (u : EventUnit) : FollowedWithout k u u := by
  simp [FollowedWithout]

theorem FollowedWithout.trans {k : EventKind} {u v w : EventUnit} (first : FollowedWithout k u v)
    (second : FollowedWithout k v w) : FollowedWithout k u w := by
  obtain ⟨⟨added, extends₁⟩, none₁⟩ := first
  obtain ⟨⟨more, extends₂⟩, none₂⟩ := second
  refine ⟨⟨added ++ more, by rw [← List.append_assoc, extends₁, extends₂]⟩, fun r behind => ?_⟩
  rw [← extends₂, ← extends₁, List.append_assoc, List.drop_left] at behind
  rcases List.mem_append.1 behind with here | there
  · exact none₁ r (by rwa [← extends₁, List.drop_left])
  · exact none₂ r (by rwa [← extends₂, List.drop_left])

/-- A post of another kind. -/
theorem FollowedWithout.take {k : EventKind} {p : Post} (other : p.kind ≠ k) (u : EventUnit) (c : Word) :
    FollowedWithout k u (u.take c p) := by
  rcases take_cases u c p with ⟨_, h⟩ | ⟨_, _, h⟩ | ⟨_, _, h⟩ <;> rw [h]
  · exact .refl k u
  · refine ⟨List.prefix_append _ _, fun r behind => ?_⟩
    rw [EventUnit.enqueue, List.drop_left, List.mem_singleton] at behind
    rw [behind]
    exact other
  · exact .refl k u

/-- What the part has passed over on its way to the next visit that it asks for, or to the end of the window: the line is as
it was, and of the sequencer only the phase, the pass position and the count of transactions have moved. -/
structure OnTheWay (s w : State) : Prop where
  line : w.line = s.line
  seq : w.seq = { s.seq with phase := w.seq.phase, passPos := w.seq.passPos, transactions := w.seq.transactions }
  images : w.images = s.images
  items : w.attn.items = s.attn.items
  events : FollowedWithout .attention s.events w.events
  queue : ∀ j ∈ w.errand.queue, j ∈ s.errand.queue

theorem OnTheWay.refl (s : State) : OnTheWay s s := ⟨rfl, rfl, rfl, rfl, .refl _ _, fun _ h => h⟩

theorem OnTheWay.trans {s t u : State} (first : OnTheWay s t) (second : OnTheWay t u) : OnTheWay s u where
  line := second.line.trans first.line
  seq := by rw [second.seq, first.seq]
  images := second.images.trans first.images
  items := second.items.trans first.items
  events := first.events.trans second.events
  queue j still := first.queue j (second.queue j still)

/-- A visit that the roster pass, or the arbiter from the lists as they stand, may ask for. -/
structure FromItsList (s : State) (role : Role) (e : EntryIdx) : Prop where
  slot : ∀ j, role.slot = some j → j ∈ s.errand.queue
  head : role = .attnResync ∨ role = .attnOwn → s.attn.items.head? = some e

/-- Where a pass or a look of the arbiter comes to: a visit is asked for, or the window ends, or (in no lawful state) an
errand without a kind is picked and nothing is asked for. -/
inductive ComesTo (finish : State → State) (s : State) : State → Prop
  | asks (w : State) (role : Role) (e : EntryIdx) (k : CallKind) (way : OnTheWay s w) (listed : FromItsList s role e) :
      ComesTo finish s (requestTry (.visit role e k) w)
  | ends (w : State) (way : OnTheWay s w) : ComesTo finish s (finish w)
  | stays (w : State) (way : OnTheWay s w) : ComesTo finish s w

theorem ComesTo.behind {finish : State → State} {s u t : State} (way : OnTheWay s u) (on : ComesTo finish u t) :
    ComesTo finish s t := by
  cases on with
  | asks w role e k way' listed =>
    exact .asks w role e k (way.trans way')
      ⟨fun j of_slot => way.queue j (listed.slot j of_slot), fun attn => way.items ▸ listed.head attn⟩
  | ends w way' => exact .ends w (way.trans way')
  | stays w way' => exact .stays t (way.trans way')

theorem completeUncallable_onTheWay (l : List SlotIdx) (s : State) (queue : s.errand.queue = l) :
    OnTheWay s (completeUncallable l s) := by
  induction l generalizing s with
  | nil => exact .refl s
  | cons k rest ih =>
    unfold completeUncallable
    split
    · exact .refl s
    · refine .trans ⟨by simp, by simp, by simp, by simp, ?_, fun j still => ?_⟩ (ih _ (by simp))
      · rw [completeSlot_events]
        exact .take (by simp [errandPost]) _ _
      · rw [queue]
        exact List.mem_cons_of_mem k (by simpa using still)

theorem pickErrand_comesTo {finish : State → State} {k : SlotIdx} {rest : List SlotIdx} {s : State}
    (head : s.errand.queue = k :: rest) : ComesTo finish s (pickErrand k s) := by
  have listed : ∀ {role : Role} {e : EntryIdx}, role.slot = some k → FromItsList s role e := fun {role e} of_slot =>
    ⟨fun j same => by
        rw [of_slot, Option.some.injEq] at same
        simp [head, ← same],
      by rintro (rfl | rfl) <;> simp [Role.slot] at of_slot⟩
  have way : OnTheWay s ((leaveQueue k (countPick .attention s)).setSlot k { s.slot k with state := .active }) :=
    ⟨by simp, by simp, by simp, by simp, by simpa using .refl _ _, fun j still => by
      simp only [setSlot_errand, leaveQueue_errand, List.mem_filter] at still
      simpa using still.1⟩
  simp only [pickErrand]
  split
  · exact .asks _ (.errandResync k) _ _ way (listed rfl)
  · unfold requestOwn
    split
    · exact .asks _ (.errandOwn k) _ _ way (listed rfl)
    · exact .stays _ way

theorem pickAttention_comesTo {finish : State → State} {e : EntryIdx} {rest : List EntryIdx} {s : State}
    (head : s.attn.items = e :: rest) : ComesTo finish s (pickAttention e s) := by
  have listed : ∀ {role : Role}, role.slot = none → FromItsList s role e := fun no_slot =>
    ⟨fun j same => by simp [no_slot] at same, fun _ => by simp [head]⟩
  have way : OnTheWay s ((countPick .errand s).setAttn { s.attn with mark := some e }) :=
    ⟨by simp, by simp, by simp, by simp, by simpa using .refl _ _, fun j still => by simpa using still⟩
  simp only [pickAttention]
  split
  · exact .asks _ .attnResync _ _ way (listed rfl)
  · exact .asks _ .attnOwn _ _ way (listed rfl)

theorem arbiterLook_comesTo (finish : State → State) (s : State) : ComesTo finish s (arbiterLook finish s) := by
  refine .behind (completeUncallable_onTheWay _ s rfl) ?_
  simp only [arbiterLook]
  generalize completeUncallable s.errand.queue s = c
  split
  · exact .ends c (.refl c)
  · split
    next => exact .ends c (.refl c)
    next k rest queue _ => exact pickErrand_comesTo queue
    next e rest _ items => exact pickAttention_comesTo items
    next k rest e rest' queue items =>
      split
      · exact pickErrand_comesTo queue
      · exact pickAttention_comesTo items

theorem passOver_onTheWay (l : List EntryIdx) (s : State) : OnTheWay s (passOver l s).1 := by
  induction l generalizing s with
  | nil => exact .refl s
  | cons e rest ih =>
    have probe : ∀ x, OnTheWay s (s.setEntry e x) := fun x => ⟨rfl, rfl, rfl, rfl, .refl _ _, fun _ h => h⟩
    simp only [passOver]
    split
    · exact ih s
    · split
      · exact ih s
      · exact .refl s
      · exact .refl s
      · exact .refl s
      · split
        · exact probe _
        · exact (probe _).trans (ih _)

theorem passFrom_comesTo (finish : State → State) (l : List EntryIdx) (s : State) :
    ComesTo finish s (passFrom finish l s) := by
  have way := passOver_onTheWay l s
  unfold passFrom
  split
  next t e k stop =>
    rw [stop] at way
    refine .asks (t.setSeq { t.seq with passPos := e }) .pass e k
      (way.trans ⟨rfl, rfl, rfl, rfl, .refl _ _, fun _ h => h⟩) ⟨nofun, ?_⟩
    rintro (h | h) <;> cases h
  next t past =>
    rw [past] at way
    refine .behind (way.trans ?_) (arbiterLook_comesTo finish _)
    exact ⟨rfl, rfl, rfl, rfl, .refl _ _, fun _ h => h⟩

/-! ### What runs on behind a cycle start (R35, R36) -/

theorem Sequencer.Within.refl (q : Sequencer) : q.Within q := ⟨rfl, id⟩

theorem Sequencer.Within.trans {p q r : Sequencer} (first : p.Within q) (second : q.Within r) : p.Within r := by
  refine ⟨?_, fun sync => first.2 (second.2 sync)⟩
  rw [second.1, first.1]

/-- Between a cycle start and the next one the sequencer's cycle number and tallies of visits stay, and no commit mark
changes. -/
structure InOneCycle (s t : State) : Prop where
  seq : s.seq.Within t.seq
  commitMark : ∀ e, (t.image e).commitMark = (s.image e).commitMark

theorem InOneCycle.refl (s : State) : InOneCycle s s := ⟨.refl _, fun _ => rfl⟩

theorem InOneCycle.of_same {s t : State} (seq : t.seq = s.seq) (images : t.images = s.images) : InOneCycle s t where
  seq := by rw [seq]; exact .refl _
  commitMark e := by simp only [State.image, images]

theorem InOneCycle.countPick {s t : State} (n : Nat) (seq : t.seq = { s.seq with transactions := n })
    (images : t.images = s.images) : InOneCycle s t where
  seq := by rw [seq]; exact ⟨rfl, id⟩
  commitMark e := by simp only [State.image, images]

theorem InOneCycle.singleChanges : CycleEnds InOneCycle where
  refl := .refl
  trans first second :=
    ⟨first.seq.trans second.seq, fun e => (second.commitMark e).trans (first.commitMark e)⟩
  post _ _ := .of_same rfl rfl
  seq _ _ within := ⟨within, fun _ => rfl⟩
  probe _ _ _ _ := .of_same rfl rfl
  request s role e k := by
    rw [requestTry_visit]
    exact .of_same rfl rfl
  noLink _ _ _ _ := .of_same (by simp) (by simp)
  budget _ _ := .of_same rfl rfl
  pickErrand _ _ _ _ := .countPick _ (by simp; rfl) (by simp)
  pickAttention _ _ _ _ := .countPick _ (by simp; rfl) (by simp)
  headWait s := by
    unfold advanceHeadWait
    split <;> exact .of_same rfl rfl
  ages s := by
    refine ⟨by rw [advanceAges_seq]; exact .refl _, fun e => ?_⟩
    rw [image_advanceAges]
    unfold Image.advanceAge
    split <;> rfl

theorem InOneCycle.moves : CycleEnds InOneCycle := InOneCycle.singleChanges

/-- The part at a cycle start before anything is asked of the line (R35, R80). -/
def cycleStarted (s : State) : State := clearCommitMarks (s.setSeq s.seq.startCycle)

theorem startNextCycle_sync {s : State} (sync : s.cfg.syncEnable = true) :
    startNextCycle s = requestTry .sync ((cycleStarted s).setSeq { s.seq.startCycle with phase := .sync }) := by
  simp [startNextCycle, startCycle, sync, cycleStarted]

/-- The part at the start of a cycle with sync disabled, the pass at index 0. -/
def rosterStarted (s : State) : State :=
  (cycleStarted s).setSeq { s.seq.startCycle with phase := .roster, passPos := 0 }

theorem startNextCycle_sameStep {s : State} (no_sync : s.cfg.syncEnable = false) :
    startNextCycle s = passFrom endSameStepCycle (indicesFrom 0) (rosterStarted s) := by
  simp [startNextCycle, startCycle, no_sync, rosterStarted, cycleStarted, beginRoster]

/-- With sync disabled the pass begins at index 0, and it goes on as any pass does. -/
theorem startNextCycle_roster {s : State} (no_sync : s.cfg.syncEnable = false) :
    startNextCycle s = passFrom endCycle (indicesFrom 0) (rosterStarted s) := by
  rw [startNextCycle_sameStep no_sync, passFrom_sameStep rfl rfl]

theorem startNextCycle_inOneCycle {s : State} (no_sync : s.cfg.syncEnable = false) :
    InOneCycle (rosterStarted s) (startNextCycle s) := by
  rw [startNextCycle_sameStep no_sync]
  exact InOneCycle.moves.passFrom InOneCycle.moves.endSameStepCycle _ _

theorem image_cycleStarted (s : State) (e : EntryIdx) :
    (cycleStarted s).image e = { s.image e with commitMark := false } := by
  simp [cycleStarted, image_clearCommitMarks]

theorem rosterStarted_eq (s : State) : rosterStarted s = { s with
    seq := { s.seq.startCycle with phase := .roster, passPos := 0 }, images := (rosterStarted s).images } := rfl

/-- The sequencer behind a cycle start, and the line where the SYNC call goes out (R35, R36). -/
theorem startNextCycle_cycle (s : State) :
    let t := startNextCycle s
    t.seq.cycle = s.seq.cycle + 1#16 ∧ t.seq.cyc = true ∧ t.seq.visits = 0 ∧ t.seq.failedVisits = 0 ∧ t.seq.missed = 0
      ∧ t.seq.holder = none ∧ ∀ e, (t.image e).commitMark = false := by
  cases sync : s.cfg.syncEnable
  case false =>
    obtain ⟨seq, marks⟩ := startNextCycle_inOneCycle sync
    dsimp only
    rw [seq.1]
    exact ⟨rfl, rfl, rfl, rfl, rfl, rfl,
      fun e => (marks e).trans (congrArg Image.commitMark (image_cycleStarted s e))⟩
  case true =>
    rw [startNextCycle_sync sync, requestTry_sync]
    exact ⟨rfl, rfl, rfl, rfl, rfl, rfl, fun e => congrArg Image.commitMark (image_cycleStarted s e)⟩

/-- A cycle start is what the statements say of one. -/
theorem cycleBegun_startNextCycle (s : State) : CycleBegun s (startNextCycle s) := by
  have frame := RunsOn.moves.startNextCycle s
  have ⟨cfg, selector, freeze, staging, _⟩ := HostDataKept.moves.startNextCycle s
  obtain ⟨cycle, cyc, visits, failed, missed, holder, marks⟩ := startNextCycle_cycle s
  refine ⟨cycle, cyc, visits, failed, missed, holder, fun sync => ?_, fun no_sync => ⟨?_, ?_⟩, frame.entry, fun e => ?_,
    frame.watches, frame.items, frame.events, cfg, selector, freeze, staging⟩
  · rw [startNextCycle_sync sync, requestTry_sync]
    refine ⟨rfl, rfl, rfl, fun idle => ?_, fun busy => ?_⟩
    · simp [idle, cycleStarted, Sequencer.startCycle]
    · simp [busy, cycleStarted]
  · intro phase
    exact absurd ((startNextCycle_inOneCycle no_sync).seq.2 phase) nofun
  · refine ⟨rosterStarted s, startNextCycle s, ?_, rfl, ?_, image_cycleStarted s⟩
    · rw [startNextCycle_roster no_sync]
      exact passFrom_goesOn 0 _
    · exact rosterStarted_eq s
  · rw [frame.image e, marks e]

/-- With sync enabled the sequencer keeps what the run was begun with, but for what a cycle start sets. -/
theorem startNextCycle_sync_seq {s : State} (sync : s.cfg.syncEnable = true) :
    (startNextCycle s).seq = { s.seq.startCycle with phase := .sync } := by
  rw [startNextCycle_sync sync, requestTry_sync]
  rfl

/-! ### The cycle end (R40, R41) -/

/-- Steps 1 to 4 of a cycle end: ages, head wait, CYCLE event and overruns. -/
def cycleAccounted (s : State) : State := accountOverrun (post (cyclePost s.seq) (advanceHeadWait (advanceAges s)))

theorem finishCycle_eq (again : State → State) (s : State) : finishCycle again s = takeFlags again (cycleAccounted s) := rfl

theorem advanceHeadWait_eq (s : State) : advanceHeadWait s = { s with
    events := if s.events.queue = [] then s.events else { s.events with headWait := satInc s.events.headWait } } := by
  unfold advanceHeadWait
  split <;> rfl

theorem accountOverrun_eq (s : State) : accountOverrun s = { s with
    seq := { s.seq with overruns := BitVec.ofNat 8 (min 255 (s.seq.overruns.toNat + s.seq.missed)) }
    events := if s.seq.missed = 0 then s.events
      else s.events.take s.seq.cycle
        { kind := .overrun, subject := 0xFF#8, p1 := BitVec.ofNat 8 (min 255 s.seq.missed) } } := by
  have below : s.seq.overruns.toNat < 256 := s.seq.overruns.isLt
  unfold accountOverrun
  split
  next none_missed =>
    have same : BitVec.ofNat 8 (min 255 (s.seq.overruns.toNat + s.seq.missed)) = s.seq.overruns := by
      rw [none_missed, Nat.add_zero, Nat.min_eq_right (by omega), BitVec.ofNat_toNat, BitVec.setWidth_eq]
    rw [same]
  next => rfl

/-- The age of an entry behind a cycle end (R93). -/
theorem advanceAge_eq (im : Image) (link : LinkState) : im.advanceAge link = { im with
    age := if link ≠ .off ∧ im.commitMark = false ∧ im.age ≠ 255#8 then im.age + 1#8 else im.age } := by
  unfold Image.advanceAge
  split
  next exempt =>
    rw [if_neg]
    rcases exempt with off | marked
    · simp [off]
    · simp [marked]
  next counts =>
    rw [not_or, Bool.not_eq_true] at counts
    unfold satInc
    by_cases top : im.age = 255#8
    · simp [top]
    · simp [top, counts]

theorem cycleAccounted_roster (s : State) : (cycleAccounted s).roster = s.roster := by
  simp [cycleAccounted, accountOverrun_eq, advanceHeadWait_eq]

theorem cycleAccounted_cfg (s : State) : (cycleAccounted s).cfg = s.cfg := by
  simp [cycleAccounted, accountOverrun_eq, advanceHeadWait_eq]

theorem cycleAccounted_seq (s : State) : (cycleAccounted s).seq =
    { s.seq with overruns := BitVec.ofNat 8 (min 255 (s.seq.overruns.toNat + s.seq.missed)) } := by
  simp [cycleAccounted, accountOverrun_eq, advanceHeadWait_eq]

theorem cycleAccounted_images (s : State) : (cycleAccounted s).images = (advanceAges s).images := by
  simp [cycleAccounted, accountOverrun_eq, advanceHeadWait_eq]

theorem cycleAccounted_image (s : State) (e : EntryIdx) : (cycleAccounted s).image e = { s.image e with
    age := if (s.entry e).link ≠ .off ∧ (s.image e).commitMark = false ∧ (s.image e).age ≠ 255#8
      then (s.image e).age + 1#8 else (s.image e).age } := by
  rw [← advanceAge_eq, ← image_advanceAges, State.image, State.image, cycleAccounted_images]

/-- The state behind steps 1 to 4 is the one before with three parts replaced. -/
theorem cycleAccounted_eq (s : State) : cycleAccounted s = { s with
    seq := (cycleAccounted s).seq, events := (cycleAccounted s).events, images := (cycleAccounted s).images } := by
  refine State.eq_of_fields ?_ rfl ?_ ?_ ?_ rfl ?_ ?_ ?_ ?_ rfl ?_ ?_ ?_ ?_ <;>
    simp [cycleAccounted, accountOverrun_eq, advanceHeadWait_eq]

/-- The end of a cycle that began in the same step, which has missed nothing: the sequencer stops, is held or waits, and its
overrun count stays. -/
theorem endSameStepCycle_seq {s : State} (no_missed : s.seq.missed = 0) :
    (endSameStepCycle s).seq.overruns = s.seq.overruns
      ∧ (s.seq.expiryInHold = false → (endSameStepCycle s).seq.expiryInHold = false) := by
  have below : s.seq.overruns.toNat < 256 := s.seq.overruns.isLt
  have seq : (cycleAccounted s).seq = s.seq := by
    rw [cycleAccounted_seq, no_missed, Nat.add_zero, Nat.min_eq_right (by omega), BitVec.ofNat_toNat, BitVec.setWidth_eq]
  rw [endSameStepCycle, finishCycle_eq]
  unfold takeFlags
  split
  · exact ⟨by simp [seq, Sequencer.stopRun], by simp [seq, Sequencer.stopRun]⟩
  · split
    · exact ⟨by simp [seq], by simp⟩
    · exact ⟨by split <;> simp [seq, becomeWaiting], by split <;> simp [seq, becomeWaiting]⟩

/-- A cycle start, and all that runs on behind it, leaves the overrun count, and sets no expiry-in-hold flag. -/
theorem startNextCycle_seq_kept (s : State) :
    (startNextCycle s).seq.overruns = s.seq.overruns
      ∧ (s.seq.expiryInHold = false → (startNextCycle s).seq.expiryInHold = false) := by
  cases sync : s.cfg.syncEnable
  case true =>
    rw [startNextCycle_sync_seq sync]
    exact ⟨rfl, id⟩
  case false =>
    have kept : ∀ {w : State}, OnTheWay (rosterStarted s) w → w.seq.overruns = s.seq.overruns
        ∧ w.seq.expiryInHold = s.seq.expiryInHold ∧ w.seq.missed = 0 := fun way => by
      rw [way.seq]
      exact ⟨rfl, rfl, rfl⟩
    have came := passFrom_comesTo endSameStepCycle (indicesFrom 0) (rosterStarted s)
    rw [← startNextCycle_sameStep sync] at came
    generalize startNextCycle s = t at came ⊢
    cases came with
    | asks w role e k way _ =>
      obtain ⟨overruns, flag, _⟩ := kept way
      rw [requestTry_visit]
      exact ⟨overruns, fun clear => flag.trans clear⟩
    | ends w way =>
      obtain ⟨overruns, flag, missed⟩ := kept way
      obtain ⟨overruns', flag'⟩ := endSameStepCycle_seq missed
      exact ⟨overruns'.trans overruns, fun clear => flag' (flag.trans clear)⟩
    | stays w way =>
      obtain ⟨overruns, flag, _⟩ := kept way
      exact ⟨overruns, fun clear => flag.trans clear⟩

/-- The result in the port is written beside what the cycle start does (R170, R171). -/
theorem CycleBegun.withPort {s t : State} (begun : CycleBegun s t) (p : HostPort) : CycleBegun s { t with port := p } := by
  obtain ⟨cycle, cyc, visits, failed, missed, holder, sync, pass, rest⟩ := begun
  refine ⟨cycle, cyc, visits, failed, missed, holder, sync, fun no_sync => ?_, rest⟩
  obtain ⟨phase, u, v, goes_on, begun, from_start⟩ := pass no_sync
  exact ⟨phase, u, v, goes_on, by rw [begun], from_start⟩

/-! ### START (R33, R34) -/

theorem lineRateOf_eq (code : BitVec 3) : lineRateOf code = if 3 < code.toNat then 0#2 else code.setWidth 2 := by
  unfold lineRateOf
  by_cases above : 3 < code.toNat
  · rw [if_pos above, if_neg (by omega)]
  · rw [if_neg above, if_pos (by omega)]

theorem singleRunOf_eq (argument : Word) (mode : BitVec 2) :
    singleRunOf argument (runModeOf mode) = (decide (argument = 1#16) || decide (mode = 2#2)) := by
  simp only [singleRunOf, (runModeOf_eq mode).2.1]

theorem timerOf_eq {argument : Word} (taken : argument = 0#16 ∨ argument = 1#16) (cfg : GlobalConfig) :
    timerOf argument cfg =
      if argument = 0#16 ∧ cfg.runMode = 1#2 then some (max 1 cfg.period.toNat) else none := by
  unfold timerOf
  rw [singleRunOf_eq]
  simp only [(runModeOf_eq cfg.runMode).1, periodOf]
  rcases taken with rfl | rfl
  · by_cases periodic : cfg.runMode = 1#2
    · simp [periodic]
    · simp [periodic]
  · simp

theorem loadRun_eq {s : State} (taken : s.port.argument = 0#16 ∨ s.port.argument = 1#16) :
    loadRun s = { s with
      seq := { s.seq with
        stopPending := false, holdPending := false, expiryInHold := false, missed := 0
        singleRun := decide (s.port.argument = 1#16) || decide (s.cfg.runMode = 2#2)
        timer := if s.port.argument = 0#16 ∧ s.cfg.runMode = 1#2 then some (max 1 s.cfg.period.toNat) else none }
      line := { s.line with
        rate := if 3 < s.cfg.lineRate.toNat then 0#2 else s.cfg.lineRate.setWidth 2
        deadline := min 1023 (max 16 s.cfg.deadline.toNat), echoFaults := 0#2 }
      errand := { s.errand with budget := min 4 s.cfg.budget.toNat } } := by
  rw [loadRun, Sequencer.beginRun, lineRateOf_eq, timerOf_eq taken, singleRunOf_eq]
  rfl

/-- Settles O9: what START loads, and a cycle start from there. -/
theorem startBeginsARunFromStopped : Obligations.StartBeginsARunFromStopped := by
  intro s live
  rw [exec_start live]
  have reply : ∀ {t : State} {o : CmdOutcome}, runStart s = .only t o → t.port = s.port →
      (.next (issue runStart s) : Host.Outcome State Fault Refusal) = .next { t with port := answered s o 0#8 } :=
    fun run port => congrArg _ (issue_only_answered run port)
  refine ⟨fun faulted => reply ?_ rfl, fun running => reply ?_ rfl, fun stopped not_0 not_1 => reply ?_ rfl,
    fun stopped taken => ?_⟩
  · simp only [runStart, faulted]
  · rcases running with state | state | state <;> simp only [runStart, state]
  · simp only [runStart, stopped, not_0, not_1, ne_eq, not_false_eq_true, and_self, if_true]
  · have frame := RunsOn.moves.startNextCycle (loadRun s)
    have ⟨rate, deadline, faults, budget⟩ := frame.loaded
    have port : (startNextCycle (loadRun s)).port = s.port := (HostDataKept.moves.startNextCycle (loadRun s)).2.2.2.2.1
    have run : runStart s = .only (startNextCycle (loadRun s)) .ok := by
      simp only [runStart, stopped]
      exact if_neg fun ⟨not_0, not_1⟩ => taken.elim not_0 not_1
    refine ⟨_, loadRun s, reply run port, rfl, (cycleBegun_startNextCycle _).withPort _, loadRun_eq taken,
      rate.trans (lineRateOf_eq _), deadline, faults, budget, fun sync => ?_⟩
    have seq : (startNextCycle (loadRun s)).seq = _ := startNextCycle_sync_seq (s := loadRun s) sync
    dsimp only
    rw [seq, loadRun_eq taken]
    exact ⟨rfl, rfl, rfl, rfl, rfl⟩

/-! ### RELEASE (R48) -/

/-- Settles O12, by the run mode. -/
theorem releaseFollowsTheHold : Obligations.ReleaseFollowsTheHold := by
  intro s live
  rw [exec_release live]
  have reply : ∀ {t : State} {o : CmdOutcome}, runRelease s = .only t o → t.port = s.port →
      (.next (issue runRelease s) : Host.Outcome State Fault Refusal) = .next { t with port := answered s o 0#8 } :=
    fun run port => congrArg _ (issue_only_answered run port)
  have begins : ∀ {u : State}, runRelease s = .only (startNextCycle u) .ok → u.port = s.port →
      ∃ t, (.next (issue runRelease s) : Host.Outcome State Fault Refusal) = .next t ∧ t.port = answered s .ok 0#8
        ∧ t = { startNextCycle u with port := answered s .ok 0#8 } := fun {u} run port =>
    ⟨_, reply run ((HostDataKept.moves.startNextCycle u).2.2.2.2.1.trans port), rfl, rfl⟩
  have periodic : s.cfg.runMode = 1#2 ↔ s.runMode = .periodic := (runModeOf_eq s.cfg.runMode).1.symm
  have not_periodic : s.seq.state = .held → s.cfg.runMode ≠ 1#2 →
      runRelease s = .only (if s.seq.freeMinPassed then startNextCycle s else becomeWaiting s) .ok := by
    intro held mode
    rw [runRelease, if_neg (not_not.2 held)]
    cases stored : s.runMode with
    | periodic => exact absurd (periodic.2 stored) mode
    | free => rfl
    | single => rfl
  refine ⟨fun other => reply (by rw [runRelease, if_pos other]) rfl, fun held mode clear => ?_, fun held mode set => ?_,
    fun held mode clear => ?_, fun held mode set => ?_⟩
  · exact reply (t := becomeWaiting s) (by simp [runRelease, held, periodic.1 mode, clear]) rfl
  · obtain ⟨t, run, port, rfl⟩ := begins (u := s.setSeq { s.seq with expiryInHold := false })
      (by simp [runRelease, held, periodic.1 mode, set]) rfl
    exact ⟨_, run, port, (startNextCycle_seq_kept _).2 rfl, (cycleBegun_startNextCycle _).withPort _⟩
  · exact reply (t := becomeWaiting s) (by simp [not_periodic held mode, clear]) rfl
  · obtain ⟨t, run, port, rfl⟩ := begins (u := s) (by simp [not_periodic held mode, set]) rfl
    exact ⟨_, run, port, (cycleBegun_startNextCycle _).withPort _⟩

/-! ### Timers (R42, R45, R35) -/

/-- Settles O13, by the state of the sequencer. -/
theorem timersActByState : Obligations.TimersActByState := by
  intro s live
  have free : s.runMode = .free ↔ s.cfg.runMode = 0#2 ∨ s.cfg.runMode = 3#2 := (runModeOf_eq s.cfg.runMode).2.2
  have ticks : s.seq.timer ≠ none → ∃ n, s.seq.timer = some n := Option.ne_none_iff_exists'.1
  rw [exec_periodTimerExpiry live, exec_freeMinimumExpiry live, exec_cycPulseEnd live]
  refine ⟨fun idle => ?_, fun running waiting => ?_, fun running state => ?_, fun running state => ?_,
    fun mode waiting => ?_, fun mode state => ?_, fun mode => ?_, fun state => ⟨?_, ?_⟩, rfl⟩
  · rw [periodExpiry, idle]
  · obtain ⟨n, timer⟩ := ticks running
    exact ⟨_, by rw [periodExpiry, timer, waiting], cycleBegun_startNextCycle s⟩
  · obtain ⟨n, timer⟩ := ticks running
    rw [periodExpiry, timer, state]
    rfl
  · obtain ⟨n, timer⟩ := ticks running
    rw [periodExpiry, timer, state]
    rfl
  · exact ⟨_, by rw [freeMinimum, if_pos (free.2 mode), waiting], cycleBegun_startNextCycle s⟩
  · rw [freeMinimum, if_pos (free.2 mode)]
    rcases state with state | state <;> rw [state] <;> rfl
  · have not_free : s.runMode ≠ .free := by
      rw [ne_eq, free]
      rcases mode with mode | mode <;> rw [mode] <;> decide
    rw [freeMinimum, if_neg not_free]
  · unfold freeMinimum
    split
    · rcases state with state | state <;> rw [state]
    · rfl
  · unfold periodExpiry
    split
    · rfl
    · rcases state with state | state <;> rw [state]

/-! ### The flags at the cycle end -/

theorem takeFlags_stop {again : State → State} {s : State} (ends : s.seq.stopPending = true ∨ s.seq.singleRun = true) :
    takeFlags again s =
      post (stoppedPost (if s.seq.stopPending then .stop else .single)) (s.setSeq s.seq.stopRun) := by
  simp [takeFlags, ends]

theorem takeFlags_hold {again : State → State} {s : State} (no_stop : s.seq.stopPending = false)
    (no_single : s.seq.singleRun = false) (held : s.seq.holdPending = true) :
    takeFlags again s = post (holdPost s.seq.holder)
      (s.setSeq { s.seq with state := .held, phase := .none, holdPending := false, expiryInHold := false }) := by
  simp [takeFlags, no_stop, no_single, held]

theorem takeFlags_on {again : State → State} {s : State} (no_stop : s.seq.stopPending = false)
    (no_single : s.seq.singleRun = false) (no_hold : s.seq.holdPending = false) :
    takeFlags again s = if nextAtOnce s then again s else becomeWaiting s := by
  simp [takeFlags, no_stop, no_single, no_hold]

/-- A stored mode other than PERIODIC goes on as FREE (log 18). -/
theorem nextAtOnce_eq (s : State) : nextAtOnce s =
    if s.cfg.runMode = 1#2 then decide (0 < s.seq.missed) else s.seq.freeMinPassed := by
  have periodic : s.runMode = .periodic ↔ s.cfg.runMode = 1#2 := (runModeOf_eq s.cfg.runMode).1
  unfold nextAtOnce
  split
  next mode => rw [if_pos (periodic.1 mode)]
  next mode => rw [if_neg fun h => by rw [periodic.2 h] at mode; cases mode]
  next mode => rw [if_neg fun h => by rw [periodic.2 h] at mode; cases mode]

/-- Settles O14: steps 1 to 4 leave `cycleAccounted`, and each flag its own end. -/
theorem cycleEndTakesItsFlags : Obligations.CycleEndTakesItsFlags := by
  intro s waited u q age age_eq waited_eq u_eq q_eq
  have events : (cycleAccounted s).events = u := by
    rw [u_eq, waited_eq, cycleAccounted, accountOverrun_eq, advanceHeadWait_eq]
    simp [cyclePost, noSubject]
  have seq : (cycleAccounted s).seq = q := (cycleAccounted_seq s).trans q_eq.symm
  have images : ∀ e, (cycleAccounted s).image e = { s.image e with age := age e } := fun e => by
    rw [cycleAccounted_image, age_eq]
  have roster := cycleAccounted_roster s
  have cycle : q.cycle = s.seq.cycle := by rw [q_eq]
  have flags : q.stopPending = s.seq.stopPending ∧ q.singleRun = s.seq.singleRun ∧ q.holdPending = s.seq.holdPending
      ∧ q.holder = s.seq.holder := by rw [q_eq]; exact ⟨rfl, rfl, rfl, rfl⟩
  obtain ⟨stop_eq, single_eq, hold_eq, holder_eq⟩ := flags
  have next_eq : nextAtOnce (cycleAccounted s) =
      if s.cfg.runMode = 1#2 then decide (0 < s.seq.missed) else s.seq.freeMinPassed := by
    rw [nextAtOnce_eq, cycleAccounted_cfg, seq, q_eq]
  have goes_on : s.seq.stopPending = false → s.seq.singleRun = false → s.seq.holdPending = false →
      endCycle s = if nextAtOnce (cycleAccounted s) then startNextCycle (cycleAccounted s)
        else becomeWaiting (cycleAccounted s) := fun no_stop no_single no_hold => by
    rw [endCycle, finishCycle_eq, takeFlags_on (by rw [seq, stop_eq, no_stop]) (by rw [seq, single_eq, no_single])
      (by rw [seq, hold_eq, no_hold])]
  refine ⟨fun ends => ?_, fun no_stop no_single held => ?_, fun no_stop no_single no_hold waits => ?_,
    fun no_stop no_single no_hold again => ?_⟩
  · rw [endCycle, finishCycle_eq, takeFlags_stop (by rw [seq, stop_eq, single_eq]; exact ends)]
    refine ⟨by simp [seq, Sequencer.stopRun], ?_, images, roster⟩
    simp only [post_events, setSeq_events, setSeq_seq, events, seq, stop_eq, stoppedPost, noSubject, Sequencer.stopRun,
      cycle]
    cases s.seq.stopPending <;> rfl
  · rw [endCycle, finishCycle_eq, takeFlags_hold (by rw [seq, stop_eq, no_stop]) (by rw [seq, single_eq, no_single])
      (by rw [seq, hold_eq, held])]
    refine ⟨by simp [seq], ?_, images, roster⟩
    simp only [post_events, setSeq_events, setSeq_seq, events, seq, holder_eq, cycle] <;> rfl
  · have no_next : nextAtOnce (cycleAccounted s) = false := by
      rw [next_eq]
      rcases waits with ⟨mode, missed⟩ | ⟨mode, passed⟩
      · simp [mode, missed]
      · simp [mode, passed]
    rw [goes_on no_stop no_single no_hold, no_next]
    exact ⟨by simp [becomeWaiting, seq], events, images, roster⟩
  · have next : nextAtOnce (cycleAccounted s) = true := by
      rw [next_eq]
      rcases again with ⟨mode, missed⟩ | ⟨mode, passed⟩
      · simp [mode, missed]
      · simp [mode, passed]
    have begun := cycleBegun_startNextCycle (cycleAccounted s)
    obtain ⟨number, cyc, _⟩ := startNextCycle_cycle (cycleAccounted s)
    have kept := startNextCycle_seq_kept (cycleAccounted s)
    have behind := (RunsOn.moves.startNextCycle (cycleAccounted s)).events
    rw [goes_on no_stop no_single no_hold, next, if_pos rfl]
    refine ⟨by rw [number, seq, cycle], cyc, by rw [kept.1, seq], events ▸ behind, _, begun, ?_, images⟩
    rw [← seq, ← events]
    exact cycleAccounted_eq s

end Sys2Proof.Machine
end

section
/-! SUPPORT. Proofs about the events on the station line: echoes, falling edges and samples, the bytes of an answer and the
durations that end a try. -/

namespace Sys2Proof.Machine

/-! ### Echo faults (R67, R74, R75) -/

/-- Below the limit the same call waits to be repeated. -/
theorem echoFault_repeats {s : State} (below : s.line.echoFaults.toNat < 2) (byte : Option Byte) :
    echoFault byte s = { s with line := { s.line with
      engine := .remainder byte, waiting := some .repeatTry
      echoFaults := s.line.echoFaults + 1#2, lineFaults := satInc s.line.lineFaults } } := by
  obtain ⟨raised, under⟩ := satInc_below_limit below
  simp only [echoFault, raised, if_neg under]
  rfl

/-- The third in a row gives up the run. -/
theorem echoFault_third {s : State} (third : s.line.echoFaults = 2#2) (byte : Option Byte) :
    echoFault byte s = lineFault (s.setLine { s.line with
      engine := .remainder byte, echoFaults := 3#2, lineFaults := satInc s.line.lineFaults }) := by
  have raised : satInc s.line.echoFaults = 3#2 := by rw [third]; rfl
  simp only [echoFault, raised]
  exact if_pos rfl

theorem lineFault_line (s : State) :
    (lineFault s).line = { s.line with engine := s.line.engine.abandon s.txByte, job := none, waiting := none } := by
  simp [lineFault]

/-- What an abandonment is does not turn on the events and the sequencer behind it. -/
theorem Abandoned.posted {s t : State} (h : Abandoned s t) (u w : EventUnit) (q : Sequencer) :
    Abandoned s (((t.setEvents u).setEvents w).setSeq q) := h

theorem lineFault_eq (s : State) : lineFault s =
    (((abandon s).setEvents ((abandon s).events.take s.seq.cycle
        { kind := .lineFault, subject := faultSubject s, p1 := 3#8 })).setEvents
      (((abandon s).events.take s.seq.cycle { kind := .lineFault, subject := faultSubject s, p1 := 3#8 }).take
        s.seq.cycle (stoppedPost .fault))).setSeq s.seq.fault := by
  simp only [lineFault, post, setEvents_events, setEvents_seq, abandon_seq]
  rfl

/-- The line fault limit, reached from a part whose line alone has changed since s, with the same call. -/
theorem faultedBy_lineFault {s : State} {l : LineEngine} (job : l.job = s.line.job) :
    FaultedBy s (lineFault (s.setLine l)) := by
  have same_visit : (s.setLine l).visit = s.visit := by simp only [State.visit, setLine_line, job]
  have same_cursor : faultSubject (s.setLine l) = s.cursor := by
    rw [faultSubject, State.calledEntry, same_visit]
    rfl
  have given_up : Abandoned s (abandon (s.setLine l)) := by
    obtain ⟨no_job, waiting, slots, queue, staging, turn, attn, doubt, others, images, watches⟩ :=
      abandoned_abandon (s.setLine l)
    rw [same_visit] at doubt others
    exact ⟨no_job, waiting, slots, queue, staging, turn, attn, doubt, others, images, watches⟩
  have line : (lineFault (s.setLine l)).line.job = none := by rw [lineFault_line]
  refine ⟨?_, ?_, cursor_of_no_job line, fun base from_base => ?_, ?_, ?_, ?_, ?_⟩
  · rw [lineFault_eq]
    exact given_up.posted _ _ _
  · simp [lineFault_eq, Sequencer.fault, Sequencer.stopRun]
  · have events : (abandon (s.setLine l)).events = base := by
      rcases from_base with ⟨none, rfl⟩ | ⟨k, one, rfl⟩
      · exact abandon_events_none none
      · exact abandon_events_one one
    simp [lineFault_eq, events, same_cursor, stoppedPost, StopCause.code, noSubject]
  all_goals simp [lineFault_eq]

/-! ### The echo of a sent byte (R67) -/

theorem callEcho_of_sending {s : State} {n : Nat} {j : Job} {sent : Byte} (engine : s.line.engine = .sending n)
    (job : s.line.job = some j) (byte : j.frame[n]? = some sent) (x : Echo) :
    callEcho x s =
      if echoGood (echoSeen s.line.rx x) sent then setEngine (.sending (n + 1)) (setRx (rxEcho s.line.rx x) s)
      else echoFault (some sent) (setRx (rxEcho s.line.rx x) s) := by
  simp only [callEcho, engine, job, byte]

theorem rxEcho_eq (r : RxPath) (x : Echo) : rxEcho r x = rxAfterEcho r x := by
  rcases x with _ | ⟨b, _ | _⟩ <;> cases r <;> rfl

/-- The echo that the receive path shows is not good exactly when the statements call it bad. -/
theorem echoGood_of_bad {r : RxPath} {x : Echo} {sent : Byte} (bad : BadEcho r x sent) :
    echoGood (echoSeen r x) sent = false := by
  by_cases wait : r = .waitHigh
  · rw [wait]
    rfl
  · have seen : echoSeen r x = x := by cases r <;> first | rfl | exact absurd rfl wait
    rw [seen]
    rcases bad with h | rfl | ⟨b, rfl⟩ | ⟨b, f, rfl, other⟩
    · exact absurd h wait
    · rfl
    · simp [echoGood]
    · simp [echoGood, other]

/-- Settles O15: a good echo lets the next byte begin, a bad one below the limit has the call repeated. -/
theorem echoDecidesTheNextByte : Obligations.EchoDecidesTheNextByte := by
  intro s n j sent live engine job byte
  refine ⟨fun watches => ?_, fun x bad below => ?_⟩
  · have good : echoGood (echoSeen s.line.rx (.taken sent false)) sent = true := by
      cases path : s.line.rx <;> first | exact absurd path watches | simp [echoSeen, echoGood]
    have rx : rxEcho s.line.rx (.taken sent false) = .watching := by
      rw [rxEcho_eq, rxAfterEcho, if_neg watches]
    rw [exec_callByteEcho _ live, callEcho_of_sending engine job byte, if_pos good, rx]
    rfl
  · rw [exec_callByteEcho _ live, callEcho_of_sending engine job byte, if_neg (by simp [echoGood_of_bad bad]),
      echoFault_repeats (by exact below), rxEcho_eq]
    rfl

/-- Settles O16: the third bad echo in a row reaches the limit. -/
theorem thirdEchoFaultEndsInFaulted : Obligations.ThirdEchoFaultEndsInFaulted := by
  intro s n j sent x live engine job byte bad third
  rw [exec_callByteEcho _ live, callEcho_of_sending engine job byte, if_neg (by simp [echoGood_of_bad bad]),
    echoFault_third (by exact third), rxEcho_eq]
  exact ⟨_, rfl, faultedBy_lineFault rfl, lineFault_line _⟩

/-! ### Falling edges, samples and the high level (R58) -/

theorem fallingEdge_of_sending {s : State} {n : Nat} {j : Job} (watching : s.line.rx = .watching)
    (engine : s.line.engine = .sending (n + 1)) (job : s.line.job = some j) (below : n < j.frame.length) :
    fallingEdge s = echoFault j.frame[n]? (setRx .edge s) := by
  simp only [fallingEdge, watching, engine, job, if_true, Option.bind_some, sentByte_of_lt below]

/-- Settles O24, by the receive path and the engine. -/
theorem fallingEdgeBeginsAStartBit : Obligations.FallingEdgeBeginsAStartBit := by
  intro s live
  rw [exec_rxdFallingEdge live]
  refine ⟨fun watching elsewhere => ?_, fun n j watching engine job below few => ?_,
    fun n j watching engine job below third => ?_, fun other => ?_⟩
  · rw [fallingEdge, if_pos watching]
    split
    next n engine => exact absurd engine (elsewhere n)
    next => rfl
  · rw [fallingEdge_of_sending watching engine job below, echoFault_repeats (by exact few)]
    rfl
  · rw [fallingEdge_of_sending watching engine job below, echoFault_third (by exact third)]
    exact ⟨_, rfl, faultedBy_lineFault rfl, lineFault_line _⟩
  · rw [fallingEdge, if_neg other]

/-- A try whose outcome is not accepted, with budget left (R73). -/
theorem endTry_retry {v : Visit} {o : TryOutcome} (unaccepted : o.Unaccepted) (left : v.unaccepted < v.retryLimit.toNat)
    (s : State) : endTry v o s = { s with line := { s.line with
      engine := .quiet 20, job := some (.visit { v with unaccepted := v.unaccepted + 1 }), waiting := some .retry } } := by
  rcases unaccepted with rfl | rfl | rfl | rfl <;> exact unacceptedTry_retry left _

theorem exec_retry {s : State} {v : Visit} {c : Instr} {o : TryOutcome} (ends : TryEnds s v c o)
    (unaccepted : o.Unaccepted) (left : v.unaccepted < v.retryLimit.toNat) :
    exec c s = .next { s with line := { s.line with
      engine := .quiet 20, rx := rxAtEnd s c, job := some (.visit { v with unaccepted := v.unaccepted + 1 })
      waiting := some .retry } } := by
  rw [tryEnds_exec ends, endTry_retry unaccepted left]
  rfl

/-- Settles O25, by the level, the receive path and the engine. -/
theorem startBitIsSampled : Obligations.StartBitIsSampled := by
  intro s live
  refine ⟨fun edge awaiting => ?_, fun bytes late edge engine => ?_, fun edge elsewhere => ?_, fun edge early early' => ?_,
    fun v edge late job left => ?_, fun l no_edge => ?_, fun wait => ?_, fun no_wait => ?_⟩
  · obtain ⟨late, engine⟩ := awaiting
    rw [exec_startBitSample _ live]
    simp only [sampleStart, edge, if_true, engine]
    rfl
  · rw [exec_startBitSample _ live]
    simp only [sampleStart, edge, if_true, engine]
    rfl
  · have found : sampleStart .low s = setRx .inByte s := by
      rcases elsewhere with engine | ⟨g, engine⟩ | ⟨n, engine⟩ | ⟨b, engine⟩ <;>
        simp only [sampleStart, edge, if_true, engine]
    rw [exec_startBitSample _ live, found]
    rfl
  · rw [exec_startBitSample _ live, sampleStart.eq_def, if_pos edge]
    dsimp only
    split
    next engine => exact absurd engine early
    next bytes engine => exact absurd engine (early' bytes)
    next => rfl
  · rcases late with engine | ⟨bytes, engine⟩
    · exact exec_retry (o := .silent) ⟨live, job, edge, .inl ⟨rfl, engine⟩⟩ (.inl rfl) left
    · exact exec_retry (o := .garbled) ⟨live, job, edge, .inr ⟨rfl, bytes, engine⟩⟩ (.inr (.inl rfl)) left
  · rw [exec_startBitSample _ live, sampleStart.eq_def, if_neg no_edge]
  · rw [exec_rxdReturnsHigh live, returnHigh, if_pos wait]
    rfl
  · rw [exec_rxdReturnsHigh live, returnHigh, if_neg no_wait]

/-! ### The end of a call (R67, R77) -/

theorem mem_indicesFrom {n : Nat} {e : EntryIdx} : e ∈ indicesFrom n ↔ n ≤ e.val := by
  rw [indicesFrom, List.mem_drop_iff_getElem]
  constructor
  · rintro ⟨i, below, rfl⟩
    simp
  · intro from_n
    exact ⟨e.val - n, by simp; omega, by ext; simp; omega⟩

/-- The pass stops at the first considered entry in service, if all before it are OFF or not considered. -/
theorem passFrom_first_due {finish : State → State} {n : Nat} {u : State} {e : EntryIdx} (from_n : n ≤ e.val)
    (due : (u.entry e).ConsideredIn u.seq.cycle) (in_service : (u.entry e).link.InService)
    (before : ∀ i : EntryIdx, n ≤ i.val → i < e → (u.entry i).link = .off ∨ ¬ (u.entry i).ConsideredIn u.seq.cycle) :
    passFrom finish (indicesFrom n) u
      = requestTry (.visit .pass e .exchange) (u.setSeq { u.seq with passPos := e }) := by
  have stops : passOver (indicesFrom n) u = (u, some (e, .exchange)) := by
    refine passOver_first_due (decide_eq_true due) in_service ?_ ?_ fun i listed earlier => ?_
    · exact mem_indicesFrom.2 from_n
    · exact (List.pairwise_lt_finRange 40).drop
    · exact (before i (mem_indicesFrom.1 listed) earlier).imp id fun not_due => decide_eq_false not_due
  rw [passFrom, stops]

/-- The part behind the SYNC call, in the gap of 40, with the pass at index 0. -/
def behindSync (s : State) : State := { s with
  seq := { s.seq with phase := .roster, passPos := 0 }
  line := { s.line with engine := .quiet 40, job := none, echoFaults := 0#2 } }

theorem callEnd_sync {s : State} {f : List Byte} (engine : s.line.engine = .sending f.length)
    (job : s.line.job = some (.sync f)) : callEnd s = passFrom endCycle (indicesFrom 0) (behindSync s) := by
  simp only [callEnd, engine, job, Job.frame, if_true]
  rfl

/-- Settles O17: a visit's answer is awaited, and behind the SYNC call the pass begins at index 0. -/
theorem callSentAwaitsOrEntersThePass : Obligations.CallSentAwaitsOrEntersThePass := by
  intro s j live engine job
  rw [exec_callSent live]
  refine ⟨?_, ?_, ?_⟩
  · rintro v rfl
    simp only [callEnd, engine, job, if_true]
    rfl
  · rintro f rfl
    exact ⟨_, congrArg _ (callEnd_sync engine job), passFrom_goesOn 0 (behindSync s)⟩
  · rintro f e rfl due in_service before
    rw [callEnd_sync engine job, passFrom_first_due (u := behindSync s) (Nat.zero_le e.val) due in_service
      fun i _ => before i, requestTry_visit]
    rfl

/-! ### Bytes of an answer, and its durations (R68, R69, R73) -/

theorem answer_receiving {s : State} {bytes : List Byte} {late : Bool} {v : Visit}
    (engine : s.line.engine = .receiving bytes late) (job : s.line.job = some (.visit v)) {b : Byte}
    (more : receive v (bytes ++ [b]) false = .more) :
    answer b false s =
      { s with line := { s.line with engine := .receiving (bytes ++ [b]) false, rx := .watching } } := by
  simp only [answer, engine, visit_of_job job, more]
  rfl

/-- A byte that neither spoils nor ends the frame. -/
theorem receive_more {v : Visit} {bytes : List Byte} {b : Byte} (mark : bytes = [] → b = 0x5A#8)
    (length : bytes.length = 3 → b.toNat ≤ 8)
    (size : 3 ≤ bytes.length → bytes.length + 1 ≠ 6 + 2 * ((bytes ++ [b]).getD 3 0#8).toNat) :
    receive v (bytes ++ [b]) false = .more := by
  have no_bad_mark : ¬ ((bytes ++ [b]).length = 1 ∧ (bytes ++ [b]).getD 0 0#8 ≠ Config.answerMark) := by
    rintro ⟨one, other⟩
    have empty : bytes = [] := by simpa using one
    exact other (by simp [empty, mark empty, Config.answerMark])
  have no_bad_length : ¬ ((bytes ++ [b]).length = 4 ∧ Config.maxPayloadWords < ((bytes ++ [b]).getD 3 0#8).toNat) := by
    rintro ⟨four, above⟩
    have three : bytes.length = 3 := by simpa using four
    have last : (bytes ++ [b]).getD 3 0#8 = b := by
      rw [← three, List.getD_append_right _ _ _ _ (Nat.le_refl _)]
      simp
    have := length three
    rw [last] at above
    simp only [Config.maxPayloadWords] at above
    omega
  have no_end : ¬ (4 ≤ (bytes ++ [b]).length
      ∧ (bytes ++ [b]).length = answerSize ((bytes ++ [b]).getD 3 0#8)) := by
    rintro ⟨four, all⟩
    rw [List.length_append, List.length_singleton] at four all
    exact size (by omega) all
  rw [receive, if_neg (by simp), if_neg no_bad_mark, if_neg no_bad_length, if_neg no_end]

/-- A low stop bit, a wrong mark and a length above 8. -/
theorem receive_garbled {v : Visit} {bytes : List Byte} {b : Byte} {f : Bool}
    (spoilt : f = true ∨ (bytes = [] ∧ b ≠ 0x5A#8) ∨ (bytes.length = 3 ∧ 8 < b.toNat)) :
    receive v (bytes ++ [b]) f = .ends .garbled := by
  unfold receive
  rcases spoilt with rfl | ⟨rfl, other⟩ | ⟨three, above⟩
  · rfl
  · split
    · rfl
    · simp [Config.answerMark, other]
  · have last : (bytes ++ [b]).getD 3 0#8 = b := by
      rw [← three, List.getD_append_right _ _ _ _ (Nat.le_refl _)]
      simp
    split
    · rfl
    · simp [three, Config.maxPayloadWords, above]

/-- Settles O19, byte by byte. -/
theorem answerBytesAreTakenOneByOne : Obligations.AnswerBytesAreTakenOneByOne := by
  intro s bytes late v b f live engine job
  refine ⟨fun mark length size => ?_, fun spoilt left => ?_⟩
  · rw [exec_answerByte _ _ live, answer_receiving engine job (receive_more mark length size)]
  · exact exec_retry (o := .garbled) ⟨live, job, bytes, late, engine, receive_garbled spoilt⟩ (.inr (.inl rfl)) left

/-- Settles O20, for the answer deadline and for the gap limit. -/
theorem expiriesEndTheTry : Obligations.ExpiriesEndTheTry := by
  refine ⟨fun s late v live engine job => ⟨fun edge => ?_, fun no_edge left => ?_⟩,
    fun s b rest late v live engine job => ⟨fun edge => ?_, fun watching left => ?_⟩⟩
  · rw [exec_answerDeadlineExpiry live]
    have stays : deadlinePasses s = setEngine (.awaiting true) s := by simp only [deadlinePasses, engine, edge, if_true]
    rw [stays]
    rfl
  · exact exec_retry (o := .silent) ⟨live, job, rfl, no_edge, late, engine⟩ (.inl rfl) left
  · rw [exec_interByteGapExpiry live]
    have stays : gapPasses s = setEngine (.receiving (b :: rest) true) s := by simp only [gapPasses, engine, edge]
    rw [stays]
    rfl
  · exact exec_retry (o := .garbled) ⟨live, job, rfl, watching, b, rest, late, engine⟩ (.inr (.inl rfl)) left

end Sys2Proof.Machine
end

section
/-! SUPPORT. Proofs about the frames of calls and answers (section 3.2, Table 3-4): their bytes, their check, and what a
complete answer is taken for. -/

namespace Sys2Proof.Machine

/-! ### The check closes to 0 (R61) -/

/-- A bit that equals the register's top bit only shifts the register. -/
theorem crcBit_top (r : Word) : crcBit r (r.getLsbD 15) = r <<< 1 := if_pos rfl

/-- So its own n top bits, taken in from the most significant on, shift it by n places. -/
theorem foldl_crcBit_top (r : Word) {n : Nat} (h : n ≤ 16) :
    ((List.range n).map fun i => r.getLsbD (15 - i)).foldl crcBit r = r <<< n := by
  induction n with
  | zero => simp
  | succ n ih =>
    have top : (r <<< n).getLsbD 15 = r.getLsbD (15 - n) := by
      rw [BitVec.getLsbD_shiftLeft]
      simp
      omega
    rw [List.range_succ, List.map_append, List.foldl_append, ih (by omega), List.map_singleton, List.foldl_cons,
      List.foldl_nil, ← top, crcBit_top, ← BitVec.shiftLeft_add]

theorem checkBits_highFirst (r : Word) :
    checkBits (highFirst r) = (List.range 16).map fun i => r.getLsbD (15 - i) := by
  simp [checkBits, highFirst, List.range_succ]

theorem checkOf_append (a b : List Byte) : checkOf (a ++ b) = (checkBits b).foldl crcBit (checkOf a) := by
  rw [checkOf, checkBits, List.flatMap_append, List.foldl_append]
  rfl

/-- The check over a frame's bytes and its own check is 0. -/
theorem checkOf_closes (body : List Byte) : checkOf (body ++ highFirst (checkOf body)) = 0#16 := by
  rw [checkOf_append, checkBits_highFirst, foldl_crcBit_top _ (Nat.le_refl 16), BitVec.shiftLeft_eq_zero (Nat.le_refl 16)]

/-! ### Call frames (R59, R183, Table 10-12) -/

theorem controlByte_eq (k : CallKind) (toggle : Bool) :
    controlByte k toggle = BitVec.ofNat 8 (k.code + 128 * toggle.toNat) := by
  cases k <;> cases toggle <;> rfl

theorem callFrame_eq (address : Byte) (k : CallKind) (toggle : Bool) (c : CallContent) :
    callFrame address k toggle c
      = 0xC3#8 :: callCovered address k toggle c ++ highFirst (checkOf (callCovered address k toggle c)) := by
  rw [callFrame, crc_eq_checkOf]
  rfl

theorem callCovered_length (address : Byte) (k : CallKind) (toggle : Bool) (c : CallContent) :
    (callCovered address k toggle c).length = 3 + 2 * c.payload.length + c.object.toList.length := by
  simp only [callCovered, List.length_append, wordBytes_length, List.length_cons, List.length_nil]
  omega

/-- Settles O30, from the bytes that the check covers. -/
theorem callFramesHaveTheirSizeAndCheck : Obligations.CallFramesHaveTheirSizeAndCheck := by
  refine ⟨fun address k toggle c code body code_eq body_eq => ?_, fun cycle => ?_⟩
  · have named : code = k.code := by
      rw [code_eq]
      cases k <;> rfl
    have covered : callCovered address k toggle c = body := by
      rw [body_eq, named, ← controlByte_eq]
      rfl
    refine ⟨?_, ?_, ?_⟩
    · rw [callFrame_eq, covered]
    · rw [callFrame_eq, List.length_append, List.length_cons, callCovered_length]
      simp only [highFirst, List.length_cons, List.length_nil]
      omega
    · rw [callFrame_eq, covered, List.cons_append, List.drop_succ_cons, List.drop_zero, checkOf_closes]
  · rw [syncFrame, callFrame_eq]
    rfl

/-! ### Complete answers (R69, R70, Table 3-4) -/

theorem highFirst_injective {v w : Word} (h : highFirst v = highFirst w) : v = w := by
  have words : bytesWords (wordBytes v) = bytesWords (wordBytes w) := congrArg bytesWords h
  have single (x : Word) : bytesWords (wordBytes x) = [x] := by simpa using bytesWords_wordBytes [x]
  rw [single, single] at words
  exact List.head_eq_of_cons_eq words

/-- The valid answer lengths, tied to the model's check of them. -/
theorem lengthValid_iff (k : CallKind) (inLen : Nat) (refuse : Bool) (n : Nat) :
    lengthValid k inLen refuse n = true ↔ n ∈ answerLengths k inLen refuse := by
  unfold lengthValid answerLengths
  cases refuse
  · cases k <;> simp <;> omega
  · simp

theorem kindEcho_eq (status : Byte) : kindEcho status = status.toNat % 8 := by
  simp [kindEcho, BitVec.extractLsb'_toNat]

/-- The bytes of an answer that its check covers (R60). -/
def answerBody (addr status : Byte) (payload : List Word) : List Byte :=
  [addr, status, BitVec.ofNat 8 payload.length] ++ payload.flatMap highFirst

section
variable {addr status : Byte} {payload : List Word} (short : payload.length ≤ 8) (check : Word)
include short

theorem lengthByte_toNat : (BitVec.ofNat 8 payload.length).toNat = payload.length := by
  rw [BitVec.toNat_ofNat, Nat.mod_eq_of_lt (by omega)]

omit short in
theorem answerBody_length : (answerBody addr status payload).length = 3 + 2 * payload.length := by
  have := wordBytes_length payload
  rw [answerBody, List.length_append, show (payload.flatMap highFirst).length = _ from this]
  rfl

/-- The answer is complete at the last byte of its check, and is judged by the check (R69). -/
theorem receive_complete (v : Visit) :
    receive v (0x5A#8 :: answerBody addr status payload ++ highFirst check) false =
      if check = checkOf (answerBody addr status payload) then
        .ends (classify v (0x5A#8 :: answerBody addr status payload ++ highFirst check))
      else .ends .garbled := by
  have size : (0x5A#8 :: answerBody addr status payload ++ highFirst check).length = 6 + 2 * payload.length := by
    rw [List.length_append, List.length_cons, answerBody_length]
    simp only [highFirst, List.length_cons, List.length_nil]
    omega
  have length_byte : (0x5A#8 :: answerBody addr status payload ++ highFirst check).getD 3 0#8
      = BitVec.ofNat 8 payload.length := rfl
  have front : (0x5A#8 :: answerBody addr status payload ++ highFirst check).take (6 + 2 * payload.length - 2)
      = 0x5A#8 :: answerBody addr status payload :=
    List.take_left' (by rw [List.length_cons, answerBody_length]; omega)
  have rear : (0x5A#8 :: answerBody addr status payload ++ highFirst check).drop (6 + 2 * payload.length - 2)
      = highFirst check :=
    List.drop_left' (by rw [List.length_cons, answerBody_length]; omega)
  have good : answerCheckGood (0x5A#8 :: answerBody addr status payload ++ highFirst check)
      = decide (check = checkOf (answerBody addr status payload)) := by
    rw [answerCheckGood, size, front, rear, crc_eq_checkOf, List.drop_succ_cons, List.drop_zero]
    exact decide_eq_decide.2 ⟨fun same => highFirst_injective same, fun same => same ▸ rfl⟩
  rw [receive, if_neg (by simp), if_neg (by rw [size]; omega),
    if_neg (by rw [length_byte, lengthByte_toNat short, Config.maxPayloadWords]; omega),
    if_pos ⟨by rw [size]; omega, by rw [size, length_byte, answerSize, lengthByte_toNat short]⟩, good]
  by_cases same : check = checkOf (answerBody addr status payload)
  · rw [if_pos same, if_pos (decide_eq_true same)]
  · rw [if_neg same, if_neg (by simp [same])]

/-- What a complete answer with its check is taken for (Table 3-4). -/
theorem classify_answer (v : Visit) :
    classify v (0x5A#8 :: answerBody addr status payload ++ highFirst check) =
      if addr ≠ v.address then .stray
      else if status.toNat % 8 ≠ v.kind.code ∨ status.getLsbD 7 ≠ v.toggle
          ∨ payload.length ∉ answerLengths v.kind v.inLen.toNat (status.getLsbD 6) then .mismatch
      else if status.getLsbD 6 then .refused (status.getLsbD 5)
      else .good (status.getLsbD 5) payload := by
  have words : answerPayload (0x5A#8 :: answerBody addr status payload ++ highFirst check) = payload := by
    have size : (0x5A#8 :: answerBody addr status payload ++ highFirst check).length - 2
        = (0x5A#8 :: answerBody addr status payload).length := by
      simp [highFirst]
    rw [answerPayload, size, List.take_left]
    exact bytesWords_wordBytes payload
  have address_byte : (0x5A#8 :: answerBody addr status payload ++ highFirst check).getD 1 0#8 = addr := rfl
  have status_byte : (0x5A#8 :: answerBody addr status payload ++ highFirst check).getD 2 0#8 = status := rfl
  have length_byte : ((0x5A#8 :: answerBody addr status payload ++ highFirst check).getD 3 0#8).toNat = payload.length :=
    lengthByte_toNat short
  simp only [classify, address_byte, status_byte, length_byte, words, kindEcho_eq, toggleEcho, refuseFlag, attnFlag,
    ← lengthValid_iff, Bool.not_eq_true]

end

/-- Settles O29. -/
theorem completeAnswersAreClassifiedInOrder : Obligations.CompleteAnswersAreClassifiedInOrder := by
  rintro v addr status payload body short rfl
  refine ⟨?_, fun check wrong => ?_⟩
  · exact (receive_complete short _ v).trans ((if_pos rfl).trans (congrArg _ (classify_answer short _ v)))
  · exact (receive_complete short check v).trans (if_neg wrong)

end Sys2Proof.Machine
end

section
/-! SUPPORT. Proofs about the arbiter's picks and about what the end of the quiet gap begins or drops. -/

namespace Sys2Proof.Machine

/-! ### The pick of an errand and of an attention item (R112, R114, R129) -/

/-- The part at the pick of errand k, before its visit is asked for. -/
def errandPicked (k : SlotIdx) (s : State) : State :=
  (leaveQueue k (countPick .attention s)).setSlot k { s.slot k with state := .active }

/-- The part at the pick of the attention item of entry e. -/
def attentionPicked (e : EntryIdx) (s : State) : State :=
  (countPick .errand s).setAttn { s.attn with mark := some e }

theorem errandPicked_slot (k j : SlotIdx) (s : State) :
    (errandPicked k s).slot j = if j = k then { s.slot k with state := .active } else s.slot j := by
  simp [errandPicked]

theorem errandPicked_kept (k : SlotIdx) (s : State) :
    (errandPicked k s).line = s.line ∧ (errandPicked k s).attn = s.attn
      ∧ (errandPicked k s).seq.transactions = s.seq.transactions + 1
      ∧ (errandPicked k s).errand.budgetLeft = s.errand.budgetLeft - 1
      ∧ (errandPicked k s).errand.turn = .attention := by
  simp [errandPicked]

theorem errandPicked_queue {k : SlotIdx} {rest : List SlotIdx} {s : State} (head : s.errand.queue = k :: rest)
    (single : k ∉ rest) : (errandPicked k s).errand.queue = rest := by
  simp only [errandPicked, setSlot_errand, leaveQueue_errand, countPick_errand, head]
  rw [List.filter_cons_of_neg (by simp), List.filter_eq_self]
  intro j later
  have other : j ≠ k := by
    rintro rfl
    exact single later
  simpa using other

theorem attentionPicked_kept (e : EntryIdx) (s : State) :
    (attentionPicked e s).line = s.line ∧ (attentionPicked e s).attn = { s.attn with mark := some e }
      ∧ (attentionPicked e s).seq.transactions = s.seq.transactions + 1
      ∧ (attentionPicked e s).errand = { s.errand with budgetLeft := s.errand.budgetLeft - 1, turn := .errand } := by
  simp [attentionPicked]

theorem pickErrand_eq {k : SlotIdx} {s : State} {kind : ErrandKind} (of_kind : (s.slot k).kind = some kind) :
    pickErrand k s =
      if kind ≠ .reset ∧ (s.entry (s.slot k).entry).resync = true then
        requestTry (.visit (.errandResync k) (s.slot k).entry .reset) (errandPicked k s)
      else requestTry (.visit (.errandOwn k) (s.slot k).entry kind.call) (errandPicked k s) := by
  have slot : (errandPicked k s).slot k = { s.slot k with state := .active } := by simp [errandPicked_slot]
  have doubt : needsResync (errandPicked k s) ((errandPicked k s).slot k) = true
      ↔ kind ≠ .reset ∧ (s.entry (s.slot k).entry).resync = true := by
    have := needsResync_iff (s := errandPicked k s) (x := (errandPicked k s).slot k) (by rw [slot]; exact of_kind)
    rwa [slot] at this ⊢
  have own : requestOwn k (errandPicked k s)
      = requestTry (.visit (.errandOwn k) (s.slot k).entry kind.call) (errandPicked k s) := by
    simp only [requestOwn, slot, of_kind]
  calc pickErrand k s
    _ = if needsResync (errandPicked k s) ((errandPicked k s).slot k) then
          requestTry (.visit (.errandResync k) ((errandPicked k s).slot k).entry .reset) (errandPicked k s)
        else requestOwn k (errandPicked k s) := rfl
    _ = _ := if_congr doubt (by rw [slot]) own

theorem pickAttention_eq (e : EntryIdx) (s : State) : pickAttention e s =
    if (s.entry e).resync then requestTry (.visit .attnResync e .reset) (attentionPicked e s)
    else requestTry (.visit .attnOwn e .attend) (attentionPicked e s) := rfl

/-- Asking for a visit touches the line alone. -/
theorem requestTry_visit_kept (role : Role) (e : EntryIdx) (c : CallKind) (s : State) :
    let t := requestTry (.visit role e c) s
    t.errand = s.errand ∧ t.seq = s.seq ∧ t.attn = s.attn ∧ t.events = s.events ∧ ∀ k, t.slot k = s.slot k := by
  rw [requestTry_visit]
  exact ⟨rfl, rfl, rfl, rfl, fun _ => rfl⟩

/-- With no visit in flight, the visit asked for is the work in hand, whether it waits or has begun. -/
theorem work_requestTry {s : State} (no_job : s.line.job = none) (role : Role) (e : EntryIdx) (k : CallKind) :
    (requestTry (.visit role e k) s).work = some (role, e, k) := by
  rw [requestTry_visit]
  unfold State.work
  by_cases idle : s.line.engine = .idle
  · simp [idle, startVisit]
  · simp [idle, no_job]

/-! ### One look of the arbiter (R111, R112) -/

/-- A head errand that cannot be called is completed, and the look goes on as if it began there. -/
theorem arbiterLook_uncallable {finish : State → State} {s : State} {k : SlotIdx} {rest : List SlotIdx}
    (head : s.errand.queue = k :: rest) (uncallable : callable s (s.slot k) = false) :
    arbiterLook finish s
      = arbiterLook finish (completeSlot k .noLink (s.setErrand { s.errand with queue := rest })) := by
  have queue : (completeSlot k .noLink (s.setErrand { s.errand with queue := rest })).errand.queue = rest := by simp
  have same : completeUncallable s.errand.queue s
      = completeUncallable rest (completeSlot k .noLink (s.setErrand { s.errand with queue := rest })) := by
    rw [head, completeUncallable, if_neg (by simp [uncallable])]
  simp only [arbiterLook, queue, same]

/-- With a head that can be called, or none, the window ends when the budget is spent or nothing is listed. -/
theorem arbiterLook_ends {finish : State → State} {s : State}
    (heads : ∀ k, s.errand.queue.head? = some k → callable s (s.slot k) = true)
    (ends : s.errand.budgetLeft = 0 ∨ (s.errand.queue = [] ∧ s.attn.items = [])) : arbiterLook finish s = finish s := by
  simp only [arbiterLook, completeUncallable_callable heads]
  rcases ends with spent | ⟨no_errand, no_item⟩
  · rw [if_pos spent]
  · simp only [no_errand, no_item, ite_self]

theorem arbiterLook_picksErrand {finish : State → State} {s : State} {k : SlotIdx} {rest : List SlotIdx}
    (heads : ∀ k, s.errand.queue.head? = some k → callable s (s.slot k) = true) (head : s.errand.queue = k :: rest)
    (budget : s.errand.budgetLeft ≠ 0) (turn : s.attn.items = [] ∨ s.errand.turn = .errand) :
    arbiterLook finish s = pickErrand k s := by
  simp only [arbiterLook, completeUncallable_callable heads, if_neg budget]
  split
  next none _ => exact absurd (head.symm.trans none) nofun
  next same _ => rw [(List.cons.inj (head.symm.trans same)).1]
  next none _ => exact absurd (head.symm.trans none) nofun
  next same items =>
    rcases turn with none | errand
    · exact absurd (items.symm.trans none) nofun
    · rw [errand, (List.cons.inj (head.symm.trans same)).1]

theorem arbiterLook_picksAttention {finish : State → State} {s : State} {e : EntryIdx} {rest : List EntryIdx}
    (heads : ∀ k, s.errand.queue.head? = some k → callable s (s.slot k) = true) (head : s.attn.items = e :: rest)
    (budget : s.errand.budgetLeft ≠ 0) (turn : s.errand.queue = [] ∨ s.errand.turn = .attention) :
    arbiterLook finish s = pickAttention e s := by
  simp only [arbiterLook, completeUncallable_callable heads, if_neg budget]
  split
  next _ none => exact absurd (head.symm.trans none) nofun
  next _ none => exact absurd (head.symm.trans none) nofun
  next _ same => rw [(List.cons.inj (head.symm.trans same)).1]
  next queue same =>
    rcases turn with none | attention
    · exact absurd (queue.symm.trans none) nofun
    · rw [attention, (List.cons.inj (head.symm.trans same)).1]

/-- Settles O39. -/
theorem arbiterPicksByTurn : Obligations.ArbiterPicksByTurn := by
  refine ⟨fun s finish k rest kind head of_kind uncallable => ?_, fun s finish heads => ?_⟩
  · have not_callable : callable s (s.slot k) = false := by
      rw [← Bool.not_eq_true, callable_iff of_kind]
      rintro ⟨on, reset_or_link⟩
      rcases uncallable with off | ⟨not_reset, lost⟩
      · exact on off
      · exact reset_or_link.elim not_reset fun link => link lost
    rw [arbiterLook_uncallable head not_callable]
    rfl
  · have callable_heads : ∀ k, s.errand.queue.head? = some k → callable s (s.slot k) = true := fun k head => by
      obtain ⟨kind, of_kind, on, link⟩ := heads k head
      exact (callable_iff of_kind).2 ⟨on, link⟩
    refine ⟨fun ends => ?_, fun k rest kind head budget single of_kind turn => ?_, fun e rest head budget turn => ?_⟩
    · exact arbiterLook_ends callable_heads ends
    · rw [arbiterLook_picksErrand callable_heads head budget turn, pickErrand_eq of_kind]
      have queue := errandPicked_queue head single
      have slot : (errandPicked k s).slot k = { s.slot k with state := .active } := by simp [errandPicked_slot]
      obtain ⟨line, attn, transactions, budget_left, turn'⟩ := errandPicked_kept k s
      have asked : ∀ role e c, let t := requestTry (.visit role e c) (errandPicked k s)
          t.errand.queue = rest ∧ t.slot k = { s.slot k with state := .active }
          ∧ t.errand.budgetLeft = s.errand.budgetLeft - 1 ∧ t.seq.transactions = s.seq.transactions + 1
          ∧ t.errand.turn = .attention ∧ t.attn = s.attn
          ∧ (s.line.job = none → t.work = some (role, e, c)) := fun role e c => by
        obtain ⟨errand, seq, list, -, slots⟩ := requestTry_visit_kept role e c (errandPicked k s)
        dsimp only
        rw [errand, seq, list, slots]
        exact ⟨queue, slot, budget_left, transactions, turn', attn,
          fun no_job => work_requestTry (line ▸ no_job) role e c⟩
      dsimp only
      split <;> exact asked ..
    · rw [arbiterLook_picksAttention callable_heads head budget turn, pickAttention_eq]
      obtain ⟨line, attn, transactions, unit⟩ := attentionPicked_kept e s
      have asked : ∀ role c, let t := requestTry (.visit role e c) (attentionPicked e s)
          t.attn = ⟨e :: rest, some e⟩ ∧ t.errand.queue = s.errand.queue
          ∧ t.errand.budgetLeft = s.errand.budgetLeft - 1 ∧ t.seq.transactions = s.seq.transactions + 1
          ∧ t.errand.turn = .errand ∧ t.errand.slots = s.errand.slots
          ∧ (s.line.job = none → t.work = some (role, e, c)) := fun role c => by
        obtain ⟨errand, seq, list, -, -⟩ := requestTry_visit_kept role e c (attentionPicked e s)
        dsimp only
        rw [errand, seq, list, attn, unit]
        exact ⟨by rw [← head], rfl, rfl, transactions, rfl, rfl, fun no_job => work_requestTry (line ▸ no_job) role e c⟩
      dsimp only
      split <;> exact asked ..

/-! ### What a look or a pass comes to (R41, R112) -/

/-- A cycle end behind which no cycle follows at once. -/
structure Settled (s t : State) : Prop where
  line : t.line = s.line
  phase : t.seq.phase = .none
  tallies : t.seq.cycle = s.seq.cycle ∧ t.seq.visits = s.seq.visits ∧ t.seq.failedVisits = s.seq.failedVisits
  events : FollowedWithout .attention s.events t.events

theorem FollowedWithout.post (k : EventKind) {p : Post} (other : p.kind ≠ k) (s : State) :
    FollowedWithout k s.events (post p s).events := .take other _ _

theorem FollowedWithout.postSeq (k : EventKind) {p : Post} (other : p.kind ≠ k) (s : State) (q : Sequencer) :
    FollowedWithout k s.events (Machine.post p (s.setSeq q)).events := .take other _ _

theorem cycleAccounted_events (s : State) : FollowedWithout .attention s.events (cycleAccounted s).events := by
  have waited : FollowedWithout .attention s.events (advanceHeadWait (advanceAges s)).events := by
    rw [advanceHeadWait_eq]
    have same : (if s.events.queue = [] then s.events
        else { s.events with headWait := satInc s.events.headWait }).queue = s.events.queue := by split <;> rfl
    simp [FollowedWithout, same]
  have counted := waited.trans (.post .attention (p := cyclePost s.seq) (by nofun) _)
  unfold cycleAccounted accountOverrun
  split
  · exact counted
  · exact counted.trans (.postSeq .attention (by nofun) _ _)

theorem cycleAccounted_line (s : State) : (cycleAccounted s).line = s.line := by
  simp [cycleAccounted, accountOverrun_eq, advanceHeadWait_eq]

/-- Each end of a cycle but the one that starts the next at once settles it. -/
theorem takeFlags_cases (again : State → State) (s : State) :
    finishCycle again s = again (cycleAccounted s) ∨ Settled s (finishCycle again s) := by
  have tallies : ∀ q : Sequencer, q.cycle = (cycleAccounted s).seq.cycle → q.visits = (cycleAccounted s).seq.visits →
      q.failedVisits = (cycleAccounted s).seq.failedVisits →
      q.cycle = s.seq.cycle ∧ q.visits = s.seq.visits ∧ q.failedVisits = s.seq.failedVisits := fun q a b c => by
    rw [a, b, c, cycleAccounted_seq]
    exact ⟨rfl, rfl, rfl⟩
  have events := cycleAccounted_events s
  rw [finishCycle_eq]
  unfold takeFlags
  split
  · exact .inr ⟨cycleAccounted_line s, rfl, tallies _ rfl rfl rfl,
      events.trans (.postSeq .attention (by nofun) _ _)⟩
  · split
    · exact .inr ⟨cycleAccounted_line s, rfl, tallies _ rfl rfl rfl,
        events.trans (.postSeq .attention (by nofun) _ _)⟩
    · split
      · exact .inl rfl
      · exact .inr ⟨cycleAccounted_line s, rfl, tallies _ rfl rfl rfl, events⟩

theorem endSameStepCycle_settled (s : State) : Settled s (endSameStepCycle s) := by
  rcases takeFlags_cases becomeWaiting s with waits | settled
  · rw [endSameStepCycle, waits]
    refine ⟨cycleAccounted_line s, rfl, ?_, cycleAccounted_events s⟩
    rw [becomeWaiting, setSeq_seq, cycleAccounted_seq]
    exact ⟨rfl, rfl, rfl⟩
  · exact settled

/-- The next cycle asks for the SYNC call, or its pass comes to a visit or to the window's end. -/
theorem startNextCycle_cases (s : State) :
    startNextCycle s = requestTry .sync ((cycleStarted s).setSeq { s.seq.startCycle with phase := .sync })
      ∨ ComesTo endSameStepCycle (rosterStarted s) (startNextCycle s) := by
  cases sync : s.cfg.syncEnable
  · rw [startNextCycle_sameStep sync]
    exact .inr (passFrom_comesTo ..)
  · exact .inl (startNextCycle_sync sync)

/-- No ATTENTION event is posted on the way. -/
theorem ComesTo.followed {finish : State → State} {s t : State} (came : ComesTo finish s t)
    (ends : ∀ w, FollowedWithout .attention w.events (finish w).events) :
    FollowedWithout .attention s.events t.events := by
  cases came with
  | asks w role e k way _ =>
    obtain ⟨-, -, -, events, -⟩ := requestTry_visit_kept role e k w
    rw [events]
    exact way.events
  | ends w way => exact way.events.trans (ends w)
  | stays w way => exact way.events

theorem startNextCycle_followed (s : State) : FollowedWithout .attention s.events (startNextCycle s).events := by
  have started : (cycleStarted s).events = s.events := clearCommitMarks_events _
  rcases startNextCycle_cases s with sync | came
  · rw [sync, requestTry_sync]
    simp only [setLine_events, setSeq_events, started]
    exact .refl _ _
  · have := came.followed fun w => (endSameStepCycle_settled w).events
    simpa [rosterStarted, started] using this

theorem endCycle_followed (s : State) : FollowedWithout .attention s.events (endCycle s).events := by
  rcases takeFlags_cases startNextCycle s with next | settled
  · rw [endCycle, next]
    exact (cycleAccounted_events s).trans (startNextCycle_followed _)
  · exact settled.events

theorem lookAgain_followed (s : State) : FollowedWithout .attention s.events (arbiterLook endCycle s).events :=
  (arbiterLook_comesTo endCycle s).followed endCycle_followed

/-- While the cycle number stays, so do the tallies of visits; while a phase is in progress, so do images and hold. -/
structure SameCycle (s t : State) : Prop where
  tallies : t.seq.cycle = s.seq.cycle → t.seq.visits = s.seq.visits ∧ t.seq.failedVisits = s.seq.failedVisits
  images : t.seq.cycle = s.seq.cycle → t.seq.phase ≠ .none →
    t.images = s.images ∧ t.seq.holdPending = s.seq.holdPending ∧ t.seq.holder = s.seq.holder

theorem OnTheWay.sameCycle {s w : State} (way : OnTheWay s w) : SameCycle s w where
  tallies _ := by rw [way.seq]; exact ⟨rfl, rfl⟩
  images _ _ := by rw [way.seq]; exact ⟨way.images, rfl, rfl⟩

theorem endCycle_cycle (s : State) :
    (endCycle s).seq.cycle = s.seq.cycle + 1#16 ∨ Settled s (endCycle s) := by
  rcases takeFlags_cases startNextCycle s with next | settled
  · obtain ⟨cycle, _⟩ := startNextCycle_cycle (cycleAccounted s)
    rw [endCycle, next]
    rw [cycleAccounted_seq] at cycle
    exact .inl cycle
  · exact .inr settled

theorem ComesTo.sameCycle {s t : State} (came : ComesTo endCycle s t) : SameCycle s t := by
  cases came with
  | asks w role e k way _ =>
    have same := way.sameCycle
    rw [requestTry_visit]
    exact ⟨same.tallies, same.images⟩
  | ends w way =>
    have cycle : w.seq.cycle = s.seq.cycle := by rw [way.seq]
    rcases endCycle_cycle w with next | settled
    · have moved : (endCycle w).seq.cycle ≠ s.seq.cycle := by
        rw [next, cycle]
        bv_omega
      exact ⟨fun same => absurd same moved, fun same => absurd same moved⟩
    · obtain ⟨visits, failed⟩ := way.sameCycle.tallies cycle
      obtain ⟨-, visits', failed'⟩ := settled.tallies
      exact ⟨fun _ => ⟨visits'.trans visits, failed'.trans failed⟩, fun _ phase => absurd settled.phase phase⟩
  | stays w way => exact way.sameCycle

/-! ### What is begun from IDLE -/

/-- From IDLE with no try waiting: no try waits afterwards either, and a visit that has begun comes from its list. -/
structure BeginsFrom (s t : State) : Prop where
  waiting : t.line.waiting = none
  job : ∀ v, t.line.job = some (.visit v) → s.line.job = some (.visit v) ∨ FromItsList s v.role v.entry

theorem BeginsFrom.of_line {s t : State} (waiting : s.line.waiting = none) (line : t.line = s.line) : BeginsFrom s t where
  waiting := by rw [line, waiting]
  job v h := .inl (by rwa [line] at h)

theorem ComesTo.beginsFrom {finish : State → State} {s t : State} (came : ComesTo finish s t)
    (idle : s.line.engine = .idle) (waiting : s.line.waiting = none)
    (ends : ∀ w, OnTheWay s w → BeginsFrom s (finish w)) : BeginsFrom s t := by
  cases came with
  | asks w role e k way listed =>
    rw [requestTry_visit, if_pos (by rw [way.line, idle])]
    refine ⟨rfl, fun v begun => .inr ?_⟩
    obtain rfl : startVisit w role e k = v := by simpa using begun
    exact listed
  | ends w way => exact ends w way
  | stays w way => exact .of_line waiting way.line

theorem startNextCycle_beginsFrom {s : State} (idle : s.line.engine = .idle) (waiting : s.line.waiting = none) :
    BeginsFrom s (startNextCycle s) := by
  have line : (rosterStarted s).line = s.line := clearCommitMarks_line _
  rcases startNextCycle_cases s with sync | came
  · have started : (cycleStarted s).line = s.line := clearCommitMarks_line _
    rw [sync, requestTry_sync, if_pos (by simpa [started] using idle)]
    exact ⟨rfl, fun v begun => by simp at begun⟩
  · have begun := came.beginsFrom (line ▸ idle) (line ▸ waiting) fun w way =>
      .of_line (line ▸ waiting) ((endSameStepCycle_settled w).line.trans way.line)
    have errand : (rosterStarted s).errand = s.errand := clearCommitMarks_errand _
    have attn : (rosterStarted s).attn = s.attn := clearCommitMarks_attn _
    refine ⟨begun.waiting, fun v job => (begun.job v job).imp (fun h => by rwa [line] at h) fun listed => ?_⟩
    exact ⟨fun j of_slot => errand ▸ listed.slot j of_slot, fun head => attn ▸ listed.head head⟩

theorem lookAgain_beginsFrom {s : State} (idle : s.line.engine = .idle) (waiting : s.line.waiting = none) :
    BeginsFrom s (arbiterLook endCycle s) := by
  refine (arbiterLook_comesTo endCycle s).beginsFrom idle waiting fun w way => ?_
  rcases takeFlags_cases startNextCycle w with next | settled
  · have line : (cycleAccounted w).line = s.line := (cycleAccounted_line w).trans way.line
    have begun := startNextCycle_beginsFrom (s := cycleAccounted w) (line ▸ idle) (line ▸ waiting)
    rw [endCycle, next]
    refine ⟨begun.waiting, fun v job => (begun.job v job).imp (fun h => by rwa [line] at h) fun listed => ?_⟩
    rw [cycleAccounted_eq] at listed
    exact ⟨fun j of_slot => way.queue j (listed.slot j of_slot), fun head => way.items ▸ listed.head head⟩
  · exact .of_line waiting (settled.line.trans way.line)

/-! ### The end of the quiet gap (R66, R71) -/

theorem cursor_of_job {s : State} {v : Visit} (job : s.line.job = some (.visit v)) :
    s.cursor = BitVec.ofNat 8 v.entry ∧ ∀ e, s.visitInFlight e = decide (e = v.entry) := by
  have called : s.calledEntry = some v.entry := by simp [State.calledEntry, visit_of_job job]
  refine ⟨by rw [State.cursor, called]; rfl, fun e => ?_⟩
  simp only [State.visitInFlight, called, Option.some.injEq, eq_comm]

theorem cursor_of_no_visit {s : State} (none_in_flight : ∀ v, s.line.job ≠ some (.visit v)) :
    s.cursor = 0xFF#8 ∧ ∀ e, s.visitInFlight e = false := by
  have called : s.calledEntry = none := by
    unfold State.calledEntry State.visit
    split
    next v job => exact absurd job (none_in_flight v)
    next => rfl
    next => rfl
  exact ⟨by rw [State.cursor, called]; rfl, fun e => by simp [State.visitInFlight, called]⟩

/-- The part at the end of the quiet gap, in IDLE with no try waiting. -/
def gapEnded (s : State) : State := { s with line := { s.line with engine := .idle, waiting := none } }

theorem gapEnd_none {s : State} {g : Nat} (engine : s.line.engine = .quiet g) (waiting : s.line.waiting = none) :
    gapEnd s = { s with line := { s.line with engine := .idle } } := by
  have ended : gapEnd s = gapEnded s := by
    simp only [gapEnd, engine, endQuietGap, waiting]
    rfl
  rw [ended, gapEnded, ← waiting]

theorem gapEnd_takes {s : State} {g : Nat} {r : Request} (engine : s.line.engine = .quiet g)
    (waiting : s.line.waiting = some r) : gapEnd s = takeWaiting r (gapEnded s) := by
  simp only [gapEnd, engine, endQuietGap, waiting]
  rfl

/-- Settles O22, by the try that waits. -/
theorem quietGapEndBeginsTheWaitingTry : Obligations.QuietGapEndBeginsTheWaitingTry := by
  refine ⟨fun s => ⟨fun v => cursor_of_job, cursor_of_no_visit⟩, fun s g live engine => ?_⟩
  rw [exec_quietGapEnd live]
  refine ⟨fun waiting => congrArg _ (gapEnd_none engine waiting), fun v waiting job => ?_, fun waiting job => ?_,
    fun waiting no_job => ?_, fun role e k waiting no_job may => ?_⟩
  · have called : (gapEnded s).calledEntry = some v.entry := by
      simp only [State.calledEntry, visit_of_job (s := gapEnded s) job, Option.map_some]
    have counted : countRetry (gapEnded s)
        = (gapEnded s).setEntry v.entry { s.entry v.entry with retries := satInc (s.entry v.entry).retries } := by
      rw [countRetry, called]
      rfl
    rw [gapEnd_takes engine waiting, takeWaiting, beginTry, if_pos rfl, counted]
    rfl
  · rw [gapEnd_takes engine waiting, takeWaiting, beginTry, if_neg nofun]
    rfl
  · rw [gapEnd_takes engine waiting, takeWaiting, beginTry, if_neg nofun]
    rfl
  · have may_begin : mayBegin (gapEnded s) role e k = true := mayBegin_of_mayAsk (s := gapEnded s) may
    rw [gapEnd_takes engine waiting, takeWaiting, if_pos may_begin, beginTry, if_neg nofun]
    have visit : startVisit s role e k = begunVisit s role e k := startVisit_eq_begunVisit may
    rw [← visit]
    rfl

/-- An errand's visit whose entry is OFF, or in doubt again before a toggled call, may not begin (R116). -/
theorem mayBegin_errand {s : State} {role : Role} {j : SlotIdx} {e : EntryIdx} {k : CallKind} (of_slot : role.slot = some j)
    (stopped : (s.entry e).link = .off
      ∨ (role = .errandOwn j ∧ (k = .read ∨ k = .write) ∧ (s.entry e).resync = true)) :
    mayBegin s role e k = false := by
  rcases stopped with off | ⟨rfl, kind, doubt⟩
  · cases role <;> simp [Role.slot] at of_slot <;> simp [mayBegin, off]
  · rcases kind with rfl | rfl <;> simp [mayBegin, CallKind.toggled, doubt]

theorem dropTransaction_errand {role : Role} {j : SlotIdx} (of_slot : role.slot = some j) (s : State) :
    dropTransaction role s = lookAgain (completeSlot j .noLink s) := by
  cases role <;> simp only [Role.slot, Option.some.injEq, reduceCtorEq] at of_slot <;> subst of_slot <;> rfl

/-- Settles O23. -/
theorem quietGapEndDropsWithdrawnVisits : Obligations.QuietGapEndDropsWithdrawnVisits := by
  intro s g live engine no_job
  rw [exec_quietGapEnd live]
  refine ⟨fun role j e k waiting of_slot left stopped => ?_, fun role e k waiting attn unmarked => ?_, fun waiting => ?_,
    fun e waiting later due in_service before => ?_⟩
  · have barred : mayBegin (gapEnded s) role e k = false := mayBegin_errand of_slot stopped
    have dropped : gapEnd s = arbiterLook endCycle (completeSlot j .noLink (gapEnded s)) := by
      rw [gapEnd_takes engine waiting, takeWaiting, if_neg (by simp [barred]), dropTransaction_errand of_slot, lookAgain]
    have frame := RunsOn.moves.arbiterLook RunsOn.moves.endCycle (completeSlot j .noLink (gapEnded s))
    have begun := lookAgain_beginsFrom (s := completeSlot j .noLink (gapEnded s)) rfl rfl
    obtain ⟨slot, -⟩ := frame.slot j left
    refine ⟨_, rfl, ?_, dropped, ?_, ?_, ?_⟩
    · rw [dropped]
      exact begun.waiting
    · rw [dropped, slot, slot_completeSlot, if_pos rfl]
      rfl
    · rw [dropped]
      exact frame.events
    · intro v job mine
      rw [dropped] at job
      rcases begun.job v job with same | listed
      · exact absurd (no_job.symm.trans same) nofun
      · exact left (listed.slot j mine)
  · have barred : mayBegin (gapEnded s) role e k = false := by
      rcases attn with rfl | rfl <;> exact decide_eq_false unmarked
    have dropped : gapEnd s = arbiterLook endCycle (gapEnded s) := by
      rw [gapEnd_takes engine waiting, takeWaiting, if_neg (by simp [barred])]
      rcases attn with rfl | rfl <;> rfl
    have frame := RunsOn.moves.arbiterLook RunsOn.moves.endCycle (gapEnded s)
    have begun := lookAgain_beginsFrom (s := gapEnded s) rfl rfl
    refine ⟨_, rfl, ?_, ?_, dropped, ?_, ?_⟩
    · rw [dropped]
      exact begun.waiting
    · rw [dropped]
      exact frame.items
    · rw [dropped]
      exact lookAgain_followed (gapEnded s)
    · intro v job attn_visit
      rw [dropped] at job
      rcases begun.job v job with same | listed
      · exact absurd (no_job.symm.trans same) nofun
      · exact listed.head attn_visit
  · exact ⟨_, congrArg _ (gapEnd_takes engine waiting), passFrom_goesOn _ (gapEnded s)⟩
  · have goes_on : gapEnd s = passFrom endCycle (indicesFrom (s.seq.passPos.val + 1)) (gapEnded s) :=
      gapEnd_takes engine waiting
    have visit : startVisit s .pass e .exchange = begunVisit s .pass e .exchange :=
      startVisit_eq_begunVisit (.inl rfl)
    rw [goes_on, passFrom_first_due (u := gapEnded s) (e := e) later due in_service
      (fun i from_next earlier => before i from_next earlier), requestTry_visit, ← visit]
    rfl

end Sys2Proof.Machine
end

section
/-! SUPPORT. Proofs about the ends of visits: the part that the roster leaves behind, and what the errand unit and
the attention list make of it. -/

namespace Sys2Proof.Machine

/-! ### The roster's part of the end of a visit (R9 to R19) -/

theorem toggleSuccess_eq (x : Entry) (k : CallKind) : x.toggleSuccess k = { x with
    nextToggle := if k = .reset then true else if k = .read ∨ k = .write ∨ k = .attend then !x.nextToggle else x.nextToggle
    resync := if k = .reset then false else x.resync } := by
  cases k <;> simp [Entry.toggleSuccess, CallKind.toggled]

theorem succeeded_eq {x : Entry} (on : x.link ≠ .off) (k : CallKind) :
    (x.toggleSuccess k).linkSuccess k = x.succeeded k := by
  rw [toggleSuccess_eq]
  unfold Entry.linkSuccess Entry.succeeded
  cases of_link : x.link <;> simp [of_link] at on ⊢

theorem resyncFailure_eq (x : Entry) (k : CallKind) : x.resyncFailure k = { x with
    resync := x.resync || decide (k = .read) || decide (k = .write) || decide (k = .attend)
      || (decide (k = .reset) && decide (x.link ≠ .lost)) } := by
  obtain ⟨⟩ := x
  cases k <;> simp [Entry.resyncFailure, CallKind.toggled]
  split <;> simp_all

/-- One more failure that loses the link, and one that does not. -/
theorem failed_eq {x : Entry} (on : x.link ≠ .off) (k : CallKind) :
    x.failed k =
      if x.losesNow then (x.resyncFailure k).raiseFailed.lose else (x.resyncFailure k).raiseFailed.linkFailure := by
  rw [resyncFailure_eq]
  unfold Entry.failed Entry.losesNow Entry.linkFailure Entry.lose Entry.raiseFailed
  cases of_link : x.link with
  | off => exact absurd of_link on
  | lost => simp
  | await => simp
  | online => simp
  | suspect => simp

theorem losesNow_iff {x : Entry} (on : x.link ≠ .off) (k : CallKind) :
    x.losesNow = true ↔ x.link ≠ .lost ∧ (x.failed k).link = .lost := by
  rw [failed_eq on, resyncFailure_eq]
  cases of_link : x.link <;>
    simp [Entry.losesNow, Entry.lose, Entry.linkFailure, Entry.raiseFailed, of_link] at on ⊢ <;> split <;> simp_all

theorem failed_off {x : Entry} (off : x.link = .off) (k : CallKind) : x.failed k = x := by
  simp [Entry.failed, off]

theorem succeeded_off {x : Entry} (off : x.link = .off) (k : CallKind) : x.succeeded k = x := by
  simp [Entry.succeeded, off]

/-! ### The part behind the end of a visit -/

/-- The part once the try has ended and the visit is no longer in flight. -/
def tryEnded (s : State) (c : Instr) : State :=
  { s with line := { s.line with engine := .quiet 20, rx := rxAtEnd s c, job := none } }

theorem postLinkChange_eq (e : EntryIdx) (old new : LinkState) (s : State) : postLinkChange e old new s = { s with
    events := if old = new then s.events else s.events.take s.seq.cycle (linkPost e old new) } := by
  unfold postLinkChange
  split <;> rfl

/-- The tally of visits raised, and that of failed visits if a failure is applied (R38). -/
def tallied (failures : Nat) (s : State) : State :=
  s.setSeq { s.seq with visits := s.seq.visits + 1, failedVisits := s.seq.failedVisits + failures }

theorem applySuccess_eq (e : EntryIdx) (k : CallKind) {s : State} (on : (s.entry e).link ≠ .off) :
    applySuccess e k s = { s.setEntry e ((s.entry e).succeeded k) with
      events := linkPosted s e ((s.entry e).succeeded k).link } := by
  simp only [applySuccess, succeeded_eq on, postLinkChange_eq]
  rfl

theorem applySuccess_ended {s : State} {v : Visit} (on : (s.entry v.entry).link ≠ .off) (c : Instr) :
    applySuccess v.entry v.kind (tallied 0 (tryEnded s c)) = behindSuccess s v c :=
  applySuccess_eq v.entry v.kind (s := tallied 0 (tryEnded s c)) on

theorem discarded_ended {s : State} {v : Visit} (off : (s.entry v.entry).link = .off) (c : Instr) :
    tallied 0 (tryEnded s c) = behindSuccess s v c := by
  unfold behindSuccess
  rw [succeeded_off off]
  refine State.eq_of_fields ?_ rfl rfl rfl rfl rfl rfl rfl rfl rfl ?_ rfl rfl rfl rfl
  · exact (Vector.set_getElem_self _).symm
  · rw [linkPosted, if_pos rfl]
    rfl

theorem forget_iff (w : Watch) (e : EntryIdx) :
    (w.armed && decide (w.entry = BitVec.ofNat 8 e)) = true ↔ w.armed = true ∧ w.entry.toNat = e.val := by
  rw [Bool.and_eq_true, decide_eq_true_eq, byte_eq_entry]

/-- A failure that does not lose the link (R11 to R13, R15). -/
theorem applyFailure_kept (e : EntryIdx) (k : CallKind) {s : State} (on : (s.entry e).link ≠ .off)
    (keeps : (s.entry e).losesNow = false) :
    applyFailure e k s = { s.setEntry e ((s.entry e).failed k) with
      events := linkPosted s e ((s.entry e).failed k).link } := by
  have failed : (s.entry e).failed k = ((s.entry e).resyncFailure k).raiseFailed.linkFailure :=
    (failed_eq on k).trans (if_neg (by simp [keeps]))
  simp only [applyFailure, keeps, Bool.false_eq_true, if_false, ← failed, postLinkChange_eq]
  rfl

/-- A failure that loses the link (R14). -/
theorem applyFailure_lost (e : EntryIdx) (k : CallKind) {s : State} (on : (s.entry e).link ≠ .off)
    (loses : (s.entry e).losesNow = true) :
    applyFailure e k s = { s.setEntry e ((s.entry e).failed k) with
      attn := s.attn.remove e
      watches := (forgetWatches e s).watches
      images := s.images.set e.val ((s.image e).loseLink (s.entry e).substitute) e.isLt
      events := linkPosted s e ((s.entry e).failed k).link } := by
  have failed : (s.entry e).failed k = ((s.entry e).resyncFailure k).raiseFailed.lose :=
    (failed_eq on k).trans (if_pos loses)
  obtain ⟨link, now_lost⟩ := (losesNow_iff on k).1 loses
  simp only [applyFailure, loses, if_true, ← failed]
  rw [linkPosted, now_lost, if_neg link]
  rfl

theorem applyFailure_ended {s : State} {v : Visit} (on : (s.entry v.entry).link ≠ .off) (c : Instr) :
    applyFailure v.entry v.kind (tallied 1 (tryEnded s c)) = behindFailure s v c := by
  have lost := losesNow_iff on v.kind
  cases loses : (s.entry v.entry).losesNow
  case true =>
    have goes := lost.1 loses
    rw [applyFailure_lost v.entry v.kind (s := tallied 1 (tryEnded s c)) on loses]
    refine State.eq_of_fields rfl ?_ rfl rfl rfl ?_ rfl rfl ?_ ?_ rfl rfl rfl rfl rfl
    · simp only [behindFailure, if_pos goes, and_iff_right goes, Image.loseLink]
      rfl
    · simp only [behindFailure, if_neg on]
      rfl
    · exact (if_pos goes).symm
    · simp only [behindFailure, forgetWatches, forget_iff, and_iff_right goes]
      rfl
  case false =>
    have stays : ¬ ((s.entry v.entry).link ≠ .lost ∧ ((s.entry v.entry).failed v.kind).link = .lost) := fun goes =>
      Bool.false_ne_true (loses.symm.trans (lost.2 goes))
    rw [applyFailure_kept v.entry v.kind (s := tallied 1 (tryEnded s c)) on loses]
    refine State.eq_of_fields rfl ?_ rfl rfl rfl ?_ rfl rfl ?_ ?_ rfl rfl rfl rfl rfl
    · simp only [behindFailure, if_neg stays, if_neg (fun both : _ ∧ _ => stays both.1)]
      exact (Vector.set_getElem_self _).symm
    · simp only [behindFailure, if_neg on]
      rfl
    · exact (if_neg stays).symm
    · simp only [behindFailure, stays, false_and, if_false]
      exact (Vector.map_id _).symm

/-- A visit to an entry in OFF fails as it succeeds: with no effect on the roster (R10). -/
theorem behindFailure_off {s : State} {v : Visit} (off : (s.entry v.entry).link = .off) (c : Instr) :
    behindFailure s v c = behindSuccess s v c := by
  have stays : ¬ ((s.entry v.entry).link ≠ .lost ∧ (s.entry v.entry).link = .lost) := fun both => both.1 both.2
  simp only [behindFailure, behindSuccess, failed_off off, succeeded_off off, if_pos off, stays, false_and, if_false,
    Nat.add_zero]
  refine State.eq_of_fields rfl ?_ rfl rfl rfl rfl rfl rfl rfl ?_ rfl rfl rfl rfl rfl
  · exact Vector.set_getElem_self _
  · exact Vector.map_id _

/-! ### How a visit's last try ends it -/

/-- The outcome that ends a visit, OFF discarding it (R10). -/
theorem endVisit_ended (v : Visit) (r : VisitEnd) (s : State) (c : Instr) :
    endVisit v r (setEngine (.quiet Config.quietGapBits) (s.setLine { s.line with rx := rxAtEnd s c })) =
      afterVisit v (if (s.entry v.entry).link = .off then .discarded else r)
        (applyEnd v (if (s.entry v.entry).link = .off then .discarded else r) (tryEnded s c)) := rfl

section
variable {s : State} {v : Visit} {c : Instr} {o : TryOutcome} {attn : Bool}

theorem exec_good {payload : List Word} (ends : TryEnds s v c (.good attn payload)) (on : (s.entry v.entry).link ≠ .off) :
    exec c s = .next (afterVisit v (.good attn payload) (behindSuccess s v c)) := by
  rw [tryEnds_exec ends, ← applySuccess_ended on]
  refine congrArg Host.Outcome.next ((endVisit_ended v (.good attn payload) s c).trans ?_)
  rw [if_neg on]
  rfl

theorem exec_refused (ends : TryEnds s v c (.refused attn)) (on : (s.entry v.entry).link ≠ .off) :
    exec c s = .next (afterVisit v (.refused attn) (behindSuccess s v c)) := by
  rw [tryEnds_exec ends, ← applySuccess_ended on]
  refine congrArg Host.Outcome.next ((endVisit_ended v (.refused attn) s c).trans ?_)
  rw [if_neg on]
  rfl

theorem endTry_spent (unaccepted : o.Unaccepted) (spent : v.retryLimit.toNat ≤ v.unaccepted) (t : State) :
    endTry v o t = endVisit v .failure (setEngine (.quiet Config.quietGapBits) t) := by
  rw [← unacceptedTry_spent spent]
  rcases unaccepted with rfl | rfl | rfl | rfl <;> rfl

theorem exec_failure (ends : TryEnds s v c o) (unaccepted : o.Unaccepted) (spent : v.retryLimit.toNat ≤ v.unaccepted)
    (on : (s.entry v.entry).link ≠ .off) : exec c s = .next (afterVisit v .failure (behindFailure s v c)) := by
  rw [tryEnds_exec ends, endTry_spent unaccepted spent, endVisit_ended, if_neg on, ← applyFailure_ended on]
  rfl

theorem exec_discarded (ends : TryEnds s v c o)
    (last : (∃ attn, o.Accepted attn) ∨ (o.Unaccepted ∧ v.retryLimit.toNat ≤ v.unaccepted))
    (off : (s.entry v.entry).link = .off) : exec c s = .next (afterVisit v .discarded (behindSuccess s v c)) := by
  rw [tryEnds_exec ends, ← discarded_ended off]
  refine congrArg Host.Outcome.next ?_
  have discarded : ∀ r, endVisit v r (setEngine (.quiet Config.quietGapBits) (s.setLine { s.line with rx := rxAtEnd s c })) =
      afterVisit v .discarded (tallied 0 (tryEnded s c)) := fun r => by
    rw [endVisit_ended, if_pos off]
    rfl
  rcases last with ⟨attn, ⟨payload, rfl⟩ | rfl⟩ | ⟨unaccepted, spent⟩
  · exact discarded _
  · exact discarded _
  · rw [endTry_spent unaccepted spent]
    exact discarded _

end

end Sys2Proof.Machine
end

section
/-! SUPPORT. The ends of errand visits and of attention transactions, and what the arbiter's next look leaves of them. -/

namespace Sys2Proof.Machine

/-! ### What each block makes of the end (R76, R117, R118, R127, R130, R131) -/

theorem appendAttention_eq (e : EntryIdx) (attn : Bool) (s : State) :
    appendAttention e attn s = { s with attn := s.attn.listed e attn } := by
  unfold appendAttention AttentionList.listed AttentionList.append
  cases attn with
  | false => rfl
  | true =>
    by_cases listed : e ∈ s.attn.items
    · simp only [listed, not_true_eq_false, and_false, if_false, if_true]
      rfl
    · simp only [listed, not_false_eq_true, and_self, if_true]
      rfl

/-- A visit asked for in a quiet gap waits. -/
theorem requestTry_quiet {s : State} {g : Nat} (quiet : s.line.engine = .quiet g) (role : Role) (e : EntryIdx)
    (k : CallKind) :
    requestTry (.visit role e k) s = s.setLine { s.line with waiting := some (.visit role e k) } := by
  rw [requestTry_visit, if_neg (by rw [quiet]; nofun)]

theorem requestOwn_quiet {s : State} {g : Nat} {k : SlotIdx} {kind : ErrandKind} (quiet : s.line.engine = .quiet g)
    (of_kind : (s.slot k).kind = some kind) :
    requestOwn k s = s.setLine { s.line with waiting := some (.visit (.errandOwn k) (s.slot k).entry kind.call) } := by
  rw [← requestTry_quiet quiet]
  unfold requestOwn
  rw [of_kind]

/-! ### Errands -/

/-- A slot completed, its event posted and the attention list left as `a`. -/
def completed (b : State) (k : SlotIdx) (y : Slot) (a : AttentionList) : State :=
  { b with
    errand := { b.errand with slots := b.errand.slots.set k.val y k.isLt }
    events := b.events.take b.seq.cycle (errandPost k y)
    attn := a }

/-- The arbiter's next look leaves a completed slot and the events before it. -/
theorem lookAgain_completed {b : State} {k : SlotIdx} (free : k ∉ b.errand.queue) (y : Slot) (a : AttentionList) :
    (lookAgain (completed b k y a)).slot k = y
      ∧ (b.events.take b.seq.cycle (errandPost k y)).queue <+: (lookAgain (completed b k y a)).events.queue := by
  have on : RunsOn (completed b k y a) (lookAgain (completed b k y a)) := RunsOn.moves.lookAgain _
  exact ⟨(on.slot k free).1.trans (Vector.getElem_set_self _), on.events⟩

theorem errandPost_good (k : SlotIdx) (x : Slot) (payload : List Word) :
    errandPost k (x.completeGood payload) =
      { errandEvent k x 1#8 with p2 := (x.completeGood payload).ansLen.setWidth 8 } := by
  unfold Slot.completeGood
  split <;> rfl

section
variable {v : Visit} {k : SlotIdx} (b : State)

theorem afterVisit_errandGood (own : v.role = .errandOwn k) (attn : Bool) (payload : List Word) :
    afterVisit v (.good attn payload) b =
      lookAgain (completed b k ((b.slot k).completeGood payload) (b.attn.listed v.entry attn)) := by
  simp only [afterVisit, own, appendAttention_eq]
  rfl

theorem afterVisit_errandRefused (own : v.role = .errandOwn k) (attn : Bool) :
    afterVisit v (.refused attn) b =
      lookAgain (completed b k ((b.slot k).complete .refused) (b.attn.listed v.entry attn)) := by
  simp only [afterVisit, own, appendAttention_eq]
  rfl

theorem role_of_slot {r : Role} (of_slot : r.slot = some k) : r = .errandOwn k ∨ r = .errandResync k := by
  cases r <;> simp_all [Role.slot]

theorem afterVisit_errandFailure (of_slot : v.role.slot = some k) :
    afterVisit v .failure b = lookAgain (completed b k ((b.slot k).complete .noAnswer) b.attn) := by
  rcases role_of_slot of_slot with own | resync
  · simp only [afterVisit, own]
    rfl
  · simp only [afterVisit, resync]
    rfl

theorem afterVisit_errandDiscarded (of_slot : v.role.slot = some k) :
    afterVisit v .discarded b = lookAgain (completed b k ((b.slot k).complete .noLink) b.attn) := by
  rcases role_of_slot of_slot with own | resync
  · simp only [afterVisit, own]
    rfl
  · simp only [afterVisit, resync]
    rfl

theorem afterVisit_errandResync {g : Nat} {kind : ErrandKind} (resync : v.role = .errandResync k)
    (quiet : b.line.engine = .quiet g) (of_kind : (b.slot k).kind = some kind) {attn : Bool} {r : VisitEnd}
    (accepted : (∃ payload, r = .good attn payload) ∨ r = .refused attn) :
    afterVisit v r b = { b with
      attn := b.attn.listed v.entry attn
      line := { b.line with waiting := some (.visit (.errandOwn k) (b.slot k).entry kind.call) } } := by
  have own : requestOwn k (appendAttention v.entry attn b) = { b with
      attn := b.attn.listed v.entry attn
      line := { b.line with waiting := some (.visit (.errandOwn k) (b.slot k).entry kind.call) } } := by
    rw [appendAttention_eq]
    exact requestOwn_quiet quiet of_kind
  rw [← own]
  rcases accepted with ⟨payload, rfl⟩ | rfl <;> simp only [afterVisit, resync] <;> rfl

end

/-- An accepted answer, whichever of the two it is. -/
theorem exec_accepted {s : State} {v : Visit} {c : Instr} {o : TryOutcome} {attn : Bool} (ends : TryEnds s v c o)
    (accepted : o.Accepted attn) (on : (s.entry v.entry).link ≠ .off) :
    ∃ r : VisitEnd, ((∃ payload, r = .good attn payload) ∨ r = .refused attn)
      ∧ exec c s = .next (afterVisit v r (behindSuccess s v c)) := by
  rcases accepted with ⟨payload, rfl⟩ | rfl
  · exact ⟨.good attn payload, .inl ⟨payload, rfl⟩, exec_good ends on⟩
  · exact ⟨.refused attn, .inr rfl, exec_refused ends on⟩

/-- Settles O40, by the visit's role and how its last try ended. -/
theorem errandVisitEndsCompleteTheSlot : Obligations.ErrandVisitEndsCompleteTheSlot := by
  unfold Obligations.ErrandVisitEndsCompleteTheSlot
  rintro s v c o k x ends of_slot - free rfl
  refine ⟨fun on _ => ⟨?_, ?_, ?_⟩, fun on unaccepted spent => ?_, fun off last => ?_⟩
  · rintro attn payload rfl own
    obtain ⟨slot, events⟩ := lookAgain_completed (b := behindSuccess s v c) free ((s.slot k).completeGood payload)
      (s.attn.listed v.entry attn)
    rw [errandPost_good] at events
    refine ⟨_, _, (exec_good ends on).trans (congrArg _ (afterVisit_errandGood _ own attn payload)), slot, fun read => ?_,
      fun other => ?_, ?_, events⟩
    · exact if_pos read
    · exact if_neg other
    · rw [← errandPost_good]
      rfl
  · rintro attn rfl own
    obtain ⟨slot, events⟩ := lookAgain_completed (b := behindSuccess s v c) free ((s.slot k).complete .refused)
      (s.attn.listed v.entry attn)
    exact ⟨_, (exec_refused ends on).trans (congrArg _ (afterVisit_errandRefused _ own attn)), slot, rfl, events⟩
  · intro attn kind accepted resync of_kind
    obtain ⟨r, of_end, next⟩ := exec_accepted ends accepted on
    have asked := afterVisit_errandResync (behindSuccess s v c) resync (g := 20) rfl of_kind of_end
    rw [asked] at next
    exact ⟨_, next, rfl, rfl, rfl, rfl, rfl⟩
  · obtain ⟨slot, events⟩ := lookAgain_completed (b := behindFailure s v c) free ((s.slot k).complete .noAnswer)
      (behindFailure s v c).attn
    exact ⟨_, (exec_failure ends unaccepted spent on).trans (congrArg _ (afterVisit_errandFailure _ of_slot)), slot, rfl,
      events⟩
  · obtain ⟨slot, events⟩ := lookAgain_completed (b := behindSuccess s v c) free ((s.slot k).complete .noLink) s.attn
    have posts : (behindSuccess s v c).events = s.events := by
      simp only [behindSuccess, succeeded_off off, linkPosted, if_pos]
    rw [posts] at events
    refine ⟨_, (exec_discarded ends last off).trans (congrArg _ (afterVisit_errandDiscarded _ of_slot)), slot, ?_, events⟩
    rw [completed, posts]
    rfl

/-! ### Attention transactions -/

/-- The list once the transaction of the item under the service mark has ended, with the append of its answer. -/
def AttentionList.served (a : AttentionList) (e : EntryIdx) (attn : Bool) : AttentionList :=
  ⟨a.items.filter (fun i => decide (i ≠ e)) ++ (if attn = true then [e] else []), none⟩

theorem AttentionList.remove_marked {a : AttentionList} {e : EntryIdx} (marked : a.mark = some e) :
    a.remove e = ⟨a.items.filter fun i => decide (i ≠ e), none⟩ := by
  rw [AttentionList.remove, if_pos marked]

theorem AttentionList.listed_remove {a : AttentionList} {e : EntryIdx} (marked : a.mark = some e) (attn : Bool) :
    (a.remove e).listed e attn = a.served e attn := by
  rw [AttentionList.remove_marked marked]
  unfold AttentionList.listed AttentionList.served
  cases attn <;> simp

/-- The item's removal behind a failure, whether or not the loss of the link has removed it before (R128, R131). -/
theorem behindFailure_attn_remove {s : State} {v : Visit} (marked : s.attn.mark = some v.entry) (c : Instr) :
    (behindFailure s v c).attn.remove v.entry = ⟨s.attn.items.filter fun i => decide (i ≠ v.entry), none⟩ := by
  simp only [behindFailure]
  split
  · simp [AttentionList.remove]
  · exact AttentionList.remove_marked marked

section
variable {v : Visit} (b : State)

theorem afterVisit_attendGood (own : v.role = .attnOwn) (attn : Bool) (payload : List Word)
    (marked : b.attn.mark = some v.entry) :
    afterVisit v (.good attn payload) b = lookAgain { b with
      attn := b.attn.served v.entry attn
      events := b.events.take b.seq.cycle (attentionPost v.entry payload) } := by
  simp only [afterVisit, own, appendAttention_eq, ← AttentionList.listed_remove marked]
  rfl

theorem afterVisit_attendRefused (own : v.role = .attnOwn) (attn : Bool) (marked : b.attn.mark = some v.entry) :
    afterVisit v (.refused attn) b = lookAgain { b with attn := b.attn.served v.entry attn } := by
  simp only [afterVisit, own, appendAttention_eq, ← AttentionList.listed_remove marked]
  rfl

theorem afterVisit_attnResync {g : Nat} (resync : v.role = .attnResync) (quiet : b.line.engine = .quiet g) {attn : Bool}
    {r : VisitEnd} (accepted : (∃ payload, r = .good attn payload) ∨ r = .refused attn) :
    afterVisit v r b = { b with
      attn := b.attn.listed v.entry attn
      line := { b.line with waiting := some (.visit .attnOwn v.entry .attend) } } := by
  have own : requestTry (.visit .attnOwn v.entry .attend) (appendAttention v.entry attn b) = { b with
      attn := b.attn.listed v.entry attn
      line := { b.line with waiting := some (.visit .attnOwn v.entry .attend) } } := by
    rw [appendAttention_eq]
    exact requestTry_quiet (s := { b with attn := b.attn.listed v.entry attn }) quiet ..
  rw [← own]
  rcases accepted with ⟨payload, rfl⟩ | rfl <;> simp only [afterVisit, resync] <;> rfl

theorem afterVisit_attnFailure (attention : v.role = .attnOwn ∨ v.role = .attnResync) :
    afterVisit v .failure b = lookAgain { b with attn := b.attn.remove v.entry } := by
  rcases attention with own | resync
  · simp only [afterVisit, own]
    rfl
  · simp only [afterVisit, resync]
    rfl

theorem afterVisit_attnDiscarded (attention : v.role = .attnOwn ∨ v.role = .attnResync) :
    afterVisit v .discarded b = lookAgain b := by
  rcases attention with own | resync
  · simp only [afterVisit, own]
    rfl
  · simp only [afterVisit, resync]

end

/-- The arbiter's next look leaves the list as the transaction's end has left it, and posts no ATTENTION event. -/
theorem lookAgain_served {b : State} (unmarked : b.attn.mark = none) :
    (lookAgain b).attn.items = b.attn.items
      ∧ ((lookAgain b).attn.mark = none ∨ (lookAgain b).attn.mark = (lookAgain b).attn.items.head?)
      ∧ FollowedWithout .attention b.events (lookAgain b).events := by
  have on : RunsOn b (lookAgain b) := RunsOn.moves.lookAgain b
  exact ⟨on.items, on.mark (.inl unmarked), lookAgain_followed b⟩

/-- Settles O41, by the visit's role and how its last try ended. -/
theorem attentionTransactionsEnd : Obligations.AttentionTransactionsEnd := by
  unfold Obligations.AttentionTransactionsEnd
  rintro s v c o e ends attention rfl
  refine ⟨fun in_service marked listed => ?_, fun off last => ?_⟩
  · have on : (s.entry v.entry).link ≠ .off := fun off => by simp [off, LinkState.InService] at in_service
    refine ⟨?_, ?_, fun attn accepted resync => ?_, fun unaccepted spent => ?_⟩
    · rintro attn payload rfl own
      obtain ⟨items, mark, events⟩ := lookAgain_served (b := { behindSuccess s v c with
        attn := s.attn.served v.entry attn
        events := (behindSuccess s v c).events.take s.seq.cycle (attentionPost v.entry payload) }) rfl
      exact ⟨_, (exec_good ends on).trans (congrArg _ (afterVisit_attendGood (behindSuccess s v c) own attn payload marked)),
        items, mark, rfl, events⟩
    · rintro attn rfl own
      obtain ⟨items, mark, events⟩ :=
        lookAgain_served (b := { behindSuccess s v c with attn := s.attn.served v.entry attn }) rfl
      exact ⟨_, (exec_refused ends on).trans (congrArg _ (afterVisit_attendRefused (behindSuccess s v c) own attn marked)),
        items, mark, rfl, events⟩
    · obtain ⟨r, of_end, next⟩ := exec_accepted ends accepted on
      rw [afterVisit_attnResync (behindSuccess s v c) resync (g := 20) rfl of_end] at next
      refine ⟨_, next, ?_, rfl, rfl, rfl⟩
      exact if_neg fun both => both.2 listed
    · obtain ⟨items, mark, events⟩ := lookAgain_served (b := { behindFailure s v c with
        attn := ⟨s.attn.items.filter fun i => decide (i ≠ v.entry), none⟩ }) rfl
      have next := exec_failure ends unaccepted spent on
      rw [afterVisit_attnFailure _ attention, behindFailure_attn_remove marked] at next
      exact ⟨_, next, items, mark, rfl, events⟩
  · have next := exec_discarded ends last off
    rw [afterVisit_attnDiscarded _ attention] at next
    have posts : (behindSuccess s v c).events = s.events := by
      simp only [behindSuccess, succeeded_off off, linkPosted, if_pos]
    have events := lookAgain_followed (behindSuccess s v c)
    rw [posts] at events
    have on : RunsOn (behindSuccess s v c) (lookAgain (behindSuccess s v c)) := RunsOn.moves.lookAgain _
    exact ⟨_, next, on.items, events, rfl⟩

end Sys2Proof.Machine
end

section
/-! SUPPORT. What the end of a visit hands on, once for every block that asks for visits, and what the sequencer makes of it:
the ends that spend the budget, and the ends that the answer makes without a commit. -/

namespace Sys2Proof.Machine

/-! ### The sequencer going on -/

/-- t follows from u by a run of the pass, the arbiter, the cycle end and the cycle start, or by a visit asked for. -/
structure GoesOn (u t : State) : Prop where
  runs : ∀ R : State → State → Prop, Cascade R → R u t
  cycle : SameCycle u t

theorem lookAgain_goesOn (u : State) : GoesOn u (lookAgain u) where
  runs _ moves := moves.lookAgain u
  cycle := (arbiterLook_comesTo endCycle u).sameCycle

theorem continuePass_goesOn (u : State) : GoesOn u (continuePass u) where
  runs _ moves := moves.continuePass u
  cycle := (passFrom_comesTo endCycle _ u).sameCycle

theorem requestTry_goesOn (role : Role) (e : EntryIdx) (k : CallKind) (u : State) :
    GoesOn u (requestTry (.visit role e k) u) where
  runs _ moves := moves.request u role e k
  cycle := by
    rw [requestTry_visit]
    exact ⟨fun _ => ⟨rfl, rfl⟩, fun _ _ => ⟨rfl, rfl, rfl⟩⟩

theorem requestOwn_goesOn (k : SlotIdx) (u : State) : GoesOn u (requestOwn k u) := by
  unfold requestOwn
  split
  · exact requestTry_goesOn ..
  · exact ⟨fun _ moves => moves.refl u, fun _ => ⟨rfl, rfl⟩, fun _ _ => ⟨rfl, rfl, rfl⟩⟩

theorem GoesOn.runsOn {u t : State} (on : GoesOn u t) : RunsOn u t := on.runs _ RunsOn.moves

theorem GoesOn.hostDataKept {u t : State} (on : GoesOn u t) : HostDataKept u t := on.runs _ HostDataKept.moves.toCascade

/-! ### The part handed on -/

/-- An end of a visit that makes no commit: discarded exactly where the entry is OFF, and no GOOD EXCHANGE of the pass. -/
structure Uncommitted (s : State) (v : Visit) (r : VisitEnd) : Prop where
  discarded : r = .discarded ↔ (s.entry v.entry).link = .off
  other : v.role = .pass → v.kind = .exchange → ∀ attn payload, r ≠ .good attn payload

/-- The part b behind the roster's act as the block that asked for the visit hands it on. -/
structure HandedOn (s : State) (v : Visit) (r : VisitEnd) (b u : State) : Prop where
  roster : u.roster = b.roster
  watches : u.watches = b.watches
  seq : u.seq = b.seq
  line : u.line = b.line
  images : u.images = if v.role = .pass then
      b.images.set v.entry.val (leftUncommitted s v (b.image v.entry)) v.entry.isLt else b.images
  events : u.events = b.events ∨ ∃ c p, u.events = b.events.take c p
  host : u.cfg = b.cfg ∧ u.selector = b.selector ∧ u.freeze = b.freeze ∧ u.port = b.port ∧ u.resetHeld = b.resetHeld
    ∧ u.pending = b.pending
  staging : u.errand.staging = b.errand.staging
  appended : r.attn = true → v.entry ∈ u.attn.items
  items : r.attn = false → ∀ e ∈ u.attn.items, e ∈ b.attn.items
  listed : r = .discarded ∨ (r ≠ .failure ∧ v.role ≠ .attnOwn) → u.attn = b.attn.listed v.entry r.attn

theorem HandedOn.hostDataKept {s b u : State} {v : Visit} {r : VisitEnd} (handed : HandedOn s v r b u) :
    HostDataKept b u :=
  .of_fields handed.roster handed.watches handed.host handed.staging handed.events

theorem HandedOn.events_extended {s b u : State} {v : Visit} {r : VisitEnd} (handed : HandedOn s v r b u) :
    b.events.queue <+: u.events.queue := by
  rcases handed.events with same | ⟨c, p, taken⟩
  · rw [same]
  · rw [taken]
    exact take_queue_prefix ..

theorem AttentionList.listed_false (a : AttentionList) (e : EntryIdx) : a.listed e false = a := by
  simp [AttentionList.listed]

theorem AttentionList.mem_listed (a : AttentionList) (e : EntryIdx) : e ∈ (a.listed e true).items := by
  unfold AttentionList.listed
  split
  · simp
  · simp_all


section
variable {s : State} {v : Visit} {r : VisitEnd} (b : State)

theorem listed_facts {a : AttentionList} (attn : a = b.attn.listed v.entry r.attn) :
    (r.attn = true → v.entry ∈ a.items) ∧ (r.attn = false → ∀ e ∈ a.items, e ∈ b.attn.items)
      ∧ (r = .discarded ∨ (r ≠ .failure ∧ v.role ≠ .attnOwn) → a = b.attn.listed v.entry r.attn) := by
  refine ⟨fun yes => ?_, fun no => ?_, fun _ => attn⟩
  · rw [attn, yes]
    exact b.attn.mem_listed v.entry
  · rw [attn, no, AttentionList.listed_false]
    exact fun _ => id

theorem leftUncommitted_off (off : (s.entry v.entry).link = .off) (im : Image) : leftUncommitted s v im = im := by
  simp [leftUncommitted, off]

/-- The image that the pass's block leaves without a commit (R91, R10). -/
theorem imageEnd_uncommitted (uncommitted : Uncommitted s v r) (exchange : v.kind = .exchange) (pass : v.role = .pass) :
    imageEnd v r b = (.full, { b with
      images := b.images.set v.entry.val (leftUncommitted s v (b.image v.entry)) v.entry.isLt }) := by
  have cleared : r ≠ .discarded → { b with
      images := b.images.set v.entry.val (leftUncommitted s v (b.image v.entry)) v.entry.isLt } =
      b.setImage v.entry (b.image v.entry).clearFresh := fun other => by
    rw [leftUncommitted, if_pos ⟨exchange, fun off => other (uncommitted.discarded.2 off)⟩]
    rfl
  cases r with
  | good attn payload => exact absurd rfl (uncommitted.other pass exchange attn payload)
  | refused attn => rw [cleared (by nofun)]; rfl
  | failure => rw [cleared (by nofun)]; rfl
  | discarded =>
    rw [leftUncommitted_off (uncommitted.discarded.1 rfl)]
    refine congrArg (Prod.mk Course.full) ?_
    exact State.eq_of_fields rfl (Vector.set_getElem_self _).symm rfl rfl rfl rfl rfl rfl rfl rfl rfl rfl rfl rfl rfl

/-- What the pass goes on with behind a visit without a commit (R38, R91, R127). -/
def passHanded (s : State) (v : Visit) (r : VisitEnd) (b : State) : State :=
  { b with
    images := b.images.set v.entry.val (leftUncommitted s v (b.image v.entry)) v.entry.isLt
    attn := b.attn.listed v.entry r.attn }

theorem afterVisit_pass (uncommitted : Uncommitted s v r) (pass : v.role = .pass) :
    afterVisit v r b = continuePass (passHanded s v r b) := by
  simp only [afterVisit, pass]
  by_cases exchange : v.kind = .exchange
  · rw [if_pos exchange, imageEnd_uncommitted b uncommitted exchange pass, endPassVisit, appendAttention_eq]
    rfl
  · rw [if_neg exchange, endPassVisit, appendAttention_eq]
    refine congrArg continuePass (State.eq_of_fields rfl ?_ rfl rfl rfl rfl rfl rfl rfl rfl rfl rfl rfl rfl rfl)
    simp only [passHanded, leftUncommitted, exchange, false_and, if_false]
    exact (Vector.set_getElem_self _).symm

theorem passHanded_handedOn (pass : v.role = .pass) : HandedOn s v r b (passHanded s v r b) := by
  obtain ⟨appended, items, listed⟩ := listed_facts (v := v) (r := r) b rfl
  exact ⟨rfl, rfl, rfl, rfl, (if_pos pass).symm, .inl rfl, ⟨rfl, rfl, rfl, rfl, rfl, rfl⟩, rfl, appended, items, listed⟩

/-- A slot's completion by the errand unit. -/
theorem completed_handedOn (other : v.role ≠ .pass) (k : SlotIdx) (y : Slot) {a : AttentionList}
    (attn : a = b.attn.listed v.entry r.attn) : HandedOn s v r b (completed b k y a) := by
  obtain ⟨appended, items, listed⟩ := listed_facts b attn
  exact ⟨rfl, rfl, rfl, rfl, (if_neg other).symm, .inr ⟨_, _, rfl⟩, ⟨rfl, rfl, rfl, rfl, rfl, rfl⟩, rfl, appended, items,
    listed⟩

theorem listed_handedOn (other : v.role ≠ .pass) : HandedOn s v r b { b with attn := b.attn.listed v.entry r.attn } := by
  obtain ⟨appended, items, listed⟩ := listed_facts (v := v) (r := r) b rfl
  exact ⟨rfl, rfl, rfl, rfl, (if_neg other).symm, .inl rfl, ⟨rfl, rfl, rfl, rfl, rfl, rfl⟩, rfl, appended, items, listed⟩

/-- The item of the transaction removed, the answer's append behind that. -/
theorem served_handedOn (other : v.role ≠ .pass) {ev : EventUnit} (events : ev = b.events ∨ ∃ c p, ev = b.events.take c p)
    (own : r ≠ .discarded ∧ (r = .failure ∨ v.role = .attnOwn)) :
    HandedOn s v r b { b with events := ev, attn := (b.attn.remove v.entry).listed v.entry r.attn } := by
  refine ⟨rfl, rfl, rfl, rfl, (if_neg other).symm, events, ⟨rfl, rfl, rfl, rfl, rfl, rfl⟩, rfl, fun yes => ?_, fun no => ?_,
    fun unserved => ?_⟩
  · rw [yes]
    exact AttentionList.mem_listed ..
  · rw [no, AttentionList.listed_false]
    exact fun e listed => (List.mem_filter.1 listed).1
  · rcases unserved with discarded | ⟨succeeds, elsewhere⟩
    · exact absurd discarded own.1
    · exact (own.2.elim succeeds elsewhere).elim

section
variable (s r)

/-- The end of an errand's own visit: the slot completed, and the arbiter's next look. -/
theorem errandOwn_handsOn {k : SlotIdx} (role : v.role = .errandOwn k) :
    ∃ u, HandedOn s v r b u ∧ GoesOn u (afterVisit v r b) := by
  have other : v.role ≠ .pass := by rw [role]; nofun
  have failed := b.attn.listed_false v.entry
  have of_slot : v.role.slot = some k := by rw [role]; rfl
  cases r with
  | good attn payload =>
    exact ⟨_, completed_handedOn b other k _ rfl, afterVisit_errandGood b role attn payload ▸ lookAgain_goesOn _⟩
  | refused attn => exact ⟨_, completed_handedOn b other k _ rfl, afterVisit_errandRefused b role attn ▸ lookAgain_goesOn _⟩
  | failure =>
    exact ⟨_, completed_handedOn b other k _ failed.symm, afterVisit_errandFailure b of_slot ▸ lookAgain_goesOn _⟩
  | discarded =>
    exact ⟨_, completed_handedOn b other k _ failed.symm, afterVisit_errandDiscarded b of_slot ▸ lookAgain_goesOn _⟩

/-- The end of an errand's resync RESET: its own visit asked for, or the slot completed. -/
theorem errandResync_handsOn {k : SlotIdx} (role : v.role = .errandResync k) :
    ∃ u, HandedOn s v r b u ∧ GoesOn u (afterVisit v r b) := by
  have other : v.role ≠ .pass := by rw [role]; nofun
  have failed := b.attn.listed_false v.entry
  have of_slot : v.role.slot = some k := by rw [role]; rfl
  have asks : ∀ attn, GoesOn { b with attn := b.attn.listed v.entry attn }
      (requestOwn k (appendAttention v.entry attn b)) := fun attn => by
    rw [appendAttention_eq]
    exact requestOwn_goesOn ..
  cases r with
  | good attn payload =>
    refine ⟨_, listed_handedOn b other, ?_⟩
    simp only [afterVisit, role]
    exact asks attn
  | refused attn =>
    refine ⟨_, listed_handedOn b other, ?_⟩
    simp only [afterVisit, role]
    exact asks attn
  | failure =>
    exact ⟨_, completed_handedOn b other k _ failed.symm, afterVisit_errandFailure b of_slot ▸ lookAgain_goesOn _⟩
  | discarded =>
    exact ⟨_, completed_handedOn b other k _ failed.symm, afterVisit_errandDiscarded b of_slot ▸ lookAgain_goesOn _⟩

/-- The end of an ATTEND visit: the item removed, its event posted behind a GOOD answer, and the arbiter's next look. -/
theorem attnOwn_handsOn (role : v.role = .attnOwn) : ∃ u, HandedOn s v r b u ∧ GoesOn u (afterVisit v r b) := by
  have other : v.role ≠ .pass := by rw [role]; nofun
  have served : ∀ (r : VisitEnd) (ev : EventUnit), ev = b.events ∨ (∃ c p, ev = b.events.take c p) → r ≠ .discarded →
      afterVisit v r b = lookAgain { b with events := ev, attn := (b.attn.remove v.entry).listed v.entry r.attn } →
      ∃ u, HandedOn s v r b u ∧ GoesOn u (afterVisit v r b) := fun r ev events ends next =>
    ⟨_, served_handedOn b other events ⟨ends, .inr role⟩, next ▸ lookAgain_goesOn _⟩
  cases r with
  | good attn payload =>
    refine served _ (b.events.take b.seq.cycle (attentionPost v.entry payload)) (.inr ⟨_, _, rfl⟩) nofun ?_
    simp only [afterVisit, role, appendAttention_eq]
    rfl
  | refused attn =>
    refine served _ _ (.inl rfl) nofun ?_
    simp only [afterVisit, role, appendAttention_eq]
    rfl
  | failure =>
    refine served _ _ (.inl rfl) nofun ?_
    simp only [afterVisit, role, appendAttention_eq]
    rfl
  | discarded =>
    refine ⟨_, listed_handedOn b other, ?_⟩
    simp only [afterVisit, role, appendAttention_eq]
    exact lookAgain_goesOn _

/-- The end of an attention transaction's resync RESET: the ATTEND visit asked for, or the item removed. -/
theorem attnResync_handsOn (role : v.role = .attnResync) : ∃ u, HandedOn s v r b u ∧ GoesOn u (afterVisit v r b) := by
  have other : v.role ≠ .pass := by rw [role]; nofun
  cases r with
  | good attn payload =>
    refine ⟨_, listed_handedOn b other, ?_⟩
    simp only [afterVisit, role, appendAttention_eq]
    exact requestTry_goesOn ..
  | refused attn =>
    refine ⟨_, listed_handedOn b other, ?_⟩
    simp only [afterVisit, role, appendAttention_eq]
    exact requestTry_goesOn ..
  | failure =>
    refine ⟨_, served_handedOn b other (.inl rfl) ⟨nofun, .inl rfl⟩, ?_⟩
    simp only [afterVisit, role, VisitEnd.attn, AttentionList.listed_false]
    exact lookAgain_goesOn _
  | discarded =>
    refine ⟨_, listed_handedOn b other, ?_⟩
    simp only [afterVisit, role, VisitEnd.attn, AttentionList.listed_false]
    exact lookAgain_goesOn _

end

/-- The end of every visit without a commit: a part handed on, and the sequencer that goes on from it. -/
theorem afterVisit_handsOn (uncommitted : Uncommitted s v r) :
    ∃ u, HandedOn s v r b u ∧ GoesOn u (afterVisit v r b) := by
  cases role : v.role with
  | pass => exact ⟨_, passHanded_handedOn b role, afterVisit_pass b uncommitted role ▸ continuePass_goesOn _⟩
  | errandOwn k => exact errandOwn_handsOn s r b role
  | errandResync k => exact errandResync_handsOn s r b role
  | attnOwn => exact attnOwn_handsOn s r b role
  | attnResync => exact attnResync_handsOn s r b role

/-- Behind a visit of the pass the pass goes on from the next index (R37, R38). -/
theorem passHanded_goesOn (b : State) :
    PassGoesOn (b.seq.passPos.val + 1) (passHanded s v r b) (continuePass (passHanded s v r b)) :=
  passFrom_goesOn _ _

end

end Sys2Proof.Machine
end

section
/-! SUPPORT. The tries that are not accepted, and the accepted ones that make no commit. -/

namespace Sys2Proof.Machine

/-- No block but the pass's touches an image record without a commit, and that one clears no more than a fresh flag. -/
theorem HandedOn.image {s b u : State} {v : Visit} {r : VisitEnd} (handed : HandedOn s v r b u) (e : EntryIdx) :
    u.image e = { b.image e with
      fresh := if e = v.entry ∧ v.role = .pass ∧ v.kind = .exchange ∧ (s.entry v.entry).link ≠ .off then false
        else (b.image e).fresh } := by
  unfold State.image
  rw [handed.images]
  by_cases pass : v.role = .pass
  · rw [if_pos pass]
    refine (image_setImage b v.entry e _).trans ?_
    by_cases same : e = v.entry
    · simp only [same, pass, true_and, if_true]
      rfl
    · simp only [same, false_and, if_false]
      rfl
  · simp only [pass, false_and, and_false, if_false]

theorem HandedOn.entry {s b u : State} {v : Visit} {r : VisitEnd} (handed : HandedOn s v r b u) (e : EntryIdx) :
    u.entry e = b.entry e := by
  unfold State.entry
  rw [handed.roster]

/-! ### The part behind a failure, field by field -/

/-- The failure takes the link to LOST (R14). -/
abbrev Loses (s : State) (v : Visit) : Prop :=
  (s.entry v.entry).link ≠ .lost ∧ ((s.entry v.entry).failed v.kind).link = .lost

section
variable (s : State) (v : Visit) (c : Instr)

theorem behindFailure_entry (e : EntryIdx) : (behindFailure s v c).entry e =
    if e = v.entry then (s.entry v.entry).failed v.kind else s.entry e :=
  entry_setEntry s v.entry e _

theorem behindFailure_image (e : EntryIdx) : (behindFailure s v c).image e =
    if e = v.entry then
      if Loses s v ∧ (s.entry v.entry).substitute = true then
        { s.image v.entry with fresh := false, input := zeroWords, generation := (s.image v.entry).generation + 1#8 }
      else if Loses s v then { s.image v.entry with fresh := false } else s.image v.entry
    else s.image e :=
  image_setImage s v.entry e _

theorem behindFailure_outputs (e : EntryIdx) :
    ((behindFailure s v c).image e).working = (s.image e).working
      ∧ ((behindFailure s v c).image e).committed = (s.image e).committed := by
  rw [behindFailure_image]
  by_cases same : e = v.entry
  · rw [if_pos same, same]
    split
    · exact ⟨rfl, rfl⟩
    · split <;> exact ⟨rfl, rfl⟩
  · rw [if_neg same]
    exact ⟨rfl, rfl⟩

/-- The words of the entry called: the fresh flag and, where configured, the input words go with the link (R94). -/
theorem behindFailure_words :
    ((behindFailure s v c).image v.entry).fresh = (if Loses s v then false else (s.image v.entry).fresh)
      ∧ ((behindFailure s v c).image v.entry).input =
          (if Loses s v ∧ (s.entry v.entry).substitute = true then zeroWords else (s.image v.entry).input)
      ∧ ((behindFailure s v c).image v.entry).generation =
          (if Loses s v ∧ (s.entry v.entry).substitute = true then (s.image v.entry).generation + 1#8
            else (s.image v.entry).generation) := by
  rw [behindFailure_image, if_pos rfl]
  by_cases goes : Loses s v
  · by_cases substitutes : (s.entry v.entry).substitute = true
    · have both := And.intro goes substitutes
      rw [if_pos both, if_pos goes, if_pos both, if_pos both]
      exact ⟨rfl, rfl, rfl⟩
    · have not_both := fun both : Loses s v ∧ _ => substitutes both.2
      rw [if_neg not_both, if_pos goes, if_pos goes, if_neg not_both, if_neg not_both]
      exact ⟨rfl, rfl, rfl⟩
  · have not_both := fun both : Loses s v ∧ (s.entry v.entry).substitute = true => goes both.1
    rw [if_neg not_both, if_neg goes, if_neg goes, if_neg not_both, if_neg not_both]
    exact ⟨rfl, rfl, rfl⟩

theorem behindFailure_watch (n : WatchIdx) : (behindFailure s v c).watch n =
    if Loses s v ∧ (s.watch n).armed = true ∧ (s.watch n).entry.toNat = v.entry.val then
      { s.watch n with outcome := .unknown, run := 0#2 } else s.watch n :=
  Vector.getElem_map ..

theorem behindFailure_items (loses : Loses s v) : v.entry ∉ (behindFailure s v c).attn.items := by
  have attn : (behindFailure s v c).attn = s.attn.remove v.entry := if_pos loses
  rw [attn]
  simp [AttentionList.remove]

theorem tryEnded_hostDataKept (failures : Nat) : HostDataKept s (tallied failures (tryEnded s c)) :=
  .of_fields rfl rfl ⟨rfl, rfl, rfl, rfl, rfl, rfl⟩ rfl (.inl rfl)

theorem behindSuccess_hostDataKept : HostDataKept s (behindSuccess s v c) := by
  by_cases off : (s.entry v.entry).link = .off
  · rw [← discarded_ended off]
    exact tryEnded_hostDataKept s c 0
  · rw [← applySuccess_ended off]
    exact (tryEnded_hostDataKept s c 0).trans (.applySuccess ..)

theorem behindFailure_hostDataKept : HostDataKept s (behindFailure s v c) := by
  by_cases off : (s.entry v.entry).link = .off
  · rw [behindFailure_off off]
    exact behindSuccess_hostDataKept s v c
  · rw [← applyFailure_ended off]
    exact (tryEnded_hostDataKept s c 1).trans (.applyFailure ..)

end

/-! ### The last unaccepted try -/

section
variable {s : State} {v : Visit} {c : Instr} {o : TryOutcome}

/-- The visit's end as the spent budget gives it: a failure, or discarded where the entry is OFF (R10, R73). -/
def spentEnd (s : State) (v : Visit) : VisitEnd := if (s.entry v.entry).link = .off then .discarded else .failure

theorem spentEnd_uncommitted : Uncommitted s v (spentEnd s v) := by
  unfold spentEnd
  by_cases off : (s.entry v.entry).link = .off
  · exact ⟨by simp [off], by simp [off]⟩
  · exact ⟨by simp [off], by simp [off]⟩

theorem spentEnd_attn : (spentEnd s v).attn = false := by
  unfold spentEnd
  split <;> rfl

theorem exec_spent (ends : TryEnds s v c o) (unaccepted : o.Unaccepted) (spent : v.retryLimit.toNat ≤ v.unaccepted) :
    exec c s = .next (afterVisit v (spentEnd s v) (behindFailure s v c)) := by
  unfold spentEnd
  split
  next off => rw [exec_discarded ends (.inr ⟨unaccepted, spent⟩) off, behindFailure_off off]
  next on => exact exec_failure ends unaccepted spent on

end

/-- Settles O26: a retry while the budget lasts; then the roster's failure, the part handed on, and what runs on from it. -/
theorem unacceptedTriesSpendTheBudget : Obligations.UnacceptedTriesSpendTheBudget := by
  unfold Obligations.UnacceptedTriesSpendTheBudget
  intro s v c o ends unaccepted
  refine ⟨exec_retry ends unaccepted, fun spent => ?_⟩
  have next := exec_spent ends unaccepted spent
  have pass := afterVisit_pass (behindFailure s v c) (spentEnd_uncommitted (s := s) (v := v))
  obtain ⟨u, handed, on⟩ := afterVisit_handsOn (behindFailure s v c) (spentEnd_uncommitted (s := s) (v := v))
  generalize afterVisit v (spentEnd s v) (behindFailure s v c) = t at next pass on
  have runs := on.runsOn
  have image : ∀ e, t.image e = { (behindFailure s v c).image e with
      fresh := if e = v.entry ∧ v.role = .pass ∧ v.kind = .exchange ∧ (s.entry v.entry).link ≠ .off then false
        else ((behindFailure s v c).image e).fresh
      age := (t.image e).age, commitMark := (t.image e).commitMark } := fun e => by
    rw [runs.image e, handed.image e]
  refine ⟨t, _, next, ?_, rfl, ?_, fun e other => ?_, ?_, fun cycle => ?_, fun e => ?_, fun e other => ?_,
    fun lost of_lost => ?_, fun of_pass => ?_, ?_⟩
  · have engine : u.line.engine = .quiet 20 := by rw [handed.line]; rfl
    rw [runs.engine (by rw [engine]; nofun), engine]
  · rw [runs.entry, handed.entry, behindFailure_entry, if_pos rfl]
  · rw [runs.entry, handed.entry, behindFailure_entry, if_neg other]
  · exact handed.events_extended.trans runs.events
  · have tallies := on.cycle.tallies
    rw [handed.seq] at tallies
    exact tallies cycle
  · rw [image]
    exact behindFailure_outputs s v c e
  · rw [image, behindFailure_image, if_neg other, if_neg fun both => other both.1]
    exact ⟨rfl, rfl, rfl⟩
  · have loses : lost = true ↔ Loses s v := by simp [of_lost, Loses]
    obtain ⟨fresh, input, generation⟩ := behindFailure_words s v c
    refine ⟨?_, ?_, ?_, fun yes => ?_, fun n => ?_⟩
    · rw [image, fresh]
      simp only [loses, true_and]
      by_cases goes : Loses s v
      · simp only [if_pos goes, ite_self, if_pos (Or.inl goes)]
      · simp only [goes, false_or, if_false]
    · rw [image]
      simpa only [loses] using input
    · rw [image]
      simpa only [loses] using generation
    · exact fun listed => behindFailure_items s v c (loses.1 yes)
        (handed.items spentEnd_attn v.entry (runs.items ▸ listed))
    · have watch : t.watch n = (behindFailure s v c).watch n := by
        unfold State.watch
        rw [runs.watches, handed.watches]
      rw [watch, behindFailure_watch]
      simp only [loses]
  · refine ⟨_, _, rfl, rfl, ?_⟩
    rw [pass of_pass]
    have goes := passHanded_goesOn (s := s) (v := v) (r := spentEnd s v) (behindFailure s v c)
    rw [passHanded, spentEnd_attn, AttentionList.listed_false] at goes
    rw [passHanded, spentEnd_attn, AttentionList.listed_false]
    exact goes
  · exact (behindFailure_hostDataKept s v c).trans (handed.hostDataKept.trans on.hostDataKept)

end Sys2Proof.Machine
end

section
/-! SUPPORT. The evaluations of a commit as they bear on the rest of the part, and the accepted answers. -/

namespace Sys2Proof.Machine

/-! ### What an evaluation leaves (R142 to R146) -/

/-- What the evaluations of a commit leave: they write watches, output copies, the hold and the events. -/
structure Evaluated (s t : State) : Prop where
  roster : t.roster = s.roster
  attn : t.attn = s.attn
  line : t.line = s.line
  errand : t.errand = s.errand
  amid : t.amid = s.amid
  seq : t.seq = { s.seq with holdPending := t.seq.holdPending, holder := t.seq.holder }
  events : s.events.queue <+: t.events.queue
  image : ∀ e, t.image e = { s.image e with working := (t.image e).working, committed := (t.image e).committed }

theorem Evaluated.refl (s : State) : Evaluated s s :=
  ⟨rfl, rfl, rfl, rfl, rfl, rfl, List.prefix_refl _, fun _ => rfl⟩

theorem Evaluated.trans {s t u : State} (first : Evaluated s t) (second : Evaluated t u) : Evaluated s u where
  roster := second.roster.trans first.roster
  attn := second.attn.trans first.attn
  line := second.line.trans first.line
  errand := second.errand.trans first.errand
  amid := second.amid.trans first.amid
  seq := by rw [second.seq, first.seq]
  events := first.events.trans second.events
  image e := by rw [second.image e, first.image e]

theorem Evaluated.hold (n : WatchIdx) (s : State) : Evaluated s (s.setSeq (s.seq.hold n)) := by
  refine { Evaluated.refl s with seq := ?_ }
  rw [setSeq_seq]
  unfold Sequencer.hold
  split <;> rfl

theorem Evaluated.drive (w : Watch) (s : State) : Evaluated s (drive w s) := by
  unfold Machine.drive
  split
  next t _ =>
    refine { Evaluated.refl s with image := fun e => ?_ }
    rw [image_setImage]
    split
    next same => rw [same]; rfl
    next => rfl
  next => exact .refl s

theorem Evaluated.fire (n : WatchIdx) (w : Watch) (c : Bool) (o : Word) (e : EntryIdx) (s : State) :
    Evaluated s (fire n w c o e s) := by
  have posted : Evaluated s (if w.actPost then post (watchPost n c o e) s else s) :=
    rel_ite { Evaluated.refl s with events := take_queue_prefix .. } (.refl s)
  unfold Machine.fire
  dsimp only
  refine posted.trans ?_
  generalize (if w.actPost then post (watchPost n c o e) s else s) = t
  have held : Evaluated t (if w.actHold then t.setSeq (t.seq.hold n) else t) := rel_ite (.hold n t) (.refl t)
  refine held.trans ?_
  generalize (if w.actHold then t.setSeq (t.seq.hold n) else t) = u
  exact rel_ite (.drive w u) (.refl u)

theorem Evaluated.evalWatch (e : EntryIdx) (n : WatchIdx) (s : State) : Evaluated s (evalWatch e n s) := by
  have counted : ∀ w, Evaluated s (s.setWatch n w) := fun w => { Evaluated.refl s with }
  unfold Machine.evalWatch
  dsimp only
  split
  · split
    · exact .refl s
    · exact rel_ite ((counted _).trans (.fire ..)) (counted _)
  · exact .refl s

theorem Evaluated.fold (e : EntryIdx) (l : List WatchIdx) (s : State) :
    Evaluated s (l.foldl (fun x n => Machine.evalWatch e n x) s) := by
  induction l generalizing s with
  | nil => exact .refl s
  | cons n rest ih => exact (Evaluated.evalWatch e n s).trans (ih _)

theorem HostDataKept.fold (e : EntryIdx) (l : List WatchIdx) (s : State) :
    HostDataKept s (l.foldl (fun x n => Machine.evalWatch e n x) s) :=
  HostDataKept.moves.foldEvalWatch e l s

/-! ### The end of a visit by an accepted answer -/

/-- What the block that asked for a visit leaves of the part b behind the roster's act, and the append of the answer. -/
structure ActedOn (v : Visit) (r : VisitEnd) (b u : State) : Prop where
  entry : ∀ e, u.entry e = b.entry e
  tallies : u.seq.cycle = b.seq.cycle ∧ u.seq.visits = b.seq.visits ∧ u.seq.failedVisits = b.seq.failedVisits
  engine : u.line.engine = b.line.engine
  events : b.events.queue <+: u.events.queue
  host : HostDataKept b u
  appended : r.attn = true → v.entry ∈ u.attn.items
  listed : r = .discarded ∨ (r ≠ .failure ∧ v.role ≠ .attnOwn) → u.attn = b.attn.listed v.entry r.attn

theorem HandedOn.actedOn {s b u : State} {v : Visit} {r : VisitEnd} (handed : HandedOn s v r b u) : ActedOn v r b u where
  entry := handed.entry
  tallies := by rw [handed.seq]; exact ⟨rfl, rfl, rfl⟩
  engine := by rw [handed.line]
  events := handed.events_extended
  host := handed.hostDataKept
  appended := handed.appended
  listed := handed.listed

/-- The input record behind the commit of an answer (R90). -/
def committed (v : Visit) (payload : List Word) (b : State) : State :=
  b.setImage v.entry ((b.image v.entry).commitInput v.inLen.toNat payload)

/-- The part behind all 32 evaluations of a commit (R142). -/
def evaluated (v : Visit) (payload : List Word) (b : State) : State :=
  (List.finRange 32).foldl (fun x n => evalWatch v.entry n x) (committed v payload b)

theorem evaluated_kept (v : Visit) (payload : List Word) (b : State) :
    Evaluated (committed v payload b) (evaluated v payload b) := .fold ..

/-- A GOOD EXCHANGE of the pass, with no access amid its evaluations (R38, R90, R142, R127). -/
theorem afterVisit_commit {v : Visit} {attn : Bool} {payload : List Word} {b : State} (pass : v.role = .pass)
    (exchange : v.kind = .exchange) (quiet : b.amid = []) :
    afterVisit v (.good attn payload) b = continuePass { evaluated v payload b with
      attn := (evaluated v payload b).attn.listed v.entry attn } := by
  have evaluation : imageEnd v (.good attn payload) b = (.full, evaluated v payload b) := by
    change evaluate v.entry (committed v payload b) = _
    rw [evaluate_quiet v.entry (s := committed v payload b) quiet, evaluated]
  simp only [afterVisit, pass, if_pos exchange]
  rw [evaluation, endPassVisit, appendAttention_eq]
  rfl

theorem commit_actedOn (v : Visit) (attn : Bool) (payload : List Word) (b : State) :
    ActedOn v (.good attn payload) b { evaluated v payload b with
      attn := (evaluated v payload b).attn.listed v.entry attn } := by
  have kept := evaluated_kept v payload b
  have seq := kept.seq
  have host : HostDataKept b (evaluated v payload b) :=
    (HostDataKept.moves.commitInput b v.entry v.inLen.toNat payload).trans (.fold ..)
  generalize evaluated v payload b = after at kept seq host
  refine ⟨fun e => ?_, ?_, ?_, kept.events, host.trans ?_, fun yes => ?_, fun _ => ?_⟩
  · change after.roster[e.val] = b.roster[e.val]
    rw [kept.roster]
    rfl
  · change after.seq.cycle = _ ∧ after.seq.visits = _ ∧ after.seq.failedVisits = _
    rw [seq]
    exact ⟨rfl, rfl, rfl⟩
  · change after.line.engine = _
    rw [kept.line]
    rfl
  · exact .of_fields rfl rfl ⟨rfl, rfl, rfl, rfl, rfl, rfl⟩ rfl (.inl rfl)
  · obtain rfl : attn = true := yes
    exact AttentionList.mem_listed ..
  · change after.attn.listed v.entry attn = _
    rw [kept.attn]
    rfl

section
variable {s : State} {v : Visit} {c : Instr} {o : TryOutcome} {attn : Bool}

/-- The end of the visit as an accepted answer gives it. -/
structure AcceptedEnd (s : State) (v : Visit) (o : TryOutcome) (attn : Bool) (r : VisitEnd) : Prop where
  succeeds : r ≠ .failure
  off : (s.entry v.entry).link = .off → r = .discarded
  on : (s.entry v.entry).link ≠ .off →
    r.attn = attn ∧ r ≠ .discarded ∧ ∀ a payload, o = .good a payload → r = .good a payload
  commits : ∀ a payload, r = .good a payload → o = .good a payload

theorem exec_acceptedEnd (ends : TryEnds s v c o) (accepted : o.Accepted attn) :
    ∃ r, exec c s = .next (afterVisit v r (behindSuccess s v c)) ∧ AcceptedEnd s v o attn r := by
  by_cases off : (s.entry v.entry).link = .off
  · exact ⟨.discarded, exec_discarded ends (.inl ⟨attn, accepted⟩) off, nofun, fun _ => rfl, fun on => absurd off on, nofun⟩
  · rcases accepted with ⟨payload, rfl⟩ | rfl
    · exact ⟨.good attn payload, exec_good ends off, nofun, fun is_off => absurd is_off off,
        fun _ => ⟨rfl, nofun, fun a p same => by cases same; rfl⟩,
        fun a p same => by cases same; rfl⟩
    · exact ⟨.refused attn, exec_refused ends off, nofun, fun is_off => absurd is_off off,
        fun _ => ⟨rfl, nofun, nofun⟩, nofun⟩

theorem AcceptedEnd.uncommitted {r : VisitEnd} (of_end : AcceptedEnd s v o attn r) (no_commit : ¬ Commits s v o) :
    Uncommitted s v r where
  discarded := ⟨fun discarded => by_contra fun on => (of_end.on on).2.1 discarded, of_end.off⟩
  other pass exchange a payload good := no_commit
    ⟨pass, exchange, ⟨a, payload, of_end.commits a payload good⟩, fun off => by
      have := of_end.off off
      rw [good] at this
      cases this⟩

/-- The end of every accepted visit: the roster's act, the block's, and the sequencer that goes on. -/
theorem accepted_acts (ends : TryEnds s v c o) (accepted : o.Accepted attn) (quiet : Commits s v o → s.amid = []) :
    ∃ r u t, exec c s = .next t ∧ AcceptedEnd s v o attn r ∧ ActedOn v r (behindSuccess s v c) u ∧ GoesOn u t
      ∧ (¬ Commits s v o → HandedOn s v r (behindSuccess s v c) u
          ∧ (v.role = .pass → t = continuePass (passHanded s v r (behindSuccess s v c)))) := by
  obtain ⟨r, next, of_end⟩ := exec_acceptedEnd ends accepted
  by_cases commits : Commits s v o
  · obtain ⟨pass, exchange, ⟨a, payload, good⟩, on⟩ := id commits
    obtain rfl := (of_end.on on).2.2 a payload good
    have whole := afterVisit_commit (attn := a) (payload := payload) (b := behindSuccess s v c) pass exchange (quiet commits)
    exact ⟨_, _, _, next, of_end, commit_actedOn v a payload _, whole ▸ continuePass_goesOn _, fun no => absurd commits no⟩
  · have uncommitted := of_end.uncommitted commits
    obtain ⟨u, handed, on⟩ := afterVisit_handsOn (behindSuccess s v c) uncommitted
    exact ⟨r, u, _, next, of_end, handed.actedOn, on, fun _ => ⟨handed, afterVisit_pass _ uncommitted⟩⟩

end

theorem behindSuccess_entry (s : State) (v : Visit) (c : Instr) (e : EntryIdx) :
    (behindSuccess s v c).entry e = if e = v.entry then (s.entry v.entry).succeeded v.kind else s.entry e :=
  entry_setEntry s v.entry e _

/-- A success takes an entry out of LOST by a RESET alone, and never into it (R11 to R13, R18). -/
theorem succeeded_notLost {x : Entry} {k : CallKind} (reachable : k = .reset ∨ x.link ≠ .lost) :
    (x.succeeded k).link ≠ .lost := by
  unfold Entry.succeeded
  cases of_link : x.link <;> simp_all

theorem listed_items (a : AttentionList) (e : EntryIdx) (attn : Bool) :
    (a.listed e attn).items = if attn = true ∧ e ∉ a.items then a.items ++ [e] else a.items := by
  unfold AttentionList.listed
  split <;> rfl

/-- Settles O27: the roster's success, the part that the block hands on, and what runs on from it. -/
theorem acceptedAnswersReachTheRoster : Obligations.AcceptedAnswersReachTheRoster := by
  unfold Obligations.AcceptedAnswersReachTheRoster
  intro s v c o attn ends accepted quiet
  obtain ⟨r, u, t, next, of_end, acted, on, without⟩ := accepted_acts ends accepted quiet
  have runs := on.runsOn
  refine ⟨t, _, next, ?_, rfl, fun in_use reachable => ?_, fun off => ?_, fun e other => ?_, fun cycle => ?_,
    fun uncommitted => ?_, fun pass no_commit _ => ?_, ?_⟩
  · have engine : u.line.engine = .quiet 20 := acted.engine
    rw [runs.engine (by rw [engine]; nofun), engine]
  · obtain ⟨of_attn, -, -⟩ := of_end.on in_use
    have entry : u.entry v.entry = (s.entry v.entry).succeeded v.kind := by
      rw [acted.entry, behindSuccess_entry, if_pos rfl]
    refine ⟨?_, acted.events.trans runs.events, fun yes => ?_, fun other => ?_⟩
    · rw [runs.probe v.entry (by rw [entry]; exact succeeded_notLost reachable), entry]
    · rw [runs.items]
      exact acted.appended (of_attn.trans yes)
    · rw [runs.items, acted.listed (.inr ⟨of_end.succeeds, other⟩), listed_items, of_attn]
      rfl
  · have discarded := of_end.off off
    have entry : u.entry v.entry = s.entry v.entry := by
      rw [acted.entry, behindSuccess_entry, if_pos rfl, succeeded_off off]
    refine ⟨?_, ?_⟩
    · rw [runs.probe v.entry (by rw [entry, off]; nofun), entry]
    · rw [runs.items, acted.listed (.inl discarded), discarded]
      exact congrArg AttentionList.items (AttentionList.listed_false ..)
  · rw [runs.entry, acted.entry, behindSuccess_entry, if_neg other]
  · obtain ⟨same, visits, failed⟩ := acted.tallies
    obtain ⟨visits', failed'⟩ := on.cycle.tallies (cycle.trans same.symm)
    exact ⟨visits'.trans visits, failed'.trans failed⟩
  · have no_commit : ¬ Commits s v o := by
      rintro ⟨pass, exchange, ⟨a, payload, rfl⟩, in_use⟩
      rcases uncommitted with other | other | refused | off
      · exact other pass
      · exact other exchange
      · cases refused
      · exact in_use off
    obtain ⟨handed, -⟩ := without no_commit
    refine ⟨runs.watches.trans handed.watches, fun e => ⟨?_, fun cycle phase => ?_⟩⟩
    · rw [runs.image e, handed.image e]
      rfl
    · have images := (on.cycle.images (cycle.trans acted.tallies.1.symm) phase).1
      have image : t.image e = u.image e := congrArg (fun l => l[e.val]) images
      rw [image, handed.image e]
      rfl
  · obtain ⟨-, next⟩ := without no_commit
    rw [next pass]
    refine ⟨_, _, rfl, rfl, ?_⟩
    have goes := passHanded_goesOn (s := s) (v := v) (r := r) (behindSuccess s v c)
    have list : s.attn.listed v.entry r.attn =
        if (s.entry v.entry).link = .off then s.attn else s.attn.listed v.entry attn := by
      split
      next off => rw [of_end.off off]; exact AttentionList.listed_false ..
      next in_use => rw [(of_end.on in_use).1]
    rw [← list]
    exact goes
  · exact (behindSuccess_hostDataKept s v c).trans (acted.host.trans on.hostDataKept)

end Sys2Proof.Machine
end

section
/-! SUPPORT. The commit of a GOOD EXCHANGE answer, with no access amid its evaluations and with one. -/

namespace Sys2Proof.Machine

/-! ### A host write and the pass position (R33, R48 to R50) -/

/-- A run that is still going on is at the same place of the roster pass. -/
def PassKept (s t : State) : Prop := t.seq.state ≠ .running ∨ t.seq.passPos = s.seq.passPos

section
variable (s : State)

theorem runEnable_seq : (runEnable s).state.seq = s.seq := by
  unfold runEnable
  split
  · rfl
  · dsimp only
    split_ifs <;> rfl

theorem runDisable_seq : (runDisable s).state.seq = s.seq := by
  unfold runDisable
  split
  · rfl
  · dsimp only
    split_ifs <;> rfl

theorem runCommit_seq : (runCommit s).state.seq = s.seq := by
  unfold runCommit
  split <;> rfl

theorem runFreeze_seq : (runFreeze s).state.seq = s.seq := by
  unfold runFreeze
  split <;> rfl

theorem runPop_seq : (runPop s).state.seq = s.seq := by
  unfold runPop
  split <;> rfl

theorem runSubmit_seq : (runSubmit s).state.seq = s.seq := by
  unfold runSubmit
  split
  · rfl
  · split <;> simp

theorem runCancel_seq : (runCancel s).state.seq = s.seq := by
  unfold runCancel
  split
  · rfl
  · split <;> simp [Reply.only]

theorem runReleaseSlot_seq : (runReleaseSlot s).state.seq = s.seq := by
  unfold runReleaseSlot
  split
  · rfl
  · split <;> rfl

theorem runArmWatch_seq : (runArmWatch s).state.seq = s.seq := by
  unfold runArmWatch
  split
  · rfl
  · split_ifs <;> rfl

theorem runDisarmWatch_seq : (runDisarmWatch s).state.seq = s.seq := by
  unfold runDisarmWatch
  split
  · rfl
  · split_ifs <;> rfl

theorem runClearCounters_passPos : (runClearCounters s).state.seq.passPos = s.seq.passPos := by
  unfold runClearCounters
  split
  · rfl
  · split <;> rfl

variable {s}

/-- No command moves the pass position of a run that goes on (R33, R48 to R50, R176). -/
theorem runCode_passKept (running : s.seq.state = .running) (code : Nat) : PassKept s (runCode code s).state := by
  have kept : ∀ {t : State}, t.seq = s.seq → PassKept s t := fun same => .inr (by rw [same])
  unfold runCode
  split
  · exact kept (by rw [runStart, running]; rfl)
  · exact .inr (by rw [runStop, running]; rfl)
  · refine .inl ?_
    rw [runHalt, if_neg (by rw [running]; nofun)]
    nofun
  · exact kept (by rw [runRelease, if_pos (by rw [running]; nofun)]; rfl)
  · exact kept (runEnable_seq s)
  · exact kept (runDisable_seq s)
  · exact kept (runCommit_seq s)
  · exact kept (runFreeze_seq s)
  · exact kept (runPop_seq s)
  · exact kept (runSubmit_seq s)
  · exact kept (runCancel_seq s)
  · exact kept (runReleaseSlot_seq s)
  · exact kept (runArmWatch_seq s)
  · exact kept (runDisarmWatch_seq s)
  · exact .inr (runClearCounters_passPos s)
  · exact kept rfl
  · exact .inl nofun
  · exact kept rfl

theorem hostWrite_passKept (running : s.seq.state = .running) (o : Offset) (w : Word) : PassKept s (hostWrite o w s) := by
  have stored : PassKept s (storeLoc (locate o) w s) := .inr (by rw [(storeLoc_kept (locate o) w s).1])
  have fault : ∀ cause, PassKept s (accessFault o cause s) := fun _ => .inr rfl
  have port : ∀ p, PassKept s (portWrite p w s) := fun p => .inr (by unfold portWrite; split <;> rfl)
  have command : PassKept s (commandWrite w s) := runCode_passKept running (commandCode w)
  have either : ∀ (c : Prop) [Decidable c] {t u : State}, PassKept s t → PassKept s u → PassKept s (if c then t else u) :=
    fun _ _ _ _ yes no => by split <;> assumption
  unfold hostWrite
  split
  · exact fault _
  · exact fault _
  · exact either _ command (either _ (port _) (either _ (port _) (port _)))
  · exact stored
  · exact either _ (fault _) stored
  · exact either _ (fault _) stored
  · exact either _ (fault _) stored

end

/-! ### The evaluations with one access amid them (R142) -/

theorem drive_setAmid (w : Watch) (l : List Arrival) (s : State) : drive w (s.setAmid l) = (drive w s).setAmid l := by
  unfold drive
  split <;> rfl

theorem fire_setAmid (n : WatchIdx) (w : Watch) (c : Bool) (o : Word) (e : EntryIdx) (l : List Arrival) (s : State) :
    fire n w c o e (s.setAmid l) = (fire n w c o e s).setAmid l := by
  have posted : ∀ t : State, (if w.actPost then post (watchPost n c o e) (t.setAmid l) else t.setAmid l) =
      (if w.actPost then post (watchPost n c o e) t else t).setAmid l := fun t => by split <;> rfl
  have held : ∀ t : State, (if w.actHold then (t.setAmid l).setSeq ((t.setAmid l).seq.hold n) else t.setAmid l) =
      (if w.actHold then t.setSeq (t.seq.hold n) else t).setAmid l := fun t => by split <;> rfl
  have driven : ∀ t : State, (if w.actDrive then drive w (t.setAmid l) else t.setAmid l) =
      (if w.actDrive then drive w t else t).setAmid l := fun t => by
    split
    · exact drive_setAmid w l t
    · rfl
  unfold fire
  dsimp only
  rw [posted, held, driven]

/-- An evaluation's effect on a part t, given what it has found: whether it is made, and which candidate. -/
def evaluationStep (made : Bool) (candidate : Option Bool) (n : WatchIdx) (w : Watch) (o : Word) (e : EntryIdx) (t : State) :
    State :=
  if made then
    match candidate with
    | none => t
    | some c => if w.firesOn c then fire n w c o e (t.setWatch n (w.count c).raiseFires) else t.setWatch n (w.count c)
  else t

theorem evaluationStep_setAmid (made : Bool) (candidate : Option Bool) (n : WatchIdx) (w : Watch) (o : Word) (e : EntryIdx)
    (l : List Arrival) (t : State) :
    evaluationStep made candidate n w o e (t.setAmid l) = (evaluationStep made candidate n w o e t).setAmid l := by
  cases made with
  | false => rfl
  | true =>
    cases candidate with
    | none => rfl
    | some c =>
      change (if w.firesOn c then fire n w c o e ((t.setWatch n _).setAmid l) else (t.setWatch n _).setAmid l) =
        (if w.firesOn c then fire n w c o e (t.setWatch n _) else t.setWatch n _).setAmid l
      split
      · exact fire_setAmid ..
      · rfl

/-- An evaluation does not see the list of arrivals. -/
theorem evalWatch_setAmid (e : EntryIdx) (n : WatchIdx) (l : List Arrival) (s : State) :
    evalWatch e n (s.setAmid l) = (evalWatch e n s).setAmid l :=
  evaluationStep_setAmid
    (isEvaluated s e (s.watch n) && decide ((s.watch n).word.toNat < (s.entry e).inLen.toNat))
    ((s.watch n).candidateFor (wordAt (s.image e).input (s.watch n).word.toNat)) n (s.watch n)
    (wordAt (s.image e).input (s.watch n).word.toNat) e l s

/-- The evaluations of the watches in l, on a course that is full or not. -/
def evaluationsOf (e : EntryIdx) (l : List WatchIdx) (x : Course × State) : Course × State :=
  (x.1, if x.1 = .full then l.foldl (fun t n => evalWatch e n t) x.2 else x.2)

theorem foldl_evalWatch_amid (e : EntryIdx) (l : List WatchIdx) (s : State) :
    (l.foldl (fun t n => evalWatch e n t) s).amid = s.amid := (Evaluated.fold e l s).amid

/-- One place of the sequence with no access left to take. -/
theorem evaluateNext_quiet (e : EntryIdx) (n : WatchIdx) (c : Course) {s : State} (quiet : s.amid = []) :
    evaluateNext e (c, s) n = evaluationsOf e [n] (c, s) := by
  have same : s.setAmid [] = s := by rw [← quiet]; rfl
  simp only [evaluateNext, quiet, List.takeWhile_nil, List.drop_nil, takeArrivals, same, evaluationsOf, List.foldl_cons,
    List.foldl_nil]
  split <;> simp_all

/-- The places behind the last access. -/
theorem foldl_evaluateNext_quiet (e : EntryIdx) (l : List WatchIdx) (c : Course) {s : State} (quiet : s.amid = []) :
    l.foldl (evaluateNext e) (c, s) = evaluationsOf e l (c, s) := by
  induction l generalizing s with
  | nil => simp [evaluationsOf]
  | cons n rest ih =>
    rw [List.foldl_cons, evaluateNext_quiet e n c quiet, evaluationsOf]
    by_cases full : c = .full
    · rw [if_pos full, ih (by rw [foldl_evalWatch_amid, quiet])]
      simp [evaluationsOf, full]
    · rw [if_neg full, ih quiet]
      simp [evaluationsOf, full]

/-- The places before the one access. -/
theorem foldl_evaluateNext_before (e : EntryIdx) (a : Arrival) (l : List WatchIdx) (early : ∀ i ∈ l, i.val < a.passed)
    (s : State) : l.foldl (evaluateNext e) (.full, s.setAmid [a]) =
      (.full, (l.foldl (fun t n => evalWatch e n t) s).setAmid [a]) := by
  induction l generalizing s with
  | nil => rfl
  | cons n rest ih =>
    have waits : ¬ a.passed ≤ n.val := Nat.not_le.2 (early n List.mem_cons_self)
    have here : evaluateNext e (.full, s.setAmid [a]) n = (.full, (evalWatch e n s).setAmid [a]) := by
      have none_yet : (s.setAmid [a]).amid.takeWhile (fun x => decide (x.passed ≤ n.val)) = [] := by
        simp [waits]
      simp only [evaluateNext, none_yet, takeArrivals, if_true]
      exact congrArg (Prod.mk Course.full) (evalWatch_setAmid e n [a] s)
    rw [List.foldl_cons, here]
    exact ih (fun i later => early i (List.mem_cons_of_mem n later)) _

/-- The part that the one access leaves, and the course behind it. -/
def arrived (e : EntryIdx) (a : Arrival) (before : State) : Course × State :=
  (Course.full.after e (hostWrite a.offset a.value before), hostWrite a.offset a.value before)

theorem hostWrite_amid (o : Offset) (w : Word) (s : State) : (hostWrite o w s).amid = s.amid :=
  (SameInputs.moves.hostWrite o w s).2.2

/-- The place at which the one access has arrived: it is taken first. -/
theorem evaluateNext_arrival (e : EntryIdx) {a : Arrival} {n : WatchIdx} (by_then : a.passed ≤ n.val) {s : State}
    (quiet : s.amid = []) : evaluateNext e (.full, s.setAmid [a]) n = evaluateNext e (arrived e a s) n := by
  have same : s.setAmid [] = s := by rw [← quiet]; rfl
  have taken : (s.setAmid [a]).amid.takeWhile (fun x => decide (x.passed ≤ n.val)) = [a] := by simp [by_then]
  have rest : (s.setAmid [a]).setAmid ((s.setAmid [a]).amid.drop [a].length) = s := same
  rw [arrived, evaluateNext_quiet e n _ ((hostWrite_amid ..).trans quiet)]
  simp only [evaluateNext, taken, rest, takeArrivals, evaluationsOf, List.foldl_cons, List.foldl_nil]
  split <;> simp_all

theorem mem_take_finRange {m n : Nat} {i : Fin m} (early : i ∈ (List.finRange m).take n) : i.val < n := by
  obtain ⟨k, bound, rfl⟩ := List.mem_take_iff_getElem.1 early
  simp at bound ⊢
  omega

theorem head_drop_finRange {m k : Nat} {i : Fin m} {rest : List (Fin m)} (left : (List.finRange m).drop k = i :: rest) :
    i.val = k := by
  have head : (List.finRange m)[k]? = some i := by rw [← List.head?_drop, left]; rfl
  obtain ⟨bound, rfl⟩ := List.getElem?_eq_some_iff.1 head
  simp

/-- The evaluations with one access behind n of them. -/
theorem evaluate_oneArrival (e : EntryIdx) (a : Arrival) {s : State} (quiet : s.amid = []) :
    evaluate e (s.setAmid [a]) = evaluationsOf e ((List.finRange 32).drop a.passed)
      (arrived e a (((List.finRange 32).take a.passed).foldl (fun t n => evalWatch e n t) s)) := by
  have whole : (List.finRange 32).foldl (evaluateNext e) (.full, s.setAmid [a]) =
      ((List.finRange 32).drop a.passed).foldl (evaluateNext e)
        (.full, (((List.finRange 32).take a.passed).foldl (fun t n => evalWatch e n t) s).setAmid [a]) := by
    rw [← foldl_evaluateNext_before e a _ (fun i early => mem_take_finRange early), ← List.foldl_append,
      List.take_append_drop]
  have quiet' : (((List.finRange 32).take a.passed).foldl (fun t n => evalWatch e n t) s).amid = [] := by
    rw [foldl_evalWatch_amid, quiet]
  unfold evaluate
  rw [whole]
  generalize ((List.finRange 32).take a.passed).foldl (fun t n => evalWatch e n t) s = before at quiet'
  have same : before.setAmid [] = before := by rw [← quiet']; rfl
  have met_quiet : (arrived e a before).2.amid = [] := (hostWrite_amid ..).trans quiet'
  cases left : (List.finRange 32).drop a.passed with
  | nil =>
    change takeArrivals e [a] .full (before.setAmid []) = _
    rw [same]
    change arrived e a before = _
    simp [evaluationsOf]
  | cons n rest =>
    have by_then : a.passed ≤ n.val := (head_drop_finRange left).ge
    rw [List.foldl_cons, evaluateNext_arrival e by_then quiet', ← List.foldl_cons]
    have goes_on := foldl_evaluateNext_quiet e (n :: rest) (arrived e a before).1 met_quiet
    have quiet_end : (evaluationsOf e (n :: rest) (arrived e a before)).2.amid = [] := by
      unfold evaluationsOf
      split
      · rw [foldl_evalWatch_amid, met_quiet]
      · exact met_quiet
    rw [goes_on]
    generalize evaluationsOf e (n :: rest) (arrived e a before) = y at quiet_end
    obtain ⟨course, rest_of⟩ := y
    replace quiet_end : rest_of.amid = [] := quiet_end
    have same' : rest_of.setAmid [] = rest_of := by rw [← quiet_end]; rfl
    simp only [quiet_end, takeArrivals, same']

/-! ### The commit (R38, R90, R142) -/

theorem succeeded_exchange {x : Entry} (in_service : x.link.InService) :
    x.succeeded .exchange = { x with link := .online, miss := 0#4 } := by
  unfold Entry.succeeded
  rcases in_service with of_link | of_link | of_link <;> rw [of_link] <;> simp

theorem padWords_take (payload : List Word) (n : Nat) :
    padWords (payload.take n) = Vector.ofFn fun i => if i.val < n then payload.getD i.val 0#16 else 0#16 := by
  unfold padWords
  congr 1
  funext i
  by_cases below : i.val < n
  · simp [List.getD, below]
  · simp [List.getD, below]

/-- The part at the commit, before the first evaluation. -/
theorem committed_exchange {s : State} {v : Visit} (payload : List Word) (byte : Byte) (exchange : v.kind = .exchange)
    (in_service : (s.entry v.entry).link.InService) :
    committed v payload (behindSuccess s v (.answerByte byte false)) = { s with
      roster := s.roster.set v.entry.val { s.entry v.entry with link := .online, miss := 0#4 } v.entry.isLt
      images := s.images.set v.entry.val { s.image v.entry with
        input := Vector.ofFn fun i => if i.val < v.inLen.toNat then payload.getD i.val 0#16 else 0#16
        generation := (s.image v.entry).generation + 1#8, age := 0#8, fresh := true, commitMark := true } v.entry.isLt
      seq := { s.seq with visits := s.seq.visits + 1 }
      line := { s.line with engine := .quiet 20, rx := .watching, job := none }
      events := linkPosted s v.entry .online } := by
  rw [committed, behindSuccess, exchange, succeeded_exchange in_service, ← padWords_take]
  rfl

section
variable {s u : State} {v : Visit} {attn : Bool} {payload : List Word}

/-- The pass goes on behind the evaluations, from where the run stands. -/
theorem continuePass_goesOnFrom {n : EntryIdx} {w : State} (at_n : w.seq.passPos = n) :
    PassGoesOn (n.val + 1) w (continuePass w) := by
  rw [← at_n]
  exact passFrom_goesOn _ w

/-- The end of the commit's visit, by the course behind its evaluations (R142, log 6). -/
theorem afterVisit_courses {b : State} (pass : v.role = .pass) (exchange : v.kind = .exchange) :
    afterVisit v (.good attn payload) b =
      endPassVisit v (.good attn payload) (evaluate v.entry (committed v payload b)) := by
  simp only [afterVisit, pass, if_pos exchange]
  rfl

/-- With the run still going on and the entry in use the evaluations go on over what the access has left. -/
theorem endPassVisit_full {met : State} (running : met.seq.state = .running) (on : (met.entry v.entry).link ≠ .off)
    (l : List WatchIdx) :
    endPassVisit v (.good attn payload) (evaluationsOf v.entry l (Course.full.after v.entry met, met)) =
      let rest := l.foldl (fun t n => evalWatch v.entry n t) met
      continuePass { rest with attn := rest.attn.listed v.entry attn } := by
  have course : Course.full.after v.entry met = .full := by simp [Course.after, running, on]
  rw [course, evaluationsOf, endPassVisit, appendAttention_eq]
  rfl

/-- Behind a DISABLE of the entry the pass goes on (log 6). -/
theorem endPassVisit_entryOff {met : State} (running : met.seq.state = .running) (off : (met.entry v.entry).link = .off)
    (l : List WatchIdx) :
    endPassVisit v (.good attn payload) (evaluationsOf v.entry l (Course.full.after v.entry met, met)) =
      continuePass met := by
  have course : Course.full.after v.entry met = .entryOff := by simp [Course.after, running, off]
  rw [course]
  rfl

/-- Behind HALT or SOFT_RESET nothing is left to do (R51). -/
theorem endPassVisit_runEnded {met : State} (ended : met.seq.state ≠ .running) (l : List WatchIdx) :
    endPassVisit v (.good attn payload) (evaluationsOf v.entry l (Course.full.after v.entry met, met)) = met := by
  have course : Course.full.after v.entry met = .runEnded := by simp [Course.after, ended]
  rw [course]
  rfl

end

/-- The part that the evaluations find at the commit: u of the statement. -/
structure AtCommit (s : State) (v : Visit) (payload : List Word) (u : State) : Prop where
  entry : ∀ e, u.entry e = if e = v.entry then { s.entry v.entry with link := .online, miss := 0#4 } else s.entry e
  image : ∀ e, u.image e = if e = v.entry then { s.image v.entry with
      input := Vector.ofFn fun i => if i.val < v.inLen.toNat then payload.getD i.val 0#16 else 0#16
      generation := (s.image v.entry).generation + 1#8, age := 0#8, fresh := true, commitMark := true } else s.image e
  attn : u.attn = s.attn
  cycle : u.seq.cycle = s.seq.cycle
  position : u.seq.passPos = s.seq.passPos
  state : u.seq.state = s.seq.state
  held : u.resetHeld = s.resetHeld
  amid : u.amid = s.amid

/-- The commit with one access behind n of the watches: the course behind it, and what is left to do. -/
theorem commit_oneAccess {s u before met : State} {v : Visit} {attn : Bool} {payload : List Word} {n : Nat} {o : Offset}
    {w : Word} (commit : AtCommit s v payload u) (live : s.resetHeld = false) (running : s.seq.state = .running)
    (one : s.amid = [⟨n, o, w⟩])
    (of_before : before = ((List.finRange 32).take n).foldl (fun x i => evalWatch v.entry i x) { u with amid := [] })
    (write : exec (.hostWrite o w) before = .next met) :
    let t := endPassVisit v (.good attn payload) (evaluate v.entry u)
    (met.seq.state = .running → (met.entry v.entry).link ≠ .off →
        ∃ rest, rest = ((List.finRange 32).drop n).foldl (fun x i => evalWatch v.entry i x) met
          ∧ PassGoesOn (s.seq.passPos.val + 1) { rest with attn := rest.attn.listed v.entry attn } t)
      ∧ (met.seq.state = .running → (met.entry v.entry).link = .off → PassGoesOn (s.seq.passPos.val + 1) met t)
      ∧ (met.seq.state ≠ .running → t = met) := by
  have one_left : u = ({ u with amid := [] } : State).setAmid [⟨n, o, w⟩] := by
    rw [← one, ← commit.amid]
    rfl
  have kept := Evaluated.fold v.entry ((List.finRange 32).take n) { u with amid := [] }
  have host := HostDataKept.fold v.entry ((List.finRange 32).take n) { u with amid := [] }
  rw [← of_before] at kept host
  obtain ⟨-, -, -, -, -, held, -⟩ := host
  have taken : hostWrite o w before = met := by
    rw [exec_hostWrite o w (held.trans (commit.held.trans live))] at write
    exact Host.Outcome.next.inj write
  have course : evaluate v.entry u =
      evaluationsOf v.entry ((List.finRange 32).drop n) (Course.full.after v.entry met, met) := by
    rw [one_left, evaluate_oneArrival v.entry ⟨n, o, w⟩ (s := { u with amid := [] }) rfl, ← of_before, arrived, taken]
  have position : met.seq.state = .running → met.seq.passPos = s.seq.passPos := fun goes_on => by
    have running' : before.seq.state = .running := by rw [kept.seq]; exact commit.state.trans running
    have passed := (taken ▸ hostWrite_passKept running' o w : PassKept before met).resolve_left (not_not.2 goes_on)
    rw [passed, kept.seq]
    exact commit.position
  rw [course]
  refine ⟨fun goes_on in_use => ⟨_, rfl, ?_⟩, fun goes_on off => ?_, fun ended => endPassVisit_runEnded ended _⟩
  · rw [endPassVisit_full goes_on in_use]
    have rest := (Evaluated.fold v.entry ((List.finRange 32).drop n) met).seq
    refine continuePass_goesOnFrom (n := s.seq.passPos) ?_
    change (((List.finRange 32).drop n).foldl (fun t n => evalWatch v.entry n t) met).seq.passPos = _
    rw [rest]
    exact position goes_on
  · rw [endPassVisit_entryOff goes_on off]
    exact continuePass_goesOnFrom (position goes_on)

/-- Settles O28: without an access amid the evaluations, and with one by the course behind it. -/
theorem goodExchangeCommitsItsWords : Obligations.GoodExchangeCommitsItsWords := by
  unfold Obligations.GoodExchangeCommitsItsWords
  intro s bytes late v b attn payload u after live receiving job pass exchange in_service receives of_u of_after
  have ends : TryEnds s v (.answerByte b false) (.good attn payload) := ⟨live, job, bytes, late, receiving, receives⟩
  have on : (s.entry v.entry).link ≠ .off := fun off => by simp [off, LinkState.InService] at in_service
  have at_commit := (committed_exchange payload b exchange in_service).trans of_u.symm
  have commit : AtCommit s v payload u := by
    rw [of_u]
    exact ⟨fun e => entry_setEntry s v.entry e _, fun e => image_setImage s v.entry e _, rfl, rfl, rfl, rfl, rfl, rfl⟩
  have next := exec_good ends on
  refine ⟨fun quiet => ?_, fun n o w before met running one of_before write => ?_⟩
  · have of_after' : evaluated v payload (behindSuccess s v (.answerByte b false)) = after := by
      rw [of_after, evaluated, at_commit]
    have kept : Evaluated u after := by
      rw [of_after]
      exact .fold ..
    have list : after.attn = s.attn := kept.attn.trans commit.attn
    have acted := commit_actedOn v attn payload (behindSuccess s v (.answerByte b false))
    rw [afterVisit_commit (b := behindSuccess s v (.answerByte b false)) pass exchange quiet, of_after', list] at next
    rw [of_after', list] at acted
    have position : after.seq.passPos = s.seq.passPos := by rw [kept.seq, commit.position]
    have goes := continuePass_goesOn { after with attn := s.attn.listed v.entry attn }
    have passes : PassGoesOn (s.seq.passPos.val + 1) _ _ :=
      continuePass_goesOnFrom (w := { after with attn := s.attn.listed v.entry attn }) position
    generalize continuePass { after with attn := s.attn.listed v.entry attn } = t at next goes passes
    have runs := goes.runsOn
    have entry : ∀ e, t.entry e = { u.entry e with probe := (t.entry e).probe } := fun e => by
      have same : after.entry e = u.entry e := congrArg (fun l => l[e.val]) kept.roster
      rw [← same]
      exact runs.entry e
    have image : ∀ e, t.image e = { after.image e with age := (t.image e).age, commitMark := (t.image e).commitMark } :=
      runs.image
    have words := kept.image
    refine ⟨t, next, ?_, fun i => ?_, ?_, ?_, runs.watches, runs.events, image, fun cycle phase => ?_, fun yes => ?_,
      fun e other => ?_, passes, (behindSuccess_hostDataKept s v _).trans (acted.host.trans goes.hostDataKept)⟩
    · rw [entry, commit.entry, if_pos rfl]
    · rw [image, words, commit.image, if_pos rfl]
      simp
    · rw [image, words, commit.image, if_pos rfl]
    · rw [image, words, commit.image, if_pos rfl]
    · have same : t.seq.cycle = after.seq.cycle := by rw [cycle, kept.seq, commit.cycle]
      obtain ⟨images, pending, holder⟩ := goes.cycle.images same phase
      have here : t.image v.entry = after.image v.entry := congrArg (fun l => l[v.entry.val]) images
      refine ⟨images, ?_, ?_, pending, holder⟩
      · rw [here, words, commit.image, if_pos rfl]
      · rw [here, words, commit.image, if_pos rfl]
    · rw [runs.items]
      exact acted.appended yes
    · refine ⟨?_, ?_, ?_, ?_⟩
      · rw [image, words, commit.image, if_neg other]
      · rw [image, words, commit.image, if_neg other]
      · rw [image, words, commit.image, if_neg other]
      · rw [entry, commit.entry, if_neg other]
  · rw [afterVisit_courses pass exchange, at_commit] at next
    exact ⟨_, next, commit_oneAccess commit live running one of_before write⟩

end Sys2Proof.Machine
end
